-- ==== Sys2Proof/Word.lean ====
section
/-! DEFINITION. The words of the RLT codec: the widths that 00_scope.md rules R6 and R7 fix. -/

namespace Sys2Proof

/-- One sample, one byte of a stream, one beat of a data port (`SAMPLE_W` = 8, R6). -/
abbrev Byte := BitVec 8

/-- The `arg` operand of a command and the `val` of a response (`ARG_W` = `VAL_W` = 32, R7). -/
abbrev Arg := BitVec 32

/-- The `cnt` operand of a command (`CNT_W` = 5, R7). -/
abbrev Cnt := BitVec 5

/-- A command word `{op, cnt, arg}` (30_encoding.md R100). -/
abbrev CmdWord := BitVec 41

/-- A response word `{st, val}` (30_encoding.md R104). -/
abbrev RspWord := BitVec 36

end Sys2Proof
end

