-- ==== Sys2Proof/Config.lean ====
section
/-! DEFINITION. The parameters of 00_scope.md rules R6 (fixed by the source) and R7 (fixed by the spec),
and the four port depths that stay open. -/

namespace Sys2Proof

/-- Tag of a run token, `10` (R6, 30_encoding.md R92). -/
abbrev Config.tagRun : Nat := 2
/-- Tag of a literal token, `01` (R6, 30_encoding.md R92). -/
abbrev Config.tagLit : Nat := 1
/-- Width of a token tag (`TAG_W`, R6). -/
abbrev Config.tagW : Nat := 2
/-- Width of a sample (`SAMPLE_W`, R6). -/
abbrev Config.sampleW : Nat := 8
/-- Widths of the count fields of tiers 1 to 4 (R6). -/
abbrev Config.t1W : Nat := 2
abbrev Config.t2W : Nat := 4
abbrev Config.t3W : Nat := 8
abbrev Config.t4W : Nat := 16
/-- Largest count of tier 1 (R6, R171). -/
abbrev Config.t1Max : Nat := 3
/-- Largest count of tier 2 (R6, R171). -/
abbrev Config.t2Max : Nat := 18
/-- Tier 2 stores `count - 3` (R6). -/
abbrev Config.t2Bias : Nat := 3
/-- Largest count of tier 3 (R6, R171). -/
abbrev Config.t3Max : Nat := 255
/-- Smallest count (R6). -/
abbrev Config.countMin : Nat := 1
/-- Largest count, and the cap of one run (R6). -/
abbrev Config.countMax : Nat := 65535
/-- Smallest run the compressor emits (R6). -/
abbrev Config.runMin : Nat := 2
/-- The most seeds a channel stream has (`SEEDS` = min(L, 2), R6). -/
abbrev Config.seedMax : Nat := 2
/-- Largest `count` of one `write_bits` or `read_bits` (`WB_MAX`, R7). -/
abbrev Config.wbMax : Nat := 16
/-- Number of status registers, SR0 to SR3 (10_state.md R38 to R41). -/
abbrev Config.statusRegs : Nat := 4

/-- `P_DEPTH_PIN`, an OPEN parameter (R7, 92_eei_decisions.md D3). Not architectural: nothing reads it, and the
model takes each byte space as an unbounded sequence, as R7 says (log entry 4). -/
opaque Config.pDepthPin : Nat
/-- `P_DEPTH_SOUT`, an OPEN parameter that nothing reads (R7, log entry 4). -/
opaque Config.pDepthSout : Nat
/-- `P_DEPTH_SIN`, an OPEN parameter that nothing reads (R7, log entry 4). -/
opaque Config.pDepthSin : Nat
/-- `P_DEPTH_POUT`, an OPEN parameter that nothing reads (R7, log entry 4). -/
opaque Config.pDepthPout : Nat

end Sys2Proof
end

