-- ==== Sys2Proof/Syntax.lean ====
section
/-! DEFINITION. The instructions: one constructor per row of spec/opcode_table.json. Wire level (30_encoding.md
R91, R96) first, then the command level (R101, R103). A command constructor carries the raw `cnt` and `arg` of its
word, so that every 41-bit word is an instruction and the must-be-zero check of R102 is made when it executes. -/

namespace Sys2Proof

/-- An instruction of either level (00_scope.md R5). -/
inductive Instr where
  /-- `SEED b`: `bbbbbbbb`, known by its position (R201). -/
  | seed (b : Byte)
  /-- `LIT b`: `01 bbbbbbbb` (R202). -/
  | lit (b : Byte)
  /-- `RUN.T1 c`: `10 cc`, c not 0, count c (R203). -/
  | runT1 (c : BitVec 2)
  /-- `RUN.T2 c`: `10 00 cccc`, c not 0, count c + 3 (R204). -/
  | runT2 (c : BitVec 4)
  /-- `RUN.T3 c`: `10 00 0000 cccccccc`, c not 0, count c (R205). -/
  | runT3 (c : BitVec 8)
  /-- `RUN.T4 c`: `10 00 0000 00000000 cccccccccccccccc`, c not 0, count c (R206). -/
  | runT4 (c : BitVec 16)
  /-- Tag `00` at a token position (R265). -/
  | illegalTag00
  /-- Tag `11` at a token position (R265). -/
  | illegalTag11
  /-- Tag `10` and 30 zero bits at a token position (R266). -/
  | illegalZeroCount
  /-- `E_WBITS value, count` (R138): both fields are operands. -/
  | eWbits (cnt : Cnt) (arg : Arg)
  /-- `E_FLUSH` (R139): `cnt` and `arg` must be 0. -/
  | eFlush (cnt : Cnt) (arg : Arg)
  /-- `E_GETB` (R140): `cnt` and `arg` must be 0. -/
  | eGetb (cnt : Cnt) (arg : Arg)
  /-- `E_COUNT n` (R178): `cnt` must be 0, `arg` = n. -/
  | eCount (cnt : Cnt) (arg : Arg)
  /-- `E_LIT b` (R197): `cnt` must be 0, the sample is `arg[7:0]`. -/
  | eLit (cnt : Cnt) (arg : Arg)
  /-- `E_RUN n` (R198): `cnt` must be 0, `arg` = n. -/
  | eRun (cnt : Cnt) (arg : Arg)
  /-- `E_PLANE L` (R218): `cnt` must be 0, `arg` = L. -/
  | ePlane (cnt : Cnt) (arg : Arg)
  /-- `E_CLR` (R250): `cnt` and `arg` must be 0. -/
  | eClr (cnt : Cnt) (arg : Arg)
  /-- `D_RBITS count` (R156): `cnt` = count, `arg` must be 0. -/
  | dRbits (cnt : Cnt) (arg : Arg)
  /-- `D_ALIGN` (R157): `cnt` and `arg` must be 0. -/
  | dAlign (cnt : Cnt) (arg : Arg)
  /-- `D_COUNT` (R179): `cnt` and `arg` must be 0. -/
  | dCount (cnt : Cnt) (arg : Arg)
  /-- `D_TOKEN` (R199): `cnt` and `arg` must be 0. -/
  | dToken (cnt : Cnt) (arg : Arg)
  /-- `D_PLANE L` (R237): `cnt` must be 0, `arg` = L. -/
  | dPlane (cnt : Cnt) (arg : Arg)
  /-- `D_CLR` (R251): `cnt` and `arg` must be 0. -/
  | dClr (cnt : Cnt) (arg : Arg)
  /-- `RDSR k` (R252): `cnt` must be 0, `arg` = k. -/
  | rdsr (cnt : Cnt) (arg : Arg)
  /-- The reserved opcode 0 with any fields (R103). -/
  | reservedOp0 (cnt : Cnt) (arg : Arg)
deriving DecidableEq, Repr

end Sys2Proof
end

