-- ==== Sys2Proof/WellFormed.lean ====
section
/-! DEFINITION. When a term of `Instr` is an instruction its row of the opcode table describes: the count field of a
RUN token is not 0 (30_encoding.md R91) and the must-be-zero fields of a command are 0 (R101). An operand outside its
range (R262, BADARG) does not make a command ill-formed. -/

namespace Sys2Proof

/-- Why a term is no row of the opcode table. -/
inductive IllFormed where
  /-- The count field of a RUN token is 0: that spelling is the escape to the next tier, or ZEROCOUNT (R91). -/
  | zeroCountField
  /-- `cnt` must be 0 and is not (R101). -/
  | cntNotZero
  /-- `arg` must be 0 and is not (R101). -/
  | argNotZero
deriving DecidableEq, Repr

/-- The must-be-zero check of a command that uses neither field. -/
def noOperands (cnt : Cnt) (arg : Arg) : Option IllFormed :=
  if cnt ≠ 0 then some .cntNotZero else if arg ≠ 0 then some .argNotZero else none

/-- The must-be-zero check of a command that uses `arg` only. -/
def argOnly (cnt : Cnt) : Option IllFormed := if cnt ≠ 0 then some .cntNotZero else none

/-- The first check a term fails, if any. -/
def Instr.illFormed : Instr → Option IllFormed
  | .seed _ => none
  | .lit _ => none
  | .runT1 c => if c = 0 then some .zeroCountField else none
  | .runT2 c => if c = 0 then some .zeroCountField else none
  | .runT3 c => if c = 0 then some .zeroCountField else none
  | .runT4 c => if c = 0 then some .zeroCountField else none
  | .illegalTag00 => none
  | .illegalTag11 => none
  | .illegalZeroCount => none
  | .eWbits _ _ => none
  | .eFlush cnt arg => noOperands cnt arg
  | .eGetb cnt arg => noOperands cnt arg
  | .eCount cnt _ => argOnly cnt
  | .eLit cnt _ => argOnly cnt
  | .eRun cnt _ => argOnly cnt
  | .ePlane cnt _ => argOnly cnt
  | .eClr cnt arg => noOperands cnt arg
  | .dRbits _ arg => if arg ≠ 0 then some .argNotZero else none
  | .dAlign cnt arg => noOperands cnt arg
  | .dCount cnt arg => noOperands cnt arg
  | .dToken cnt arg => noOperands cnt arg
  | .dPlane cnt _ => argOnly cnt
  | .dClr cnt arg => noOperands cnt arg
  | .rdsr cnt _ => argOnly cnt
  | .reservedOp0 _ _ => none

/-- A well-formed instruction passes every check. -/
abbrev Instr.WellFormed (i : Instr) : Prop := i.illFormed = none

/-- The instructions of the wire level: what a channel stream can hold (30_encoding.md R91, R96). -/
def Instr.isWire : Instr → Bool
  | .seed _ | .lit _ | .runT1 _ | .runT2 _ | .runT3 _ | .runT4 _ => true
  | .illegalTag00 | .illegalTag11 | .illegalZeroCount => true
  | .eWbits _ _ | .eFlush _ _ | .eGetb _ _ | .eCount _ _ | .eLit _ _ | .eRun _ _ | .ePlane _ _ | .eClr _ _ => false
  | .dRbits _ _ | .dAlign _ _ | .dCount _ _ | .dToken _ _ | .dPlane _ _ | .dClr _ _ => false
  | .rdsr _ _ | .reservedOp0 _ _ => false

end Sys2Proof
end

