-- ==== Sys2Proof/Decode.lean ====
section
/-! DEFINITION. Decoding and encoding. The wire level reads bit strings, first-transmitted bit first (30_encoding.md
R90 to R96); the command level reads 41-bit words (R100 to R103). Decoding is total and rejects by name. -/

namespace Sys2Proof

/-! ### Bit strings (00_scope.md R9, R10; 20_memory.md R62, R63) -/

/-- The low `k` bits of `v`, most significant first: bit `k - 1` first and bit 0 last (R63). -/
def lowBits {w : Nat} (v : BitVec w) : Nat → List Bool
  | 0 => []
  | k + 1 => v.getLsbD k :: lowBits v k

/-- The bits of a byte in transmission order, bit 7 first (R62). -/
def byteBits (b : Byte) : List Bool := lowBits b 8

/-- `bits(S)` of R10: each byte of `S` in order, bit 7 first. -/
def bitsOf (bytes : List Byte) : List Bool := bytes.flatMap byteBits

/-- A bit string read as an unsigned integer, first bit most significant. -/
def bitsValue (bits : List Bool) : Nat := bits.foldl (fun v b => 2 * v + b.toNat) 0

/-- The next `w` bits as a field, and the bits after it; `none` if fewer than `w` are left. -/
def takeField (w : Nat) (bits : List Bool) : Option (BitVec w × List Bool) :=
  if bits.length < w then none else some (BitVec.ofNat w (bitsValue (bits.take w)), bits.drop w)

/-- Up to 8 bits as one byte, first bit at bit 7, missing bits 0 (R65). -/
def packByte (bits : List Bool) : Byte := BitVec.ofNat 8 (bitsValue ((bits ++ List.replicate 8 false).take 8))

/-- A bit string cut into bytes, the last one padded with zero bits (R65); `fuel` bounds the number of bytes. -/
def packBytesFuel : Nat → List Bool → List Byte
  | 0, _ => []
  | _ + 1, [] => []
  | fuel + 1, bit :: bits => packByte (bit :: bits) :: packBytesFuel fuel ((bit :: bits).drop 8)

/-- A bit string cut into bytes (R65). -/
def packBytes (bits : List Bool) : List Byte := packBytesFuel bits.length bits

/-! ### Rejections -/

/-- Why no instruction can be read. Not an encoding error (those are instructions of their own, R96): the bits end
inside the field named (R97), or a word is wider than a command word. -/
inductive Reject where
  /-- Fewer than 8 bits at a seed position. -/
  | shortSeed
  /-- Fewer than 2 bits at a token position. -/
  | shortTag
  /-- Fewer than 8 bits after the tag `01`. -/
  | shortSample
  /-- Fewer than 2 bits after the tag `10`. -/
  | shortCount2
  /-- Fewer than 4 bits for the tier-2 field. -/
  | shortCount4
  /-- Fewer than 8 bits for the tier-3 field. -/
  | shortCount8
  /-- Fewer than 16 bits for the tier-4 field. -/
  | shortCount16
  /-- A word of more than 41 bits is no command word (R100). -/
  | wideCommand
deriving DecidableEq, Repr

/-! ### The wire level -/

/-- At a seed position every 8 bits are a SEED (R94, R201). -/
def decodeSeed (bits : List Bool) : Except Reject Instr :=
  match takeField 8 bits with
  | none => .error .shortSeed
  | some (b, _) => .ok (.seed b)

/-- A run, after its tag: the tier is the first of the 2-, 4-, 8- and 16-bit fields that is not zero (R91, R94). -/
def decodeRun (bits : List Bool) : Except Reject Instr :=
  match takeField 2 bits with
  | none => .error .shortCount2
  | some (c2, bits) =>
    if c2 ≠ 0 then .ok (.runT1 c2) else
    match takeField 4 bits with
    | none => .error .shortCount4
    | some (c4, bits) =>
      if c4 ≠ 0 then .ok (.runT2 c4) else
      match takeField 8 bits with
      | none => .error .shortCount8
      | some (c8, bits) =>
        if c8 ≠ 0 then .ok (.runT3 c8) else
        match takeField 16 bits with
        | none => .error .shortCount16
        | some (c16, _) => if c16 ≠ 0 then .ok (.runT4 c16) else .ok .illegalZeroCount

/-- At a token position: the 2-bit tag selects LIT (`01`), RUN (`10`) or an illegal encoding (R91, R96). -/
def decodeToken (bits : List Bool) : Except Reject Instr :=
  match takeField 2 bits with
  | none => .error .shortTag
  | some (tag, rest) =>
    if tag = 0b01 then
      match takeField 8 rest with
      | none => .error .shortSample
      | some (b, _) => .ok (.lit b)
    else if tag = 0b10 then decodeRun rest
    else if tag = 0b00 then .ok .illegalTag00
    else .ok .illegalTag11

/-! ### The command level -/

/-- `op` = bits 40 to 37 (R100). -/
def opOf (word : CmdWord) : BitVec 4 := word.extractLsb' 37 4
/-- `cnt` = bits 36 to 32 (R100). -/
def cntOf (word : CmdWord) : Cnt := word.extractLsb' 32 5
/-- `arg` = bits 31 to 0 (R100). -/
def argOf (word : CmdWord) : Arg := word.extractLsb' 0 32

/-- The opcode map of R101. The one value left is `op` = 0, the reserved opcode (R103). -/
def decodeCommand (word : CmdWord) : Instr :=
  let cnt := cntOf word
  let arg := argOf word
  match (opOf word).toNat with
  | 0x1 => .eWbits cnt arg
  | 0x2 => .eFlush cnt arg
  | 0x3 => .eGetb cnt arg
  | 0x4 => .eCount cnt arg
  | 0x5 => .eLit cnt arg
  | 0x6 => .eRun cnt arg
  | 0x7 => .ePlane cnt arg
  | 0x8 => .eClr cnt arg
  | 0x9 => .dRbits cnt arg
  | 0xA => .dAlign cnt arg
  | 0xB => .dCount cnt arg
  | 0xC => .dToken cnt arg
  | 0xD => .dPlane cnt arg
  | 0xE => .dClr cnt arg
  | 0xF => .rdsr cnt arg
  | _ => .reservedOp0 cnt arg

/-! ### Both levels as one decoder -/

/-- What a decoder is given: the bits at a seed position, the bits at a token position, or a command word. Seeds and
tokens are told apart by position, not by their bits (R91). -/
inductive Source where
  | seedAt (bits : List Bool)
  | tokenAt (bits : List Bool)
  | command (word : CmdWord)
deriving DecidableEq, Repr

/-- The whole decoder. -/
def decode : Source → Except Reject Instr
  | .seedAt bits => decodeSeed bits
  | .tokenAt bits => decodeToken bits
  | .command word => .ok (decodeCommand word)

/-- A command word given as a number (30_encoding.md R108 writes it as 44 bits, the top three always 0). -/
def decodeCommandNat (w : Nat) : Except Reject Instr :=
  if w < 2 ^ 41 then .ok (decodeCommand (BitVec.ofNat 41 w)) else .error .wideCommand

/-! ### The encoder, from the same tables (R91, R101) -/

/-- `{op, cnt, arg}` (R100). -/
def commandWord (op : BitVec 4) (cnt : Cnt) (arg : Arg) : CmdWord := op ++ cnt ++ arg

/-- `n` zero bits. -/
def zeroBits (n : Nat) : List Bool := List.replicate n false

/-- The words of an instruction. -/
def encode : Instr → Source
  | .seed b => .seedAt (lowBits b 8)
  | .lit b => .tokenAt (false :: true :: lowBits b 8)
  | .runT1 c => .tokenAt (true :: false :: lowBits c 2)
  | .runT2 c => .tokenAt (true :: false :: zeroBits 2 ++ lowBits c 4)
  | .runT3 c => .tokenAt (true :: false :: zeroBits 6 ++ lowBits c 8)
  | .runT4 c => .tokenAt (true :: false :: zeroBits 14 ++ lowBits c 16)
  | .illegalTag00 => .tokenAt [false, false]
  | .illegalTag11 => .tokenAt [true, true]
  | .illegalZeroCount => .tokenAt (true :: false :: zeroBits 30)
  | .eWbits cnt arg => .command (commandWord 0x1 cnt arg)
  | .eFlush cnt arg => .command (commandWord 0x2 cnt arg)
  | .eGetb cnt arg => .command (commandWord 0x3 cnt arg)
  | .eCount cnt arg => .command (commandWord 0x4 cnt arg)
  | .eLit cnt arg => .command (commandWord 0x5 cnt arg)
  | .eRun cnt arg => .command (commandWord 0x6 cnt arg)
  | .ePlane cnt arg => .command (commandWord 0x7 cnt arg)
  | .eClr cnt arg => .command (commandWord 0x8 cnt arg)
  | .dRbits cnt arg => .command (commandWord 0x9 cnt arg)
  | .dAlign cnt arg => .command (commandWord 0xA cnt arg)
  | .dCount cnt arg => .command (commandWord 0xB cnt arg)
  | .dToken cnt arg => .command (commandWord 0xC cnt arg)
  | .dPlane cnt arg => .command (commandWord 0xD cnt arg)
  | .dClr cnt arg => .command (commandWord 0xE cnt arg)
  | .rdsr cnt arg => .command (commandWord 0xF cnt arg)
  | .reservedOp0 cnt arg => .command (commandWord 0x0 cnt arg)

/-- The bits of a source, first-transmitted (or most significant) first. -/
def Source.bits : Source → List Bool
  | .seedAt bits => bits
  | .tokenAt bits => bits
  | .command word => lowBits word 41

/-- The same source with `rest` following it in the stream; a command word stands alone. -/
def Source.followedBy (src : Source) (rest : List Bool) : Source :=
  match src with
  | .seedAt bits => .seedAt (bits ++ rest)
  | .tokenAt bits => .tokenAt (bits ++ rest)
  | .command word => .command word

/-! ### Words of the opcode table (log entry 9) -/

/-- The longest token is 32 bits (R90). -/
def longestToken : Nat := 32

/-- The bits of the number `w` as a token of `width` bits, first-transmitted bit first: the table numbers a token's
LAST bit as bit 0, so that its pattern reads as one number (RUN.T3's bits 15 to 8 are `10000000`). Zeros follow, up to
the longest token. -/
def tableBits (width w : Nat) : List Bool := lowBits (BitVec.ofNat width w) width ++ zeroBits longestToken

/-- The source a word of the table stands for. A row of 2, 4 or 10 bits comes as 8, 8 or 16 bits (whole bytes), so its
width is read from the number: 16 bits whose bits 15 to 8 are 1 are the 10 bits of LIT; 8 bits are a 2-bit tag if they
are 0 or 3, the 4 bits of RUN.T1 if they are 9, 10 or 11, the 8 bits of RUN.T2 if bits 7 to 4 are 8, and a SEED if
they are none of these (a SEED is no pattern of bits, R91). DESIGN CHOICE, log entry 9. -/
def tableSource (nbits w : Nat) : Option Source :=
  if 41 ≤ nbits then (if w < 2 ^ 41 then some (.command (BitVec.ofNat 41 w)) else none)
  else if 2 ^ nbits ≤ w then none
  else if 16 < nbits then some (.tokenAt (tableBits nbits w))
  else if 8 < nbits then some (.tokenAt (tableBits (if w / 256 = 1 then 10 else 16) w))
  else if w = 0 ∨ w = 3 then some (.tokenAt (tableBits 2 w))
  else if w = 9 ∨ w = 10 ∨ w = 11 then some (.tokenAt (tableBits 4 w))
  else if w / 16 = 8 then some (.tokenAt (tableBits 8 w))
  else some (.seedAt (tableBits 8 w))

/-- The instruction the decoder reads from a word of the opcode table. -/
def decodeTableWord (nbits w : Nat) : Option Instr :=
  match tableSource nbits w with
  | none => none
  | some src =>
    match decode src with
    | .ok i => some i
    | .error _ => none

end Sys2Proof
end

