-- ==== Sys2Proof/Machine/State.lean ====
section
/-! DEFINITION. The state of the RLT codec as plain data (10_state.md R20 to R45), the host's side of its ports, and
the reasons a step can stop. -/

namespace Sys2Proof.Machine

/-- The status codes of 30_encoding.md R105. -/
inductive Status where
  | ok | illegal | badarg | halted | underrun | badtag | zerocount | overrun
deriving DecidableEq, Repr

/-- A field of a token or of a count: what one `read_bits` of `read_token` or `decode_count` reads
(42_count_codec.md R173, 43_token_mux.md R195). -/
inductive TokField where
  /-- The 2-bit tag: the start of a token. -/
  | tag
  /-- The 8-bit sample of a literal. -/
  | sample
  /-- The 2-bit field of tier 1. -/
  | c2
  /-- The 4-bit field of tier 2. -/
  | c4
  /-- The 8-bit field of tier 3. -/
  | c8
  /-- The 16-bit field of tier 4. -/
  | c16
deriving DecidableEq, Repr

/-- What the sequencer is doing: which command is executing and where in its pseudocode it stands (46_system_commands.md
R253; a place to stand at is a `wait until` of 00_scope.md R11). MODEL's own, log entry 5. -/
inductive Activity where
  /-- No command is executing. -/
  | idle
  /-- D_RBITS in `require_bits(cnt)` (R154, R156). -/
  | dRbits (cnt : Cnt)
  /-- D_COUNT in `decode_count`, at the field `tokAt` (R173, R179). -/
  | dCount
  /-- D_TOKEN in `read_token`, at the field `tokAt` (R195, R199). -/
  | dToken
  /-- E_PLANE in `encode_plane` (R217, R219). -/
  | ePlane
  /-- D_PLANE in `decode_plane`, at a seed or at the field `tokAt` of a token (R236). -/
  | dPlane
  /-- Waiting until every byte of `SOUT` has been taken, then `respond(st, val)`. -/
  | drainSout (st : Status) (val : Arg)
  /-- Waiting until every byte of `POUT` has been taken, then `respond(st, val)`. -/
  | drainPout (st : Status) (val : Arg)
  /-- Presenting the response `{st, val}` on `rsp` until the host takes it. -/
  | respond (st : Status) (val : Arg)
deriving DecidableEq, Repr

/-- What the host does in one step of its own (20_memory.md R71; 30_encoding.md R110 to R112; 70_reset_and_hazards.md
R290), or that it lets the block move. -/
inductive HostAct where
  /-- The host does nothing: the block has its turn. -/
  | letBlockMove
  /-- Hold one more word out on `cmd`. -/
  | offerCmd (word : CmdWord)
  /-- Hold one more byte out on `pin`. -/
  | offerPin (b : Byte)
  /-- Hold one more byte out on `sin`. -/
  | offerSin (b : Byte)
  /-- Drive the level of `sin_eos`. -/
  | driveEos (level : Bool)
  /-- Drive `rsp_ready`. -/
  | driveRspReady (level : Bool)
  /-- Drive `sout_ready`. -/
  | driveSoutReady (level : Bool)
  /-- Drive `pout_ready`. -/
  | drivePoutReady (level : Bool)
  /-- Assert `rst` for one clock edge. -/
  | assertReset
deriving DecidableEq, Repr

/-- The state of the machine: the table of 10_state.md R45, the place the sequencer stands at, and the host's side of
the ports (fields `h…`). -/
structure State where
  /-- `BW.acc` (R22). -/
  bwAcc : Byte
  /-- `BW.free` (R23). -/
  bwFree : BitVec 3
  /-- `SOUT` (R25). -/
  sout : List Byte
  /-- `PIN` (R26). -/
  pin : List Byte
  /-- `CC.len` (R27). -/
  ccLen : BitVec 32
  /-- `CC.i` (R27). -/
  ccI : BitVec 32
  /-- `SIN` (R28). -/
  sin : List Byte
  /-- `BR.idx` (R29). -/
  brIdx : Nat
  /-- `BR.cur` (R30). -/
  brCur : Byte
  /-- `BR.left` (R31). -/
  brLeft : BitVec 3
  /-- `BR.closed` (R32). -/
  brClosed : Bool
  /-- `CX.len` (R33). -/
  cxLen : BitVec 32
  /-- `CX.n` (R33). -/
  cxN : BitVec 32
  /-- `CX.last` (R34). -/
  cxLast : Byte
  /-- `POUT` (R35). -/
  pout : List Byte
  /-- `DERR` (R37). -/
  derr : Bool
  /-- `DCODE` (R37). -/
  dcode : BitVec 4
  /-- `SEQ.busy` (R42). -/
  seqBusy : Bool
  /-- Where the sequencer stands (log entry 5). -/
  activity : Activity
  /-- The field a waiting read of a token or count is at (log entry 5). -/
  tokAt : TokField
  /-- Bytes of `SOUT` taken on `sout` (20_memory.md R70, log entry 6). -/
  soutTaken : Nat
  /-- Bytes of `POUT` taken on `pout` (20_memory.md R70, log entry 6). -/
  poutTaken : Nat
  /-- Host: words held out on `cmd`, the one on `cmd_word` first. -/
  hCmd : List CmdWord
  /-- Host: bytes held out on `pin`, the one on `pin_data` first. -/
  hPin : List Byte
  /-- Host: bytes held out on `sin`, the one on `sin_data` first. -/
  hSin : List Byte
  /-- Host: the level of `sin_eos`. -/
  hEos : Bool
  /-- Host: the level of `rsp_ready`. -/
  hRspReady : Bool
  /-- Host: the level of `sout_ready`. -/
  hSoutReady : Bool
  /-- Host: the level of `pout_ready`. -/
  hPoutReady : Bool
  /-- Host: every byte it has taken on `sout`. -/
  hSoutGot : List Byte
  /-- Host: every byte it has taken on `pout`. -/
  hPoutGot : List Byte
  /-- Host: every response it has taken on `rsp`. -/
  hRspGot : List RspWord
  /-- Who moves next: the host's actions to come; the block moves when the list is empty (log entries 1 and 3). -/
  hScript : List HostAct
deriving DecidableEq, Repr

/-- The reasons the machine can stop. The spec has none (its rejections and faults are responses, R260, and are next
states here); both are unreachable and safe. -/
inductive Fault where
  /-- `MemRead(SIN, a, 1)` with `a >= |SIN|`, which R11 leaves undefined and R152 never issues. Raised by `readField`;
  `Laws/Reader.lean` proves that it never is. Safe (log entry 10). -/
  | sinReadPastEnd
  /-- A command constructor where the wire level expects a token. Raised by `execWire`; the token decoder yields none.
  Safe (log entry 10). -/
  | commandOnWire
deriving DecidableEq, Repr

/-- The reasons an instruction has no meaning here. -/
inductive Refusal where
  /-- An instruction that is not modelled yet: raised by `exec` only, by no arm of this model. Safe. -/
  | notModelled (mnemonic : String)
deriving DecidableEq, Repr

/-- The state after reset: the table of R45, all zeros and empty sequences; a host that holds out nothing and drives
every level low (log entry 2). -/
def State.reset : State where
  bwAcc := 0
  bwFree := 0
  sout := []
  pin := []
  ccLen := 0
  ccI := 0
  sin := []
  brIdx := 0
  brCur := 0
  brLeft := 0
  brClosed := false
  cxLen := 0
  cxN := 0
  cxLast := 0
  pout := []
  derr := false
  dcode := 0
  seqBusy := false
  activity := .idle
  tokAt := .tag
  soutTaken := 0
  poutTaken := 0
  hCmd := []
  hPin := []
  hSin := []
  hEos := false
  hRspReady := false
  hSoutReady := false
  hPoutReady := false
  hSoutGot := []
  hPoutGot := []
  hRspGot := []
  hScript := []

end Sys2Proof.Machine
end

