-- ==== Sys2Proof/Machine/Flags.lean ====
section
/-! DEFINITION. Status codes, response words and the status registers SR0 to SR3: every flag image the spec gives
(30_encoding.md R104, R105; 10_state.md R36 to R41). The block has no arithmetic condition codes (R36). -/

namespace Sys2Proof.Machine

/-- The code of a status (R105). -/
def statusCode : Status → BitVec 4
  | .ok => 0
  | .illegal => 1
  | .badarg => 2
  | .halted => 3
  | .underrun => 4
  | .badtag => 5
  | .zerocount => 6
  | .overrun => 7

/-- The response word `{st, val}` (R104). -/
def rspWord (st : Status) (val : Arg) : RspWord := statusCode st ++ val

/-- SR0 STATUS: `{zext_15(0), BR.closed, 0b0, BR.left, 0b0, BW.free, DCODE, 0b000, DERR}` (R38). -/
def sr0 (s : State) : BitVec 32 :=
  (0 : BitVec 15) ++ BitVec.ofBool s.brClosed ++ (0 : BitVec 1) ++ s.brLeft ++ (0 : BitVec 1) ++ s.bwFree ++ s.dcode
    ++ (0 : BitVec 3) ++ BitVec.ofBool s.derr

/-- SR1 BW_ACC (R39). -/
def sr1 (s : State) : BitVec 32 := s.bwAcc.setWidth 32

/-- SR2 BR_CUR (R40). -/
def sr2 (s : State) : BitVec 32 := s.brCur.setWidth 32

/-- SR3 CX_LAST (R41). -/
def sr3 (s : State) : BitVec 32 := s.cxLast.setWidth 32

/-- `SR[k]`; register numbers above 3 name no register (R41, R252). -/
def statusRegister (s : State) (k : Arg) : Option (BitVec 32) :=
  match k.toNat with
  | 0 => some (sr0 s)
  | 1 => some (sr1 s)
  | 2 => some (sr2 s)
  | 3 => some (sr3 s)
  | _ => none

end Sys2Proof.Machine
end

