-- ==== Sys2Proof/Machine/Ops.lean ====
section
/-! DEFINITION. The named operations over the byte spaces and the registers: the bit writer (40_bit_writer.md), the bit
reader (41_bit_reader.md), the end of a command (response, rejection, fault entry and the way out of the halted state,
60_exceptions.md), and the ports (30_encoding.md R110 to R112). -/

namespace Sys2Proof.Machine

/-! ### Byte spaces (20_memory.md R60, R61) -/

/-- `MemRead(SPACE, a, 1)`, defined only for `a < |SPACE|` (00_scope.md R11). -/
def memRead (space : List Byte) (a : Nat) : Option Byte := space[a]?

/-! ### Bit writer (40_bit_writer.md) -/

/-- The number `f` of bits filled in the partial byte (10_state.md R24). -/
def filled (s : State) : Nat := if s.bwFree = 0 then 0 else 8 - s.bwFree.toNat

/-- `put_bit(b)` (R131). -/
def putBit (b : Bool) (s : State) : State :=
  let f := filled s
  let acc := s.bwAcc ||| ((BitVec.ofBool b).setWidth 8 <<< (7 - f))
  if f = 7 then { s with sout := s.sout ++ [acc], bwAcc := 0, bwFree := 0 }
  else { s with bwAcc := acc, bwFree := BitVec.ofNat 3 (7 - f) }

/-- `write_bits(value, count)`: bits `count - 1` down to 0 of `value` (R132). -/
def writeBits (value : Arg) : Nat → State → State
  | 0, s => s
  | k + 1, s => writeBits value k (putBit (value.getLsbD k) s)

/-- `flush()` (R136). -/
def flush (s : State) : State :=
  if s.bwFree ≠ 0 then { s with sout := s.sout ++ [s.bwAcc], bwAcc := 0, bwFree := 0 } else s

/-- `get_bytes()`: flush, then the accumulated sequence (R137). -/
def getBytes (s : State) : List Byte × State := ((flush s).sout, flush s)

/-- What a fresh bit buffer holds: every piece of ENC state at its reset value (46_system_commands.md R250). -/
def clearEncoder (s : State) : State :=
  { s with bwAcc := 0, bwFree := 0, sout := [], pin := [], ccLen := 0, ccI := 0, soutTaken := 0 }

/-! ### Bit reader (41_bit_reader.md) -/

/-- `BR.pos`, the token fetch pointer `pc`: the number of bits read or discarded (10_state.md R31). -/
def bitPos (s : State) : Nat := 8 * s.brIdx - s.brLeft.toNat

/-- `avail`: the bits supplied that have not been read or discarded (R151). -/
def avail (s : State) : Nat := 8 * (s.sin.length - s.brIdx) + s.brLeft.toNat

/-- `get_bit()` (R152); `none` where it would read past the end of `SIN`, which R152 excludes. -/
def getBit (s : State) : Option (Bool × State) :=
  if s.brLeft = 0 then
    match memRead s.sin s.brIdx with
    | none => none
    | some b => some (b.getLsbD 7, { s with brCur := b, brIdx := s.brIdx + 1, brLeft := 7 })
  else some (s.brCur.getLsbD (s.brLeft.toNat - 1), { s with brLeft := s.brLeft - 1 })

/-- The loop of `read_bits`: `v <- (v << 1) | get_bit()`, `count` times (R153). -/
def readGroup (v : Nat) : Nat → State → Option (Nat × State)
  | 0, s => some (v, s)
  | count + 1, s =>
    match getBit s with
    | none => none
    | some (b, s') => readGroup (2 * v + b.toNat) count s'

/-- What `require_bits` finds (R154). -/
inductive Supply where
  | enough | waits | underrun
deriving DecidableEq, Repr

/-- `require_bits(count)`: go on, wait for the host, or raise UNDERRUN (R154). -/
def requireBits (count : Nat) (s : State) : Supply :=
  if count ≤ avail s then .enough else if s.brClosed then .underrun else .waits

/-- How a read ends: with a value; at a wait, to be taken up again when the host has acted; in `raise F(info)`; or past
the end of `SIN` (never). The state is the one the completed steps have made. -/
inductive Read (α : Type) where
  | done (a : α) (s : State)
  | waits (s : State)
  | raises (st : Status) (info : Arg) (s : State)
  | pastEnd

/-- Go on with the value read. -/
def Read.andThen {α β : Type} (r : Read α) (k : α → State → Read β) : Read β :=
  match r with
  | .done a s => k a s
  | .waits s => .waits s
  | .raises st info s => .raises st info s
  | .pastEnd => .pastEnd

/-- `read_bits(count)`: all `count` bits or none (R153, R154). -/
def readField (count : Nat) (s : State) : Read Nat :=
  match requireBits count s with
  | .waits => .waits s
  | .underrun => .raises .underrun (BitVec.ofNat 32 count) s
  | .enough =>
    match readGroup 0 count s with
    | none => .pastEnd
    | some (v, s') => .done v s'

/-- `align()` (R155). -/
def align (s : State) : State := { s with brLeft := 0 }

/-- The bits not yet read, as far as the longest token reaches: what is left of `BR.cur`, then `SIN` from `BR.idx` on. -/
def unread (s : State) : List Bool := lowBits s.brCur s.brLeft.toNat ++ bitsOf ((s.sin.drop s.brIdx).take 4)

/-! ### The end of a command (46_system_commands.md R254; 60_exceptions.md R260 to R269) -/

/-- `respond(st, val)`: present the response word. -/
def respond (st : Status) (val : Arg) (s : State) : State := { s with activity := .respond st val }

/-- `reject st`: the response `{st, 0}` and no other change (R260). -/
def reject (st : Status) (s : State) : Host.Outcome State Fault Refusal := .next (respond st 0 s)

/-- `wait until every byte appended to SOUT has been taken on sout`, then `respond(st, val)`. -/
def respondAfterSout (st : Status) (val : Arg) (s : State) : State := { s with activity := .drainSout st val }

/-- `wait until every byte appended to POUT has been taken on pout`, then `respond(st, val)`. -/
def respondAfterPout (st : Status) (val : Arg) (s : State) : State := { s with activity := .drainPout st val }

/-- FAULT ENTRY, `raise F(info)` (R268): `DERR` and `DCODE` set, the output delivered, the response `{code(F), info}`;
all other state as the steps before the raise made it. -/
def faultEntry (st : Status) (info : Arg) (s : State) : State :=
  respondAfterPout st info { s with derr := true, dcode := statusCode st, tokAt := .tag }

/-- THE WAY OUT of the halted state (R269): every piece of DEC state at its reset value (R251). -/
def clearDecoder (s : State) : State :=
  { s with
    sin := [], brIdx := 0, brCur := 0, brLeft := 0, brClosed := false, cxLen := 0, cxN := 0, cxLast := 0, pout := [],
    derr := false, dcode := 0, tokAt := .tag, poutTaken := 0 }

/-- The end of a read inside a command: go on, wait, or take the fault (R254, R268). -/
def Read.toOutcome {α : Type} (r : Read α) (k : α → State → Host.Outcome State Fault Refusal) :
    Host.Outcome State Fault Refusal :=
  match r with
  | .done a s => k a s
  | .waits s => .next s
  | .raises st info s => .next (faultEntry st info s)
  | .pastEnd => .fault .sinReadPastEnd

/-! ### Ports (30_encoding.md R110 to R112; 20_memory.md R70) -/

/-- `cmd_ready` (R111). -/
def cmdReady (s : State) : Bool := !s.seqBusy
/-- `pin_ready`: an E_PLANE is running and has accepted fewer than L bytes (R111). -/
def pinReady (s : State) : Bool := s.activity = .ePlane ∧ s.pin.length < s.ccLen.toNat
/-- `sin_ready`: 0 while closed (R111); the model's input buffer always has room (R7, log entry 4). -/
def sinReady (s : State) : Bool := !s.brClosed
/-- `sout_data` while `sout_valid`: the next byte of `SOUT` not yet taken (R70). -/
def soutData (s : State) : Option Byte := s.sout[s.soutTaken]?
/-- `pout_data` while `pout_valid`: the next byte of `POUT` not yet taken (R70). -/
def poutData (s : State) : Option Byte := s.pout[s.poutTaken]?
/-- `rsp_word` while `rsp_valid` (R104, R253). -/
def rspData (s : State) : Option RspWord :=
  match s.activity with
  | .respond st val => some (rspWord st val)
  | .idle | .dRbits _ | .dCount | .dToken | .ePlane | .dPlane | .drainSout _ _ | .drainPout _ _ => none

/-- The close action: `sin_eos` = 1 and `sin_valid` = 0 set `BR.closed`, and nothing else (R112). -/
def closeInput (s : State) : State := if s.hEos && s.hSin.isEmpty then { s with brClosed := true } else s

/-- One clock edge on `sin`: a byte is accepted if one is offered and the input is open; else the close (R111, R112). -/
def sinBeat (s : State) : State :=
  match s.hSin with
  | [] => closeInput s
  | b :: rest => if sinReady s then { s with sin := s.sin ++ [b], hSin := rest } else s

/-- One clock edge on `sout` (R70). -/
def soutBeat (s : State) : State :=
  match soutData s with
  | none => s
  | some b => if s.hSoutReady then { s with soutTaken := s.soutTaken + 1, hSoutGot := s.hSoutGot ++ [b] } else s

/-- One clock edge on `pout` (R70). -/
def poutBeat (s : State) : State :=
  match poutData s with
  | none => s
  | some b => if s.hPoutReady then { s with poutTaken := s.poutTaken + 1, hPoutGot := s.hPoutGot ++ [b] } else s

/-- One clock edge on the data ports; no rule orders `sout` and `pout` (R70). -/
def portBeats (s : State) : State := poutBeat (soutBeat (sinBeat s))

/-- Reset: the block at its initial state, whatever it was doing; offers not yet accepted are lost; the host's levels,
what it has received and what it will do are the host's (70_reset_and_hazards.md R290, log entry 2). -/
def resetBlock (s : State) : State :=
  { State.reset with
    hEos := s.hEos, hRspReady := s.hRspReady, hSoutReady := s.hSoutReady, hPoutReady := s.hPoutReady,
    hSoutGot := s.hSoutGot, hPoutGot := s.hPoutGot, hRspGot := s.hRspGot, hScript := s.hScript }

/-- One step of the host (20_memory.md R71). -/
def hostAct (a : HostAct) (s : State) : State :=
  match a with
  | .letBlockMove => s
  | .offerCmd word => { s with hCmd := s.hCmd ++ [word] }
  | .offerPin b => { s with hPin := s.hPin ++ [b] }
  | .offerSin b => { s with hSin := s.hSin ++ [b] }
  | .driveEos level => closeInput { s with hEos := level }
  | .driveRspReady level => { s with hRspReady := level }
  | .driveSoutReady level => { s with hSoutReady := level }
  | .drivePoutReady level => { s with hPoutReady := level }
  | .assertReset => resetBlock s

/-- Whose turn it is, and the state it starts from or leads to. -/
inductive Turn where
  /-- The host has moved. -/
  | host (s : State)
  /-- The block moves from here: the data ports have had their clock edge. -/
  | block (s : State)

/-- Who moves next (log entries 1 and 3). -/
def turn (s : State) : Turn :=
  match s.hScript with
  | [] => .block (portBeats s)
  | .letBlockMove :: rest => .block (portBeats { s with hScript := rest })
  | a :: rest => .host (hostAct a { s with hScript := rest })

/-- Acceptance of the command word at the head of `hCmd`: `SEQ.busy` <- 1 (46_system_commands.md R253). -/
def acceptCommand (rest : List CmdWord) (s : State) : State := { s with hCmd := rest, seqBusy := true }

/-- The host takes the response: `SEQ.busy` <- 0 (46_system_commands.md R253). -/
def completeCommand (st : Status) (val : Arg) (s : State) : State :=
  { s with activity := .idle, seqBusy := false, hRspGot := s.hRspGot ++ [rspWord st val] }

end Sys2Proof.Machine
end

