-- ==== Sys2Proof/Machine/Operands.lean ====
section
/-! DEFINITION. The operands: the ranges of command operands (60_exceptions.md R262), the count a run token stands for
(30_encoding.md R95), the payload of a token response (R106), and the fields each token is read in (R94). -/

namespace Sys2Proof.Machine

/-! ### Command operands -/

/-- A must-be-zero field that is not zero, for a command that uses neither field (30_encoding.md R101, R102). -/
def anyField (cnt : Cnt) (arg : Arg) : Bool := cnt ≠ 0 ∨ arg ≠ 0

/-- The `cnt` of E_WBITS and D_RBITS is out of range above `WB_MAX` (R262). -/
def groupTooWide (cnt : Cnt) : Bool := Config.wbMax < cnt.toNat

/-- The `arg` of E_COUNT is out of range outside 1 to 65535 (R262). -/
def badCount (arg : Arg) : Bool := arg = 0 ∨ Config.countMax < arg.toNat

/-- The `arg` of E_RUN is out of range outside 2 to 65535 (R262). -/
def badRun (arg : Arg) : Bool := arg.toNat < Config.runMin ∨ Config.countMax < arg.toNat

/-! ### Token operands -/

/-- The count of RUN.T1 is its field (R95). -/
def countT1 (c : BitVec 2) : Nat := c.toNat
/-- The count of RUN.T2 is its field plus the bias 3 (R95). -/
def countT2 (c : BitVec 4) : Nat := c.toNat + Config.t2Bias
/-- The count of RUN.T3 is its field (R95). -/
def countT3 (c : BitVec 8) : Nat := c.toNat
/-- The count of RUN.T4 is its field (R95). -/
def countT4 (c : BitVec 16) : Nat := c.toNat

/-- What `read_token` returns (43_token_mux.md R195). -/
inductive TokenRead where
  | lit (b : Nat)
  | run (n : Nat)
deriving DecidableEq, Repr

/-- The `val` of a D_TOKEN response: `val[17:16]` the tag, `val[15:0]` the payload (30_encoding.md R106). -/
def tokenVal : TokenRead → Arg
  | .lit b => (0 : BitVec 14) ++ (1 : BitVec 2) ++ BitVec.ofNat 16 b
  | .run n => (0 : BitVec 14) ++ (2 : BitVec 2) ++ BitVec.ofNat 16 n

/-! ### The fields of a token -/

/-- The width of a field (R94). -/
def fieldWidth : TokField → Nat
  | .tag => Config.tagW
  | .sample => Config.sampleW
  | .c2 => Config.t1W
  | .c4 => Config.t2W
  | .c8 => Config.t3W
  | .c16 => Config.t4W

/-- The bits of a token that come before a field: the tag, and the zero fields of the lower tiers (R91). -/
def bitsBefore : TokField → List Bool
  | .tag => []
  | .sample => [false, true]
  | .c2 => [true, false]
  | .c4 => true :: false :: zeroBits 2
  | .c8 => true :: false :: zeroBits 6
  | .c16 => true :: false :: zeroBits 14

/-- The fields of a literal (R91). -/
def litFields : List TokField := [.tag, .sample]
/-- The fields of a run of each tier (R91). -/
def runFieldsT1 : List TokField := [.tag, .c2]
def runFieldsT2 : List TokField := [.tag, .c2, .c4]
def runFieldsT3 : List TokField := [.tag, .c2, .c4, .c8]
def runFieldsT4 : List TokField := [.tag, .c2, .c4, .c8, .c16]

/-- The fields up to and with the one the bits end in. -/
def rejectFields : Reject → List TokField
  | .shortSeed => []
  | .shortTag => [.tag]
  | .shortSample => litFields
  | .shortCount2 => runFieldsT1
  | .shortCount4 => runFieldsT2
  | .shortCount8 => runFieldsT3
  | .shortCount16 => runFieldsT4
  | .wideCommand => []

/-- Read one field; a wait is marked with the field it is at (log entry 5). -/
def readAt (f : TokField) (s : State) : Read Nat :=
  match readField (fieldWidth f) s with
  | .done v s' => .done v s'
  | .waits s' => .waits { s' with tokAt := f }
  | .raises st info s' => .raises st info s'
  | .pastEnd => .pastEnd

/-- Read the fields of a list in turn; their values are the instruction's operands, which the fetch has seen. -/
def readFields : List TokField → State → Read Unit
  | [], s => .done () s
  | f :: fs, s => (readAt f s).andThen fun _ s' => readFields fs s'

/-- Read what is left of a token: its fields from `tokAt` on. Afterwards the reader is at a token boundary. -/
def consumeToken (fields : List TokField) (s : State) : Read Unit :=
  (readFields (fields.dropWhile (· != s.tokAt)) s).andThen fun _ s' => .done () { s' with tokAt := .tag }

end Sys2Proof.Machine
end

