-- ==== Sys2Proof/Machine/BitReader.lean ====
section
/-! DEFINITION. The Bit Reader's commands D_RBITS, D_ALIGN (41_bit_reader.md R156, R157). -/

namespace Sys2Proof.Machine

/-- D_RBITS from its `read_bits` on: entered when it starts and again after a wait (R154, R156). -/
def runRbits (cnt : Cnt) (s : State) : Host.Outcome State Fault Refusal :=
  (readField cnt.toNat s).toOutcome fun v s' => .next (respond .ok (BitVec.ofNat 32 v) s')

/-- D_RBITS count (R156). -/
def execDRbits (cnt : Cnt) (arg : Arg) (s : State) : Host.Outcome State Fault Refusal :=
  if arg ≠ 0 then reject .illegal s
  else if s.derr then reject .halted s
  else if groupTooWide cnt then reject .badarg s
  else runRbits cnt { s with activity := .dRbits cnt }

/-- D_ALIGN (R157). -/
def execDAlign (cnt : Cnt) (arg : Arg) (s : State) : Host.Outcome State Fault Refusal :=
  if anyField cnt arg then reject .illegal s
  else if s.derr then reject .halted s
  else .next (respond .ok 0 (align s))

end Sys2Proof.Machine
end

