-- ==== Sys2Proof/Machine/BitWriter.lean ====
section
/-! DEFINITION. The Bit Writer's commands E_WBITS, E_FLUSH, E_GETB (40_bit_writer.md R138 to R140). -/

namespace Sys2Proof.Machine

/-- E_WBITS value, count (R138). -/
def execEWbits (cnt : Cnt) (arg : Arg) (s : State) : Host.Outcome State Fault Refusal :=
  if groupTooWide cnt then reject .badarg s
  else .next (respondAfterSout .ok 0 (writeBits arg cnt.toNat s))

/-- E_FLUSH (R139). -/
def execEFlush (cnt : Cnt) (arg : Arg) (s : State) : Host.Outcome State Fault Refusal :=
  if anyField cnt arg then reject .illegal s
  else .next (respondAfterSout .ok 0 (flush s))

/-- E_GETB (R140): the result is `SOUT`, which the port delivers; the response marks it complete. -/
def execEGetb (cnt : Cnt) (arg : Arg) (s : State) : Host.Outcome State Fault Refusal :=
  if anyField cnt arg then reject .illegal s
  else .next (respondAfterSout .ok 0 (getBytes s).2)

end Sys2Proof.Machine
end

