-- ==== Sys2Proof/Machine/CountCodec.lean ====
section
/-! DEFINITION. The Count Encoder and Count Decoder and their commands E_COUNT, D_COUNT (42_count_codec.md). -/

namespace Sys2Proof.Machine

/-- `encode_count(n)`, 1 <= n <= 65535: the count in its lowest tier (R172). -/
def encodeCount (n : Arg) (s : State) : State :=
  if n.toNat ≤ Config.t1Max then writeBits n Config.t1W s
  else if n.toNat ≤ Config.t2Max then
    writeBits (n - BitVec.ofNat 32 Config.t2Bias) Config.t2W (writeBits 0 Config.t1W s)
  else if n.toNat ≤ Config.t3Max then
    writeBits n Config.t3W (writeBits 0 Config.t2W (writeBits 0 Config.t1W s))
  else
    writeBits n Config.t4W (writeBits 0 Config.t3W (writeBits 0 Config.t2W (writeBits 0 Config.t1W s)))

/-- `decode_count()` at its 16-bit field: an all-zero count raises ZEROCOUNT (R173, R174). -/
def decodeCountC16 (s : State) : Read Nat :=
  (readAt .c16 s).andThen fun v s' => if v ≠ 0 then .done v s' else .raises .zerocount 0 s'

/-- `decode_count()` at its 8-bit field (R173). -/
def decodeCountC8 (s : State) : Read Nat :=
  (readAt .c8 s).andThen fun v s' => if v ≠ 0 then .done v s' else decodeCountC16 s'

/-- `decode_count()` at its 4-bit field, the biased tier (R173). -/
def decodeCountC4 (s : State) : Read Nat :=
  (readAt .c4 s).andThen fun v s' => if v ≠ 0 then .done (v + Config.t2Bias) s' else decodeCountC8 s'

/-- `decode_count()` (R173). -/
def decodeCount (s : State) : Read Nat :=
  (readAt .c2 s).andThen fun v s' => if v ≠ 0 then .done v s' else decodeCountC4 s'

/-- `decode_count()` from the field it stands at: its start, or the field at which it waited. -/
def resumeCount (s : State) : Read Nat :=
  match s.tokAt with
  | .tag => decodeCount s
  | .sample => decodeCount s
  | .c2 => decodeCount s
  | .c4 => decodeCountC4 s
  | .c8 => decodeCountC8 s
  | .c16 => decodeCountC16 s

/-- D_COUNT from where it stands (R179). -/
def runCount (s : State) : Host.Outcome State Fault Refusal :=
  (resumeCount s).toOutcome fun n s' => .next (respond .ok (BitVec.ofNat 32 n) { s' with tokAt := .tag })

/-- E_COUNT n (R178). -/
def execECount (cnt : Cnt) (arg : Arg) (s : State) : Host.Outcome State Fault Refusal :=
  if cnt ≠ 0 then reject .illegal s
  else if badCount arg then reject .badarg s
  else .next (respondAfterSout .ok 0 (encodeCount arg s))

/-- D_COUNT (R179). -/
def execDCount (cnt : Cnt) (arg : Arg) (s : State) : Host.Outcome State Fault Refusal :=
  if anyField cnt arg then reject .illegal s
  else if s.derr then reject .halted s
  else runCount { s with activity := .dCount, tokAt := .c2 }

end Sys2Proof.Machine
end

