-- ==== Sys2Proof/Machine/TokenMux.lean ====
section
/-! DEFINITION. The token tag multiplexer and demultiplexer and their commands E_LIT, E_RUN, D_TOKEN
(43_token_mux.md R190 to R199). -/

namespace Sys2Proof.Machine

/-- `emit_run(n)`: marker bits `1` then `0`, then the count (R192). -/
def emitRun (n : Arg) (s : State) : State := encodeCount n (writeBits 0 1 (writeBits 1 1 s))

/-- `emit_lit(b)`: marker bits `0` then `1`, then 8 bits; bits of `b` above bit 7 are masked off (R193). -/
def emitLit (b : Arg) (s : State) : State := writeBits b Config.sampleW (writeBits 1 1 (writeBits 0 1 s))

/-- `read_token()` at the sample of a literal (R195). -/
def readTokenSample (s : State) : Read TokenRead := (readAt .sample s).andThen fun b s' => .done (.lit b) s'

/-- The count of a run token as the token (R195). -/
def asRun (r : Read Nat) : Read TokenRead := r.andThen fun n s' => .done (.run n) s'

/-- `read_token()`: read one token without executing it (R195). -/
def readToken (s : State) : Read TokenRead :=
  (readAt .tag s).andThen fun t s' =>
    if t = Config.tagLit then readTokenSample s'
    else if t = Config.tagRun then asRun (decodeCount s')
    else .raises .badtag (BitVec.ofNat 32 t) s'

/-- `read_token()` from the field it stands at: its start, or the field at which it waited. -/
def resumeToken (s : State) : Read TokenRead :=
  match s.tokAt with
  | .tag => readToken s
  | .sample => readTokenSample s
  | .c2 => asRun (decodeCount s)
  | .c4 => asRun (decodeCountC4 s)
  | .c8 => asRun (decodeCountC8 s)
  | .c16 => asRun (decodeCountC16 s)

/-- D_TOKEN from where it stands (R199). -/
def runToken (s : State) : Host.Outcome State Fault Refusal :=
  (resumeToken s).toOutcome fun t s' => .next (respond .ok (tokenVal t) { s' with tokAt := .tag })

/-- E_LIT b (R197). -/
def execELit (cnt : Cnt) (arg : Arg) (s : State) : Host.Outcome State Fault Refusal :=
  if cnt ≠ 0 then reject .illegal s
  else .next (respondAfterSout .ok 0 (emitLit arg s))

/-- E_RUN n (R198). -/
def execERun (cnt : Cnt) (arg : Arg) (s : State) : Host.Outcome State Fault Refusal :=
  if cnt ≠ 0 then reject .illegal s
  else if badRun arg then reject .badarg s
  else .next (respondAfterSout .ok 0 (emitRun arg s))

/-- D_TOKEN (R199). -/
def execDToken (cnt : Cnt) (arg : Arg) (s : State) : Host.Outcome State Fault Refusal :=
  if anyField cnt arg then reject .illegal s
  else if s.derr then reject .halted s
  else runToken { s with activity := .dToken, tokAt := .tag }

end Sys2Proof.Machine
end

