-- ==== Sys2Proof/Machine/Compressor.lean ====
section
/-! DEFINITION. The channel stream compressor and its command E_PLANE (44_channel_encoder.md R210 to R219). -/

namespace Sys2Proof.Machine

/-- The loop of `detect_run`: how many of the next bytes equal `prev`, at most `cap`; `none` if a byte it must see has
not arrived (R213, R219). -/
def countEqual (prev : Byte) : Nat → List Byte → Option Nat
  | 0, _ => some 0
  | _ + 1, [] => none
  | cap + 1, b :: rest => if b = prev then (countEqual prev cap rest).map (· + 1) else some 0

/-- `detect_run(i)` (R213); `none` while the run is not determined (R219). -/
def detectRun (s : State) : Option Nat :=
  match memRead s.pin (s.ccI.toNat - 1) with
  | none => none
  | some prev =>
    countEqual prev (min (s.ccLen.toNat - s.ccI.toNat) Config.countMax) (s.pin.drop s.ccI.toNat)

/-- A plane byte is accepted from `pin`, if one is offered and fewer than L have been taken (R218, R219); `none` is the
wait for the host. -/
def acceptPin (s : State) : Option State :=
  match s.hPin with
  | [] => none
  | b :: rest => if s.pin.length < s.ccLen.toNat then some { s with pin := s.pin ++ [b], hPin := rest } else none

/-- `write_bits(plane[i], 8)` for a seed, or the wait for that byte (R212). -/
def compressSeed (s : State) : Option State :=
  match memRead s.pin s.ccI.toNat with
  | none => acceptPin s
  | some b => some { writeBits (b.setWidth 32) Config.sampleW s with ccI := s.ccI + 1 }

/-- The literal fallback at position i, or the wait for that byte (R215). -/
def compressLiteral (s : State) : Option State :=
  match memRead s.pin s.ccI.toNat with
  | none => acceptPin s
  | some b => some { emitLit (b.setWidth 32) s with ccI := s.ccI + 1 }

/-- One scan step: the run branch, the literal fallback, or the wait for the byte that determines it (R213 to R215). -/
def compressScan (s : State) : Option State :=
  match detectRun s with
  | none => acceptPin s
  | some run =>
    if Config.runMin ≤ run then
      some { emitRun (BitVec.ofNat 32 run) s with ccI := s.ccI + BitVec.ofNat 32 run }
    else compressLiteral s

/-- One move of a running E_PLANE: a seed, a token, the acceptance of a byte, or the closing flush (R216, R217); `none`
if it waits for the host or no E_PLANE is running. -/
def compressStep (s : State) : Option State :=
  if s.activity ≠ .ePlane then none
  else if s.ccI.toNat < s.ccLen.toNat then
    if s.ccI.toNat < Config.seedMax then compressSeed s else compressScan s
  else some (respondAfterSout .ok 0 (flush s))

/-- At most `fuel` moves of a running E_PLANE, as far as the bytes the host holds out allow. -/
def compressMoves : Nat → State → State
  | 0, s => s
  | fuel + 1, s =>
    match compressStep s with
    | none => s
    | some s' => compressMoves fuel s'

/-- The start of `encode_plane(L)` (R217). -/
def startEncode (len : Arg) (s : State) : State :=
  { s with ccLen := len, ccI := 0, pin := [], activity := .ePlane }

/-- E_PLANE L (R218). Every move takes a byte, encodes at least one, or is the closing flush: 2 L + 1 moves are enough
(log entry 7). -/
def execEPlane (cnt : Cnt) (arg : Arg) (s : State) : Host.Outcome State Fault Refusal :=
  if cnt ≠ 0 then reject .illegal s
  else .next (compressMoves (2 * arg.toNat + 1) (startEncode arg s))

end Sys2Proof.Machine
end

