-- ==== Sys2Proof/Machine/Tokens.lean ====
section
/-! DEFINITION. The wire-level instructions: what the decoder half does with each token inside D_PLANE
(43_token_mux.md R201 to R207) and with each illegal encoding (60_exceptions.md R265, R266). Each meaning reads what
is left of its own bits, so `pc` = `BR.pos` moves by the token's length, then acts. -/

namespace Sys2Proof.Machine

/-- `emit(b)`, the expander's output step (45_channel_decoder.md R232). -/
def emit (b : Byte) (s : State) : State := { s with pout := s.pout ++ [b], cxLast := b, cxN := s.cxN + 1 }

/-- `repeat n times: emit(CX.last)` (R203 to R207). -/
def emitLast : Nat → State → State
  | 0, s => s
  | n + 1, s => emitLast n (emit s.cxLast s)

/-- `rem = CX.len - CX.n`: the plane bytes still to be produced. -/
def remaining (s : State) : Nat := s.cxLen.toNat - s.cxN.toNat

/-- What the four RUN forms share (R207): the token is read, then OVERRUN if the count is larger than `rem` and nothing
is emitted, else `CX.last` is emitted `count` times. -/
def runOf (fields : List TokField) (count : Nat) (s : State) : Host.Outcome State Fault Refusal :=
  (consumeToken fields s).toOutcome fun _ s' =>
    if remaining s' < count then .next (faultEntry .overrun (BitVec.ofNat 32 count) s')
    else .next (emitLast count s')

/-- SEED b (R201): 8 bits, no tag. -/
def execSeed (b : Byte) (s : State) : Host.Outcome State Fault Refusal :=
  (readField Config.sampleW s).toOutcome fun _ s' => .next (emit b s')

/-- LIT b (R202). -/
def execLit (b : Byte) (s : State) : Host.Outcome State Fault Refusal :=
  (consumeToken litFields s).toOutcome fun _ s' => .next (emit b s')

/-- RUN.T1 c (R203). -/
def execRunT1 (c : BitVec 2) (s : State) : Host.Outcome State Fault Refusal := runOf runFieldsT1 (countT1 c) s

/-- RUN.T2 c (R204). -/
def execRunT2 (c : BitVec 4) (s : State) : Host.Outcome State Fault Refusal := runOf runFieldsT2 (countT2 c) s

/-- RUN.T3 c (R205). -/
def execRunT3 (c : BitVec 8) (s : State) : Host.Outcome State Fault Refusal := runOf runFieldsT3 (countT3 c) s

/-- RUN.T4 c (R206). -/
def execRunT4 (c : BitVec 16) (s : State) : Host.Outcome State Fault Refusal := runOf runFieldsT4 (countT4 c) s

/-- Tag `00`: the fault BADTAG with the tag, its 2 bits consumed (R265). -/
def execIllegalTag00 (s : State) : Host.Outcome State Fault Refusal :=
  (consumeToken [.tag] s).toOutcome fun _ s' => .next (faultEntry .badtag 0 s')

/-- Tag `11`: the fault BADTAG with the tag, its 2 bits consumed (R265). -/
def execIllegalTag11 (s : State) : Host.Outcome State Fault Refusal :=
  (consumeToken [.tag] s).toOutcome fun _ s' => .next (faultEntry .badtag 3 s')

/-- The all-zero count: the fault ZEROCOUNT, the token's 32 bits consumed (R266). -/
def execIllegalZeroCount (s : State) : Host.Outcome State Fault Refusal :=
  (consumeToken runFieldsT4 s).toOutcome fun _ s' => .next (faultEntry .zerocount 0 s')

end Sys2Proof.Machine
end

