-- ==== Sys2Proof/Machine/Expander.lean ====
section
/-! DEFINITION. The channel stream expander and its command D_PLANE (45_channel_decoder.md R230 to R237): the machine
that fetches tokens from `SIN` at `BR.pos` and executes them. -/

namespace Sys2Proof.Machine

/-- What stands at the fetch pointer: the bits of the current token already read, and the bits not yet read. -/
def tokenBits (s : State) : List Bool := bitsBefore s.tokAt ++ unread s

/-- A seed position: one of the first min(L, 2) bytes of the plane is to be produced (R233; 43_token_mux.md R201). -/
def atSeed (s : State) : Bool := s.cxN.toNat < Config.seedMax

/-- The instruction at the fetch pointer of a running D_PLANE, or the field its bits end in (30_encoding.md R94). -/
def fetch (s : State) : Except Reject Instr := if atSeed s then decodeSeed (unread s) else decodeToken (tokenBits s)

/-- A token whose bits have not all arrived: the fields that have are read, and the next one waits or raises UNDERRUN
(R154; 60_exceptions.md R264). -/
def fetchShort (r : Reject) (s : State) : Host.Outcome State Fault Refusal :=
  match r with
  | .shortSeed => (readField Config.sampleW s).toOutcome fun _ s' => .next s'
  | .shortTag => (consumeToken (rejectFields .shortTag) s).toOutcome fun _ s' => .next s'
  | .shortSample => (consumeToken (rejectFields .shortSample) s).toOutcome fun _ s' => .next s'
  | .shortCount2 => (consumeToken (rejectFields .shortCount2) s).toOutcome fun _ s' => .next s'
  | .shortCount4 => (consumeToken (rejectFields .shortCount4) s).toOutcome fun _ s' => .next s'
  | .shortCount8 => (consumeToken (rejectFields .shortCount8) s).toOutcome fun _ s' => .next s'
  | .shortCount16 => (consumeToken (rejectFields .shortCount16) s).toOutcome fun _ s' => .next s'
  | .wideCommand => .fault .commandOnWire

/-- The end of `decode_plane`: the closing `align()`, then the response once `POUT` has been taken (R235, R237). -/
def finishDecode (s : State) : State := respondAfterPout .ok 0 (align s)

/-- One move of a running D_PLANE: `run` executes the instruction fetched; the loop test comes before each token
(R234, R236). -/
def expandWith (run : Instr → State → Host.Outcome State Fault Refusal) (s : State) :
    Host.Outcome State Fault Refusal :=
  if s.cxN.toNat < s.cxLen.toNat then
    match fetch s with
    | .ok i => run i s
    | .error r => fetchShort r s
  else .next (finishDecode s)

/-- The wire-level instructions' meanings, as a stream can hold them. -/
def execWire (i : Instr) (s : State) : Host.Outcome State Fault Refusal :=
  match i with
  | .seed b => execSeed b s
  | .lit b => execLit b s
  | .runT1 c => execRunT1 c s
  | .runT2 c => execRunT2 c s
  | .runT3 c => execRunT3 c s
  | .runT4 c => execRunT4 c s
  | .illegalTag00 => execIllegalTag00 s
  | .illegalTag11 => execIllegalTag11 s
  | .illegalZeroCount => execIllegalZeroCount s
  | .eWbits _ _ | .eFlush _ _ | .eGetb _ _ | .eCount _ _ | .eLit _ _ | .eRun _ _ | .ePlane _ _ | .eClr _ _
  | .dRbits _ _ | .dAlign _ _ | .dCount _ _ | .dToken _ _ | .dPlane _ _ | .dClr _ _ | .rdsr _ _
  | .reservedOp0 _ _ => .fault .commandOnWire

/-- At most `fuel` moves of a running D_PLANE, as far as the bytes in `SIN` allow: a move that completes no token ends
them, since it waits for the host. -/
def expandMoves : Nat → State → Host.Outcome State Fault Refusal
  | 0, s => .next s
  | fuel + 1, s =>
    match expandWith execWire s with
    | .next s' => if s'.activity = .dPlane ∧ s'.cxN ≠ s.cxN then expandMoves fuel s' else .next s'
    | .fault f => .fault f
    | .refused r => .refused r

/-- The start of `decode_plane(L)` (R236). -/
def startDecode (len : Arg) (s : State) : State :=
  { s with cxLen := len, cxN := 0, activity := .dPlane, tokAt := .tag }

/-- D_PLANE L (R237). Every token produces at least one byte: L + 1 moves are enough (log entry 7). -/
def execDPlane (cnt : Cnt) (arg : Arg) (s : State) : Host.Outcome State Fault Refusal :=
  if cnt ≠ 0 then reject .illegal s
  else if s.derr then reject .halted s
  else expandMoves (arg.toNat + 1) (startDecode arg s)

end Sys2Proof.Machine
end

