-- ==== Sys2Proof/Machine/System.lean ====
section
/-! DEFINITION. The system commands E_CLR, D_CLR, RDSR and the reserved opcode (46_system_commands.md R250 to R252;
30_encoding.md R103). -/

namespace Sys2Proof.Machine

/-- E_CLR (R250). -/
def execEClr (cnt : Cnt) (arg : Arg) (s : State) : Host.Outcome State Fault Refusal :=
  if anyField cnt arg then reject .illegal s
  else .next (respond .ok 0 (clearEncoder s))

/-- D_CLR (R251): never HALTED. -/
def execDClr (cnt : Cnt) (arg : Arg) (s : State) : Host.Outcome State Fault Refusal :=
  if anyField cnt arg then reject .illegal s
  else .next (respond .ok 0 (clearDecoder s))

/-- RDSR k (R252): changes no state and is never HALTED. -/
def execRdsr (cnt : Cnt) (arg : Arg) (s : State) : Host.Outcome State Fault Refusal :=
  if cnt ≠ 0 then reject .illegal s
  else
    match statusRegister s arg with
    | none => reject .badarg s
    | some v => .next (respond .ok v s)

/-- The reserved opcode 0: always ILLEGAL, whatever its fields (R103). -/
def execReservedOp0 (s : State) : Host.Outcome State Fault Refusal := reject .illegal s

end Sys2Proof.Machine
end

