-- ==== Sys2Proof/Machine/Sequencer.lean ====
section
/-! DEFINITION. The command sequencer (46_system_commands.md R253, R254): one command at a time, from acceptance to
response. `run` executes an instruction (it is `exec`). -/

namespace Sys2Proof.Machine

/-- The sequencer is idle: it accepts the command word the host holds out, and executes the command (R253). -/
def sequencerIdle (run : Instr → State → Host.Outcome State Fault Refusal) (s : State) :
    Host.Outcome State Fault Refusal :=
  match s.hCmd with
  | [] => .next s
  | word :: rest => if cmdReady s then run (decodeCommand word) (acceptCommand rest s) else .next s

/-- A running E_PLANE makes one move, or waits for `pin` (R219). -/
def runCompressor (s : State) : Host.Outcome State Fault Refusal :=
  match compressStep s with
  | none => .next s
  | some s' => .next s'

/-- The wait for `sout`, then the response (20_memory.md R70). -/
def awaitSout (st : Status) (val : Arg) (s : State) : Host.Outcome State Fault Refusal :=
  if s.sout.length ≤ s.soutTaken then .next (respond st val s) else .next s

/-- The wait for `pout`, then the response (20_memory.md R70; 60_exceptions.md R268). -/
def awaitPout (st : Status) (val : Arg) (s : State) : Host.Outcome State Fault Refusal :=
  if s.pout.length ≤ s.poutTaken then .next (respond st val s) else .next s

/-- The response is presented until the host takes it (R253). -/
def awaitRsp (st : Status) (val : Arg) (s : State) : Host.Outcome State Fault Refusal :=
  if s.hRspReady then .next (completeCommand st val s) else .next s

/-- One move of the sequencer. A wait leaves the state as it is (00_scope.md R11, log entry 8). -/
def sequencer (run : Instr → State → Host.Outcome State Fault Refusal) (s : State) :
    Host.Outcome State Fault Refusal :=
  match s.activity with
  | .idle => sequencerIdle run s
  | .dRbits cnt => runRbits cnt s
  | .dCount => runCount s
  | .dToken => runToken s
  | .ePlane => runCompressor s
  | .dPlane => expandWith run s
  | .drainSout st val => awaitSout st val s
  | .drainPout st val => awaitPout st val s
  | .respond st val => awaitRsp st val s

end Sys2Proof.Machine
end

