-- ==== Sys2Proof/Machine/Dispatch.lean ====
section
/-! DEFINITION. One arm per instruction, each one direct call of its meaning. -/

namespace Sys2Proof.Machine

def exec (i : Instr) (s : State) : Host.Outcome State Fault Refusal :=
  match i with
  -- wire level (43_token_mux.md R201 to R206; 60_exceptions.md R265, R266)
  | .seed b => Sys2Proof.Machine.execSeed b s
  | .lit b => Sys2Proof.Machine.execLit b s
  | .runT1 c => Sys2Proof.Machine.execRunT1 c s
  | .runT2 c => Sys2Proof.Machine.execRunT2 c s
  | .runT3 c => Sys2Proof.Machine.execRunT3 c s
  | .runT4 c => Sys2Proof.Machine.execRunT4 c s
  | .illegalTag00 => Sys2Proof.Machine.execIllegalTag00 s
  | .illegalTag11 => Sys2Proof.Machine.execIllegalTag11 s
  | .illegalZeroCount => Sys2Proof.Machine.execIllegalZeroCount s
  -- command level (30_encoding.md R101)
  | .eWbits cnt arg => Sys2Proof.Machine.execEWbits cnt arg s
  | .eFlush cnt arg => Sys2Proof.Machine.execEFlush cnt arg s
  | .eGetb cnt arg => Sys2Proof.Machine.execEGetb cnt arg s
  | .eCount cnt arg => Sys2Proof.Machine.execECount cnt arg s
  | .eLit cnt arg => Sys2Proof.Machine.execELit cnt arg s
  | .eRun cnt arg => Sys2Proof.Machine.execERun cnt arg s
  | .ePlane cnt arg => Sys2Proof.Machine.execEPlane cnt arg s
  | .eClr cnt arg => Sys2Proof.Machine.execEClr cnt arg s
  | .dRbits cnt arg => Sys2Proof.Machine.execDRbits cnt arg s
  | .dAlign cnt arg => Sys2Proof.Machine.execDAlign cnt arg s
  | .dCount cnt arg => Sys2Proof.Machine.execDCount cnt arg s
  | .dToken cnt arg => Sys2Proof.Machine.execDToken cnt arg s
  | .dPlane cnt arg => Sys2Proof.Machine.execDPlane cnt arg s
  | .dClr cnt arg => Sys2Proof.Machine.execDClr cnt arg s
  | .rdsr cnt arg => Sys2Proof.Machine.execRdsr cnt arg s
  | .reservedOp0 _ _ => Sys2Proof.Machine.execReservedOp0 s

end Sys2Proof.Machine
end

