-- ==== Sys2Proof/Machine/Step.lean ====
section
/-! DEFINITION. One step of the machine: a move of the host, or a clock edge of the data ports and one move of the
sequencer (log entries 1 and 3). -/

namespace Sys2Proof.Machine

/-- One step. -/
def step (s : State) : Host.Outcome State Fault Refusal :=
  match turn s with
  | .host s' => .next s'
  | .block s' => sequencer exec s'

/-- The instruction of a table word where the next step fetches it (log entry 9). A command is the word the host holds
out on `cmd` of an idle block. A token stands at the start of `SIN` of a running D_PLANE whose plane has room for the
longest run, at a seed position or after the seeds. -/
def State.withFetchWord (s : State) (nbits w : Nat) : State :=
  match tableSource nbits w with
  | none => s
  | some (.command word) =>
    { s with hScript := [], activity := .idle, seqBusy := false, hCmd := word :: s.hCmd }
  | some (.seedAt bits) =>
    { s with
      hScript := [], activity := .dPlane, seqBusy := true, sin := packBytes bits, brIdx := 0, brCur := 0, brLeft := 0,
      tokAt := .tag, cxN := 0, cxLen := 65535 }
  | some (.tokenAt bits) =>
    { s with
      hScript := [], activity := .dPlane, seqBusy := true, sin := packBytes bits, brIdx := 0, brCur := 0, brLeft := 0,
      tokAt := .tag, cxN := 2, cxLen := 65537 }

end Sys2Proof.Machine
end

