-- ==== Sys2Proof/Safety.lean ====
section
/-! DEFINITION. The terms claims are stated in: the bit strings the two halves hold, the codes the spec's tables give,
the streaming compressor of 44_channel_encoder.md R225, the two halves as data, and the invariant of the machine. -/

namespace Sys2Proof.Machine

/-! ### What the halves hold, as bit strings -/

/-- The bit string `W` written since the last clear: `bits(SOUT)` and the filled bits of `BW.acc` (10_state.md R24 (c),
40_bit_writer.md R141). -/
def written (s : State) : List Bool := bitsOf s.sout ++ (byteBits s.bwAcc).take (filled s)

/-- The zero bits that bring `n` bits to a byte boundary: `(-n) mod 8` of them (40_bit_writer.md R141). -/
def padBits (n : Nat) : List Bool := zeroBits ((8 - n % 8) % 8)

/-- The bits supplied and not yet read: what is left of `BR.cur`, then the bytes of `SIN` not yet fetched
(41_bit_reader.md R151, R158). -/
def toRead (s : State) : List Bool := lowBits s.brCur s.brLeft.toNat ++ bitsOf (s.sin.drop s.brIdx)

/-! ### The spec's codes -/

/-- The count table of 30_encoding.md R93, for 1 to 65535. -/
def countCode (n : Nat) : List Bool :=
  let v := BitVec.ofNat 16 n
  if n ≤ 3 then lowBits v 2
  else if n ≤ 18 then zeroBits 2 ++ lowBits (BitVec.ofNat 16 (n - 3)) 4
  else if n ≤ 255 then zeroBits 6 ++ lowBits v 8
  else zeroBits 14 ++ lowBits v 16

/-- A run token: `10` and its count (30_encoding.md R91, R92). -/
def runCode (n : Nat) : List Bool := true :: false :: countCode n

/-- A literal token: `01` and its sample (30_encoding.md R91, R92). -/
def litCode (b : Byte) : List Bool := false :: true :: byteBits b

/-- How the streaming compressor of R225 codes a closed stretch of `run` bytes equal to `prev`. -/
def stretchCode (prev : Byte) (run : Nat) : List Bool :=
  if 2 ≤ run then runCode run else if run = 1 then litCode prev else []

/-- The streaming compressor of R225 after the seeds: `prev` and `run` are its registers. -/
def streamTail (prev : Byte) (run : Nat) : List Byte → List Bool
  | [] => stretchCode prev run
  | b :: rest =>
    if b = prev then
      if run + 1 = 65535 then runCode 65535 ++ streamTail prev 0 rest else streamTail prev (run + 1) rest
    else stretchCode prev run ++ litCode b ++ streamTail b 0 rest

/-- The channel stream of a plane before its pad bits, as R225 produces it. -/
def streamCode : List Byte → List Bool
  | [] => []
  | [a] => byteBits a
  | a :: b :: rest => byteBits a ++ byteBits b ++ streamTail b 0 rest

/-! ### The two halves as data (10_state.md R20) -/

/-- The encoder half, with the place of the host in `SOUT`. -/
def encHalf (s : State) : Byte × BitVec 3 × List Byte × BitVec 32 × BitVec 32 × List Byte × Nat :=
  (s.bwAcc, s.bwFree, s.sout, s.ccLen, s.ccI, s.pin, s.soutTaken)

/-- The registers of the bit reader. -/
def readerPart (s : State) : List Byte × Nat × Byte × BitVec 3 × Bool :=
  (s.sin, s.brIdx, s.brCur, s.brLeft, s.brClosed)

/-- The decoder half, with the place of the host in `POUT` and the field a read waits at. -/
def decHalf (s : State) :
    (List Byte × Nat × Byte × BitVec 3 × Bool) × BitVec 32 × BitVec 32 × Byte × List Byte × Bool × BitVec 4 ×
      TokField × Nat :=
  (readerPart s, s.cxLen, s.cxN, s.cxLast, s.pout, s.derr, s.dcode, s.tokAt, s.poutTaken)

/-- The host's side of the ports. -/
def hostSide (s : State) :
    (List CmdWord × List Byte × List Byte) × (Bool × Bool × Bool × Bool) ×
      (List Byte × List Byte × List RspWord) × List HostAct :=
  ((s.hCmd, s.hPin, s.hSin), (s.hEos, s.hRspReady, s.hSoutReady, s.hPoutReady),
    (s.hSoutGot, s.hPoutGot, s.hRspGot), s.hScript)

/-! ### Groups of instructions -/

/-- The E_ group (30_encoding.md R101, 92_eei_decisions.md D5). -/
def isEncoderCommand : Instr → Bool
  | .eWbits _ _ | .eFlush _ _ | .eGetb _ _ | .eCount _ _ | .eLit _ _ | .eRun _ _ | .ePlane _ _ | .eClr _ _ => true
  | .seed _ | .lit _ | .runT1 _ | .runT2 _ | .runT3 _ | .runT4 _ => false
  | .illegalTag00 | .illegalTag11 | .illegalZeroCount => false
  | .dRbits _ _ | .dAlign _ _ | .dCount _ _ | .dToken _ _ | .dPlane _ _ | .dClr _ _ => false
  | .rdsr _ _ | .reservedOp0 _ _ => false

/-- The D_ group and the tokens its D_PLANE executes. -/
def isDecoderInstr : Instr → Bool
  | .dRbits _ _ | .dAlign _ _ | .dCount _ _ | .dToken _ _ | .dPlane _ _ | .dClr _ _ => true
  | .seed _ | .lit _ | .runT1 _ | .runT2 _ | .runT3 _ | .runT4 _ => true
  | .illegalTag00 | .illegalTag11 | .illegalZeroCount => true
  | .eWbits _ _ | .eFlush _ _ | .eGetb _ _ | .eCount _ _ | .eLit _ _ | .eRun _ _ | .ePlane _ _ | .eClr _ _ => false
  | .rdsr _ _ | .reservedOp0 _ _ => false

/-- The D_ commands that are rejected HALTED while `DERR` = 1 (60_exceptions.md R263). -/
def haltsWithDerr : Instr → Bool
  | .dRbits _ _ | .dAlign _ _ | .dCount _ _ | .dToken _ _ | .dPlane _ _ => true
  | .dClr _ _ | .rdsr _ _ | .reservedOp0 _ _ => false
  | .seed _ | .lit _ | .runT1 _ | .runT2 _ | .runT3 _ | .runT4 _ => false
  | .illegalTag00 | .illegalTag11 | .illegalZeroCount => false
  | .eWbits _ _ | .eFlush _ _ | .eGetb _ _ | .eCount _ _ | .eLit _ _ | .eRun _ _ | .ePlane _ _ | .eClr _ _ => false

/-! ### Frames -/

/-- `t` is `s` but for the bit writer's registers and `SOUT` (40_bit_writer.md R132, R136). -/
def OnlyWriter (s t : State) : Prop := t = { s with bwAcc := t.bwAcc, bwFree := t.bwFree, sout := t.sout }

/-- `t` is `s` but for `BR.idx`, `BR.cur`, `BR.left` (41_bit_reader.md R153). -/
def OnlyReader (s t : State) : Prop := t = { s with brIdx := t.brIdx, brCur := t.brCur, brLeft := t.brLeft }

/-- `t` is `s` but for the encoder half, the bytes the host holds out on `pin`, and where the sequencer stands. -/
def OnlyEncoder (s t : State) : Prop :=
  t = { s with
    bwAcc := t.bwAcc, bwFree := t.bwFree, sout := t.sout, ccLen := t.ccLen, ccI := t.ccI, pin := t.pin,
    hPin := t.hPin, activity := t.activity }

/-- `t` is `s` but for the decoder half, without `SIN` and `BR.closed`, and where the sequencer stands. -/
def OnlyDecoder (s t : State) : Prop :=
  t = { s with
    brIdx := t.brIdx, brCur := t.brCur, brLeft := t.brLeft, cxLen := t.cxLen, cxN := t.cxN, cxLast := t.cxLast,
    pout := t.pout, derr := t.derr, dcode := t.dcode, tokAt := t.tokAt, activity := t.activity }

/-! ### Tokens -/

/-- The count of a RUN token (30_encoding.md R95). -/
def runCountOf : Instr → Option Nat
  | .runT1 c => some (countT1 c)
  | .runT2 c => some (countT2 c)
  | .runT3 c => some (countT3 c)
  | .runT4 c => some (countT4 c)
  | .seed _ | .lit _ | .illegalTag00 | .illegalTag11 | .illegalZeroCount => none
  | .eWbits _ _ | .eFlush _ _ | .eGetb _ _ | .eCount _ _ | .eLit _ _ | .eRun _ _ | .ePlane _ _ | .eClr _ _ => none
  | .dRbits _ _ | .dAlign _ _ | .dCount _ _ | .dToken _ _ | .dPlane _ _ | .dClr _ _ => none
  | .rdsr _ _ | .reservedOp0 _ _ => none

/-- The sample of a LIT token (30_encoding.md R95). -/
def litSampleOf : Instr → Option Byte
  | .lit b => some b
  | .runT1 _ | .runT2 _ | .runT3 _ | .runT4 _ => none
  | .seed _ | .illegalTag00 | .illegalTag11 | .illegalZeroCount => none
  | .eWbits _ _ | .eFlush _ _ | .eGetb _ _ | .eCount _ _ | .eLit _ _ | .eRun _ _ | .ePlane _ _ | .eClr _ _ => none
  | .dRbits _ _ | .dAlign _ _ | .dCount _ _ | .dToken _ _ | .dPlane _ _ | .dClr _ _ => none
  | .rdsr _ _ | .reservedOp0 _ _ => none

/-- A token a stream without errors holds after its seeds: a LIT, or a RUN whose field is not 0 (30_encoding.md R90,
R98). -/
def IsToken (i : Instr) : Prop := i.WellFormed ∧ ((litSampleOf i).isSome ∨ (runCountOf i).isSome)

/-- The bits of a list of tokens, in stream order. -/
def tokenListBits (tokens : List Instr) : List Bool := tokens.flatMap fun i => (encode i).bits

/-- The plane bytes a list of tokens stands for, `last` being the byte before them (43_token_mux.md R202 to R207). -/
def tokenListBytes (last : Byte) : List Instr → List Byte
  | [] => []
  | i :: rest =>
    match litSampleOf i with
    | some b => b :: tokenListBytes b rest
    | none => List.replicate ((runCountOf i).getD 0) last ++ tokenListBytes last rest

/-- How `D_TOKEN` ends on a token: its value (30_encoding.md R106), or the fault of an illegal encoding (R96). -/
def tokenAnswer : Instr → Activity
  | .lit b => .respond .ok (tokenVal (.lit b.toNat))
  | .runT1 c => .respond .ok (tokenVal (.run (countT1 c)))
  | .runT2 c => .respond .ok (tokenVal (.run (countT2 c)))
  | .runT3 c => .respond .ok (tokenVal (.run (countT3 c)))
  | .runT4 c => .respond .ok (tokenVal (.run (countT4 c)))
  | .illegalTag00 => .drainPout .badtag 0
  | .illegalTag11 => .drainPout .badtag 3
  | .illegalZeroCount => .drainPout .zerocount 0
  | .seed _ => .idle
  | .eWbits _ _ | .eFlush _ _ | .eGetb _ _ | .eCount _ _ | .eLit _ _ | .eRun _ _ | .ePlane _ _ | .eClr _ _ => .idle
  | .dRbits _ _ | .dAlign _ _ | .dCount _ _ | .dToken _ _ | .dPlane _ _ | .dClr _ _ => .idle
  | .rdsr _ _ | .reservedOp0 _ _ => .idle

/-- The bits of a count that come before one of its fields (30_encoding.md R93): those of the token without its tag. -/
def countBitsBefore (f : TokField) : List Bool := (bitsBefore f).drop Config.tagW

/-- A D_PLANE, started at `s`, stands in `t` at the field `f` of `width` bits, which are not there: it waits for them,
or on a closed input has taken UNDERRUN (41_bit_reader.md R154; 60_exceptions.md R264). -/
structure EndsShort (s t : State) (f : TokField) (width : Nat) : Prop where
  frame : OnlyDecoder s t
  waits : s.brClosed = false → t.activity = .dPlane ∧ t.tokAt = f ∧ t.derr = false ∧ t.dcode = s.dcode
  underrun : s.brClosed = true →
    t.activity = .drainPout .underrun (BitVec.ofNat 32 width) ∧ t.tokAt = .tag ∧ t.derr = true ∧ t.dcode = 4

/-! ### One move of the compressor -/

/-- `t` is `s` after the seed or token at the scan position, which the bytes that have arrived determine
(44_channel_encoder.md R212 to R215, R219). A run is as long as bytes equal to the one before it go on, up to the end of
the plane and the cap; a byte that begins no run of 2 is a literal. -/
inductive EncodesNext (s : State) : State → Prop where
  /-- One of the first two bytes (R212). -/
  | seed {b : Byte} (hi : s.ccI.toNat < 2) (hb : s.pin[s.ccI.toNat]? = some b) :
    EncodesNext s { writeBits (b.setWidth 32) 8 s with ccI := s.ccI + 1 }
  /-- A byte that differs from the one before it, or equals it alone (R215). -/
  | literal {prev b : Byte} (hi : 2 ≤ s.ccI.toNat) (hp : s.pin[s.ccI.toNat - 1]? = some prev)
    (hb : s.pin[s.ccI.toNat]? = some b)
    (hn : b ≠ prev ∨ s.ccI.toNat + 1 = s.ccLen.toNat ∨ ∃ c, s.pin[s.ccI.toNat + 1]? = some c ∧ c ≠ prev) :
    EncodesNext s { emitLit (b.setWidth 32) s with ccI := s.ccI + 1 }
  /-- The longest run of bytes equal to the one before it, of 2 to 65535 (R213, R214). -/
  | run {prev : Byte} {n : Nat} (hi : 2 ≤ s.ccI.toNat) (hp : s.pin[s.ccI.toNat - 1]? = some prev) (h2 : 2 ≤ n)
    (hc : n ≤ 65535) (hl : s.ccI.toNat + n ≤ s.ccLen.toNat) (hr : ∀ k < n, s.pin[s.ccI.toNat + k]? = some prev)
    (hn : n = 65535 ∨ s.ccI.toNat + n = s.ccLen.toNat ∨ ∃ c, s.pin[s.ccI.toNat + n]? = some c ∧ c ≠ prev) :
    EncodesNext s { emitRun (BitVec.ofNat 32 n) s with ccI := s.ccI + BitVec.ofNat 32 n }

/-! ### Commands and their outcomes -/

/-- ILLEGAL by 60_exceptions.md R261, read off the command word. -/
def illegalWord (word : CmdWord) : Prop :=
  opOf word = 0 ∨ (cntOf word ≠ 0 ∧ opOf word ≠ 0x1 ∧ opOf word ≠ 0x9) ∨
    (argOf word ≠ 0 ∧ opOf word ∈ [0x2, 0x3, 0x8, 0x9, 0xA, 0xB, 0xC, 0xE])

/-- BADARG by the table of 60_exceptions.md R262, read off the command word. -/
def badargWord (word : CmdWord) : Prop :=
  (opOf word ∈ [0x1, 0x9] ∧ 16 < (cntOf word).toNat) ∨
    (opOf word = 0x4 ∧ (argOf word = 0 ∨ 65535 < (argOf word).toNat)) ∨
    (opOf word = 0x6 ∧ ((argOf word).toNat < 2 ∨ 65535 < (argOf word).toNat)) ∨
    (opOf word = 0xF ∧ 3 < (argOf word).toNat)

/-- The commands HALTED is given to: D_RBITS, D_ALIGN, D_COUNT, D_TOKEN, D_PLANE (60_exceptions.md R263). -/
def haltableWord (word : CmdWord) : Prop := opOf word ∈ [0x9, 0xA, 0xB, 0xC, 0xD]

/-- A code of 10_state.md R37: UNDERRUN, BADTAG, ZEROCOUNT or OVERRUN. -/
def isFaultStatus : Status → Bool
  | .underrun | .badtag | .zerocount | .overrun => true
  | .ok | .illegal | .badarg | .halted => false

/-- A command has taken one of the faults `sts` (60_exceptions.md R268). -/
def FaultedWith (sts : List Status) (t : State) : Prop := ∃ st ∈ sts, ∃ info, t.activity = .drainPout st info

/-- The marks of the table of 60_exceptions.md R275: the statuses a command can end with. -/
def mayAnswer : Instr → Status → Bool
  | .eWbits _ _, st => st ∈ [.ok, .badarg]
  | .eFlush _ _, st | .eGetb _ _, st | .eLit _ _, st | .ePlane _ _, st | .eClr _ _, st => st ∈ [.ok, .illegal]
  | .eCount _ _, st | .eRun _ _, st | .rdsr _ _, st => st ∈ [.ok, .illegal, .badarg]
  | .dRbits _ _, st => st ∈ [.ok, .illegal, .halted, .badarg, .underrun]
  | .dAlign _ _, st => st ∈ [.ok, .illegal, .halted]
  | .dCount _ _, st => st ∈ [.ok, .illegal, .halted, .underrun, .zerocount]
  | .dToken _ _, st => st ∈ [.ok, .illegal, .halted, .underrun, .badtag, .zerocount]
  | .dPlane _ _, st => st ∈ [.ok, .illegal, .halted, .underrun, .badtag, .zerocount, .overrun]
  | .dClr _ _, st => st ∈ [.ok, .illegal]
  | .reservedOp0 _ _, st => st = .illegal
  | .seed _, _ | .lit _, _ | .runT1 _, _ | .runT2 _, _ | .runT3 _, _ | .runT4 _, _ => false
  | .illegalTag00, _ | .illegalTag11, _ | .illegalZeroCount, _ => false

/-- Where a command can leave the sequencer: at the end with a status of the table of R275, or at a wait of its last
column. -/
def mayLeave (i : Instr) : Activity → Bool
  | .idle => false
  | .respond st _ => mayAnswer i st
  | .drainSout st _ =>
    mayAnswer i st && match i with
      | .eWbits _ _ | .eFlush _ _ | .eGetb _ _ | .eCount _ _ | .eLit _ _ | .eRun _ _ | .ePlane _ _ => true
      | _ => false
  | .drainPout st _ =>
    mayAnswer i st && match i with
      | .dPlane _ _ => true
      | _ => isFaultStatus st
  | .ePlane => match i with
    | .ePlane _ _ => true
    | _ => false
  | .dRbits _ => match i with
    | .dRbits _ _ => true
    | _ => false
  | .dCount => match i with
    | .dCount _ _ => true
    | _ => false
  | .dToken => match i with
    | .dToken _ _ => true
    | _ => false
  | .dPlane => match i with
    | .dPlane _ _ => true
    | _ => false

/-! ### The invariant -/

/-- 10_state.md R24 (a) and (b): the unfilled positions of `BW.acc` are 0. -/
structure WriterInv (s : State) : Prop where
  unfilled_zero : (byteBits s.bwAcc).drop (filled s) = zeroBits (8 - filled s)

/-- 10_state.md R29 to R31: `BR.idx <= |SIN|`, and `BR.cur` is the byte most recently fetched. -/
structure ReaderInv (s : State) : Prop where
  idx_le : s.brIdx ≤ s.sin.length
  fresh : s.brIdx = 0 → s.brLeft = 0 ∧ s.brCur = 0
  cur_eq : 0 < s.brIdx → s.sin[s.brIdx - 1]? = some s.brCur

/-- 10_state.md R26, R27, R33: `CC.i <= CC.len`, at most L plane bytes accepted, `CX.n <= CX.len`. -/
structure PlaneInv (s : State) : Prop where
  scan_le : s.ccI.toNat ≤ s.ccLen.toNat
  pin_le : s.pin.length ≤ s.ccLen.toNat
  made_le : s.cxN.toNat ≤ s.cxLen.toNat

/-- 10_state.md R37: `DCODE` names the fault while `DERR` = 1 and is 0 while `DERR` = 0. -/
structure FaultInv (s : State) : Prop where
  clear : s.derr = false → s.dcode = 0
  set : s.derr = true → ∃ st, isFaultStatus st = true ∧ s.dcode = statusCode st

/-- A D_ command that reads is running. -/
def readsInput : Activity → Bool
  | .dRbits _ | .dCount | .dToken | .dPlane => true
  | .idle | .ePlane | .drainSout _ _ | .drainPout _ _ | .respond _ _ => false

/-- A command that reads tokens or counts is running. -/
def readsFields : Activity → Bool
  | .dCount | .dToken | .dPlane => true
  | .idle | .dRbits _ | .ePlane | .drainSout _ _ | .drainPout _ _ | .respond _ _ => false

/-- 10_state.md R42, 60_exceptions.md R263: `SEQ.busy` says whether a command is executing; no reading command runs
while the half is halted; a reader that is not inside a token or count is at a boundary, and a D_PLANE is inside one
only between its seeds and the end of its plane. -/
structure SequencerInv (s : State) : Prop where
  busy : s.seqBusy = true ↔ s.activity ≠ .idle
  not_halted : readsInput s.activity = true → s.derr = false
  boundary : readsFields s.activity = false → s.tokAt = .tag
  inside : s.activity = .dPlane → s.tokAt ≠ .tag →
    Config.seedMax ≤ s.cxN.toNat ∧ s.cxN.toNat < s.cxLen.toNat

/-- A command that may have bytes of `SOUT` not yet taken is running. -/
def mayOweSout : Activity → Bool
  | .ePlane | .drainSout _ _ => true
  | .idle | .dRbits _ | .dCount | .dToken | .dPlane | .drainPout _ _ | .respond _ _ => false

/-- A command that may have bytes of `POUT` not yet taken is running. -/
def mayOwePout : Activity → Bool
  | .dPlane | .drainPout _ _ => true
  | .idle | .dRbits _ | .dCount | .dToken | .ePlane | .drainSout _ _ | .respond _ _ => false

/-- 20_memory.md R70: the host has taken the bytes of `SOUT` and `POUT` in order, none twice, and has all of them when
a response is presented or the sequencer is idle. -/
structure DeliveryInv (s : State) : Prop where
  sout_le : s.soutTaken ≤ s.sout.length
  pout_le : s.poutTaken ≤ s.pout.length
  sout_all : mayOweSout s.activity = false → s.soutTaken = s.sout.length
  pout_all : mayOwePout s.activity = false → s.poutTaken = s.pout.length
  sout_got : s.sout.take s.soutTaken <:+ s.hSoutGot
  pout_got : s.pout.take s.poutTaken <:+ s.hPoutGot

/-- The invariant every step keeps. -/
structure Inv (s : State) : Prop where
  writer : WriterInv s
  reader : ReaderInv s
  plane : PlaneInv s
  fault : FaultInv s
  sequencer : SequencerInv s
  delivery : DeliveryInv s

/-! ### Runs -/

/-- The next action of the host is a reset (70_reset_and_hazards.md R290). -/
def ResetNext (s : State) : Prop := s.hScript.head? = some .assertReset

/-- The sequencer is idle and the next word it accepts is `word`; the host lets the block move. -/
def AcceptsNext (s : State) (word : CmdWord) : Prop :=
  s.activity = .idle ∧ s.seqBusy = false ∧ s.hCmd.head? = some word ∧
    (s.hScript = [] ∨ s.hScript.head? = some .letBlockMove)

/-- E_CLR (46_system_commands.md R250). -/
abbrev clearEncoderWord : CmdWord := commandWord 0x8 0 0
/-- D_CLR (46_system_commands.md R251). -/
abbrev clearDecoderWord : CmdWord := commandWord 0xE 0 0

/-- The plane bytes a script of the host will offer on `pin`. -/
def offeredPin : List HostAct → List Byte
  | [] => []
  | .offerPin b :: rest => b :: offeredPin rest
  | .letBlockMove :: rest | .offerCmd _ :: rest | .offerSin _ :: rest | .driveEos _ :: rest
  | .driveRspReady _ :: rest | .driveSoutReady _ :: rest | .drivePoutReady _ :: rest | .assertReset :: rest =>
    offeredPin rest

/-- Steps of the machine from `s` to `t`, each from a state in which `p` holds. -/
inductive StepsWhile (p : State → Prop) (s : State) : State → Prop where
  | refl : StepsWhile p s s
  | tail {t u : State} : StepsWhile p s t → p t → Machine.step t = .next u → StepsWhile p s u

/-! ### Safe runs -/

/-- A step that answers a next state: the machine has not stopped. -/
def Goes (o : Host.Outcome State Fault Refusal) : Prop := ∃ t, o = .next t

/-- A state a run can be in: the machine after reset, or after a step from such a state. -/
inductive Reachable : State → Prop where
  | reset : Reachable State.reset
  | step {s t : State} : Reachable s → Machine.step s = .next t → Reachable t

end Sys2Proof.Machine
end

