-- ==== Sys2Proof/Certificates/Slice0/Obligations.lean ====
section
/-! DEFINITION. The statements for the provers, each from a rule of spec/ that its docstring names. Where a statement
also rests on a choice of the model, its docstring says so and names the log entry. In every statement about a command,
the place the sequencer stands at afterwards (`activity`, and `tokAt` inside a token) is the model's field, log entry
5: `drainSout` and `drainPout` are the wait before the response, `respond` is the response presented. -/

open Sys2Proof Sys2Proof.Machine

/-! ### Encodings -/

/-- Decoding the encoding of a well-formed instruction gives it back, whatever follows it in the stream
(30_encoding.md R91, R94, R95, R100, R101). -/
def Obligations.DecodeOfEncode : Prop :=
  ∀ (i : Instr) (rest : List Bool), i.WellFormed → decode ((encode i).followedBy rest) = .ok i

/-- Every 41-bit word decodes to exactly one constructor of the command level, and no bit of it is dropped
(30_encoding.md R100, R101). For an `op` of 0, which R103 says is no command, and for a must-be-zero field that is not
zero (R102), that the word decodes and answers ILLEGAL when it executes is the model's inference (DEDUCED, log entry
12). -/
def Obligations.CommandWordsAreInstructions : Prop :=
  (∀ word : CmdWord, encode (decodeCommand word) = .command word ∧ (decodeCommand word).isWire = false) ∧
    ∀ i : Instr, i.isWire = false → ∃ word, encode i = .command word ∧ decodeCommand word = i

/-- What the decoder reads at a token position or a seed position is a well-formed wire instruction whose bits stand
there; 32 bits always hold a token, and bits that hold none are the beginning of one (30_encoding.md R90, R91, R94). -/
def Obligations.TokensAreTheirBits : Prop :=
  (∀ (bits : List Bool) (i : Instr), decodeToken bits = .ok i →
    i.WellFormed ∧ i.isWire = true ∧ ∃ rest, (encode i).followedBy rest = .tokenAt bits) ∧
  (∀ (bits : List Bool) (i : Instr), decodeSeed bits = .ok i →
    ∃ b rest, i = .seed b ∧ bits = byteBits b ++ rest) ∧
  (∀ bits : List Bool, 32 ≤ bits.length → ∃ i, decodeToken bits = .ok i) ∧
  (∀ (bits : List Bool) (r : Reject), decodeToken bits = .error r →
    ∃ more i, decodeToken (bits ++ more) = .ok i ∧ bits.length < ((encode i).bits).length)

/-- Words the spec writes out: the example of 30_encoding.md R108, the words of 60_exceptions.md R261 and R262, and the
tokens of 43_token_mux.md R202 to R206, bit by bit. -/
def Obligations.WordsOfTheSpec : Prop :=
  decodeCommandNat 0x029000001FF = .ok (.eWbits 9 0x1FF) ∧
  decodeCommandNat 0x00000000000 = .ok (.reservedOp0 0 0) ∧
  decodeCommandNat 0x04000000001 = .ok (.eFlush 0 1) ∧
  decodeCommandNat 0x03100000000 = .ok (.eWbits 17 0) ∧
  decodeCommandNat 0x18000000000 = .ok (.dToken 0 0) ∧
  decodeToken [false, true, false, true, false, false, false, false, false, true] = .ok (.lit 0x41) ∧
  decodeToken [true, false, true, false] = .ok (.runT1 2) ∧
  decodeToken (bitsOf [0x82]) = .ok (.runT2 2) ∧
  decodeToken (bitsOf [0x80, 0x13]) = .ok (.runT3 19) ∧
  decodeToken (bitsOf [0x80, 0x00, 0x01, 0x00]) = .ok (.runT4 256) ∧
  decodeToken (bitsOf [0x80, 0x00, 0x00, 0x00]) = .ok .illegalZeroCount ∧
  decodeToken [true, true] = .ok .illegalTag11 ∧
  decodeToken [false, false] = .ok .illegalTag00 ∧
  decodeSeed (bitsOf [0x07]) = .ok (.seed 0x07)

/-! ### The bit writer -/

/-- 40_bit_writer.md R141: what `write_bits`, `flush`, E_CLR and reset do to the bit string `W`, that nothing else
changes it, and that `W` is the writer's whole state. That a step is a move of the host or of the block is the model's
choice (log entries 1 and 3). -/
def Obligations.WriterIsItsBitString : Prop :=
  (∀ (v : Arg) (c : Nat) (s : State), WriterInv s →
    WriterInv (writeBits v c s) ∧ written (writeBits v c s) = written s ++ lowBits v c) ∧
  (∀ s : State, WriterInv s → WriterInv (flush s) ∧ written (flush s) = written s ++ padBits (written s).length) ∧
  (∀ s : State, written (clearEncoder s) = [] ∧ written (resetBlock s) = []) ∧
  (∀ (i : Instr) (s t : State), isEncoderCommand i = false → exec i s = .next t → written t = written s) ∧
  (∀ s : State, WriterInv s → s.bwFree.toNat = (8 - (written s).length % 8) % 8 ∧
    bitsOf s.sout = (written s).take (8 * ((written s).length / 8))) ∧
  (∀ s t : State, step s = .next t → written t = written s ∨ ResetNext s ∨ s.activity = .ePlane ∨
    ∃ word, AcceptsNext s word ∧ isEncoderCommand (decodeCommand word) = true) ∧
  ∀ s t : State, WriterInv s → WriterInv t → written s = written t →
    s.bwAcc = t.bwAcc ∧ s.bwFree = t.bwFree ∧ s.sout = t.sout

/-- 40_bit_writer.md R132: the loop of `write_bits`, what it leaves alone, and how many bytes it commits. -/
def Obligations.WriteBitsCommitsBytes : Prop :=
  (∀ (v : Arg) (c : Nat) (s : State),
    writeBits v 0 s = s ∧ writeBits v (c + 1) s = writeBits v c (putBit (v.getLsbD c) s)) ∧
  ∀ (v : Arg) (c : Nat) (s : State),
    OnlyWriter s (writeBits v c s) ∧
    (∃ more, (writeBits v c s).sout = s.sout ++ more ∧ more.length = (filled s + c) / 8 ∧
      (c ≤ 16 → more.length ≤ 2)) ∧
    filled (writeBits v c s) = (filled s + c) % 8

/-- 40_bit_writer.md R133: bits of the value above position `count - 1` are ignored, by `write_bits` and by E_WBITS. -/
def Obligations.WriteBitsMasks : Prop :=
  (∀ (v : Arg) (c : Nat) (s : State), writeBits v c s = writeBits (BitVec.ofNat 32 (v.toNat % 2 ^ c)) c s) ∧
  (∀ (cnt : Cnt) (v : Arg) (s : State),
    exec (.eWbits cnt v) s = exec (.eWbits cnt (BitVec.ofNat 32 (v.toNat % 2 ^ cnt.toNat))) s) ∧
  ∀ s : State, WriterInv s → written (writeBits 0xFFFFFFF5 4 s) = written s ++ [false, true, false, true]

/-- 40_bit_writer.md R142: a group may be written in two parts, the tags of the tokens among them. -/
def Obligations.WriteBitsSplits : Prop :=
  (∀ (v : Arg) (a b : Nat) (s : State), a + b ≤ 16 →
    writeBits v (a + b) s = writeBits v b (writeBits (v >>> b) a s)) ∧
  ∀ s : State, writeBits 0 1 (writeBits 1 1 s) = writeBits 0b10 2 s

/-- 40_bit_writer.md R136: `flush` commits the partial byte, zero-padded, or does nothing; after it no partial byte
remains, and a second flush does nothing. -/
def Obligations.FlushCommitsThePartialByte : Prop :=
  (∀ s : State, s.bwFree ≠ 0 → flush s = { s with sout := s.sout ++ [s.bwAcc], bwAcc := 0, bwFree := 0 }) ∧
  (∀ s : State, s.bwFree = 0 → flush s = s) ∧
  (∀ s : State, WriterInv s → (flush s).bwFree = 0 ∧ (flush s).bwAcc = 0 ∧
    written (flush s) = written s ++ zeroBits s.bwFree.toNat) ∧
  ∀ s : State, flush (flush s) = flush s

/-! ### The commands of the encoder half -/

/-- 40_bit_writer.md R138: E_WBITS appends its group and changes nothing else. -/
def Obligations.EWbitsWritesItsGroup : Prop :=
  ∀ (cnt : Cnt) (arg : Arg) (s : State), WriterInv s → cnt.toNat ≤ 16 →
    ∃ t, exec (.eWbits cnt arg) s = .next t ∧ WriterInv t ∧ written t = written s ++ lowBits arg cnt.toNat ∧
      t = { s with bwAcc := t.bwAcc, bwFree := t.bwFree, sout := t.sout, activity := .drainSout .ok 0 }

/-- 40_bit_writer.md R139, R140: E_FLUSH and E_GETB append the pad bits and leave no partial byte. -/
def Obligations.EFlushAndEGetbFlush : Prop :=
  ∀ (i : Instr) (s : State), i = .eFlush 0 0 ∨ i = .eGetb 0 0 → WriterInv s →
    ∃ t, exec i s = .next t ∧ t.bwFree = 0 ∧ t.bwAcc = 0 ∧
      written t = written s ++ padBits (written s).length ∧ bitsOf t.sout = written t ∧
      t = { s with bwAcc := t.bwAcc, bwFree := t.bwFree, sout := t.sout, activity := .drainSout .ok 0 }

/-- 42_count_codec.md R172, R178: E_COUNT appends the code of 30_encoding.md R93 for its count. -/
def Obligations.ECountWritesTheCode : Prop :=
  ∀ (n : Arg) (s : State), WriterInv s → 1 ≤ n.toNat → n.toNat ≤ 65535 →
    ∃ t, exec (.eCount 0 n) s = .next t ∧ WriterInv t ∧ written t = written s ++ countCode n.toNat ∧
      t = { s with bwAcc := t.bwAcc, bwFree := t.bwFree, sout := t.sout, activity := .drainSout .ok 0 }

/-- 43_token_mux.md R193, R197: E_LIT appends the tag `01` and the low 8 bits of its operand. -/
def Obligations.ELitWritesALiteral : Prop :=
  ∀ (b : Arg) (s : State), WriterInv s →
    ∃ t, exec (.eLit 0 b) s = .next t ∧ WriterInv t ∧
      written t = written s ++ false :: true :: lowBits b 8 ∧
      t = { s with bwAcc := t.bwAcc, bwFree := t.bwFree, sout := t.sout, activity := .drainSout .ok 0 }

/-- 43_token_mux.md R192, R198: E_RUN appends the tag `10` and the code of its count. -/
def Obligations.ERunWritesARun : Prop :=
  ∀ (n : Arg) (s : State), WriterInv s → 2 ≤ n.toNat → n.toNat ≤ 65535 →
    ∃ t, exec (.eRun 0 n) s = .next t ∧ WriterInv t ∧
      written t = written s ++ true :: false :: countCode n.toNat ∧
      t = { s with bwAcc := t.bwAcc, bwFree := t.bwFree, sout := t.sout, activity := .drainSout .ok 0 }

/-- 44_channel_encoder.md R225 against R217: when the host holds out the whole plane, E_PLANE appends the stream that
the streaming compressor of R225 produces, takes exactly L bytes, and flushes. Model's choice: the host's bytes stand
in `hPin`, and `exec` runs E_PLANE as far as they allow (log entries 1 and 7). -/
def Obligations.EPlaneWritesTheStream : Prop :=
  ∀ (plane rest : List Byte) (s : State), WriterInv s → s.hPin = plane ++ rest → plane.length < 2 ^ 32 →
    ∃ t, exec (.ePlane 0 (BitVec.ofNat 32 plane.length)) s = .next t ∧ WriterInv t ∧
      written t = written s ++ streamCode plane ++ padBits (written s ++ streamCode plane).length ∧
      t = { s with
        bwAcc := t.bwAcc, bwFree := t.bwFree, sout := t.sout, ccLen := BitVec.ofNat 32 plane.length, ccI := t.ccI,
        pin := plane, hPin := rest, activity := .drainSout .ok 0 }

/-- 44_channel_encoder.md R218, R219: with fewer than L bytes held out, E_PLANE takes them all and waits for more.
Model's choice: how far ahead bytes are taken (log entry 7). -/
def Obligations.EPlaneWaitsForItsBytes : Prop :=
  ∀ (len : Arg) (s : State), s.hPin.length < len.toNat →
    ∃ t, exec (.ePlane 0 len) s = .next t ∧ t.activity = .ePlane ∧ t.pin = s.hPin ∧ t.hPin = [] ∧ t.ccLen = len ∧
      OnlyEncoder s t

/-- 44_channel_encoder.md R219: whatever the host and the ports do while an E_PLANE runs, when it ends it has taken L
bytes, in the order offered, and has appended the stream of exactly those bytes. 44_channel_encoder.md R212 to R218;
70_reset_and_hazards.md R310: an E_PLANE that has waited goes on. Each move of the sequencer takes the byte held out on
`pin` or encodes the next seed or token; it waits only if no byte is held out, one is still owed and no seed or token is
determined; and at the end of the plane it flushes. Model's choice: the host's script, the grain of a step, and when a
byte is taken ahead of need (log entries 1, 3 and 7). -/
def Obligations.PlaneBytesMayArriveInPieces : Prop :=
  (∀ (len : Arg) (s s₁ t : State), WriterInv s → exec (.ePlane 0 len) s = .next s₁ →
    StepsWhile (fun u => u.activity = .ePlane) s₁ t → t.activity = .drainSout .ok 0 →
      t.pin.length = len.toNat ∧
      s.hPin ++ offeredPin s.hScript = t.pin ++ t.hPin ++ offeredPin t.hScript ∧
      written t = written s ++ streamCode t.pin ++ padBits (written s ++ streamCode t.pin).length) ∧
  (∀ s : State, s.activity = .ePlane → s.ccLen.toNat ≤ s.ccI.toNat →
    sequencer exec s = .next { flush s with activity := .drainSout .ok 0 }) ∧
  ∀ s : State, s.activity = .ePlane → s.ccI.toNat < s.ccLen.toNat →
    ∃ t, sequencer exec s = .next t ∧
      ((∃ b rest, s.hPin = b :: rest ∧ s.pin.length < s.ccLen.toNat ∧
          t = { s with pin := s.pin ++ [b], hPin := rest }) ∨
        EncodesNext s t ∨
        (t = s ∧ s.hPin = [] ∧ s.pin.length < s.ccLen.toNat ∧ ∀ u, ¬ EncodesNext s u))

/-- 44_channel_encoder.md R220, R221: planes of up to three bytes, and constant planes around the cap of 65535, from an
aligned writer. Model's choice: as for `EPlaneWritesTheStream` (log entries 1 and 7). -/
def Obligations.SmallAndCappedPlanes : Prop :=
  ∀ (s t : State) (plane : List Byte), WriterInv s → s.bwFree = 0 → s.hPin = plane →
    exec (.ePlane 0 (BitVec.ofNat 32 plane.length)) s = .next t →
      (plane.length ≤ 2 → t.sout = s.sout ++ plane) ∧
      (∀ a b c : Byte, plane = [a, b, c] →
        bitsOf t.sout = bitsOf s.sout ++ byteBits a ++ byteBits b ++ litCode c ++ zeroBits 6) ∧
      ∀ b : Byte,
        (plane = List.replicate 65537 b →
          bitsOf t.sout = bitsOf s.sout ++ byteBits b ++ byteBits b ++ runCode 65535) ∧
        (plane = List.replicate 65538 b →
          bitsOf t.sout = bitsOf s.sout ++ byteBits b ++ byteBits b ++ runCode 65535 ++ litCode b ++ zeroBits 6) ∧
        (plane = List.replicate 65539 b →
          bitsOf t.sout = bitsOf s.sout ++ byteBits b ++ byteBits b ++ runCode 65535 ++ runCode 2 ++ zeroBits 4)

/-- 60_exceptions.md R273: no command of the encoder half faults, touches the decoder half, or stops the machine. -/
def Obligations.EncoderNeverFaults : Prop :=
  ∀ (i : Instr) (s : State), isEncoderCommand i = true →
    ∃ t, exec i s = .next t ∧ OnlyEncoder s { t with soutTaken := s.soutTaken } ∧
      (t.activity = .ePlane ∨ t.activity = .drainSout .ok 0 ∨ t.activity = .respond .ok 0 ∨
        t.activity = .respond .illegal 0 ∨ t.activity = .respond .badarg 0)

/-! ### The bit reader -/

/-- 41_bit_reader.md R158: the inverse law, and that the position, `SIN` and `BR.closed` are the reader's whole state. -/
def Obligations.ReaderInverseLaw : Prop :=
  (∀ (c : Nat) (v : Arg) (rest : List Bool) (s : State), ReaderInv s → c ≤ 16 →
    (bitsOf s.sin).drop (bitPos s) = lowBits v c ++ rest →
      ∃ t, readField c s = .done (v.toNat % 2 ^ c) t ∧ bitPos t = bitPos s + c ∧ ReaderInv t ∧ OnlyReader s t) ∧
  ∀ s : State, ReaderInv s →
    s.brIdx = (bitPos s + 7) / 8 ∧ s.brLeft.toNat = 8 * s.brIdx - bitPos s ∧
      s.brCur = if s.brIdx = 0 then 0 else s.sin.getD (s.brIdx - 1) 0

/-- 41_bit_reader.md R151, R153, R154: a read takes all its bits, most significant first, or none: it waits while the
input is open and raises UNDERRUN with its width when it is closed. -/
def Obligations.ReadIsAllOrNothing : Prop :=
  (∀ s : State, ReaderInv s → avail s + bitPos s = 8 * s.sin.length) ∧
  (∀ (c : Nat) (s : State), c ≤ avail s →
    ∃ t, readField c s = .done (bitsValue ((toRead s).take c)) t ∧ toRead t = (toRead s).drop c ∧ OnlyReader s t) ∧
  (∀ (c : Nat) (s : State), avail s < c → s.brClosed = false → readField c s = .waits s) ∧
  ∀ (c : Nat) (s : State), avail s < c → s.brClosed = true → readField c s = .raises .underrun (BitVec.ofNat 32 c) s

/-- 41_bit_reader.md R159: a group may be read in two parts when its bits are there; when they are not and the input is
closed, the one read consumes nothing where the first of the two may have consumed its own. -/
def Obligations.ReadSplits : Prop :=
  (∀ (a b : Nat) (s : State), a + b ≤ 16 → a + b ≤ avail s →
    readField (a + b) s =
      (readField a s).andThen fun x t => (readField b t).andThen fun y u => .done ((x <<< b) ||| y) u) ∧
  ∀ (a b : Nat) (s : State), a ≤ avail s → avail s < a + b → s.brClosed = true →
    readField (a + b) s = .raises .underrun (BitVec.ofNat 32 (a + b)) s ∧
    ∃ x t, readField a s = .done x t ∧ avail t = avail s - a ∧
      readField b t = .raises .underrun (BitVec.ofNat 32 b) t

/-- 41_bit_reader.md R155, R157: D_ALIGN moves to the next byte boundary, reads nothing and changes nothing else. -/
def Obligations.DAlignMovesToTheBoundary : Prop :=
  (∀ s : State, s.derr = false → exec (.dAlign 0 0) s = .next { s with brLeft := 0, activity := .respond .ok 0 }) ∧
  ∀ s : State, ReaderInv s →
    ReaderInv (align s) ∧ bitPos (align s) = 8 * ((bitPos s + 7) / 8) ∧ align (align s) = align s ∧
      (bitPos s % 8 = 0 → align s = s)

/-- 41_bit_reader.md R156; 60_exceptions.md R264: D_RBITS returns its group; short of bits it waits for the host, or
takes the fault UNDERRUN with the reader where it was. -/
def Obligations.DRbitsReadsItsGroup : Prop :=
  ∀ (cnt : Cnt) (s : State), ReaderInv s → s.derr = false → cnt.toNat ≤ 16 →
    (cnt.toNat ≤ avail s →
      ∃ t, exec (.dRbits cnt 0) s = .next t ∧ ReaderInv t ∧ toRead t = (toRead s).drop cnt.toNat ∧
        bitPos t = bitPos s + cnt.toNat ∧
        t = { s with
          brIdx := t.brIdx, brCur := t.brCur, brLeft := t.brLeft,
          activity := .respond .ok (BitVec.ofNat 32 (bitsValue ((toRead s).take cnt.toNat))) }) ∧
    (avail s < cnt.toNat → s.brClosed = false → exec (.dRbits cnt 0) s = .next { s with activity := .dRbits cnt }) ∧
    (avail s < cnt.toNat → s.brClosed = true →
      exec (.dRbits cnt 0) s =
        .next { s with
          derr := true, dcode := 4, tokAt := .tag, activity := .drainPout .underrun (cnt.setWidth 32) })

/-! ### Counts and tokens as the reader's commands return them -/

/-- 42_count_codec.md R173, R175: D_COUNT returns the first field that is not zero, plus 3 in tier 2 only, whether or
not the spelling is canonical. -/
def Obligations.DCountReadsACount : Prop :=
  ∀ (s : State) (n : Nat) (bits rest : List Bool), ReaderInv s → s.derr = false → toRead s = bits ++ rest →
    ((∃ c : BitVec 2, c ≠ 0 ∧ bits = lowBits c 2 ∧ n = c.toNat) ∨
      (∃ c : BitVec 4, c ≠ 0 ∧ bits = zeroBits 2 ++ lowBits c 4 ∧ n = c.toNat + 3) ∨
      (∃ c : BitVec 8, c ≠ 0 ∧ bits = zeroBits 6 ++ lowBits c 8 ∧ n = c.toNat) ∨
      ∃ c : BitVec 16, c ≠ 0 ∧ bits = zeroBits 14 ++ lowBits c 16 ∧ n = c.toNat) →
    ∃ t, exec (.dCount 0 0) s = .next t ∧ ReaderInv t ∧ toRead t = rest ∧ bitPos t = bitPos s + bits.length ∧
      t = { s with
        brIdx := t.brIdx, brCur := t.brCur, brLeft := t.brLeft, tokAt := .tag,
        activity := .respond .ok (BitVec.ofNat 32 n) }

/-- 42_count_codec.md R174; 60_exceptions.md R266: 30 zero bits are no count: ZEROCOUNT, with the 30 bits consumed. -/
def Obligations.DCountRefusesZero : Prop :=
  ∀ (s : State) (rest : List Bool), ReaderInv s → s.derr = false → toRead s = zeroBits 30 ++ rest →
    ∃ t, exec (.dCount 0 0) s = .next t ∧ ReaderInv t ∧ toRead t = rest ∧ bitPos t = bitPos s + 30 ∧
      t = { s with
        brIdx := t.brIdx, brCur := t.brCur, brLeft := t.brLeft, tokAt := .tag, derr := true, dcode := 6,
        activity := .drainPout .zerocount 0 }

/-- 43_token_mux.md R195, R199: D_TOKEN returns what the token decoder of 30_encoding.md R94 reads at its position, in
the form of R106, or takes the fault of an illegal encoding (R265, R266); the token's bits are consumed, and nothing is
executed. -/
def Obligations.DTokenReadsAToken : Prop :=
  ∀ (s : State) (i : Instr), ReaderInv s → s.derr = false → decodeToken (toRead s) = .ok i →
    ∃ t, exec (.dToken 0 0) s = .next t ∧ ReaderInv t ∧
      toRead t = (toRead s).drop ((encode i).bits).length ∧ bitPos t = bitPos s + ((encode i).bits).length ∧
      t = { s with
        brIdx := t.brIdx, brCur := t.brCur, brLeft := t.brLeft, tokAt := .tag,
        derr := t.derr, dcode := t.dcode, activity := tokenAnswer i } ∧
      (t.derr, t.dcode) =
        if i = .illegalTag00 ∨ i = .illegalTag11 then (true, 5)
        else if i = .illegalZeroCount then (true, 6) else (false, s.dcode)

/-- 41_bit_reader.md R154; 42_count_codec.md R179; 43_token_mux.md R199; 45_channel_decoder.md R237; 60_exceptions.md
R264: a token, a count or a seed whose bits end early, in D_TOKEN, in D_COUNT and in a running D_PLANE, whether it
begins the token or stands inside it. The fields before the one that is short stay consumed; that one waits, or on a
closed input raises UNDERRUN with its own width. (Short groups of D_RBITS are in `DRbitsReadsItsGroup`, whole streams
that end early in `DPlaneEndsAsItSays`.) Model's choice: a wait is a next state that is taken up again (log entries 5,
7 and 8). -/
def Obligations.TokensEndEarly : Prop :=
  (∀ (s : State) (f : TokField) (rest : List Bool), ReaderInv s → s.derr = false →
    toRead s = bitsBefore f ++ rest → rest.length < fieldWidth f →
    ∃ t, exec (.dToken 0 0) s = .next t ∧ ReaderInv t ∧ toRead t = rest ∧
      bitPos t = bitPos s + (bitsBefore f).length ∧
      (s.brClosed = false →
        t = { s with brIdx := t.brIdx, brCur := t.brCur, brLeft := t.brLeft, tokAt := f, activity := .dToken }) ∧
      (s.brClosed = true →
        t = { s with
          brIdx := t.brIdx, brCur := t.brCur, brLeft := t.brLeft, tokAt := .tag, derr := true, dcode := 4,
          activity := .drainPout .underrun (BitVec.ofNat 32 (fieldWidth f)) })) ∧
  (∀ (s : State) (f : TokField) (rest : List Bool), ReaderInv s → s.derr = false → f ∈ [.c2, .c4, .c8, .c16] →
    toRead s = countBitsBefore f ++ rest → rest.length < fieldWidth f →
    ∃ t, exec (.dCount 0 0) s = .next t ∧ ReaderInv t ∧ toRead t = rest ∧
      bitPos t = bitPos s + (countBitsBefore f).length ∧
      (s.brClosed = false →
        t = { s with brIdx := t.brIdx, brCur := t.brCur, brLeft := t.brLeft, tokAt := f, activity := .dCount }) ∧
      (s.brClosed = true →
        t = { s with
          brIdx := t.brIdx, brCur := t.brCur, brLeft := t.brLeft, tokAt := .tag, derr := true, dcode := 4,
          activity := .drainPout .underrun (BitVec.ofNat 32 (fieldWidth f)) })) ∧
  (∀ s : State, s.activity = .dPlane → s.cxN.toNat < s.cxLen.toNat → s.cxN.toNat < 2 → (toRead s).length < 8 →
    (s.brClosed = false → sequencer exec s = .next s) ∧
    (s.brClosed = true →
      sequencer exec s =
        .next { s with derr := true, dcode := 4, tokAt := .tag, activity := .drainPout .underrun 8 })) ∧
  ∀ (s : State) (f : TokField) (rest : List Bool), ReaderInv s → s.activity = .dPlane → 2 ≤ s.cxN.toNat →
    s.cxN.toNat < s.cxLen.toNat → bitsBefore s.tokAt ++ toRead s = bitsBefore f ++ rest →
    rest.length < fieldWidth f →
    ∃ t, sequencer exec s = .next t ∧ ReaderInv t ∧ toRead t = rest ∧
      bitPos t + (bitsBefore s.tokAt).length = bitPos s + (bitsBefore f).length ∧
      (s.brClosed = false →
        t = { s with brIdx := t.brIdx, brCur := t.brCur, brLeft := t.brLeft, tokAt := f }) ∧
      (s.brClosed = true →
        t = { s with
          brIdx := t.brIdx, brCur := t.brCur, brLeft := t.brLeft, tokAt := .tag, derr := true, dcode := 4,
          activity := .drainPout .underrun (BitVec.ofNat 32 (fieldWidth f)) })

/-- 42_count_codec.md R180: a reader that stands where the writer stood reads back the count that was written. -/
def Obligations.CountRoundTrip : Prop :=
  ∀ (n : Arg) (w r : State), WriterInv w → ReaderInv r → r.derr = false → 1 ≤ n.toNat → n.toNat ≤ 65535 →
    bitPos r = (written w).length → written (encodeCount n w) <+: bitsOf r.sin →
    ∃ t, exec (.dCount 0 0) r = .next t ∧ t.activity = .respond .ok n ∧
      bitPos t = (written (encodeCount n w)).length

/-- 43_token_mux.md R209: a reader that stands where the writer stood reads back the token that was written. -/
def Obligations.TokenRoundTrip : Prop :=
  ∀ w r : State, WriterInv w → ReaderInv r → r.derr = false → bitPos r = (written w).length →
    (∀ b : Arg, written (emitLit b w) <+: bitsOf r.sin →
      ∃ t, readToken r = .done (.lit (b.toNat % 256)) t ∧ bitPos t = (written (emitLit b w)).length) ∧
    ∀ n : Arg, 2 ≤ n.toNat → n.toNat ≤ 65535 → written (emitRun n w) <+: bitsOf r.sin →
      ∃ t, readToken r = .done (.run n.toNat) t ∧ bitPos t = (written (emitRun n w)).length

/-- 20_memory.md R71; 41_bit_reader.md R154: a D_RBITS, D_COUNT or D_TOKEN that waited, and is then given more bytes or
the close of the input or both, goes on as it would have with them from the start. Model's choice: a wait is a next state
that is taken up again (log entries 5 and 8). -/
def Obligations.ReadsResumeWhereTheyWaited : Prop :=
  ∀ (i : Instr) (s t : State) (more : List Byte) (closed : Bool),
    (∃ cnt, i = .dRbits cnt 0) ∨ i = .dCount 0 0 ∨ i = .dToken 0 0 →
    exec i s = .next t → readsInput t.activity = true →
    sequencer exec { t with sin := t.sin ++ more, brClosed := closed } =
      exec i { s with sin := s.sin ++ more, brClosed := closed }

/-! ### Tokens as D_PLANE executes them -/

/-- 43_token_mux.md R201, R202: SEED and LIT read their bits and emit their sample; a LIT that waited inside its token
reads what is left of it (log entry 5). -/
def Obligations.SeedAndLitEmitTheirSample : Prop :=
  (∀ (s : State) (b : Byte) (rest : List Bool), ReaderInv s → toRead s = byteBits b ++ rest →
    ∃ t, exec (.seed b) s = .next t ∧ ReaderInv t ∧ toRead t = rest ∧ bitPos t = bitPos s + 8 ∧
      t = { s with
        brIdx := t.brIdx, brCur := t.brCur, brLeft := t.brLeft,
        pout := s.pout ++ [b], cxLast := b, cxN := s.cxN + 1 }) ∧
  ∀ (s : State) (b : Byte) (rest : List Bool), ReaderInv s →
    bitsBefore s.tokAt ++ toRead s = false :: true :: (byteBits b ++ rest) →
    ∃ t, exec (.lit b) s = .next t ∧ ReaderInv t ∧ toRead t = rest ∧
      bitPos t + (bitsBefore s.tokAt).length = bitPos s + 10 ∧
      t = { s with
        brIdx := t.brIdx, brCur := t.brCur, brLeft := t.brLeft, tokAt := .tag,
        pout := s.pout ++ [b], cxLast := b, cxN := s.cxN + 1 }

/-- 43_token_mux.md R203 to R207: a RUN of any tier, canonical or not, reads its bits and replicates `CX.last`; one that
waited inside its token reads what is left of it (log entry 5). -/
def Obligations.RunsReplicateTheLastByte : Prop :=
  ∀ (s : State) (i : Instr) (n : Nat) (rest : List Bool), ReaderInv s → i.WellFormed → runCountOf i = some n →
    bitsBefore s.tokAt ++ toRead s = (encode i).bits ++ rest → n ≤ remaining s →
    ∃ t, exec i s = .next t ∧ ReaderInv t ∧ toRead t = rest ∧
      bitPos t + (bitsBefore s.tokAt).length = bitPos s + ((encode i).bits).length ∧
      t = { s with
        brIdx := t.brIdx, brCur := t.brCur, brLeft := t.brLeft, tokAt := .tag,
        pout := s.pout ++ List.replicate n s.cxLast, cxN := s.cxN + BitVec.ofNat 32 n }

/-- 60_exceptions.md R267: a RUN longer than the rest of the plane is consumed whole, emits nothing and takes the fault
OVERRUN with its count, also where it waited inside its token (log entry 5). -/
def Obligations.RunsNeverOverrun : Prop :=
  ∀ (s : State) (i : Instr) (n : Nat) (rest : List Bool), ReaderInv s → i.WellFormed → runCountOf i = some n →
    bitsBefore s.tokAt ++ toRead s = (encode i).bits ++ rest → remaining s < n →
    ∃ t, exec i s = .next t ∧ ReaderInv t ∧ toRead t = rest ∧
      bitPos t + (bitsBefore s.tokAt).length = bitPos s + ((encode i).bits).length ∧
      t = { s with
        brIdx := t.brIdx, brCur := t.brCur, brLeft := t.brLeft, tokAt := .tag, derr := true, dcode := 7,
        activity := .drainPout .overrun (BitVec.ofNat 32 n) }

/-- 60_exceptions.md R265, R266: tags `00` and `11` take the fault BADTAG with the tag, 2 bits consumed; the all-zero
count takes ZEROCOUNT, 32 bits consumed, also where a wait came inside it (log entry 5); nothing is emitted. -/
def Obligations.IllegalEncodingsFault : Prop :=
  (∀ (s : State) (rest : List Bool) (i : Instr) (tag : Arg), ReaderInv s →
    (i = .illegalTag00 ∧ tag = 0 ∨ i = .illegalTag11 ∧ tag = 3) →
    bitsBefore s.tokAt ++ toRead s = (encode i).bits ++ rest →
    ∃ t, exec i s = .next t ∧ ReaderInv t ∧ toRead t = rest ∧
      bitPos t + (bitsBefore s.tokAt).length = bitPos s + 2 ∧
      t = { s with
        brIdx := t.brIdx, brCur := t.brCur, brLeft := t.brLeft, tokAt := .tag, derr := true, dcode := 5,
        activity := .drainPout .badtag tag }) ∧
  ∀ (s : State) (rest : List Bool), ReaderInv s →
    bitsBefore s.tokAt ++ toRead s = true :: false :: (zeroBits 30 ++ rest) →
    ∃ t, exec .illegalZeroCount s = .next t ∧ ReaderInv t ∧ toRead t = rest ∧
      bitPos t + (bitsBefore s.tokAt).length = bitPos s + 32 ∧
      t = { s with
        brIdx := t.brIdx, brCur := t.brCur, brLeft := t.brLeft, tokAt := .tag, derr := true, dcode := 6,
        activity := .drainPout .zerocount 0 }

/-! ### D_PLANE -/

/-- 45_channel_decoder.md R238: planes of 0, 1 and 2 bytes are the stream's own bytes; the reader ends aligned. Model's
choice: log entry 7. -/
def Obligations.DPlaneOfSmallPlanes : Prop :=
  ∀ (s : State) (plane : List Byte) (rest : List Bool), ReaderInv s → s.derr = false → plane.length ≤ 2 →
    toRead s = bitsOf plane ++ rest →
    ∃ t, exec (.dPlane 0 (BitVec.ofNat 32 plane.length)) s = .next t ∧ t.activity = .drainPout .ok 0 ∧
      t.pout = s.pout ++ plane ∧ ReaderInv t ∧ bitPos t = 8 * ((bitPos s + 7) / 8 + plane.length) ∧
      OnlyDecoder s t

/-- 45_channel_decoder.md R234 to R236, R241: D_PLANE on any stream of two seeds and tokens whose counts add up to L,
canonical or not, at any bit position, with anything after it: it ends OK, has appended the bytes the tokens stand for,
and leaves the reader at the next byte boundary. Model's choice: `exec` runs D_PLANE as far as the bytes allow (log
entry 7). -/
def Obligations.DPlaneExecutesTheStream : Prop :=
  ∀ (s : State) (b₀ b₁ : Byte) (tokens : List Instr) (rest : List Bool), ReaderInv s → s.derr = false →
    (∀ i ∈ tokens, IsToken i) → (tokenListBytes b₁ tokens).length + 2 < 2 ^ 32 →
    toRead s = byteBits b₀ ++ byteBits b₁ ++ tokenListBits tokens ++ rest →
    ∃ t, exec (.dPlane 0 (BitVec.ofNat 32 ((tokenListBytes b₁ tokens).length + 2))) s = .next t ∧
      t.activity = .drainPout .ok 0 ∧ t.pout = s.pout ++ b₀ :: b₁ :: tokenListBytes b₁ tokens ∧
      t.derr = false ∧ ReaderInv t ∧
      bitPos t = 8 * ((bitPos s + 16 + (tokenListBits tokens).length + 7) / 8) ∧ OnlyDecoder s t

/-- 45_channel_decoder.md R239: `decode(encode(B), len(B)) == B` for every byte sequence B. Model's choice: `exec` runs
both commands as far as the bytes allow (log entries 1 and 7). -/
def Obligations.PlaneRoundTrip : Prop :=
  ∀ (plane more : List Byte) (e e' d : State), WriterInv e → e.bwFree = 0 → e.hPin = plane ++ more →
    plane.length < 2 ^ 32 → exec (.ePlane 0 (BitVec.ofNat 32 plane.length)) e = .next e' →
    ∃ stream, e'.sout = e.sout ++ stream ∧
      (ReaderInv d → d.brLeft = 0 → d.derr = false → stream <+: d.sin.drop d.brIdx →
        ∃ d', exec (.dPlane 0 (BitVec.ofNat 32 plane.length)) d = .next d' ∧ d'.activity = .drainPout .ok 0 ∧
          d'.pout = d.pout ++ plane ∧ d'.derr = false ∧ d'.brLeft = 0 ∧ d'.brIdx = d.brIdx + stream.length)

/-- 45_channel_decoder.md R235, R237; 60_exceptions.md R264, R267, R268: every D_PLANE that passes its checks goes on; it
waits only for an open input; ended OK it has appended exactly L bytes and stands at a byte boundary; ended in a fault
it has appended fewer than L, none is taken back, and the half is halted. A stream that ends early, in a seed or in any
field of a token after any tokens, has its bytes so far in `POUT`, and stands at the field that is short: it waits
there, or on a closed input takes UNDERRUN with that field's width. Model's choice: log entry 7. -/
def Obligations.DPlaneEndsAsItSays : Prop :=
  (∀ (len : Arg) (s : State), ReaderInv s → s.derr = false →
    ∃ t made, exec (.dPlane 0 len) s = .next t ∧ OnlyDecoder s t ∧ ReaderInv t ∧ bitPos s ≤ bitPos t ∧
      t.pout = s.pout ++ made ∧
      ((t.activity = .dPlane ∧ s.brClosed = false ∧ t.derr = false ∧ made.length < len.toNat) ∨
        (t.activity = .drainPout .ok 0 ∧ t.derr = false ∧ made.length = len.toNat ∧ t.brLeft = 0) ∨
        ∃ st info, isFaultStatus st = true ∧ t.activity = .drainPout st info ∧ t.derr = true ∧
          t.dcode = statusCode st ∧ made.length < len.toNat)) ∧
  (∀ (len : Arg) (s : State) (seeds : List Byte) (rest : List Bool), ReaderInv s → s.derr = false →
    seeds.length < 2 → seeds.length < len.toNat → toRead s = bitsOf seeds ++ rest → rest.length < 8 →
    ∃ t, exec (.dPlane 0 len) s = .next t ∧ ReaderInv t ∧ toRead t = rest ∧
      bitPos t = bitPos s + 8 * seeds.length ∧ t.pout = s.pout ++ seeds ∧ EndsShort s t .tag 8) ∧
  ∀ (len : Arg) (s : State) (b₀ b₁ : Byte) (tokens : List Instr) (f : TokField) (rest : List Bool), ReaderInv s →
    s.derr = false → (∀ i ∈ tokens, IsToken i) → (tokenListBytes b₁ tokens).length + 2 < len.toNat →
    toRead s = byteBits b₀ ++ byteBits b₁ ++ tokenListBits tokens ++ bitsBefore f ++ rest →
    rest.length < fieldWidth f →
    ∃ t, exec (.dPlane 0 len) s = .next t ∧ ReaderInv t ∧ toRead t = rest ∧
      bitPos t = bitPos s + 16 + (tokenListBits tokens).length + (bitsBefore f).length ∧
      t.pout = s.pout ++ b₀ :: b₁ :: tokenListBytes b₁ tokens ∧ EndsShort s t f (fieldWidth f)

/-- 20_memory.md R71; 41_bit_reader.md R154: however the bytes of the stream arrive while a D_PLANE runs, it ends as it
would have ended had all of them been there, and the input in its final state, when it began. 45_channel_decoder.md R234,
R235, R237: one that is taken up again with its plane complete ends at once: the closing align, then OK. Model's choice:
the host's script and the grain of a step (log entries 1, 3 and 7). -/
def Obligations.StreamBytesMayArriveInPieces : Prop :=
  (∀ (len : Arg) (s s₁ t : State) (st : Status) (info : Arg), s.derr = false → exec (.dPlane 0 len) s = .next s₁ →
    StepsWhile (fun u => u.activity = .dPlane) s₁ t → t.activity = .drainPout st info →
      s.sin <+: t.sin ∧
      ∃ u, exec (.dPlane 0 len) { s with sin := t.sin, brClosed := t.brClosed } = .next u ∧
        u.activity = t.activity ∧ u.pout = t.pout ∧ u.cxLast = t.cxLast ∧ readerPart u = readerPart t ∧
        u.derr = t.derr ∧ u.dcode = t.dcode) ∧
  ∀ s : State, s.activity = .dPlane → s.cxLen.toNat ≤ s.cxN.toNat →
    sequencer exec s = .next { s with brLeft := 0, activity := .drainPout .ok 0 }

/-! ### Rejections and faults -/

/-- 30_encoding.md R103: opcode 0 is always ILLEGAL. -/
def Obligations.ReservedOpcodeIsIllegal : Prop :=
  ∀ (word : CmdWord) (s : State), opOf word = 0 →
    ∃ cnt arg, decodeCommand word = .reservedOp0 cnt arg ∧
      exec (.reservedOp0 cnt arg) s = .next { s with activity := .respond .illegal 0 }

/-- 60_exceptions.md R261: exactly the words it names are ILLEGAL; an ILLEGAL command changes nothing, and the check
comes first. -/
def Obligations.IllegalCommandsAreRejected : Prop :=
  rspWord .illegal 0 = 0x100000000 ∧
  ∀ (word : CmdWord) (s : State),
    (illegalWord word → exec (decodeCommand word) s = .next { s with activity := .respond .illegal 0 }) ∧
    (¬ illegalWord word → ∀ t val, exec (decodeCommand word) s = .next t → t.activity ≠ .respond .illegal val)

/-- 60_exceptions.md R263, R270: while `DERR` = 1 exactly the well-formed D_RBITS, D_ALIGN, D_COUNT, D_TOKEN and D_PLANE
are HALTED, before their range check, and change nothing. -/
def Obligations.HaltedCommandsAreRejected : Prop :=
  rspWord .halted 0 = 0x300000000 ∧
  ∀ (word : CmdWord) (s : State), ¬ illegalWord word →
    (haltableWord word → s.derr = true →
      exec (decodeCommand word) s = .next { s with activity := .respond .halted 0 }) ∧
    (¬ (haltableWord word ∧ s.derr = true) →
      ∀ t val, exec (decodeCommand word) s = .next t → t.activity ≠ .respond .halted val)

/-- 60_exceptions.md R262, R270: exactly the operands out of the table's ranges are BADARG, after the other two checks,
and change nothing. -/
def Obligations.BadArgumentsAreRejected : Prop :=
  rspWord .badarg 0 = 0x200000000 ∧
  ∀ (word : CmdWord) (s : State), ¬ illegalWord word → ¬ (haltableWord word ∧ s.derr = true) →
    (badargWord word → exec (decodeCommand word) s = .next { s with activity := .respond .badarg 0 }) ∧
    (¬ badargWord word → ∀ t val, exec (decodeCommand word) s = .next t → t.activity ≠ .respond .badarg val)

/-- 60_exceptions.md R273, R275: every command ends only with the outcomes of its row, and waits only for what its last
column says, when it executes and, for the five that can wait for input, in every later move of the sequencer. There a
D_ command has passed its checks: it goes on waiting, or ends OK or in a fault of its row; E_PLANE goes on or ends OK.
Model's choice: a command that waits is taken up again (log entries 5, 7 and 8). -/
def Obligations.OutcomesOfTheTable : Prop :=
  (∀ (i : Instr) (s t : State), i.isWire = false → exec i s = .next t → mayLeave i t.activity = true) ∧
  ∀ s t : State, sequencer exec s = .next t →
    (s.activity = .ePlane → t.activity = .ePlane ∨ t.activity = .drainSout .ok 0) ∧
    (∀ cnt, s.activity = .dRbits cnt →
      t.activity = .dRbits cnt ∨ (∃ v, t.activity = .respond .ok v) ∨ FaultedWith [.underrun] t) ∧
    (s.activity = .dCount →
      t.activity = .dCount ∨ (∃ v, t.activity = .respond .ok v) ∨ FaultedWith [.underrun, .zerocount] t) ∧
    (s.activity = .dToken →
      t.activity = .dToken ∨ (∃ v, t.activity = .respond .ok v) ∨
        FaultedWith [.underrun, .badtag, .zerocount] t) ∧
    (s.activity = .dPlane →
      t.activity = .dPlane ∨ t.activity = .drainPout .ok 0 ∨
        FaultedWith [.underrun, .badtag, .zerocount, .overrun] t)

/-- 60_exceptions.md R268: what fault entry sets. 20_memory.md R70; 40_bit_writer.md R138 to R140; 44_channel_encoder.md
R218; 46_system_commands.md R253: the response is presented exactly when every byte of `POUT`, or of `SOUT`, has been
taken, and the command is over exactly when the host, ready for it, has taken the response. Model's choice: a wait is a
next state with nothing changed (log entries 5 and 8). -/
def Obligations.FaultEntryThenDelivery : Prop :=
  (∀ (st : Status) (info : Arg) (s : State),
    faultEntry st info s =
      { s with derr := true, dcode := statusCode st, tokAt := .tag, activity := .drainPout st info }) ∧
  (∀ (st : Status) (info : Arg) (s : State), s.activity = .drainPout st info →
    (s.poutTaken < s.pout.length → sequencer exec s = .next s) ∧
    (s.pout.length ≤ s.poutTaken → sequencer exec s = .next { s with activity := .respond st info })) ∧
  (∀ (st : Status) (val : Arg) (s : State), s.activity = .drainSout st val →
    (s.soutTaken < s.sout.length → sequencer exec s = .next s) ∧
    (s.sout.length ≤ s.soutTaken → sequencer exec s = .next { s with activity := .respond st val })) ∧
  ∀ (st : Status) (val : Arg) (s : State), s.activity = .respond st val →
    (s.hRspReady = false → sequencer exec s = .next s) ∧
    (s.hRspReady = true →
      sequencer exec s =
        .next { s with activity := .idle, seqBusy := false, hRspGot := s.hRspGot ++ [rspWord st val] })

/-- 10_state.md R37; 60_exceptions.md R269: in every step, `DERR` is set only by a fault entry, which sets `DCODE` to
its code; once set, both keep their values until a D_CLR or reset clears them. Model's choice: what a step is (log
entries 1 and 3). -/
def Obligations.DerrIsStickyUntilCleared : Prop :=
  ∀ s t : State, Inv s → step s = .next t →
    (s.derr = false → t.derr = true →
      ∃ st info, isFaultStatus st = true ∧ t.activity = .drainPout st info ∧ t.dcode = statusCode st) ∧
    (s.derr = true →
      (t.derr = true ∧ t.dcode = s.dcode) ∨
        (t.derr = false ∧ t.dcode = 0 ∧ (ResetNext s ∨ AcceptsNext s clearDecoderWord)))

/-! ### System commands, status registers, reset -/

/-- 46_system_commands.md R250, R251: E_CLR and D_CLR put their half at its reset values and leave the other half
alone; D_CLR does so in the halted state too. Model's choice: the fields `tokAt`, `soutTaken` and `poutTaken` of the
halves (log entries 5 and 6). -/
def Obligations.ClearCommandsReset : Prop :=
  ∀ s : State,
    (∃ t, exec (.eClr 0 0) s = .next t ∧ t.activity = .respond .ok 0 ∧ encHalf t = encHalf State.reset ∧
      decHalf t = decHalf s ∧ hostSide t = hostSide s ∧ t.seqBusy = s.seqBusy) ∧
    ∃ t, exec (.dClr 0 0) s = .next t ∧ t.activity = .respond .ok 0 ∧ decHalf t = decHalf State.reset ∧
      encHalf t = encHalf s ∧ hostSide t = hostSide s ∧ t.seqBusy = s.seqBusy

/-- 10_state.md R38: the fields of STATUS. -/
def Obligations.StatusFields : Prop :=
  ∀ s : State,
    (sr0 s).getLsbD 0 = s.derr ∧ (sr0 s).extractLsb' 1 3 = 0 ∧ (sr0 s).extractLsb' 4 4 = s.dcode ∧
    (sr0 s).extractLsb' 8 3 = s.bwFree ∧ (sr0 s).getLsbD 11 = false ∧ (sr0 s).extractLsb' 12 3 = s.brLeft ∧
    (sr0 s).getLsbD 15 = false ∧ (sr0 s).getLsbD 16 = s.brClosed ∧ (sr0 s).extractLsb' 17 15 = 0 ∧
    sr0 State.reset = 0

/-- 46_system_commands.md R252; 10_state.md R39 to R41: RDSR returns the register and changes nothing. -/
def Obligations.RdsrReadsTheRegisters : Prop :=
  ∀ s : State,
    exec (.rdsr 0 0) s = .next { s with activity := .respond .ok (sr0 s) } ∧
    exec (.rdsr 0 1) s = .next { s with activity := .respond .ok ((0 : BitVec 24) ++ s.bwAcc) } ∧
    exec (.rdsr 0 2) s = .next { s with activity := .respond .ok ((0 : BitVec 24) ++ s.brCur) } ∧
    exec (.rdsr 0 3) s = .next { s with activity := .respond .ok ((0 : BitVec 24) ++ s.cxLast) }

/-- 10_state.md R45; 70_reset_and_hazards.md R290: reset puts every piece of the block's state at the value of the
table, whatever the block was doing. Model's choice: the values of the model's own fields and of the host's side (log
entry 2). -/
def Obligations.ResetValues : Prop :=
  (∀ s : State,
    encHalf (resetBlock s) = encHalf State.reset ∧ decHalf (resetBlock s) = decHalf State.reset ∧
      (resetBlock s).seqBusy = false ∧ (resetBlock s).activity = .idle ∧ (resetBlock s).hRspGot = s.hRspGot ∧
      hostAct .assertReset s = resetBlock s) ∧
  encHalf State.reset = (0, 0, [], 0, 0, [], 0) ∧
  readerPart State.reset = ([], 0, 0, 0, false) ∧
  decHalf State.reset = (readerPart State.reset, 0, 0, 0, [], false, 0, .tag, 0) ∧
  State.reset.seqBusy = false ∧
  sr0 State.reset = 0 ∧ sr1 State.reset = 0 ∧ sr2 State.reset = 0 ∧ sr3 State.reset = 0

/-! ### The whole machine -/

/-- The invariant holds at reset. It holds of the model's own fields by the values of log entry 2. -/
def Obligations.ResetMeetsTheInvariant : Prop := Inv State.reset

/-- Every step keeps the invariant: 10_state.md R22 to R24, R26, R27, R29 to R31, R33, R37, R42; 20_memory.md R70.
Model's choice: what a step is, and the fields of log entries 1, 3, 5 and 6. -/
def Obligations.StepKeepsTheInvariant : Prop := ∀ s t : State, Inv s → step s = .next t → Inv t

/-- The machine never stops: from every state a step answers a next state (60_exceptions.md R260: every abnormal
condition is a response; 30_encoding.md R96: every bit pattern is a token or an illegal encoding that faults). Model's
choice: a wait is a next state (log entries 8 and 10). -/
def Obligations.NoStateStopsTheMachine : Prop := ∀ s : State, ∃ t, step s = .next t

/-- 10_state.md R20: the halves share nothing. What a command of the E_ group does depends on the encoder half and the
bytes on `pin` only, and leaves the decoder half alone; what a command of the D_ group or a token does depends on the
decoder half only, and leaves the encoder half alone; RDSR writes neither. Model's choice: the fields of log entries 1,
5 and 6. -/
def Obligations.HalvesShareNothing : Prop :=
  (∀ (i : Instr) (s s' t : State), isEncoderCommand i = true → encHalf s = encHalf s' → s.hPin = s'.hPin →
    exec i s = .next t →
    decHalf t = decHalf s ∧
    ∃ t', exec i s' = .next t' ∧ encHalf t' = encHalf t ∧ t'.hPin = t.hPin ∧ t'.activity = t.activity) ∧
  (∀ (i : Instr) (s s' t : State), isDecoderInstr i = true → decHalf s = decHalf s' → s.activity = s'.activity →
    exec i s = .next t →
    encHalf t = encHalf s ∧
    ∃ t', exec i s' = .next t' ∧ decHalf t' = decHalf t ∧ t'.activity = t.activity) ∧
  ∀ (cnt : Cnt) (arg : Arg) (s t : State), exec (.rdsr cnt arg) s = .next t →
    encHalf t = encHalf s ∧ decHalf t = decHalf s

/-- 46_system_commands.md R253; 45_channel_decoder.md R234: a step of the block runs the instruction it fetches. A word
held out on `cmd` of an idle block is accepted and executed; a token that stands at the fetch pointer of a running
D_PLANE is executed. Around it a step does the next action of the host's script, or gives the data ports their clock
edge and the sequencer one move. Model's choice: what a step is (log entries 1 and 3), and that D_PLANE is taken up
again one token a step (log entry 7). -/
def Obligations.StepRunsWhatItFetches : Prop :=
  (∀ s u : State, (turn s = .block u → step s = sequencer exec u) ∧ (turn s = .host u → step s = .next u)) ∧
  (∀ s : State, s.hScript = [] → turn s = .block (portBeats s)) ∧
  (∀ (s : State) (rest : List HostAct), s.hScript = .letBlockMove :: rest →
    turn s = .block (portBeats { s with hScript := rest })) ∧
  (∀ (s : State) (a : HostAct) (rest : List HostAct), s.hScript = a :: rest → a ≠ .letBlockMove →
    turn s = .host (hostAct a { s with hScript := rest })) ∧
  (∀ (s u : State) (word : CmdWord) (rest : List CmdWord), turn s = .block u → u.activity = .idle →
    u.seqBusy = false → u.hCmd = word :: rest →
    step s = exec (decodeCommand word) { u with hCmd := rest, seqBusy := true }) ∧
  ∀ (s u : State) (i : Instr), turn s = .block u → u.activity = .dPlane → u.cxN.toNat < u.cxLen.toNat →
    fetch u = .ok i → step s = exec i u

/-- 46_system_commands.md R253, R254; 30_encoding.md R104: a command word is taken only from an idle sequencer, one at
a time; the sequencer becomes idle again only by the one response it owes, or by reset. Model's choice: what a step is
(log entries 1 and 3). -/
def Obligations.OneCommandOneResponse : Prop :=
  ∀ s t : State, Inv s → step s = .next t → ¬ ResetNext s →
    (s.seqBusy = true → s.hCmd <+: t.hCmd) ∧
    (s.seqBusy = false → t.hRspGot = s.hRspGot ∧
      ((t.seqBusy = false ∧ s.hCmd <+: t.hCmd) ∨ (t.seqBusy = true ∧ ∃ word, s.hCmd = word :: t.hCmd))) ∧
    (s.seqBusy = true →
      (t.seqBusy = true ∧ t.hRspGot = s.hRspGot) ∨
        (t.seqBusy = false ∧ ∃ st val, s.activity = .respond st val ∧ t.hRspGot = s.hRspGot ++ [rspWord st val]))

/-- 10_state.md R32; 20_memory.md R70; 30_encoding.md R111, R112: a closed input accepts no byte and stays closed until
D_CLR or reset, which leave it open; an open one only grows. At the clock edge of a turn of the block the byte held out
on `sin` of an open input is appended to `SIN`; the level of `sin_eos` with no byte offered closes the input, then or
when the host raises it, and in no step does anything else close it. Model's choice: what a step is (log entries 1
and 3). -/
def Obligations.ClosedInputStaysClosed : Prop :=
  (∀ s t : State, step s = .next t →
    (s.brClosed = true ∧ t.brClosed = true ∧ t.sin = s.sin) ∨
      (s.brClosed = false ∧ s.sin <+: t.sin ∧
        (t.brClosed = true → s.hSin = [] ∧ (s.hEos = true ∨ s.hScript.head? = some (.driveEos true)))) ∨
      (t.sin = [] ∧ t.brClosed = false ∧ (ResetNext s ∨ AcceptsNext s clearDecoderWord))) ∧
  (∀ s u : State, turn s = .block u →
    (∀ b rest, s.hSin = b :: rest → s.brClosed = false →
      u.sin = s.sin ++ [b] ∧ u.hSin = rest ∧ u.brClosed = false) ∧
    (s.brClosed = true → u.sin = s.sin ∧ u.hSin = s.hSin ∧ u.brClosed = true) ∧
    (s.hSin = [] → u.sin = s.sin ∧ u.hSin = [] ∧ u.brClosed = (s.brClosed || s.hEos))) ∧
  ∀ s : State, s.hSin = [] → hostAct (.driveEos true) s = { s with hEos := true, brClosed := true }

/-- 10_state.md R42: the token fetch pointer is never set backwards and never passes the end of `SIN`; only D_CLR and
reset put it back to 0. Model's choice: what a step is (log entries 1 and 3). -/
def Obligations.FetchPointerNeverGoesBack : Prop :=
  ∀ s t : State, Inv s → step s = .next t →
    bitPos t ≤ 8 * t.sin.length ∧
    (bitPos s ≤ bitPos t ∨ (bitPos t = 0 ∧ (ResetNext s ∨ AcceptsNext s clearDecoderWord)))

/-- 10_state.md R25, R35; 20_memory.md R70; 30_encoding.md R110, R111: bytes of `SOUT` and `POUT` are never changed or
dropped; only E_CLR, D_CLR and reset empty them. At the clock edge of a turn of the block the host that is ready takes
the next byte of each that it has not taken, once and in order; one that is not ready, or has taken all, takes none.
Model's choice: what a step is (log entries 1, 3 and 6). -/
def Obligations.OutputsOnlyGrow : Prop :=
  (∀ s t : State, step s = .next t →
    (s.sout <+: t.sout ∨ (t.sout = [] ∧ (ResetNext s ∨ AcceptsNext s clearEncoderWord))) ∧
    (s.pout <+: t.pout ∨ (t.pout = [] ∧ (ResetNext s ∨ AcceptsNext s clearDecoderWord)))) ∧
  ∀ s u : State, turn s = .block u →
    u.sout = s.sout ∧ u.pout = s.pout ∧
    (∀ b, s.sout[s.soutTaken]? = some b → s.hSoutReady = true →
      u.soutTaken = s.soutTaken + 1 ∧ u.hSoutGot = s.hSoutGot ++ [b]) ∧
    (s.hSoutReady = false ∨ s.sout.length ≤ s.soutTaken →
      u.soutTaken = s.soutTaken ∧ u.hSoutGot = s.hSoutGot) ∧
    (∀ b, s.pout[s.poutTaken]? = some b → s.hPoutReady = true →
      u.poutTaken = s.poutTaken + 1 ∧ u.hPoutGot = s.hPoutGot ++ [b]) ∧
    (s.hPoutReady = false ∨ s.pout.length ≤ s.poutTaken →
      u.poutTaken = s.poutTaken ∧ u.hPoutGot = s.hPoutGot)
end

