-- ==== Sys2Proof/Laws/Bits.lean ====
section
/-! SUPPORT. Bit strings: lengths, splitting, and that a field reads back the value whose bits were written
(20_memory.md R62, R63). -/

namespace Sys2Proof

@[simp] theorem lowBits_length {w : Nat} (v : BitVec w) (k : Nat) : (lowBits v k).length = k := by
  induction k with
  | zero => rfl
  | succ k ih => simp [lowBits, ih]

@[simp] theorem byteBits_length (b : Byte) : (byteBits b).length = 8 := lowBits_length b 8

@[simp] theorem zeroBits_length (n : Nat) : (zeroBits n).length = n := by simp [zeroBits]

@[simp] theorem bitsOf_nil : bitsOf [] = [] := rfl

@[simp] theorem bitsOf_cons (b : Byte) (bytes : List Byte) : bitsOf (b :: bytes) = byteBits b ++ bitsOf bytes := rfl

@[simp] theorem bitsOf_append (xs ys : List Byte) : bitsOf (xs ++ ys) = bitsOf xs ++ bitsOf ys := by
  simp [bitsOf]

@[simp] theorem bitsOf_length (bytes : List Byte) : (bitsOf bytes).length = 8 * bytes.length := by
  induction bytes with
  | nil => rfl
  | cons b bytes ih => simp [ih]; omega

/-- Two values with the same low bits give the same bit string. -/
theorem lowBits_congr {w w' : Nat} {v : BitVec w} {v' : BitVec w'} (k : Nat)
    (h : ∀ i < k, v.getLsbD i = v'.getLsbD i) : lowBits v k = lowBits v' k := by
  induction k with
  | zero => rfl
  | succ k ih => simp [lowBits, h k (by omega), ih fun i hi => h i (by omega)]

/-- The low bits of `v` split at bit `b`. -/
theorem lowBits_add {w : Nat} (v : BitVec w) (a b : Nat) :
    lowBits v (a + b) = lowBits (v >>> b) a ++ lowBits v b := by
  induction a with
  | zero => simp [lowBits]
  | succ a ih =>
    have h : a + 1 + b = (a + b) + 1 := by omega
    rw [h, lowBits, ih]
    simp [lowBits, Nat.add_comm]

theorem lowBits_zero (w k : Nat) : lowBits (0 : BitVec w) k = zeroBits k := by
  induction k with
  | zero => rfl
  | succ k ih => rw [lowBits, ih]; simp [zeroBits, List.replicate_succ]

@[simp] theorem bitsValue_nil : bitsValue [] = 0 := rfl

theorem bitsValue_append_one (bits : List Bool) (b : Bool) :
    bitsValue (bits ++ [b]) = 2 * bitsValue bits + b.toNat := by simp [bitsValue]

/-- The accumulator of `read_bits`: a value read so far, and the bits still to come. -/
theorem foldl_bits (bits : List Bool) (v : Nat) :
    bits.foldl (fun v b => 2 * v + b.toNat) v = v * 2 ^ bits.length + bitsValue bits := by
  induction bits generalizing v with
  | nil => simp
  | cons b bits ih =>
    rw [bitsValue, List.foldl_cons, List.foldl_cons, ih, ih (2 * 0 + b.toNat)]
    simp [pow_succ]; ring

theorem bitsValue_cons (b : Bool) (bits : List Bool) :
    bitsValue (b :: bits) = b.toNat * 2 ^ bits.length + bitsValue bits := by
  rw [bitsValue, List.foldl_cons, foldl_bits]; simp

theorem bitsValue_append (xs ys : List Bool) :
    bitsValue (xs ++ ys) = bitsValue xs * 2 ^ ys.length + bitsValue ys := by
  rw [bitsValue, List.foldl_append, foldl_bits]; rfl

theorem bitsValue_lt (bits : List Bool) : bitsValue bits < 2 ^ bits.length := by
  induction bits with
  | nil => simp
  | cons b bits ih =>
    rw [bitsValue_cons, List.length_cons, pow_succ]
    cases b <;> simp <;> omega

/-- Reading back a group gives its low bits as a number (41_bit_reader.md R158). -/
theorem bitsValue_lowBits {w : Nat} (v : BitVec w) (k : Nat) : bitsValue (lowBits v k) = v.toNat % 2 ^ k := by
  induction k with
  | zero => simp [lowBits, Nat.mod_one]
  | succ k ih =>
    rw [lowBits, bitsValue_cons, ih, lowBits_length, Nat.mod_pow_succ, BitVec.getLsbD, Nat.testBit_eq_decide_div_mod_eq]
    rcases Nat.mod_two_eq_zero_or_one (v.toNat / 2 ^ k) with h | h <;> (simp [h]; try ring)

@[simp] theorem bitsValue_zeroBits (n : Nat) : bitsValue (zeroBits n) = 0 := by
  rw [← lowBits_zero 1 n, bitsValue_lowBits]; simp

/-- A field all of whose bits are 0 is 0. -/
theorem eq_zero_of_lowBits {w : Nat} {c : BitVec w} {r r' : List Bool} (h : lowBits c w ++ r = zeroBits w ++ r') :
    c = 0 := by
  have h2 := congrArg bitsValue (List.append_inj h (by simp)).1
  rw [bitsValue_lowBits, bitsValue_zeroBits, Nat.mod_eq_of_lt c.isLt] at h2
  exact BitVec.eq_of_toNat_eq (by simpa using h2)

/-- A bit string is the bits of its value. -/
theorem lowBits_bitsValue (w : Nat) (bits : List Bool) (h : bits.length ≤ w) :
    lowBits (BitVec.ofNat w (bitsValue bits)) bits.length = bits := by
  induction bits with
  | nil => rfl
  | cons b bits ih =>
    have hlt := bitsValue_lt bits
    have hlen : bits.length < w := by simp at h; omega
    rw [List.length_cons, lowBits]
    congr 1
    · rw [BitVec.getLsbD_ofNat, bitsValue_cons, Nat.testBit_eq_decide_div_mod_eq]
      rw [Nat.mul_comm, Nat.mul_add_div (by positivity), Nat.div_eq_of_lt hlt]
      cases b <;> simp [hlen]
    · refine (lowBits_congr _ fun i hi => ?_).trans (ih (by omega))
      rw [BitVec.getLsbD_ofNat, BitVec.getLsbD_ofNat, bitsValue_cons, Nat.mul_comm,
        Nat.testBit_two_pow_mul_add _ hlt]
      simp [hi]

/-- A field that was written is read back, and the bits after it are left. -/
@[simp] theorem takeField_lowBits {w : Nat} (v : BitVec w) (rest : List Bool) :
    takeField w (lowBits v w ++ rest) = some (v, rest) := by
  have h : bitsValue (lowBits v w) = v.toNat := by
    rw [bitsValue_lowBits]; exact Nat.mod_eq_of_lt v.isLt
  simp [takeField, h]

/-- What a field read is made of. -/
theorem takeField_eq_some {w : Nat} {bits rest : List Bool} {v : BitVec w} (h : takeField w bits = some (v, rest)) :
    bits = lowBits v w ++ rest := by
  unfold takeField at h
  split at h
  · cases h
  · rename_i hlen
    simp only [Option.some.injEq, Prod.mk.injEq] at h
    obtain ⟨rfl, rfl⟩ := h
    have hl : (bits.take w).length = w := by simp; omega
    have := lowBits_bitsValue w (bits.take w) (by omega)
    rw [hl] at this
    rw [this, List.take_append_drop]

theorem takeField_eq_none {w : Nat} {bits : List Bool} : takeField w bits = none ↔ bits.length < w := by
  unfold takeField; split <;> simp_all

end Sys2Proof
end

