-- ==== Sys2Proof/Laws/State.lean ====
section
/-! SUPPORT. One lemma per field per named update of the state, so that no later proof unfolds a record update. The
operations of the bit writer and of the expander change few fields; one lemma each names every field they leave alone. -/

namespace Sys2Proof.Machine

/-! ### respond -/

@[simp] theorem respond_bwAcc (st : Status) (val : Arg) (s : State) : (respond st val s).bwAcc = s.bwAcc := rfl
@[simp] theorem respond_bwFree (st : Status) (val : Arg) (s : State) : (respond st val s).bwFree = s.bwFree := rfl
@[simp] theorem respond_sout (st : Status) (val : Arg) (s : State) : (respond st val s).sout = s.sout := rfl
@[simp] theorem respond_pin (st : Status) (val : Arg) (s : State) : (respond st val s).pin = s.pin := rfl
@[simp] theorem respond_ccLen (st : Status) (val : Arg) (s : State) : (respond st val s).ccLen = s.ccLen := rfl
@[simp] theorem respond_ccI (st : Status) (val : Arg) (s : State) : (respond st val s).ccI = s.ccI := rfl
@[simp] theorem respond_sin (st : Status) (val : Arg) (s : State) : (respond st val s).sin = s.sin := rfl
@[simp] theorem respond_brIdx (st : Status) (val : Arg) (s : State) : (respond st val s).brIdx = s.brIdx := rfl
@[simp] theorem respond_brCur (st : Status) (val : Arg) (s : State) : (respond st val s).brCur = s.brCur := rfl
@[simp] theorem respond_brLeft (st : Status) (val : Arg) (s : State) : (respond st val s).brLeft = s.brLeft := rfl
@[simp] theorem respond_brClosed (st : Status) (val : Arg) (s : State) : (respond st val s).brClosed = s.brClosed := rfl
@[simp] theorem respond_cxLen (st : Status) (val : Arg) (s : State) : (respond st val s).cxLen = s.cxLen := rfl
@[simp] theorem respond_cxN (st : Status) (val : Arg) (s : State) : (respond st val s).cxN = s.cxN := rfl
@[simp] theorem respond_cxLast (st : Status) (val : Arg) (s : State) : (respond st val s).cxLast = s.cxLast := rfl
@[simp] theorem respond_pout (st : Status) (val : Arg) (s : State) : (respond st val s).pout = s.pout := rfl
@[simp] theorem respond_derr (st : Status) (val : Arg) (s : State) : (respond st val s).derr = s.derr := rfl
@[simp] theorem respond_dcode (st : Status) (val : Arg) (s : State) : (respond st val s).dcode = s.dcode := rfl
@[simp] theorem respond_seqBusy (st : Status) (val : Arg) (s : State) : (respond st val s).seqBusy = s.seqBusy := rfl
@[simp] theorem respond_activity (st : Status) (val : Arg) (s : State) : (respond st val s).activity = .respond st val := rfl
@[simp] theorem respond_tokAt (st : Status) (val : Arg) (s : State) : (respond st val s).tokAt = s.tokAt := rfl
@[simp] theorem respond_soutTaken (st : Status) (val : Arg) (s : State) : (respond st val s).soutTaken = s.soutTaken := rfl
@[simp] theorem respond_poutTaken (st : Status) (val : Arg) (s : State) : (respond st val s).poutTaken = s.poutTaken := rfl
@[simp] theorem respond_hCmd (st : Status) (val : Arg) (s : State) : (respond st val s).hCmd = s.hCmd := rfl
@[simp] theorem respond_hPin (st : Status) (val : Arg) (s : State) : (respond st val s).hPin = s.hPin := rfl
@[simp] theorem respond_hSin (st : Status) (val : Arg) (s : State) : (respond st val s).hSin = s.hSin := rfl
@[simp] theorem respond_hEos (st : Status) (val : Arg) (s : State) : (respond st val s).hEos = s.hEos := rfl
@[simp] theorem respond_hRspReady (st : Status) (val : Arg) (s : State) : (respond st val s).hRspReady = s.hRspReady := rfl
@[simp] theorem respond_hSoutReady (st : Status) (val : Arg) (s : State) : (respond st val s).hSoutReady = s.hSoutReady := rfl
@[simp] theorem respond_hPoutReady (st : Status) (val : Arg) (s : State) : (respond st val s).hPoutReady = s.hPoutReady := rfl
@[simp] theorem respond_hSoutGot (st : Status) (val : Arg) (s : State) : (respond st val s).hSoutGot = s.hSoutGot := rfl
@[simp] theorem respond_hPoutGot (st : Status) (val : Arg) (s : State) : (respond st val s).hPoutGot = s.hPoutGot := rfl
@[simp] theorem respond_hRspGot (st : Status) (val : Arg) (s : State) : (respond st val s).hRspGot = s.hRspGot := rfl
@[simp] theorem respond_hScript (st : Status) (val : Arg) (s : State) : (respond st val s).hScript = s.hScript := rfl

/-! ### respondAfterSout -/

@[simp] theorem respondAfterSout_bwAcc (st : Status) (val : Arg) (s : State) : (respondAfterSout st val s).bwAcc = s.bwAcc := rfl
@[simp] theorem respondAfterSout_bwFree (st : Status) (val : Arg) (s : State) : (respondAfterSout st val s).bwFree = s.bwFree := rfl
@[simp] theorem respondAfterSout_sout (st : Status) (val : Arg) (s : State) : (respondAfterSout st val s).sout = s.sout := rfl
@[simp] theorem respondAfterSout_pin (st : Status) (val : Arg) (s : State) : (respondAfterSout st val s).pin = s.pin := rfl
@[simp] theorem respondAfterSout_ccLen (st : Status) (val : Arg) (s : State) : (respondAfterSout st val s).ccLen = s.ccLen := rfl
@[simp] theorem respondAfterSout_ccI (st : Status) (val : Arg) (s : State) : (respondAfterSout st val s).ccI = s.ccI := rfl
@[simp] theorem respondAfterSout_sin (st : Status) (val : Arg) (s : State) : (respondAfterSout st val s).sin = s.sin := rfl
@[simp] theorem respondAfterSout_brIdx (st : Status) (val : Arg) (s : State) : (respondAfterSout st val s).brIdx = s.brIdx := rfl
@[simp] theorem respondAfterSout_brCur (st : Status) (val : Arg) (s : State) : (respondAfterSout st val s).brCur = s.brCur := rfl
@[simp] theorem respondAfterSout_brLeft (st : Status) (val : Arg) (s : State) : (respondAfterSout st val s).brLeft = s.brLeft := rfl
@[simp] theorem respondAfterSout_brClosed (st : Status) (val : Arg) (s : State) : (respondAfterSout st val s).brClosed = s.brClosed := rfl
@[simp] theorem respondAfterSout_cxLen (st : Status) (val : Arg) (s : State) : (respondAfterSout st val s).cxLen = s.cxLen := rfl
@[simp] theorem respondAfterSout_cxN (st : Status) (val : Arg) (s : State) : (respondAfterSout st val s).cxN = s.cxN := rfl
@[simp] theorem respondAfterSout_cxLast (st : Status) (val : Arg) (s : State) : (respondAfterSout st val s).cxLast = s.cxLast := rfl
@[simp] theorem respondAfterSout_pout (st : Status) (val : Arg) (s : State) : (respondAfterSout st val s).pout = s.pout := rfl
@[simp] theorem respondAfterSout_derr (st : Status) (val : Arg) (s : State) : (respondAfterSout st val s).derr = s.derr := rfl
@[simp] theorem respondAfterSout_dcode (st : Status) (val : Arg) (s : State) : (respondAfterSout st val s).dcode = s.dcode := rfl
@[simp] theorem respondAfterSout_seqBusy (st : Status) (val : Arg) (s : State) : (respondAfterSout st val s).seqBusy = s.seqBusy := rfl
@[simp] theorem respondAfterSout_activity (st : Status) (val : Arg) (s : State) : (respondAfterSout st val s).activity = .drainSout st val := rfl
@[simp] theorem respondAfterSout_tokAt (st : Status) (val : Arg) (s : State) : (respondAfterSout st val s).tokAt = s.tokAt := rfl
@[simp] theorem respondAfterSout_soutTaken (st : Status) (val : Arg) (s : State) : (respondAfterSout st val s).soutTaken = s.soutTaken := rfl
@[simp] theorem respondAfterSout_poutTaken (st : Status) (val : Arg) (s : State) : (respondAfterSout st val s).poutTaken = s.poutTaken := rfl
@[simp] theorem respondAfterSout_hCmd (st : Status) (val : Arg) (s : State) : (respondAfterSout st val s).hCmd = s.hCmd := rfl
@[simp] theorem respondAfterSout_hPin (st : Status) (val : Arg) (s : State) : (respondAfterSout st val s).hPin = s.hPin := rfl
@[simp] theorem respondAfterSout_hSin (st : Status) (val : Arg) (s : State) : (respondAfterSout st val s).hSin = s.hSin := rfl
@[simp] theorem respondAfterSout_hEos (st : Status) (val : Arg) (s : State) : (respondAfterSout st val s).hEos = s.hEos := rfl
@[simp] theorem respondAfterSout_hRspReady (st : Status) (val : Arg) (s : State) : (respondAfterSout st val s).hRspReady = s.hRspReady := rfl
@[simp] theorem respondAfterSout_hSoutReady (st : Status) (val : Arg) (s : State) : (respondAfterSout st val s).hSoutReady = s.hSoutReady := rfl
@[simp] theorem respondAfterSout_hPoutReady (st : Status) (val : Arg) (s : State) : (respondAfterSout st val s).hPoutReady = s.hPoutReady := rfl
@[simp] theorem respondAfterSout_hSoutGot (st : Status) (val : Arg) (s : State) : (respondAfterSout st val s).hSoutGot = s.hSoutGot := rfl
@[simp] theorem respondAfterSout_hPoutGot (st : Status) (val : Arg) (s : State) : (respondAfterSout st val s).hPoutGot = s.hPoutGot := rfl
@[simp] theorem respondAfterSout_hRspGot (st : Status) (val : Arg) (s : State) : (respondAfterSout st val s).hRspGot = s.hRspGot := rfl
@[simp] theorem respondAfterSout_hScript (st : Status) (val : Arg) (s : State) : (respondAfterSout st val s).hScript = s.hScript := rfl

/-! ### respondAfterPout -/

@[simp] theorem respondAfterPout_bwAcc (st : Status) (val : Arg) (s : State) : (respondAfterPout st val s).bwAcc = s.bwAcc := rfl
@[simp] theorem respondAfterPout_bwFree (st : Status) (val : Arg) (s : State) : (respondAfterPout st val s).bwFree = s.bwFree := rfl
@[simp] theorem respondAfterPout_sout (st : Status) (val : Arg) (s : State) : (respondAfterPout st val s).sout = s.sout := rfl
@[simp] theorem respondAfterPout_pin (st : Status) (val : Arg) (s : State) : (respondAfterPout st val s).pin = s.pin := rfl
@[simp] theorem respondAfterPout_ccLen (st : Status) (val : Arg) (s : State) : (respondAfterPout st val s).ccLen = s.ccLen := rfl
@[simp] theorem respondAfterPout_ccI (st : Status) (val : Arg) (s : State) : (respondAfterPout st val s).ccI = s.ccI := rfl
@[simp] theorem respondAfterPout_sin (st : Status) (val : Arg) (s : State) : (respondAfterPout st val s).sin = s.sin := rfl
@[simp] theorem respondAfterPout_brIdx (st : Status) (val : Arg) (s : State) : (respondAfterPout st val s).brIdx = s.brIdx := rfl
@[simp] theorem respondAfterPout_brCur (st : Status) (val : Arg) (s : State) : (respondAfterPout st val s).brCur = s.brCur := rfl
@[simp] theorem respondAfterPout_brLeft (st : Status) (val : Arg) (s : State) : (respondAfterPout st val s).brLeft = s.brLeft := rfl
@[simp] theorem respondAfterPout_brClosed (st : Status) (val : Arg) (s : State) : (respondAfterPout st val s).brClosed = s.brClosed := rfl
@[simp] theorem respondAfterPout_cxLen (st : Status) (val : Arg) (s : State) : (respondAfterPout st val s).cxLen = s.cxLen := rfl
@[simp] theorem respondAfterPout_cxN (st : Status) (val : Arg) (s : State) : (respondAfterPout st val s).cxN = s.cxN := rfl
@[simp] theorem respondAfterPout_cxLast (st : Status) (val : Arg) (s : State) : (respondAfterPout st val s).cxLast = s.cxLast := rfl
@[simp] theorem respondAfterPout_pout (st : Status) (val : Arg) (s : State) : (respondAfterPout st val s).pout = s.pout := rfl
@[simp] theorem respondAfterPout_derr (st : Status) (val : Arg) (s : State) : (respondAfterPout st val s).derr = s.derr := rfl
@[simp] theorem respondAfterPout_dcode (st : Status) (val : Arg) (s : State) : (respondAfterPout st val s).dcode = s.dcode := rfl
@[simp] theorem respondAfterPout_seqBusy (st : Status) (val : Arg) (s : State) : (respondAfterPout st val s).seqBusy = s.seqBusy := rfl
@[simp] theorem respondAfterPout_activity (st : Status) (val : Arg) (s : State) : (respondAfterPout st val s).activity = .drainPout st val := rfl
@[simp] theorem respondAfterPout_tokAt (st : Status) (val : Arg) (s : State) : (respondAfterPout st val s).tokAt = s.tokAt := rfl
@[simp] theorem respondAfterPout_soutTaken (st : Status) (val : Arg) (s : State) : (respondAfterPout st val s).soutTaken = s.soutTaken := rfl
@[simp] theorem respondAfterPout_poutTaken (st : Status) (val : Arg) (s : State) : (respondAfterPout st val s).poutTaken = s.poutTaken := rfl
@[simp] theorem respondAfterPout_hCmd (st : Status) (val : Arg) (s : State) : (respondAfterPout st val s).hCmd = s.hCmd := rfl
@[simp] theorem respondAfterPout_hPin (st : Status) (val : Arg) (s : State) : (respondAfterPout st val s).hPin = s.hPin := rfl
@[simp] theorem respondAfterPout_hSin (st : Status) (val : Arg) (s : State) : (respondAfterPout st val s).hSin = s.hSin := rfl
@[simp] theorem respondAfterPout_hEos (st : Status) (val : Arg) (s : State) : (respondAfterPout st val s).hEos = s.hEos := rfl
@[simp] theorem respondAfterPout_hRspReady (st : Status) (val : Arg) (s : State) : (respondAfterPout st val s).hRspReady = s.hRspReady := rfl
@[simp] theorem respondAfterPout_hSoutReady (st : Status) (val : Arg) (s : State) : (respondAfterPout st val s).hSoutReady = s.hSoutReady := rfl
@[simp] theorem respondAfterPout_hPoutReady (st : Status) (val : Arg) (s : State) : (respondAfterPout st val s).hPoutReady = s.hPoutReady := rfl
@[simp] theorem respondAfterPout_hSoutGot (st : Status) (val : Arg) (s : State) : (respondAfterPout st val s).hSoutGot = s.hSoutGot := rfl
@[simp] theorem respondAfterPout_hPoutGot (st : Status) (val : Arg) (s : State) : (respondAfterPout st val s).hPoutGot = s.hPoutGot := rfl
@[simp] theorem respondAfterPout_hRspGot (st : Status) (val : Arg) (s : State) : (respondAfterPout st val s).hRspGot = s.hRspGot := rfl
@[simp] theorem respondAfterPout_hScript (st : Status) (val : Arg) (s : State) : (respondAfterPout st val s).hScript = s.hScript := rfl

/-! ### faultEntry -/

@[simp] theorem faultEntry_bwAcc (st : Status) (val : Arg) (s : State) : (faultEntry st val s).bwAcc = s.bwAcc := rfl
@[simp] theorem faultEntry_bwFree (st : Status) (val : Arg) (s : State) : (faultEntry st val s).bwFree = s.bwFree := rfl
@[simp] theorem faultEntry_sout (st : Status) (val : Arg) (s : State) : (faultEntry st val s).sout = s.sout := rfl
@[simp] theorem faultEntry_pin (st : Status) (val : Arg) (s : State) : (faultEntry st val s).pin = s.pin := rfl
@[simp] theorem faultEntry_ccLen (st : Status) (val : Arg) (s : State) : (faultEntry st val s).ccLen = s.ccLen := rfl
@[simp] theorem faultEntry_ccI (st : Status) (val : Arg) (s : State) : (faultEntry st val s).ccI = s.ccI := rfl
@[simp] theorem faultEntry_sin (st : Status) (val : Arg) (s : State) : (faultEntry st val s).sin = s.sin := rfl
@[simp] theorem faultEntry_brIdx (st : Status) (val : Arg) (s : State) : (faultEntry st val s).brIdx = s.brIdx := rfl
@[simp] theorem faultEntry_brCur (st : Status) (val : Arg) (s : State) : (faultEntry st val s).brCur = s.brCur := rfl
@[simp] theorem faultEntry_brLeft (st : Status) (val : Arg) (s : State) : (faultEntry st val s).brLeft = s.brLeft := rfl
@[simp] theorem faultEntry_brClosed (st : Status) (val : Arg) (s : State) : (faultEntry st val s).brClosed = s.brClosed := rfl
@[simp] theorem faultEntry_cxLen (st : Status) (val : Arg) (s : State) : (faultEntry st val s).cxLen = s.cxLen := rfl
@[simp] theorem faultEntry_cxN (st : Status) (val : Arg) (s : State) : (faultEntry st val s).cxN = s.cxN := rfl
@[simp] theorem faultEntry_cxLast (st : Status) (val : Arg) (s : State) : (faultEntry st val s).cxLast = s.cxLast := rfl
@[simp] theorem faultEntry_pout (st : Status) (val : Arg) (s : State) : (faultEntry st val s).pout = s.pout := rfl
@[simp] theorem faultEntry_derr (st : Status) (val : Arg) (s : State) : (faultEntry st val s).derr = true := rfl
@[simp] theorem faultEntry_dcode (st : Status) (val : Arg) (s : State) : (faultEntry st val s).dcode = statusCode st := rfl
@[simp] theorem faultEntry_seqBusy (st : Status) (val : Arg) (s : State) : (faultEntry st val s).seqBusy = s.seqBusy := rfl
@[simp] theorem faultEntry_activity (st : Status) (val : Arg) (s : State) : (faultEntry st val s).activity = .drainPout st val := rfl
@[simp] theorem faultEntry_tokAt (st : Status) (val : Arg) (s : State) : (faultEntry st val s).tokAt = .tag := rfl
@[simp] theorem faultEntry_soutTaken (st : Status) (val : Arg) (s : State) : (faultEntry st val s).soutTaken = s.soutTaken := rfl
@[simp] theorem faultEntry_poutTaken (st : Status) (val : Arg) (s : State) : (faultEntry st val s).poutTaken = s.poutTaken := rfl
@[simp] theorem faultEntry_hCmd (st : Status) (val : Arg) (s : State) : (faultEntry st val s).hCmd = s.hCmd := rfl
@[simp] theorem faultEntry_hPin (st : Status) (val : Arg) (s : State) : (faultEntry st val s).hPin = s.hPin := rfl
@[simp] theorem faultEntry_hSin (st : Status) (val : Arg) (s : State) : (faultEntry st val s).hSin = s.hSin := rfl
@[simp] theorem faultEntry_hEos (st : Status) (val : Arg) (s : State) : (faultEntry st val s).hEos = s.hEos := rfl
@[simp] theorem faultEntry_hRspReady (st : Status) (val : Arg) (s : State) : (faultEntry st val s).hRspReady = s.hRspReady := rfl
@[simp] theorem faultEntry_hSoutReady (st : Status) (val : Arg) (s : State) : (faultEntry st val s).hSoutReady = s.hSoutReady := rfl
@[simp] theorem faultEntry_hPoutReady (st : Status) (val : Arg) (s : State) : (faultEntry st val s).hPoutReady = s.hPoutReady := rfl
@[simp] theorem faultEntry_hSoutGot (st : Status) (val : Arg) (s : State) : (faultEntry st val s).hSoutGot = s.hSoutGot := rfl
@[simp] theorem faultEntry_hPoutGot (st : Status) (val : Arg) (s : State) : (faultEntry st val s).hPoutGot = s.hPoutGot := rfl
@[simp] theorem faultEntry_hRspGot (st : Status) (val : Arg) (s : State) : (faultEntry st val s).hRspGot = s.hRspGot := rfl
@[simp] theorem faultEntry_hScript (st : Status) (val : Arg) (s : State) : (faultEntry st val s).hScript = s.hScript := rfl

/-! ### align -/

@[simp] theorem align_bwAcc (s : State) : (align s).bwAcc = s.bwAcc := rfl
@[simp] theorem align_bwFree (s : State) : (align s).bwFree = s.bwFree := rfl
@[simp] theorem align_sout (s : State) : (align s).sout = s.sout := rfl
@[simp] theorem align_pin (s : State) : (align s).pin = s.pin := rfl
@[simp] theorem align_ccLen (s : State) : (align s).ccLen = s.ccLen := rfl
@[simp] theorem align_ccI (s : State) : (align s).ccI = s.ccI := rfl
@[simp] theorem align_sin (s : State) : (align s).sin = s.sin := rfl
@[simp] theorem align_brIdx (s : State) : (align s).brIdx = s.brIdx := rfl
@[simp] theorem align_brCur (s : State) : (align s).brCur = s.brCur := rfl
@[simp] theorem align_brLeft (s : State) : (align s).brLeft = 0 := rfl
@[simp] theorem align_brClosed (s : State) : (align s).brClosed = s.brClosed := rfl
@[simp] theorem align_cxLen (s : State) : (align s).cxLen = s.cxLen := rfl
@[simp] theorem align_cxN (s : State) : (align s).cxN = s.cxN := rfl
@[simp] theorem align_cxLast (s : State) : (align s).cxLast = s.cxLast := rfl
@[simp] theorem align_pout (s : State) : (align s).pout = s.pout := rfl
@[simp] theorem align_derr (s : State) : (align s).derr = s.derr := rfl
@[simp] theorem align_dcode (s : State) : (align s).dcode = s.dcode := rfl
@[simp] theorem align_seqBusy (s : State) : (align s).seqBusy = s.seqBusy := rfl
@[simp] theorem align_activity (s : State) : (align s).activity = s.activity := rfl
@[simp] theorem align_tokAt (s : State) : (align s).tokAt = s.tokAt := rfl
@[simp] theorem align_soutTaken (s : State) : (align s).soutTaken = s.soutTaken := rfl
@[simp] theorem align_poutTaken (s : State) : (align s).poutTaken = s.poutTaken := rfl
@[simp] theorem align_hCmd (s : State) : (align s).hCmd = s.hCmd := rfl
@[simp] theorem align_hPin (s : State) : (align s).hPin = s.hPin := rfl
@[simp] theorem align_hSin (s : State) : (align s).hSin = s.hSin := rfl
@[simp] theorem align_hEos (s : State) : (align s).hEos = s.hEos := rfl
@[simp] theorem align_hRspReady (s : State) : (align s).hRspReady = s.hRspReady := rfl
@[simp] theorem align_hSoutReady (s : State) : (align s).hSoutReady = s.hSoutReady := rfl
@[simp] theorem align_hPoutReady (s : State) : (align s).hPoutReady = s.hPoutReady := rfl
@[simp] theorem align_hSoutGot (s : State) : (align s).hSoutGot = s.hSoutGot := rfl
@[simp] theorem align_hPoutGot (s : State) : (align s).hPoutGot = s.hPoutGot := rfl
@[simp] theorem align_hRspGot (s : State) : (align s).hRspGot = s.hRspGot := rfl
@[simp] theorem align_hScript (s : State) : (align s).hScript = s.hScript := rfl

/-! ### finishDecode -/

@[simp] theorem finishDecode_bwAcc (s : State) : (finishDecode s).bwAcc = s.bwAcc := rfl
@[simp] theorem finishDecode_bwFree (s : State) : (finishDecode s).bwFree = s.bwFree := rfl
@[simp] theorem finishDecode_sout (s : State) : (finishDecode s).sout = s.sout := rfl
@[simp] theorem finishDecode_pin (s : State) : (finishDecode s).pin = s.pin := rfl
@[simp] theorem finishDecode_ccLen (s : State) : (finishDecode s).ccLen = s.ccLen := rfl
@[simp] theorem finishDecode_ccI (s : State) : (finishDecode s).ccI = s.ccI := rfl
@[simp] theorem finishDecode_sin (s : State) : (finishDecode s).sin = s.sin := rfl
@[simp] theorem finishDecode_brIdx (s : State) : (finishDecode s).brIdx = s.brIdx := rfl
@[simp] theorem finishDecode_brCur (s : State) : (finishDecode s).brCur = s.brCur := rfl
@[simp] theorem finishDecode_brLeft (s : State) : (finishDecode s).brLeft = 0 := rfl
@[simp] theorem finishDecode_brClosed (s : State) : (finishDecode s).brClosed = s.brClosed := rfl
@[simp] theorem finishDecode_cxLen (s : State) : (finishDecode s).cxLen = s.cxLen := rfl
@[simp] theorem finishDecode_cxN (s : State) : (finishDecode s).cxN = s.cxN := rfl
@[simp] theorem finishDecode_cxLast (s : State) : (finishDecode s).cxLast = s.cxLast := rfl
@[simp] theorem finishDecode_pout (s : State) : (finishDecode s).pout = s.pout := rfl
@[simp] theorem finishDecode_derr (s : State) : (finishDecode s).derr = s.derr := rfl
@[simp] theorem finishDecode_dcode (s : State) : (finishDecode s).dcode = s.dcode := rfl
@[simp] theorem finishDecode_seqBusy (s : State) : (finishDecode s).seqBusy = s.seqBusy := rfl
@[simp] theorem finishDecode_activity (s : State) : (finishDecode s).activity = .drainPout .ok 0 := rfl
@[simp] theorem finishDecode_tokAt (s : State) : (finishDecode s).tokAt = s.tokAt := rfl
@[simp] theorem finishDecode_soutTaken (s : State) : (finishDecode s).soutTaken = s.soutTaken := rfl
@[simp] theorem finishDecode_poutTaken (s : State) : (finishDecode s).poutTaken = s.poutTaken := rfl
@[simp] theorem finishDecode_hCmd (s : State) : (finishDecode s).hCmd = s.hCmd := rfl
@[simp] theorem finishDecode_hPin (s : State) : (finishDecode s).hPin = s.hPin := rfl
@[simp] theorem finishDecode_hSin (s : State) : (finishDecode s).hSin = s.hSin := rfl
@[simp] theorem finishDecode_hEos (s : State) : (finishDecode s).hEos = s.hEos := rfl
@[simp] theorem finishDecode_hRspReady (s : State) : (finishDecode s).hRspReady = s.hRspReady := rfl
@[simp] theorem finishDecode_hSoutReady (s : State) : (finishDecode s).hSoutReady = s.hSoutReady := rfl
@[simp] theorem finishDecode_hPoutReady (s : State) : (finishDecode s).hPoutReady = s.hPoutReady := rfl
@[simp] theorem finishDecode_hSoutGot (s : State) : (finishDecode s).hSoutGot = s.hSoutGot := rfl
@[simp] theorem finishDecode_hPoutGot (s : State) : (finishDecode s).hPoutGot = s.hPoutGot := rfl
@[simp] theorem finishDecode_hRspGot (s : State) : (finishDecode s).hRspGot = s.hRspGot := rfl
@[simp] theorem finishDecode_hScript (s : State) : (finishDecode s).hScript = s.hScript := rfl

/-! ### clearEncoder -/

@[simp] theorem clearEncoder_bwAcc (s : State) : (clearEncoder s).bwAcc = 0 := rfl
@[simp] theorem clearEncoder_bwFree (s : State) : (clearEncoder s).bwFree = 0 := rfl
@[simp] theorem clearEncoder_sout (s : State) : (clearEncoder s).sout = [] := rfl
@[simp] theorem clearEncoder_pin (s : State) : (clearEncoder s).pin = [] := rfl
@[simp] theorem clearEncoder_ccLen (s : State) : (clearEncoder s).ccLen = 0 := rfl
@[simp] theorem clearEncoder_ccI (s : State) : (clearEncoder s).ccI = 0 := rfl
@[simp] theorem clearEncoder_sin (s : State) : (clearEncoder s).sin = s.sin := rfl
@[simp] theorem clearEncoder_brIdx (s : State) : (clearEncoder s).brIdx = s.brIdx := rfl
@[simp] theorem clearEncoder_brCur (s : State) : (clearEncoder s).brCur = s.brCur := rfl
@[simp] theorem clearEncoder_brLeft (s : State) : (clearEncoder s).brLeft = s.brLeft := rfl
@[simp] theorem clearEncoder_brClosed (s : State) : (clearEncoder s).brClosed = s.brClosed := rfl
@[simp] theorem clearEncoder_cxLen (s : State) : (clearEncoder s).cxLen = s.cxLen := rfl
@[simp] theorem clearEncoder_cxN (s : State) : (clearEncoder s).cxN = s.cxN := rfl
@[simp] theorem clearEncoder_cxLast (s : State) : (clearEncoder s).cxLast = s.cxLast := rfl
@[simp] theorem clearEncoder_pout (s : State) : (clearEncoder s).pout = s.pout := rfl
@[simp] theorem clearEncoder_derr (s : State) : (clearEncoder s).derr = s.derr := rfl
@[simp] theorem clearEncoder_dcode (s : State) : (clearEncoder s).dcode = s.dcode := rfl
@[simp] theorem clearEncoder_seqBusy (s : State) : (clearEncoder s).seqBusy = s.seqBusy := rfl
@[simp] theorem clearEncoder_activity (s : State) : (clearEncoder s).activity = s.activity := rfl
@[simp] theorem clearEncoder_tokAt (s : State) : (clearEncoder s).tokAt = s.tokAt := rfl
@[simp] theorem clearEncoder_soutTaken (s : State) : (clearEncoder s).soutTaken = 0 := rfl
@[simp] theorem clearEncoder_poutTaken (s : State) : (clearEncoder s).poutTaken = s.poutTaken := rfl
@[simp] theorem clearEncoder_hCmd (s : State) : (clearEncoder s).hCmd = s.hCmd := rfl
@[simp] theorem clearEncoder_hPin (s : State) : (clearEncoder s).hPin = s.hPin := rfl
@[simp] theorem clearEncoder_hSin (s : State) : (clearEncoder s).hSin = s.hSin := rfl
@[simp] theorem clearEncoder_hEos (s : State) : (clearEncoder s).hEos = s.hEos := rfl
@[simp] theorem clearEncoder_hRspReady (s : State) : (clearEncoder s).hRspReady = s.hRspReady := rfl
@[simp] theorem clearEncoder_hSoutReady (s : State) : (clearEncoder s).hSoutReady = s.hSoutReady := rfl
@[simp] theorem clearEncoder_hPoutReady (s : State) : (clearEncoder s).hPoutReady = s.hPoutReady := rfl
@[simp] theorem clearEncoder_hSoutGot (s : State) : (clearEncoder s).hSoutGot = s.hSoutGot := rfl
@[simp] theorem clearEncoder_hPoutGot (s : State) : (clearEncoder s).hPoutGot = s.hPoutGot := rfl
@[simp] theorem clearEncoder_hRspGot (s : State) : (clearEncoder s).hRspGot = s.hRspGot := rfl
@[simp] theorem clearEncoder_hScript (s : State) : (clearEncoder s).hScript = s.hScript := rfl

/-! ### clearDecoder -/

@[simp] theorem clearDecoder_bwAcc (s : State) : (clearDecoder s).bwAcc = s.bwAcc := rfl
@[simp] theorem clearDecoder_bwFree (s : State) : (clearDecoder s).bwFree = s.bwFree := rfl
@[simp] theorem clearDecoder_sout (s : State) : (clearDecoder s).sout = s.sout := rfl
@[simp] theorem clearDecoder_pin (s : State) : (clearDecoder s).pin = s.pin := rfl
@[simp] theorem clearDecoder_ccLen (s : State) : (clearDecoder s).ccLen = s.ccLen := rfl
@[simp] theorem clearDecoder_ccI (s : State) : (clearDecoder s).ccI = s.ccI := rfl
@[simp] theorem clearDecoder_sin (s : State) : (clearDecoder s).sin = [] := rfl
@[simp] theorem clearDecoder_brIdx (s : State) : (clearDecoder s).brIdx = 0 := rfl
@[simp] theorem clearDecoder_brCur (s : State) : (clearDecoder s).brCur = 0 := rfl
@[simp] theorem clearDecoder_brLeft (s : State) : (clearDecoder s).brLeft = 0 := rfl
@[simp] theorem clearDecoder_brClosed (s : State) : (clearDecoder s).brClosed = false := rfl
@[simp] theorem clearDecoder_cxLen (s : State) : (clearDecoder s).cxLen = 0 := rfl
@[simp] theorem clearDecoder_cxN (s : State) : (clearDecoder s).cxN = 0 := rfl
@[simp] theorem clearDecoder_cxLast (s : State) : (clearDecoder s).cxLast = 0 := rfl
@[simp] theorem clearDecoder_pout (s : State) : (clearDecoder s).pout = [] := rfl
@[simp] theorem clearDecoder_derr (s : State) : (clearDecoder s).derr = false := rfl
@[simp] theorem clearDecoder_dcode (s : State) : (clearDecoder s).dcode = 0 := rfl
@[simp] theorem clearDecoder_seqBusy (s : State) : (clearDecoder s).seqBusy = s.seqBusy := rfl
@[simp] theorem clearDecoder_activity (s : State) : (clearDecoder s).activity = s.activity := rfl
@[simp] theorem clearDecoder_tokAt (s : State) : (clearDecoder s).tokAt = .tag := rfl
@[simp] theorem clearDecoder_soutTaken (s : State) : (clearDecoder s).soutTaken = s.soutTaken := rfl
@[simp] theorem clearDecoder_poutTaken (s : State) : (clearDecoder s).poutTaken = 0 := rfl
@[simp] theorem clearDecoder_hCmd (s : State) : (clearDecoder s).hCmd = s.hCmd := rfl
@[simp] theorem clearDecoder_hPin (s : State) : (clearDecoder s).hPin = s.hPin := rfl
@[simp] theorem clearDecoder_hSin (s : State) : (clearDecoder s).hSin = s.hSin := rfl
@[simp] theorem clearDecoder_hEos (s : State) : (clearDecoder s).hEos = s.hEos := rfl
@[simp] theorem clearDecoder_hRspReady (s : State) : (clearDecoder s).hRspReady = s.hRspReady := rfl
@[simp] theorem clearDecoder_hSoutReady (s : State) : (clearDecoder s).hSoutReady = s.hSoutReady := rfl
@[simp] theorem clearDecoder_hPoutReady (s : State) : (clearDecoder s).hPoutReady = s.hPoutReady := rfl
@[simp] theorem clearDecoder_hSoutGot (s : State) : (clearDecoder s).hSoutGot = s.hSoutGot := rfl
@[simp] theorem clearDecoder_hPoutGot (s : State) : (clearDecoder s).hPoutGot = s.hPoutGot := rfl
@[simp] theorem clearDecoder_hRspGot (s : State) : (clearDecoder s).hRspGot = s.hRspGot := rfl
@[simp] theorem clearDecoder_hScript (s : State) : (clearDecoder s).hScript = s.hScript := rfl

/-! ### emit -/

@[simp] theorem emit_bwAcc (b : Byte) (s : State) : (emit b s).bwAcc = s.bwAcc := rfl
@[simp] theorem emit_bwFree (b : Byte) (s : State) : (emit b s).bwFree = s.bwFree := rfl
@[simp] theorem emit_sout (b : Byte) (s : State) : (emit b s).sout = s.sout := rfl
@[simp] theorem emit_pin (b : Byte) (s : State) : (emit b s).pin = s.pin := rfl
@[simp] theorem emit_ccLen (b : Byte) (s : State) : (emit b s).ccLen = s.ccLen := rfl
@[simp] theorem emit_ccI (b : Byte) (s : State) : (emit b s).ccI = s.ccI := rfl
@[simp] theorem emit_sin (b : Byte) (s : State) : (emit b s).sin = s.sin := rfl
@[simp] theorem emit_brIdx (b : Byte) (s : State) : (emit b s).brIdx = s.brIdx := rfl
@[simp] theorem emit_brCur (b : Byte) (s : State) : (emit b s).brCur = s.brCur := rfl
@[simp] theorem emit_brLeft (b : Byte) (s : State) : (emit b s).brLeft = s.brLeft := rfl
@[simp] theorem emit_brClosed (b : Byte) (s : State) : (emit b s).brClosed = s.brClosed := rfl
@[simp] theorem emit_cxLen (b : Byte) (s : State) : (emit b s).cxLen = s.cxLen := rfl
@[simp] theorem emit_cxN (b : Byte) (s : State) : (emit b s).cxN = s.cxN + 1 := rfl
@[simp] theorem emit_cxLast (b : Byte) (s : State) : (emit b s).cxLast = b := rfl
@[simp] theorem emit_pout (b : Byte) (s : State) : (emit b s).pout = s.pout ++ [b] := rfl
@[simp] theorem emit_derr (b : Byte) (s : State) : (emit b s).derr = s.derr := rfl
@[simp] theorem emit_dcode (b : Byte) (s : State) : (emit b s).dcode = s.dcode := rfl
@[simp] theorem emit_seqBusy (b : Byte) (s : State) : (emit b s).seqBusy = s.seqBusy := rfl
@[simp] theorem emit_activity (b : Byte) (s : State) : (emit b s).activity = s.activity := rfl
@[simp] theorem emit_tokAt (b : Byte) (s : State) : (emit b s).tokAt = s.tokAt := rfl
@[simp] theorem emit_soutTaken (b : Byte) (s : State) : (emit b s).soutTaken = s.soutTaken := rfl
@[simp] theorem emit_poutTaken (b : Byte) (s : State) : (emit b s).poutTaken = s.poutTaken := rfl
@[simp] theorem emit_hCmd (b : Byte) (s : State) : (emit b s).hCmd = s.hCmd := rfl
@[simp] theorem emit_hPin (b : Byte) (s : State) : (emit b s).hPin = s.hPin := rfl
@[simp] theorem emit_hSin (b : Byte) (s : State) : (emit b s).hSin = s.hSin := rfl
@[simp] theorem emit_hEos (b : Byte) (s : State) : (emit b s).hEos = s.hEos := rfl
@[simp] theorem emit_hRspReady (b : Byte) (s : State) : (emit b s).hRspReady = s.hRspReady := rfl
@[simp] theorem emit_hSoutReady (b : Byte) (s : State) : (emit b s).hSoutReady = s.hSoutReady := rfl
@[simp] theorem emit_hPoutReady (b : Byte) (s : State) : (emit b s).hPoutReady = s.hPoutReady := rfl
@[simp] theorem emit_hSoutGot (b : Byte) (s : State) : (emit b s).hSoutGot = s.hSoutGot := rfl
@[simp] theorem emit_hPoutGot (b : Byte) (s : State) : (emit b s).hPoutGot = s.hPoutGot := rfl
@[simp] theorem emit_hRspGot (b : Byte) (s : State) : (emit b s).hRspGot = s.hRspGot := rfl
@[simp] theorem emit_hScript (b : Byte) (s : State) : (emit b s).hScript = s.hScript := rfl

/-! ### acceptCommand -/

@[simp] theorem acceptCommand_bwAcc (rest : List CmdWord) (s : State) : (acceptCommand rest s).bwAcc = s.bwAcc := rfl
@[simp] theorem acceptCommand_bwFree (rest : List CmdWord) (s : State) : (acceptCommand rest s).bwFree = s.bwFree := rfl
@[simp] theorem acceptCommand_sout (rest : List CmdWord) (s : State) : (acceptCommand rest s).sout = s.sout := rfl
@[simp] theorem acceptCommand_pin (rest : List CmdWord) (s : State) : (acceptCommand rest s).pin = s.pin := rfl
@[simp] theorem acceptCommand_ccLen (rest : List CmdWord) (s : State) : (acceptCommand rest s).ccLen = s.ccLen := rfl
@[simp] theorem acceptCommand_ccI (rest : List CmdWord) (s : State) : (acceptCommand rest s).ccI = s.ccI := rfl
@[simp] theorem acceptCommand_sin (rest : List CmdWord) (s : State) : (acceptCommand rest s).sin = s.sin := rfl
@[simp] theorem acceptCommand_brIdx (rest : List CmdWord) (s : State) : (acceptCommand rest s).brIdx = s.brIdx := rfl
@[simp] theorem acceptCommand_brCur (rest : List CmdWord) (s : State) : (acceptCommand rest s).brCur = s.brCur := rfl
@[simp] theorem acceptCommand_brLeft (rest : List CmdWord) (s : State) : (acceptCommand rest s).brLeft = s.brLeft := rfl
@[simp] theorem acceptCommand_brClosed (rest : List CmdWord) (s : State) : (acceptCommand rest s).brClosed = s.brClosed := rfl
@[simp] theorem acceptCommand_cxLen (rest : List CmdWord) (s : State) : (acceptCommand rest s).cxLen = s.cxLen := rfl
@[simp] theorem acceptCommand_cxN (rest : List CmdWord) (s : State) : (acceptCommand rest s).cxN = s.cxN := rfl
@[simp] theorem acceptCommand_cxLast (rest : List CmdWord) (s : State) : (acceptCommand rest s).cxLast = s.cxLast := rfl
@[simp] theorem acceptCommand_pout (rest : List CmdWord) (s : State) : (acceptCommand rest s).pout = s.pout := rfl
@[simp] theorem acceptCommand_derr (rest : List CmdWord) (s : State) : (acceptCommand rest s).derr = s.derr := rfl
@[simp] theorem acceptCommand_dcode (rest : List CmdWord) (s : State) : (acceptCommand rest s).dcode = s.dcode := rfl
@[simp] theorem acceptCommand_seqBusy (rest : List CmdWord) (s : State) : (acceptCommand rest s).seqBusy = true := rfl
@[simp] theorem acceptCommand_activity (rest : List CmdWord) (s : State) : (acceptCommand rest s).activity = s.activity := rfl
@[simp] theorem acceptCommand_tokAt (rest : List CmdWord) (s : State) : (acceptCommand rest s).tokAt = s.tokAt := rfl
@[simp] theorem acceptCommand_soutTaken (rest : List CmdWord) (s : State) : (acceptCommand rest s).soutTaken = s.soutTaken := rfl
@[simp] theorem acceptCommand_poutTaken (rest : List CmdWord) (s : State) : (acceptCommand rest s).poutTaken = s.poutTaken := rfl
@[simp] theorem acceptCommand_hCmd (rest : List CmdWord) (s : State) : (acceptCommand rest s).hCmd = rest := rfl
@[simp] theorem acceptCommand_hPin (rest : List CmdWord) (s : State) : (acceptCommand rest s).hPin = s.hPin := rfl
@[simp] theorem acceptCommand_hSin (rest : List CmdWord) (s : State) : (acceptCommand rest s).hSin = s.hSin := rfl
@[simp] theorem acceptCommand_hEos (rest : List CmdWord) (s : State) : (acceptCommand rest s).hEos = s.hEos := rfl
@[simp] theorem acceptCommand_hRspReady (rest : List CmdWord) (s : State) : (acceptCommand rest s).hRspReady = s.hRspReady := rfl
@[simp] theorem acceptCommand_hSoutReady (rest : List CmdWord) (s : State) : (acceptCommand rest s).hSoutReady = s.hSoutReady := rfl
@[simp] theorem acceptCommand_hPoutReady (rest : List CmdWord) (s : State) : (acceptCommand rest s).hPoutReady = s.hPoutReady := rfl
@[simp] theorem acceptCommand_hSoutGot (rest : List CmdWord) (s : State) : (acceptCommand rest s).hSoutGot = s.hSoutGot := rfl
@[simp] theorem acceptCommand_hPoutGot (rest : List CmdWord) (s : State) : (acceptCommand rest s).hPoutGot = s.hPoutGot := rfl
@[simp] theorem acceptCommand_hRspGot (rest : List CmdWord) (s : State) : (acceptCommand rest s).hRspGot = s.hRspGot := rfl
@[simp] theorem acceptCommand_hScript (rest : List CmdWord) (s : State) : (acceptCommand rest s).hScript = s.hScript := rfl

/-! ### completeCommand -/

@[simp] theorem completeCommand_bwAcc (st : Status) (val : Arg) (s : State) : (completeCommand st val s).bwAcc = s.bwAcc := rfl
@[simp] theorem completeCommand_bwFree (st : Status) (val : Arg) (s : State) : (completeCommand st val s).bwFree = s.bwFree := rfl
@[simp] theorem completeCommand_sout (st : Status) (val : Arg) (s : State) : (completeCommand st val s).sout = s.sout := rfl
@[simp] theorem completeCommand_pin (st : Status) (val : Arg) (s : State) : (completeCommand st val s).pin = s.pin := rfl
@[simp] theorem completeCommand_ccLen (st : Status) (val : Arg) (s : State) : (completeCommand st val s).ccLen = s.ccLen := rfl
@[simp] theorem completeCommand_ccI (st : Status) (val : Arg) (s : State) : (completeCommand st val s).ccI = s.ccI := rfl
@[simp] theorem completeCommand_sin (st : Status) (val : Arg) (s : State) : (completeCommand st val s).sin = s.sin := rfl
@[simp] theorem completeCommand_brIdx (st : Status) (val : Arg) (s : State) : (completeCommand st val s).brIdx = s.brIdx := rfl
@[simp] theorem completeCommand_brCur (st : Status) (val : Arg) (s : State) : (completeCommand st val s).brCur = s.brCur := rfl
@[simp] theorem completeCommand_brLeft (st : Status) (val : Arg) (s : State) : (completeCommand st val s).brLeft = s.brLeft := rfl
@[simp] theorem completeCommand_brClosed (st : Status) (val : Arg) (s : State) : (completeCommand st val s).brClosed = s.brClosed := rfl
@[simp] theorem completeCommand_cxLen (st : Status) (val : Arg) (s : State) : (completeCommand st val s).cxLen = s.cxLen := rfl
@[simp] theorem completeCommand_cxN (st : Status) (val : Arg) (s : State) : (completeCommand st val s).cxN = s.cxN := rfl
@[simp] theorem completeCommand_cxLast (st : Status) (val : Arg) (s : State) : (completeCommand st val s).cxLast = s.cxLast := rfl
@[simp] theorem completeCommand_pout (st : Status) (val : Arg) (s : State) : (completeCommand st val s).pout = s.pout := rfl
@[simp] theorem completeCommand_derr (st : Status) (val : Arg) (s : State) : (completeCommand st val s).derr = s.derr := rfl
@[simp] theorem completeCommand_dcode (st : Status) (val : Arg) (s : State) : (completeCommand st val s).dcode = s.dcode := rfl
@[simp] theorem completeCommand_seqBusy (st : Status) (val : Arg) (s : State) : (completeCommand st val s).seqBusy = false := rfl
@[simp] theorem completeCommand_activity (st : Status) (val : Arg) (s : State) : (completeCommand st val s).activity = .idle := rfl
@[simp] theorem completeCommand_tokAt (st : Status) (val : Arg) (s : State) : (completeCommand st val s).tokAt = s.tokAt := rfl
@[simp] theorem completeCommand_soutTaken (st : Status) (val : Arg) (s : State) : (completeCommand st val s).soutTaken = s.soutTaken := rfl
@[simp] theorem completeCommand_poutTaken (st : Status) (val : Arg) (s : State) : (completeCommand st val s).poutTaken = s.poutTaken := rfl
@[simp] theorem completeCommand_hCmd (st : Status) (val : Arg) (s : State) : (completeCommand st val s).hCmd = s.hCmd := rfl
@[simp] theorem completeCommand_hPin (st : Status) (val : Arg) (s : State) : (completeCommand st val s).hPin = s.hPin := rfl
@[simp] theorem completeCommand_hSin (st : Status) (val : Arg) (s : State) : (completeCommand st val s).hSin = s.hSin := rfl
@[simp] theorem completeCommand_hEos (st : Status) (val : Arg) (s : State) : (completeCommand st val s).hEos = s.hEos := rfl
@[simp] theorem completeCommand_hRspReady (st : Status) (val : Arg) (s : State) : (completeCommand st val s).hRspReady = s.hRspReady := rfl
@[simp] theorem completeCommand_hSoutReady (st : Status) (val : Arg) (s : State) : (completeCommand st val s).hSoutReady = s.hSoutReady := rfl
@[simp] theorem completeCommand_hPoutReady (st : Status) (val : Arg) (s : State) : (completeCommand st val s).hPoutReady = s.hPoutReady := rfl
@[simp] theorem completeCommand_hSoutGot (st : Status) (val : Arg) (s : State) : (completeCommand st val s).hSoutGot = s.hSoutGot := rfl
@[simp] theorem completeCommand_hPoutGot (st : Status) (val : Arg) (s : State) : (completeCommand st val s).hPoutGot = s.hPoutGot := rfl
@[simp] theorem completeCommand_hRspGot (st : Status) (val : Arg) (s : State) : (completeCommand st val s).hRspGot = s.hRspGot ++ [rspWord st val] := rfl
@[simp] theorem completeCommand_hScript (st : Status) (val : Arg) (s : State) : (completeCommand st val s).hScript = s.hScript := rfl

/-! ### startEncode -/

@[simp] theorem startEncode_bwAcc (len : Arg) (s : State) : (startEncode len s).bwAcc = s.bwAcc := rfl
@[simp] theorem startEncode_bwFree (len : Arg) (s : State) : (startEncode len s).bwFree = s.bwFree := rfl
@[simp] theorem startEncode_sout (len : Arg) (s : State) : (startEncode len s).sout = s.sout := rfl
@[simp] theorem startEncode_pin (len : Arg) (s : State) : (startEncode len s).pin = [] := rfl
@[simp] theorem startEncode_ccLen (len : Arg) (s : State) : (startEncode len s).ccLen = len := rfl
@[simp] theorem startEncode_ccI (len : Arg) (s : State) : (startEncode len s).ccI = 0 := rfl
@[simp] theorem startEncode_sin (len : Arg) (s : State) : (startEncode len s).sin = s.sin := rfl
@[simp] theorem startEncode_brIdx (len : Arg) (s : State) : (startEncode len s).brIdx = s.brIdx := rfl
@[simp] theorem startEncode_brCur (len : Arg) (s : State) : (startEncode len s).brCur = s.brCur := rfl
@[simp] theorem startEncode_brLeft (len : Arg) (s : State) : (startEncode len s).brLeft = s.brLeft := rfl
@[simp] theorem startEncode_brClosed (len : Arg) (s : State) : (startEncode len s).brClosed = s.brClosed := rfl
@[simp] theorem startEncode_cxLen (len : Arg) (s : State) : (startEncode len s).cxLen = s.cxLen := rfl
@[simp] theorem startEncode_cxN (len : Arg) (s : State) : (startEncode len s).cxN = s.cxN := rfl
@[simp] theorem startEncode_cxLast (len : Arg) (s : State) : (startEncode len s).cxLast = s.cxLast := rfl
@[simp] theorem startEncode_pout (len : Arg) (s : State) : (startEncode len s).pout = s.pout := rfl
@[simp] theorem startEncode_derr (len : Arg) (s : State) : (startEncode len s).derr = s.derr := rfl
@[simp] theorem startEncode_dcode (len : Arg) (s : State) : (startEncode len s).dcode = s.dcode := rfl
@[simp] theorem startEncode_seqBusy (len : Arg) (s : State) : (startEncode len s).seqBusy = s.seqBusy := rfl
@[simp] theorem startEncode_activity (len : Arg) (s : State) : (startEncode len s).activity = .ePlane := rfl
@[simp] theorem startEncode_tokAt (len : Arg) (s : State) : (startEncode len s).tokAt = s.tokAt := rfl
@[simp] theorem startEncode_soutTaken (len : Arg) (s : State) : (startEncode len s).soutTaken = s.soutTaken := rfl
@[simp] theorem startEncode_poutTaken (len : Arg) (s : State) : (startEncode len s).poutTaken = s.poutTaken := rfl
@[simp] theorem startEncode_hCmd (len : Arg) (s : State) : (startEncode len s).hCmd = s.hCmd := rfl
@[simp] theorem startEncode_hPin (len : Arg) (s : State) : (startEncode len s).hPin = s.hPin := rfl
@[simp] theorem startEncode_hSin (len : Arg) (s : State) : (startEncode len s).hSin = s.hSin := rfl
@[simp] theorem startEncode_hEos (len : Arg) (s : State) : (startEncode len s).hEos = s.hEos := rfl
@[simp] theorem startEncode_hRspReady (len : Arg) (s : State) : (startEncode len s).hRspReady = s.hRspReady := rfl
@[simp] theorem startEncode_hSoutReady (len : Arg) (s : State) : (startEncode len s).hSoutReady = s.hSoutReady := rfl
@[simp] theorem startEncode_hPoutReady (len : Arg) (s : State) : (startEncode len s).hPoutReady = s.hPoutReady := rfl
@[simp] theorem startEncode_hSoutGot (len : Arg) (s : State) : (startEncode len s).hSoutGot = s.hSoutGot := rfl
@[simp] theorem startEncode_hPoutGot (len : Arg) (s : State) : (startEncode len s).hPoutGot = s.hPoutGot := rfl
@[simp] theorem startEncode_hRspGot (len : Arg) (s : State) : (startEncode len s).hRspGot = s.hRspGot := rfl
@[simp] theorem startEncode_hScript (len : Arg) (s : State) : (startEncode len s).hScript = s.hScript := rfl

/-! ### startDecode -/

@[simp] theorem startDecode_bwAcc (len : Arg) (s : State) : (startDecode len s).bwAcc = s.bwAcc := rfl
@[simp] theorem startDecode_bwFree (len : Arg) (s : State) : (startDecode len s).bwFree = s.bwFree := rfl
@[simp] theorem startDecode_sout (len : Arg) (s : State) : (startDecode len s).sout = s.sout := rfl
@[simp] theorem startDecode_pin (len : Arg) (s : State) : (startDecode len s).pin = s.pin := rfl
@[simp] theorem startDecode_ccLen (len : Arg) (s : State) : (startDecode len s).ccLen = s.ccLen := rfl
@[simp] theorem startDecode_ccI (len : Arg) (s : State) : (startDecode len s).ccI = s.ccI := rfl
@[simp] theorem startDecode_sin (len : Arg) (s : State) : (startDecode len s).sin = s.sin := rfl
@[simp] theorem startDecode_brIdx (len : Arg) (s : State) : (startDecode len s).brIdx = s.brIdx := rfl
@[simp] theorem startDecode_brCur (len : Arg) (s : State) : (startDecode len s).brCur = s.brCur := rfl
@[simp] theorem startDecode_brLeft (len : Arg) (s : State) : (startDecode len s).brLeft = s.brLeft := rfl
@[simp] theorem startDecode_brClosed (len : Arg) (s : State) : (startDecode len s).brClosed = s.brClosed := rfl
@[simp] theorem startDecode_cxLen (len : Arg) (s : State) : (startDecode len s).cxLen = len := rfl
@[simp] theorem startDecode_cxN (len : Arg) (s : State) : (startDecode len s).cxN = 0 := rfl
@[simp] theorem startDecode_cxLast (len : Arg) (s : State) : (startDecode len s).cxLast = s.cxLast := rfl
@[simp] theorem startDecode_pout (len : Arg) (s : State) : (startDecode len s).pout = s.pout := rfl
@[simp] theorem startDecode_derr (len : Arg) (s : State) : (startDecode len s).derr = s.derr := rfl
@[simp] theorem startDecode_dcode (len : Arg) (s : State) : (startDecode len s).dcode = s.dcode := rfl
@[simp] theorem startDecode_seqBusy (len : Arg) (s : State) : (startDecode len s).seqBusy = s.seqBusy := rfl
@[simp] theorem startDecode_activity (len : Arg) (s : State) : (startDecode len s).activity = .dPlane := rfl
@[simp] theorem startDecode_tokAt (len : Arg) (s : State) : (startDecode len s).tokAt = .tag := rfl
@[simp] theorem startDecode_soutTaken (len : Arg) (s : State) : (startDecode len s).soutTaken = s.soutTaken := rfl
@[simp] theorem startDecode_poutTaken (len : Arg) (s : State) : (startDecode len s).poutTaken = s.poutTaken := rfl
@[simp] theorem startDecode_hCmd (len : Arg) (s : State) : (startDecode len s).hCmd = s.hCmd := rfl
@[simp] theorem startDecode_hPin (len : Arg) (s : State) : (startDecode len s).hPin = s.hPin := rfl
@[simp] theorem startDecode_hSin (len : Arg) (s : State) : (startDecode len s).hSin = s.hSin := rfl
@[simp] theorem startDecode_hEos (len : Arg) (s : State) : (startDecode len s).hEos = s.hEos := rfl
@[simp] theorem startDecode_hRspReady (len : Arg) (s : State) : (startDecode len s).hRspReady = s.hRspReady := rfl
@[simp] theorem startDecode_hSoutReady (len : Arg) (s : State) : (startDecode len s).hSoutReady = s.hSoutReady := rfl
@[simp] theorem startDecode_hPoutReady (len : Arg) (s : State) : (startDecode len s).hPoutReady = s.hPoutReady := rfl
@[simp] theorem startDecode_hSoutGot (len : Arg) (s : State) : (startDecode len s).hSoutGot = s.hSoutGot := rfl
@[simp] theorem startDecode_hPoutGot (len : Arg) (s : State) : (startDecode len s).hPoutGot = s.hPoutGot := rfl
@[simp] theorem startDecode_hRspGot (len : Arg) (s : State) : (startDecode len s).hRspGot = s.hRspGot := rfl
@[simp] theorem startDecode_hScript (len : Arg) (s : State) : (startDecode len s).hScript = s.hScript := rfl

/-! ### The bit writer -/

@[simp] theorem putBit_pin (b : Bool) (s : State) : (putBit b s).pin = s.pin := by unfold putBit; dsimp only; split <;> rfl
@[simp] theorem putBit_ccLen (b : Bool) (s : State) : (putBit b s).ccLen = s.ccLen := by unfold putBit; dsimp only; split <;> rfl
@[simp] theorem putBit_ccI (b : Bool) (s : State) : (putBit b s).ccI = s.ccI := by unfold putBit; dsimp only; split <;> rfl
@[simp] theorem putBit_sin (b : Bool) (s : State) : (putBit b s).sin = s.sin := by unfold putBit; dsimp only; split <;> rfl
@[simp] theorem putBit_brIdx (b : Bool) (s : State) : (putBit b s).brIdx = s.brIdx := by unfold putBit; dsimp only; split <;> rfl
@[simp] theorem putBit_brCur (b : Bool) (s : State) : (putBit b s).brCur = s.brCur := by unfold putBit; dsimp only; split <;> rfl
@[simp] theorem putBit_brLeft (b : Bool) (s : State) : (putBit b s).brLeft = s.brLeft := by unfold putBit; dsimp only; split <;> rfl
@[simp] theorem putBit_brClosed (b : Bool) (s : State) : (putBit b s).brClosed = s.brClosed := by unfold putBit; dsimp only; split <;> rfl
@[simp] theorem putBit_cxLen (b : Bool) (s : State) : (putBit b s).cxLen = s.cxLen := by unfold putBit; dsimp only; split <;> rfl
@[simp] theorem putBit_cxN (b : Bool) (s : State) : (putBit b s).cxN = s.cxN := by unfold putBit; dsimp only; split <;> rfl
@[simp] theorem putBit_cxLast (b : Bool) (s : State) : (putBit b s).cxLast = s.cxLast := by unfold putBit; dsimp only; split <;> rfl
@[simp] theorem putBit_pout (b : Bool) (s : State) : (putBit b s).pout = s.pout := by unfold putBit; dsimp only; split <;> rfl
@[simp] theorem putBit_derr (b : Bool) (s : State) : (putBit b s).derr = s.derr := by unfold putBit; dsimp only; split <;> rfl
@[simp] theorem putBit_dcode (b : Bool) (s : State) : (putBit b s).dcode = s.dcode := by unfold putBit; dsimp only; split <;> rfl
@[simp] theorem putBit_seqBusy (b : Bool) (s : State) : (putBit b s).seqBusy = s.seqBusy := by unfold putBit; dsimp only; split <;> rfl
@[simp] theorem putBit_activity (b : Bool) (s : State) : (putBit b s).activity = s.activity := by unfold putBit; dsimp only; split <;> rfl
@[simp] theorem putBit_tokAt (b : Bool) (s : State) : (putBit b s).tokAt = s.tokAt := by unfold putBit; dsimp only; split <;> rfl
@[simp] theorem putBit_soutTaken (b : Bool) (s : State) : (putBit b s).soutTaken = s.soutTaken := by unfold putBit; dsimp only; split <;> rfl
@[simp] theorem putBit_poutTaken (b : Bool) (s : State) : (putBit b s).poutTaken = s.poutTaken := by unfold putBit; dsimp only; split <;> rfl
@[simp] theorem putBit_hCmd (b : Bool) (s : State) : (putBit b s).hCmd = s.hCmd := by unfold putBit; dsimp only; split <;> rfl
@[simp] theorem putBit_hPin (b : Bool) (s : State) : (putBit b s).hPin = s.hPin := by unfold putBit; dsimp only; split <;> rfl
@[simp] theorem putBit_hSin (b : Bool) (s : State) : (putBit b s).hSin = s.hSin := by unfold putBit; dsimp only; split <;> rfl
@[simp] theorem putBit_hEos (b : Bool) (s : State) : (putBit b s).hEos = s.hEos := by unfold putBit; dsimp only; split <;> rfl
@[simp] theorem putBit_hRspReady (b : Bool) (s : State) : (putBit b s).hRspReady = s.hRspReady := by unfold putBit; dsimp only; split <;> rfl
@[simp] theorem putBit_hSoutReady (b : Bool) (s : State) : (putBit b s).hSoutReady = s.hSoutReady := by unfold putBit; dsimp only; split <;> rfl
@[simp] theorem putBit_hPoutReady (b : Bool) (s : State) : (putBit b s).hPoutReady = s.hPoutReady := by unfold putBit; dsimp only; split <;> rfl
@[simp] theorem putBit_hSoutGot (b : Bool) (s : State) : (putBit b s).hSoutGot = s.hSoutGot := by unfold putBit; dsimp only; split <;> rfl
@[simp] theorem putBit_hPoutGot (b : Bool) (s : State) : (putBit b s).hPoutGot = s.hPoutGot := by unfold putBit; dsimp only; split <;> rfl
@[simp] theorem putBit_hRspGot (b : Bool) (s : State) : (putBit b s).hRspGot = s.hRspGot := by unfold putBit; dsimp only; split <;> rfl
@[simp] theorem putBit_hScript (b : Bool) (s : State) : (putBit b s).hScript = s.hScript := by unfold putBit; dsimp only; split <;> rfl

@[simp] theorem flush_pin (s : State) : (flush s).pin = s.pin := by unfold flush; split <;> rfl
@[simp] theorem flush_ccLen (s : State) : (flush s).ccLen = s.ccLen := by unfold flush; split <;> rfl
@[simp] theorem flush_ccI (s : State) : (flush s).ccI = s.ccI := by unfold flush; split <;> rfl
@[simp] theorem flush_sin (s : State) : (flush s).sin = s.sin := by unfold flush; split <;> rfl
@[simp] theorem flush_brIdx (s : State) : (flush s).brIdx = s.brIdx := by unfold flush; split <;> rfl
@[simp] theorem flush_brCur (s : State) : (flush s).brCur = s.brCur := by unfold flush; split <;> rfl
@[simp] theorem flush_brLeft (s : State) : (flush s).brLeft = s.brLeft := by unfold flush; split <;> rfl
@[simp] theorem flush_brClosed (s : State) : (flush s).brClosed = s.brClosed := by unfold flush; split <;> rfl
@[simp] theorem flush_cxLen (s : State) : (flush s).cxLen = s.cxLen := by unfold flush; split <;> rfl
@[simp] theorem flush_cxN (s : State) : (flush s).cxN = s.cxN := by unfold flush; split <;> rfl
@[simp] theorem flush_cxLast (s : State) : (flush s).cxLast = s.cxLast := by unfold flush; split <;> rfl
@[simp] theorem flush_pout (s : State) : (flush s).pout = s.pout := by unfold flush; split <;> rfl
@[simp] theorem flush_derr (s : State) : (flush s).derr = s.derr := by unfold flush; split <;> rfl
@[simp] theorem flush_dcode (s : State) : (flush s).dcode = s.dcode := by unfold flush; split <;> rfl
@[simp] theorem flush_seqBusy (s : State) : (flush s).seqBusy = s.seqBusy := by unfold flush; split <;> rfl
@[simp] theorem flush_activity (s : State) : (flush s).activity = s.activity := by unfold flush; split <;> rfl
@[simp] theorem flush_tokAt (s : State) : (flush s).tokAt = s.tokAt := by unfold flush; split <;> rfl
@[simp] theorem flush_soutTaken (s : State) : (flush s).soutTaken = s.soutTaken := by unfold flush; split <;> rfl
@[simp] theorem flush_poutTaken (s : State) : (flush s).poutTaken = s.poutTaken := by unfold flush; split <;> rfl
@[simp] theorem flush_hCmd (s : State) : (flush s).hCmd = s.hCmd := by unfold flush; split <;> rfl
@[simp] theorem flush_hPin (s : State) : (flush s).hPin = s.hPin := by unfold flush; split <;> rfl
@[simp] theorem flush_hSin (s : State) : (flush s).hSin = s.hSin := by unfold flush; split <;> rfl
@[simp] theorem flush_hEos (s : State) : (flush s).hEos = s.hEos := by unfold flush; split <;> rfl
@[simp] theorem flush_hRspReady (s : State) : (flush s).hRspReady = s.hRspReady := by unfold flush; split <;> rfl
@[simp] theorem flush_hSoutReady (s : State) : (flush s).hSoutReady = s.hSoutReady := by unfold flush; split <;> rfl
@[simp] theorem flush_hPoutReady (s : State) : (flush s).hPoutReady = s.hPoutReady := by unfold flush; split <;> rfl
@[simp] theorem flush_hSoutGot (s : State) : (flush s).hSoutGot = s.hSoutGot := by unfold flush; split <;> rfl
@[simp] theorem flush_hPoutGot (s : State) : (flush s).hPoutGot = s.hPoutGot := by unfold flush; split <;> rfl
@[simp] theorem flush_hRspGot (s : State) : (flush s).hRspGot = s.hRspGot := by unfold flush; split <;> rfl
@[simp] theorem flush_hScript (s : State) : (flush s).hScript = s.hScript := by unfold flush; split <;> rfl

@[simp] theorem writeBits_pin (v : Arg) (c : Nat) (s : State) : (writeBits v c s).pin = s.pin := by
  induction c generalizing s with
  | zero => rfl
  | succ k ih => simp [writeBits, ih]
@[simp] theorem writeBits_ccLen (v : Arg) (c : Nat) (s : State) : (writeBits v c s).ccLen = s.ccLen := by
  induction c generalizing s with
  | zero => rfl
  | succ k ih => simp [writeBits, ih]
@[simp] theorem writeBits_ccI (v : Arg) (c : Nat) (s : State) : (writeBits v c s).ccI = s.ccI := by
  induction c generalizing s with
  | zero => rfl
  | succ k ih => simp [writeBits, ih]
@[simp] theorem writeBits_sin (v : Arg) (c : Nat) (s : State) : (writeBits v c s).sin = s.sin := by
  induction c generalizing s with
  | zero => rfl
  | succ k ih => simp [writeBits, ih]
@[simp] theorem writeBits_brIdx (v : Arg) (c : Nat) (s : State) : (writeBits v c s).brIdx = s.brIdx := by
  induction c generalizing s with
  | zero => rfl
  | succ k ih => simp [writeBits, ih]
@[simp] theorem writeBits_brCur (v : Arg) (c : Nat) (s : State) : (writeBits v c s).brCur = s.brCur := by
  induction c generalizing s with
  | zero => rfl
  | succ k ih => simp [writeBits, ih]
@[simp] theorem writeBits_brLeft (v : Arg) (c : Nat) (s : State) : (writeBits v c s).brLeft = s.brLeft := by
  induction c generalizing s with
  | zero => rfl
  | succ k ih => simp [writeBits, ih]
@[simp] theorem writeBits_brClosed (v : Arg) (c : Nat) (s : State) : (writeBits v c s).brClosed = s.brClosed := by
  induction c generalizing s with
  | zero => rfl
  | succ k ih => simp [writeBits, ih]
@[simp] theorem writeBits_cxLen (v : Arg) (c : Nat) (s : State) : (writeBits v c s).cxLen = s.cxLen := by
  induction c generalizing s with
  | zero => rfl
  | succ k ih => simp [writeBits, ih]
@[simp] theorem writeBits_cxN (v : Arg) (c : Nat) (s : State) : (writeBits v c s).cxN = s.cxN := by
  induction c generalizing s with
  | zero => rfl
  | succ k ih => simp [writeBits, ih]
@[simp] theorem writeBits_cxLast (v : Arg) (c : Nat) (s : State) : (writeBits v c s).cxLast = s.cxLast := by
  induction c generalizing s with
  | zero => rfl
  | succ k ih => simp [writeBits, ih]
@[simp] theorem writeBits_pout (v : Arg) (c : Nat) (s : State) : (writeBits v c s).pout = s.pout := by
  induction c generalizing s with
  | zero => rfl
  | succ k ih => simp [writeBits, ih]
@[simp] theorem writeBits_derr (v : Arg) (c : Nat) (s : State) : (writeBits v c s).derr = s.derr := by
  induction c generalizing s with
  | zero => rfl
  | succ k ih => simp [writeBits, ih]
@[simp] theorem writeBits_dcode (v : Arg) (c : Nat) (s : State) : (writeBits v c s).dcode = s.dcode := by
  induction c generalizing s with
  | zero => rfl
  | succ k ih => simp [writeBits, ih]
@[simp] theorem writeBits_seqBusy (v : Arg) (c : Nat) (s : State) : (writeBits v c s).seqBusy = s.seqBusy := by
  induction c generalizing s with
  | zero => rfl
  | succ k ih => simp [writeBits, ih]
@[simp] theorem writeBits_activity (v : Arg) (c : Nat) (s : State) : (writeBits v c s).activity = s.activity := by
  induction c generalizing s with
  | zero => rfl
  | succ k ih => simp [writeBits, ih]
@[simp] theorem writeBits_tokAt (v : Arg) (c : Nat) (s : State) : (writeBits v c s).tokAt = s.tokAt := by
  induction c generalizing s with
  | zero => rfl
  | succ k ih => simp [writeBits, ih]
@[simp] theorem writeBits_soutTaken (v : Arg) (c : Nat) (s : State) : (writeBits v c s).soutTaken = s.soutTaken := by
  induction c generalizing s with
  | zero => rfl
  | succ k ih => simp [writeBits, ih]
@[simp] theorem writeBits_poutTaken (v : Arg) (c : Nat) (s : State) : (writeBits v c s).poutTaken = s.poutTaken := by
  induction c generalizing s with
  | zero => rfl
  | succ k ih => simp [writeBits, ih]
@[simp] theorem writeBits_hCmd (v : Arg) (c : Nat) (s : State) : (writeBits v c s).hCmd = s.hCmd := by
  induction c generalizing s with
  | zero => rfl
  | succ k ih => simp [writeBits, ih]
@[simp] theorem writeBits_hPin (v : Arg) (c : Nat) (s : State) : (writeBits v c s).hPin = s.hPin := by
  induction c generalizing s with
  | zero => rfl
  | succ k ih => simp [writeBits, ih]
@[simp] theorem writeBits_hSin (v : Arg) (c : Nat) (s : State) : (writeBits v c s).hSin = s.hSin := by
  induction c generalizing s with
  | zero => rfl
  | succ k ih => simp [writeBits, ih]
@[simp] theorem writeBits_hEos (v : Arg) (c : Nat) (s : State) : (writeBits v c s).hEos = s.hEos := by
  induction c generalizing s with
  | zero => rfl
  | succ k ih => simp [writeBits, ih]
@[simp] theorem writeBits_hRspReady (v : Arg) (c : Nat) (s : State) : (writeBits v c s).hRspReady = s.hRspReady := by
  induction c generalizing s with
  | zero => rfl
  | succ k ih => simp [writeBits, ih]
@[simp] theorem writeBits_hSoutReady (v : Arg) (c : Nat) (s : State) : (writeBits v c s).hSoutReady = s.hSoutReady := by
  induction c generalizing s with
  | zero => rfl
  | succ k ih => simp [writeBits, ih]
@[simp] theorem writeBits_hPoutReady (v : Arg) (c : Nat) (s : State) : (writeBits v c s).hPoutReady = s.hPoutReady := by
  induction c generalizing s with
  | zero => rfl
  | succ k ih => simp [writeBits, ih]
@[simp] theorem writeBits_hSoutGot (v : Arg) (c : Nat) (s : State) : (writeBits v c s).hSoutGot = s.hSoutGot := by
  induction c generalizing s with
  | zero => rfl
  | succ k ih => simp [writeBits, ih]
@[simp] theorem writeBits_hPoutGot (v : Arg) (c : Nat) (s : State) : (writeBits v c s).hPoutGot = s.hPoutGot := by
  induction c generalizing s with
  | zero => rfl
  | succ k ih => simp [writeBits, ih]
@[simp] theorem writeBits_hRspGot (v : Arg) (c : Nat) (s : State) : (writeBits v c s).hRspGot = s.hRspGot := by
  induction c generalizing s with
  | zero => rfl
  | succ k ih => simp [writeBits, ih]
@[simp] theorem writeBits_hScript (v : Arg) (c : Nat) (s : State) : (writeBits v c s).hScript = s.hScript := by
  induction c generalizing s with
  | zero => rfl
  | succ k ih => simp [writeBits, ih]

@[simp] theorem encodeCount_pin (n : Arg) (s : State) : (encodeCount n s).pin = s.pin := by unfold encodeCount; split_ifs <;> simp
@[simp] theorem encodeCount_ccLen (n : Arg) (s : State) : (encodeCount n s).ccLen = s.ccLen := by unfold encodeCount; split_ifs <;> simp
@[simp] theorem encodeCount_ccI (n : Arg) (s : State) : (encodeCount n s).ccI = s.ccI := by unfold encodeCount; split_ifs <;> simp
@[simp] theorem encodeCount_sin (n : Arg) (s : State) : (encodeCount n s).sin = s.sin := by unfold encodeCount; split_ifs <;> simp
@[simp] theorem encodeCount_brIdx (n : Arg) (s : State) : (encodeCount n s).brIdx = s.brIdx := by unfold encodeCount; split_ifs <;> simp
@[simp] theorem encodeCount_brCur (n : Arg) (s : State) : (encodeCount n s).brCur = s.brCur := by unfold encodeCount; split_ifs <;> simp
@[simp] theorem encodeCount_brLeft (n : Arg) (s : State) : (encodeCount n s).brLeft = s.brLeft := by unfold encodeCount; split_ifs <;> simp
@[simp] theorem encodeCount_brClosed (n : Arg) (s : State) : (encodeCount n s).brClosed = s.brClosed := by unfold encodeCount; split_ifs <;> simp
@[simp] theorem encodeCount_cxLen (n : Arg) (s : State) : (encodeCount n s).cxLen = s.cxLen := by unfold encodeCount; split_ifs <;> simp
@[simp] theorem encodeCount_cxN (n : Arg) (s : State) : (encodeCount n s).cxN = s.cxN := by unfold encodeCount; split_ifs <;> simp
@[simp] theorem encodeCount_cxLast (n : Arg) (s : State) : (encodeCount n s).cxLast = s.cxLast := by unfold encodeCount; split_ifs <;> simp
@[simp] theorem encodeCount_pout (n : Arg) (s : State) : (encodeCount n s).pout = s.pout := by unfold encodeCount; split_ifs <;> simp
@[simp] theorem encodeCount_derr (n : Arg) (s : State) : (encodeCount n s).derr = s.derr := by unfold encodeCount; split_ifs <;> simp
@[simp] theorem encodeCount_dcode (n : Arg) (s : State) : (encodeCount n s).dcode = s.dcode := by unfold encodeCount; split_ifs <;> simp
@[simp] theorem encodeCount_seqBusy (n : Arg) (s : State) : (encodeCount n s).seqBusy = s.seqBusy := by unfold encodeCount; split_ifs <;> simp
@[simp] theorem encodeCount_activity (n : Arg) (s : State) : (encodeCount n s).activity = s.activity := by unfold encodeCount; split_ifs <;> simp
@[simp] theorem encodeCount_tokAt (n : Arg) (s : State) : (encodeCount n s).tokAt = s.tokAt := by unfold encodeCount; split_ifs <;> simp
@[simp] theorem encodeCount_soutTaken (n : Arg) (s : State) : (encodeCount n s).soutTaken = s.soutTaken := by unfold encodeCount; split_ifs <;> simp
@[simp] theorem encodeCount_poutTaken (n : Arg) (s : State) : (encodeCount n s).poutTaken = s.poutTaken := by unfold encodeCount; split_ifs <;> simp
@[simp] theorem encodeCount_hCmd (n : Arg) (s : State) : (encodeCount n s).hCmd = s.hCmd := by unfold encodeCount; split_ifs <;> simp
@[simp] theorem encodeCount_hPin (n : Arg) (s : State) : (encodeCount n s).hPin = s.hPin := by unfold encodeCount; split_ifs <;> simp
@[simp] theorem encodeCount_hSin (n : Arg) (s : State) : (encodeCount n s).hSin = s.hSin := by unfold encodeCount; split_ifs <;> simp
@[simp] theorem encodeCount_hEos (n : Arg) (s : State) : (encodeCount n s).hEos = s.hEos := by unfold encodeCount; split_ifs <;> simp
@[simp] theorem encodeCount_hRspReady (n : Arg) (s : State) : (encodeCount n s).hRspReady = s.hRspReady := by unfold encodeCount; split_ifs <;> simp
@[simp] theorem encodeCount_hSoutReady (n : Arg) (s : State) : (encodeCount n s).hSoutReady = s.hSoutReady := by unfold encodeCount; split_ifs <;> simp
@[simp] theorem encodeCount_hPoutReady (n : Arg) (s : State) : (encodeCount n s).hPoutReady = s.hPoutReady := by unfold encodeCount; split_ifs <;> simp
@[simp] theorem encodeCount_hSoutGot (n : Arg) (s : State) : (encodeCount n s).hSoutGot = s.hSoutGot := by unfold encodeCount; split_ifs <;> simp
@[simp] theorem encodeCount_hPoutGot (n : Arg) (s : State) : (encodeCount n s).hPoutGot = s.hPoutGot := by unfold encodeCount; split_ifs <;> simp
@[simp] theorem encodeCount_hRspGot (n : Arg) (s : State) : (encodeCount n s).hRspGot = s.hRspGot := by unfold encodeCount; split_ifs <;> simp
@[simp] theorem encodeCount_hScript (n : Arg) (s : State) : (encodeCount n s).hScript = s.hScript := by unfold encodeCount; split_ifs <;> simp

@[simp] theorem emitRun_pin (n : Arg) (s : State) : (emitRun n s).pin = s.pin := by simp [emitRun]
@[simp] theorem emitRun_ccLen (n : Arg) (s : State) : (emitRun n s).ccLen = s.ccLen := by simp [emitRun]
@[simp] theorem emitRun_ccI (n : Arg) (s : State) : (emitRun n s).ccI = s.ccI := by simp [emitRun]
@[simp] theorem emitRun_sin (n : Arg) (s : State) : (emitRun n s).sin = s.sin := by simp [emitRun]
@[simp] theorem emitRun_brIdx (n : Arg) (s : State) : (emitRun n s).brIdx = s.brIdx := by simp [emitRun]
@[simp] theorem emitRun_brCur (n : Arg) (s : State) : (emitRun n s).brCur = s.brCur := by simp [emitRun]
@[simp] theorem emitRun_brLeft (n : Arg) (s : State) : (emitRun n s).brLeft = s.brLeft := by simp [emitRun]
@[simp] theorem emitRun_brClosed (n : Arg) (s : State) : (emitRun n s).brClosed = s.brClosed := by simp [emitRun]
@[simp] theorem emitRun_cxLen (n : Arg) (s : State) : (emitRun n s).cxLen = s.cxLen := by simp [emitRun]
@[simp] theorem emitRun_cxN (n : Arg) (s : State) : (emitRun n s).cxN = s.cxN := by simp [emitRun]
@[simp] theorem emitRun_cxLast (n : Arg) (s : State) : (emitRun n s).cxLast = s.cxLast := by simp [emitRun]
@[simp] theorem emitRun_pout (n : Arg) (s : State) : (emitRun n s).pout = s.pout := by simp [emitRun]
@[simp] theorem emitRun_derr (n : Arg) (s : State) : (emitRun n s).derr = s.derr := by simp [emitRun]
@[simp] theorem emitRun_dcode (n : Arg) (s : State) : (emitRun n s).dcode = s.dcode := by simp [emitRun]
@[simp] theorem emitRun_seqBusy (n : Arg) (s : State) : (emitRun n s).seqBusy = s.seqBusy := by simp [emitRun]
@[simp] theorem emitRun_activity (n : Arg) (s : State) : (emitRun n s).activity = s.activity := by simp [emitRun]
@[simp] theorem emitRun_tokAt (n : Arg) (s : State) : (emitRun n s).tokAt = s.tokAt := by simp [emitRun]
@[simp] theorem emitRun_soutTaken (n : Arg) (s : State) : (emitRun n s).soutTaken = s.soutTaken := by simp [emitRun]
@[simp] theorem emitRun_poutTaken (n : Arg) (s : State) : (emitRun n s).poutTaken = s.poutTaken := by simp [emitRun]
@[simp] theorem emitRun_hCmd (n : Arg) (s : State) : (emitRun n s).hCmd = s.hCmd := by simp [emitRun]
@[simp] theorem emitRun_hPin (n : Arg) (s : State) : (emitRun n s).hPin = s.hPin := by simp [emitRun]
@[simp] theorem emitRun_hSin (n : Arg) (s : State) : (emitRun n s).hSin = s.hSin := by simp [emitRun]
@[simp] theorem emitRun_hEos (n : Arg) (s : State) : (emitRun n s).hEos = s.hEos := by simp [emitRun]
@[simp] theorem emitRun_hRspReady (n : Arg) (s : State) : (emitRun n s).hRspReady = s.hRspReady := by simp [emitRun]
@[simp] theorem emitRun_hSoutReady (n : Arg) (s : State) : (emitRun n s).hSoutReady = s.hSoutReady := by simp [emitRun]
@[simp] theorem emitRun_hPoutReady (n : Arg) (s : State) : (emitRun n s).hPoutReady = s.hPoutReady := by simp [emitRun]
@[simp] theorem emitRun_hSoutGot (n : Arg) (s : State) : (emitRun n s).hSoutGot = s.hSoutGot := by simp [emitRun]
@[simp] theorem emitRun_hPoutGot (n : Arg) (s : State) : (emitRun n s).hPoutGot = s.hPoutGot := by simp [emitRun]
@[simp] theorem emitRun_hRspGot (n : Arg) (s : State) : (emitRun n s).hRspGot = s.hRspGot := by simp [emitRun]
@[simp] theorem emitRun_hScript (n : Arg) (s : State) : (emitRun n s).hScript = s.hScript := by simp [emitRun]

@[simp] theorem emitLit_pin (b : Arg) (s : State) : (emitLit b s).pin = s.pin := by simp [emitLit]
@[simp] theorem emitLit_ccLen (b : Arg) (s : State) : (emitLit b s).ccLen = s.ccLen := by simp [emitLit]
@[simp] theorem emitLit_ccI (b : Arg) (s : State) : (emitLit b s).ccI = s.ccI := by simp [emitLit]
@[simp] theorem emitLit_sin (b : Arg) (s : State) : (emitLit b s).sin = s.sin := by simp [emitLit]
@[simp] theorem emitLit_brIdx (b : Arg) (s : State) : (emitLit b s).brIdx = s.brIdx := by simp [emitLit]
@[simp] theorem emitLit_brCur (b : Arg) (s : State) : (emitLit b s).brCur = s.brCur := by simp [emitLit]
@[simp] theorem emitLit_brLeft (b : Arg) (s : State) : (emitLit b s).brLeft = s.brLeft := by simp [emitLit]
@[simp] theorem emitLit_brClosed (b : Arg) (s : State) : (emitLit b s).brClosed = s.brClosed := by simp [emitLit]
@[simp] theorem emitLit_cxLen (b : Arg) (s : State) : (emitLit b s).cxLen = s.cxLen := by simp [emitLit]
@[simp] theorem emitLit_cxN (b : Arg) (s : State) : (emitLit b s).cxN = s.cxN := by simp [emitLit]
@[simp] theorem emitLit_cxLast (b : Arg) (s : State) : (emitLit b s).cxLast = s.cxLast := by simp [emitLit]
@[simp] theorem emitLit_pout (b : Arg) (s : State) : (emitLit b s).pout = s.pout := by simp [emitLit]
@[simp] theorem emitLit_derr (b : Arg) (s : State) : (emitLit b s).derr = s.derr := by simp [emitLit]
@[simp] theorem emitLit_dcode (b : Arg) (s : State) : (emitLit b s).dcode = s.dcode := by simp [emitLit]
@[simp] theorem emitLit_seqBusy (b : Arg) (s : State) : (emitLit b s).seqBusy = s.seqBusy := by simp [emitLit]
@[simp] theorem emitLit_activity (b : Arg) (s : State) : (emitLit b s).activity = s.activity := by simp [emitLit]
@[simp] theorem emitLit_tokAt (b : Arg) (s : State) : (emitLit b s).tokAt = s.tokAt := by simp [emitLit]
@[simp] theorem emitLit_soutTaken (b : Arg) (s : State) : (emitLit b s).soutTaken = s.soutTaken := by simp [emitLit]
@[simp] theorem emitLit_poutTaken (b : Arg) (s : State) : (emitLit b s).poutTaken = s.poutTaken := by simp [emitLit]
@[simp] theorem emitLit_hCmd (b : Arg) (s : State) : (emitLit b s).hCmd = s.hCmd := by simp [emitLit]
@[simp] theorem emitLit_hPin (b : Arg) (s : State) : (emitLit b s).hPin = s.hPin := by simp [emitLit]
@[simp] theorem emitLit_hSin (b : Arg) (s : State) : (emitLit b s).hSin = s.hSin := by simp [emitLit]
@[simp] theorem emitLit_hEos (b : Arg) (s : State) : (emitLit b s).hEos = s.hEos := by simp [emitLit]
@[simp] theorem emitLit_hRspReady (b : Arg) (s : State) : (emitLit b s).hRspReady = s.hRspReady := by simp [emitLit]
@[simp] theorem emitLit_hSoutReady (b : Arg) (s : State) : (emitLit b s).hSoutReady = s.hSoutReady := by simp [emitLit]
@[simp] theorem emitLit_hPoutReady (b : Arg) (s : State) : (emitLit b s).hPoutReady = s.hPoutReady := by simp [emitLit]
@[simp] theorem emitLit_hSoutGot (b : Arg) (s : State) : (emitLit b s).hSoutGot = s.hSoutGot := by simp [emitLit]
@[simp] theorem emitLit_hPoutGot (b : Arg) (s : State) : (emitLit b s).hPoutGot = s.hPoutGot := by simp [emitLit]
@[simp] theorem emitLit_hRspGot (b : Arg) (s : State) : (emitLit b s).hRspGot = s.hRspGot := by simp [emitLit]
@[simp] theorem emitLit_hScript (b : Arg) (s : State) : (emitLit b s).hScript = s.hScript := by simp [emitLit]

/-! ### The expander -/

@[simp] theorem emitLast_bwAcc (n : Nat) (s : State) : (emitLast n s).bwAcc = s.bwAcc := by
  induction n generalizing s with
  | zero => rfl
  | succ k ih => simp [emitLast, ih]
@[simp] theorem emitLast_bwFree (n : Nat) (s : State) : (emitLast n s).bwFree = s.bwFree := by
  induction n generalizing s with
  | zero => rfl
  | succ k ih => simp [emitLast, ih]
@[simp] theorem emitLast_sout (n : Nat) (s : State) : (emitLast n s).sout = s.sout := by
  induction n generalizing s with
  | zero => rfl
  | succ k ih => simp [emitLast, ih]
@[simp] theorem emitLast_pin (n : Nat) (s : State) : (emitLast n s).pin = s.pin := by
  induction n generalizing s with
  | zero => rfl
  | succ k ih => simp [emitLast, ih]
@[simp] theorem emitLast_ccLen (n : Nat) (s : State) : (emitLast n s).ccLen = s.ccLen := by
  induction n generalizing s with
  | zero => rfl
  | succ k ih => simp [emitLast, ih]
@[simp] theorem emitLast_ccI (n : Nat) (s : State) : (emitLast n s).ccI = s.ccI := by
  induction n generalizing s with
  | zero => rfl
  | succ k ih => simp [emitLast, ih]
@[simp] theorem emitLast_sin (n : Nat) (s : State) : (emitLast n s).sin = s.sin := by
  induction n generalizing s with
  | zero => rfl
  | succ k ih => simp [emitLast, ih]
@[simp] theorem emitLast_brIdx (n : Nat) (s : State) : (emitLast n s).brIdx = s.brIdx := by
  induction n generalizing s with
  | zero => rfl
  | succ k ih => simp [emitLast, ih]
@[simp] theorem emitLast_brCur (n : Nat) (s : State) : (emitLast n s).brCur = s.brCur := by
  induction n generalizing s with
  | zero => rfl
  | succ k ih => simp [emitLast, ih]
@[simp] theorem emitLast_brLeft (n : Nat) (s : State) : (emitLast n s).brLeft = s.brLeft := by
  induction n generalizing s with
  | zero => rfl
  | succ k ih => simp [emitLast, ih]
@[simp] theorem emitLast_brClosed (n : Nat) (s : State) : (emitLast n s).brClosed = s.brClosed := by
  induction n generalizing s with
  | zero => rfl
  | succ k ih => simp [emitLast, ih]
@[simp] theorem emitLast_cxLen (n : Nat) (s : State) : (emitLast n s).cxLen = s.cxLen := by
  induction n generalizing s with
  | zero => rfl
  | succ k ih => simp [emitLast, ih]
@[simp] theorem emitLast_derr (n : Nat) (s : State) : (emitLast n s).derr = s.derr := by
  induction n generalizing s with
  | zero => rfl
  | succ k ih => simp [emitLast, ih]
@[simp] theorem emitLast_dcode (n : Nat) (s : State) : (emitLast n s).dcode = s.dcode := by
  induction n generalizing s with
  | zero => rfl
  | succ k ih => simp [emitLast, ih]
@[simp] theorem emitLast_seqBusy (n : Nat) (s : State) : (emitLast n s).seqBusy = s.seqBusy := by
  induction n generalizing s with
  | zero => rfl
  | succ k ih => simp [emitLast, ih]
@[simp] theorem emitLast_activity (n : Nat) (s : State) : (emitLast n s).activity = s.activity := by
  induction n generalizing s with
  | zero => rfl
  | succ k ih => simp [emitLast, ih]
@[simp] theorem emitLast_tokAt (n : Nat) (s : State) : (emitLast n s).tokAt = s.tokAt := by
  induction n generalizing s with
  | zero => rfl
  | succ k ih => simp [emitLast, ih]
@[simp] theorem emitLast_soutTaken (n : Nat) (s : State) : (emitLast n s).soutTaken = s.soutTaken := by
  induction n generalizing s with
  | zero => rfl
  | succ k ih => simp [emitLast, ih]
@[simp] theorem emitLast_poutTaken (n : Nat) (s : State) : (emitLast n s).poutTaken = s.poutTaken := by
  induction n generalizing s with
  | zero => rfl
  | succ k ih => simp [emitLast, ih]
@[simp] theorem emitLast_hCmd (n : Nat) (s : State) : (emitLast n s).hCmd = s.hCmd := by
  induction n generalizing s with
  | zero => rfl
  | succ k ih => simp [emitLast, ih]
@[simp] theorem emitLast_hPin (n : Nat) (s : State) : (emitLast n s).hPin = s.hPin := by
  induction n generalizing s with
  | zero => rfl
  | succ k ih => simp [emitLast, ih]
@[simp] theorem emitLast_hSin (n : Nat) (s : State) : (emitLast n s).hSin = s.hSin := by
  induction n generalizing s with
  | zero => rfl
  | succ k ih => simp [emitLast, ih]
@[simp] theorem emitLast_hEos (n : Nat) (s : State) : (emitLast n s).hEos = s.hEos := by
  induction n generalizing s with
  | zero => rfl
  | succ k ih => simp [emitLast, ih]
@[simp] theorem emitLast_hRspReady (n : Nat) (s : State) : (emitLast n s).hRspReady = s.hRspReady := by
  induction n generalizing s with
  | zero => rfl
  | succ k ih => simp [emitLast, ih]
@[simp] theorem emitLast_hSoutReady (n : Nat) (s : State) : (emitLast n s).hSoutReady = s.hSoutReady := by
  induction n generalizing s with
  | zero => rfl
  | succ k ih => simp [emitLast, ih]
@[simp] theorem emitLast_hPoutReady (n : Nat) (s : State) : (emitLast n s).hPoutReady = s.hPoutReady := by
  induction n generalizing s with
  | zero => rfl
  | succ k ih => simp [emitLast, ih]
@[simp] theorem emitLast_hSoutGot (n : Nat) (s : State) : (emitLast n s).hSoutGot = s.hSoutGot := by
  induction n generalizing s with
  | zero => rfl
  | succ k ih => simp [emitLast, ih]
@[simp] theorem emitLast_hPoutGot (n : Nat) (s : State) : (emitLast n s).hPoutGot = s.hPoutGot := by
  induction n generalizing s with
  | zero => rfl
  | succ k ih => simp [emitLast, ih]
@[simp] theorem emitLast_hRspGot (n : Nat) (s : State) : (emitLast n s).hRspGot = s.hRspGot := by
  induction n generalizing s with
  | zero => rfl
  | succ k ih => simp [emitLast, ih]
@[simp] theorem emitLast_hScript (n : Nat) (s : State) : (emitLast n s).hScript = s.hScript := by
  induction n generalizing s with
  | zero => rfl
  | succ k ih => simp [emitLast, ih]

end Sys2Proof.Machine
end

