-- ==== Sys2Proof/Laws/Reader.lean ====
section
/-! SUPPORT. What the operations of the bit reader do: to the unread bits `toRead`, to the cursor, and nothing else
(41_bit_reader.md). -/

namespace Sys2Proof.Machine

/-- The unread bits are `avail` many (41_bit_reader.md R151). -/
theorem toRead_length (s : State) : (toRead s).length = avail s := by
  simp [toRead, avail]; omega

/-- What `get_bit` can do (R152): it takes the next unread bit, and it fails only when there is none. -/
theorem getBit_none {s : State} : getBit s = none ↔ toRead s = [] := by
  unfold getBit memRead toRead
  split_ifs with h
  · cases hb : s.sin[s.brIdx]? with
    | none =>
      have hle : s.sin.length ≤ s.brIdx := by simpa using hb
      simp [h, lowBits, List.drop_eq_nil_of_le hle]
    | some b =>
      obtain ⟨hlt, rfl⟩ := List.getElem?_eq_some_iff.mp hb
      rw [List.drop_eq_getElem_cons hlt, bitsOf_cons, byteBits, lowBits]
      simp
  · have : s.brLeft.toNat ≠ 0 := fun hh => h (by simpa [BitVec.toNat_eq] using hh)
    obtain ⟨n, hn⟩ := Nat.exists_eq_succ_of_ne_zero this
    simp [hn, lowBits]

/-- The unread bits are what `SIN` holds from the position on (R158). -/
theorem toRead_eq {s : State} (h : ReaderInv s) : toRead s = (bitsOf s.sin).drop (bitPos s) := by
  have drop8 : ∀ (l : List Byte) (n : Nat), (bitsOf l).drop (8 * n) = bitsOf (l.drop n) := by
    intro l n
    induction n generalizing l with
    | zero => simp
    | succ n ih => cases l with
      | nil => simp
      | cons b l =>
        rw [show 8 * (n + 1) = 8 + 8 * n by ring, ← List.drop_drop, bitsOf_cons, List.drop_left' (byteBits_length b), ih]; simp
  unfold toRead bitPos
  have hlt := s.brLeft.isLt
  rcases Nat.eq_zero_or_pos s.brIdx with h0 | h0
  · rw [(h.fresh h0).1, h0]; simp [lowBits]
  · obtain ⟨n, hn⟩ : ∃ n, s.brIdx = n + 1 := ⟨s.brIdx - 1, by omega⟩
    have hc := h.cur_eq h0
    have hd : s.sin.drop n = s.brCur :: s.sin.drop (n + 1) := by
      obtain ⟨a, b⟩ := List.getElem?_eq_some_iff.mp hc
      rw [List.drop_eq_getElem_cons (by omega)]
      congr 1
      rw [← b]; congr 1; omega
    rw [hn, show 8 * (n + 1) - s.brLeft.toNat = 8 * n + (8 - s.brLeft.toNat) by omega, show (bitsOf s.sin).drop (8 * n + (8 - s.brLeft.toNat)) = ((bitsOf s.sin).drop (8 * n)).drop (8 - s.brLeft.toNat) from
        (List.drop_drop ..).symm, drop8, hd, bitsOf_cons, List.drop_append_of_le_length (by simp)]
    congr 1
    have := lowBits_add s.brCur (8 - s.brLeft.toNat) s.brLeft.toNat
    rw [show 8 - s.brLeft.toNat + s.brLeft.toNat = 8 by omega] at this
    rw [byteBits, this, List.drop_left' (lowBits_length _ _)]

/-- Everything `get_bit` does when it reads (R152). -/
theorem getBit_some {s t : State} {b : Bool} (h : getBit s = some (b, t)) :
    toRead s = b :: toRead t ∧
      t = { s with brIdx := t.brIdx, brCur := t.brCur, brLeft := t.brLeft } ∧
      (ReaderInv s → ReaderInv t ∧ bitPos t = bitPos s + 1) := by
  unfold getBit memRead at h
  split_ifs at h with hl
  · cases hb : s.sin[s.brIdx]? with
    | none => simp [hb] at h
    | some c =>
      simp only [hb, Option.some.injEq, Prod.mk.injEq] at h
      obtain ⟨rfl, rfl⟩ := h
      obtain ⟨hlt, rfl⟩ := List.getElem?_eq_some_iff.mp hb
      refine ⟨?_, rfl, fun hr => ⟨⟨?_, ?_, ?_⟩, ?_⟩⟩
      · rw [toRead, List.drop_eq_getElem_cons hlt, bitsOf_cons, hl, byteBits, lowBits]
        rfl
      · show s.brIdx + 1 ≤ s.sin.length; omega
      · intro h0; simp at h0
      · intro _; simp [hlt]
      · simp [bitPos, hl]; omega
  · simp only [Option.some.injEq, Prod.mk.injEq] at h
    obtain ⟨rfl, rfl⟩ := h
    have hne : s.brLeft.toNat ≠ 0 := fun hh => hl (by simpa [BitVec.toNat_eq] using hh)
    have hlt := s.brLeft.isLt
    have hs : (s.brLeft - 1).toNat = s.brLeft.toNat - 1 := by
      rw [BitVec.toNat_sub]; simp; omega
    refine ⟨?_, rfl, fun hr => ⟨⟨hr.idx_le, ?_, hr.cur_eq⟩, ?_⟩⟩
    · obtain ⟨n, hn⟩ := Nat.exists_eq_succ_of_ne_zero hne
      have hn' : (s.brLeft - 1).toNat = n := by omega
      show lowBits s.brCur s.brLeft.toNat ++ _ = s.brCur.getLsbD (s.brLeft.toNat - 1) :: (lowBits s.brCur (s.brLeft - 1).toNat ++ _)
      rw [hn', hn, lowBits]; rfl
    · intro h0; exact absurd (hr.fresh h0).1 hl
    · have : 0 < s.brIdx := by
        rcases Nat.eq_zero_or_pos s.brIdx with h0 | h0
        · exact absurd (hr.fresh h0).1 hl
        · exact h0
      simp only [bitPos, hs]; omega

/-- The loop of `read_bits`: the next `c` bits as a number (R153). -/
theorem readGroup_spec (c v : Nat) (s : State) (h : c ≤ (toRead s).length) :
    ∃ t, readGroup v c s = some (v * 2 ^ c + bitsValue ((toRead s).take c), t) ∧
      toRead t = (toRead s).drop c ∧
      t = { s with brIdx := t.brIdx, brCur := t.brCur, brLeft := t.brLeft } ∧
      (ReaderInv s → ReaderInv t ∧ bitPos t = bitPos s + c) := by
  induction c generalizing v s with
  | zero => exact ⟨s, by simp [readGroup], by simp, rfl, fun hr => ⟨hr, rfl⟩⟩
  | succ c ih =>
    cases hg : getBit s with
    | none => rw [getBit_none.mp hg] at h; simp at h
    | some p =>
      obtain ⟨b, u⟩ := p
      obtain ⟨hb, hf, hr⟩ := getBit_some hg
      obtain ⟨t, h1, h2, h3, h4⟩ := ih (2 * v + b.toNat) u (by rw [hb] at h; simpa using h)
      refine ⟨t, ?_, ?_, ?_, ?_⟩
      · rw [readGroup, hg]
        dsimp only
        have hlen : c ≤ (toRead u).length := by rw [hb] at h; simpa using h
        rw [h1, hb, List.take_succ_cons, bitsValue_cons, List.length_take, Nat.min_eq_left hlen]
        congr 2; ring
      · rw [h2, hb]; rfl
      · rw [h3, hf]
      · intro hi
        obtain ⟨a1, a2⟩ := hr hi
        obtain ⟨b1, b2⟩ := h4 a1
        exact ⟨b1, by omega⟩
/-- `t` is `s` after the reader has consumed `k` bits: they were there, nothing but the reader (and the mark of the
field it waits at) has changed, and the reader keeps its invariant (R151 to R153). -/
structure Took (k : Nat) (s t : State) : Prop where
  enough : k ≤ (toRead s).length
  left : toRead t = (toRead s).drop k
  frame : t = { s with brIdx := t.brIdx, brCur := t.brCur, brLeft := t.brLeft, tokAt := t.tokAt }
  reader : ReaderInv s → ReaderInv t ∧ bitPos t = bitPos s + k

theorem Took.refl (s : State) : Took 0 s s := ⟨Nat.zero_le _, rfl, rfl, fun h => ⟨h, rfl⟩⟩

theorem Took.trans {j k : Nat} {s t u : State} (h : Took j s t) (h' : Took k t u) : Took (j + k) s u where
  enough := by have := h'.enough; rw [h.left, List.length_drop] at this; have := h.enough; omega
  left := by rw [h'.left, h.left, List.drop_drop]
  frame := by have := h'.frame; rw [h.frame] at this; exact this
  reader hi := by
    obtain ⟨a, b⟩ := h.reader hi
    obtain ⟨c, d⟩ := h'.reader a
    exact ⟨c, by omega⟩

/-- Moving the mark of the field is no read. -/
theorem Took.mark {k : Nat} {s t : State} (h : Took k s t) (f : TokField) : Took k s { t with tokAt := f } where
  enough := h.enough
  left := h.left
  frame := by have := h.frame; rw [this]
  reader hi := by
    obtain ⟨⟨a, b, c⟩, d⟩ := h.reader hi
    exact ⟨⟨a, b, c⟩, d⟩

theorem Took.closed {k : Nat} {s t : State} (h : Took k s t) : t.brClosed = s.brClosed := by rw [h.frame]

/-- Everything `read_bits` can do (R153, R154): all `count` bits, or a wait, or UNDERRUN, with nothing consumed. -/
theorem readField_enough {c : Nat} {s : State} (h : c ≤ (toRead s).length) :
    ∃ t, readField c s = .done (bitsValue ((toRead s).take c)) t ∧ Took c s t ∧ t.tokAt = s.tokAt := by
  obtain ⟨t, h1, h2, h3, h4⟩ := readGroup_spec c 0 s h
  refine ⟨t, ?_, ⟨h, h2, ?_, h4⟩, by rw [h3]⟩
  · rw [toRead_length] at h
    simp [readField, requireBits, h, h1]
  · rw [h3]

theorem readField_short {c : Nat} {s : State} (h : (toRead s).length < c) :
    readField c s = if s.brClosed then .raises .underrun (BitVec.ofNat 32 c) s else .waits s := by
  rw [toRead_length] at h
  have : ¬ c ≤ avail s := by omega
  cases hc : s.brClosed <;> simp [readField, requireBits, this, hc]

/-- The fault `sinReadPastEnd` never arises: `require_bits` comes before every `get_bit` (R152). -/
theorem readField_ne_pastEnd (c : Nat) (s : State) : readField c s ≠ .pastEnd := by
  by_cases h : c ≤ (toRead s).length
  · obtain ⟨t, ht, -⟩ := readField_enough h
    rw [ht]; simp
  · rw [readField_short (by omega)]; split_ifs <;> simp

/-- Everything a read of a field can do, in the decoder's terms (30_encoding.md R94; 41_bit_reader.md R154). -/
theorem readAt_some {f : TokField} {s : State} {v : BitVec (fieldWidth f)} {rest : List Bool}
    (h : takeField (fieldWidth f) (toRead s) = some (v, rest)) :
    ∃ t, readAt f s = .done v.toNat t ∧ toRead t = rest ∧ Took (fieldWidth f) s t ∧ t.tokAt = s.tokAt := by
  have hb := takeField_eq_some h
  have hlen : fieldWidth f ≤ (toRead s).length := by rw [hb]; simp
  obtain ⟨t, h1, h2, h3⟩ := readField_enough hlen
  refine ⟨t, ?_, ?_, h2, h3⟩
  · rw [readAt, h1, hb, List.take_left' (lowBits_length v _), bitsValue_lowBits, Nat.mod_eq_of_lt v.isLt]
  · rw [h2.left, hb, List.drop_left' (lowBits_length v _)]

theorem readAt_none {f : TokField} {s : State} (h : takeField (fieldWidth f) (toRead s) = none) :
    readAt f s = if s.brClosed then .raises .underrun (BitVec.ofNat 32 (fieldWidth f)) s
      else .waits { s with tokAt := f } := by
  rw [readAt, readField_short (takeField_eq_none.mp h)]
  split_ifs <;> rfl

/-- The widths of the fields of a token, together. -/
theorem readFields_enough (fs : List TokField) {s : State} (h : (fs.map fieldWidth).sum ≤ (toRead s).length) :
    ∃ t, readFields fs s = .done () t ∧ Took (fs.map fieldWidth).sum s t ∧ t.tokAt = s.tokAt := by
  induction fs generalizing s with
  | nil => exact ⟨s, rfl, Took.refl s, rfl⟩
  | cons f fs ih =>
    simp only [List.map_cons, List.sum_cons] at h ⊢
    obtain ⟨u, h1, h2, h3⟩ := readField_enough (c := fieldWidth f) (s := s) (by omega)
    obtain ⟨t, g1, g2, g3⟩ := ih (s := u) (by rw [h2.left, List.length_drop]; omega)
    exact ⟨t, by simp [readFields, readAt, h1, Read.andThen, g1], h2.trans g2, g3.trans h3⟩

/-- The bits of a token that stands at the reader are consumed, and the reader is at a token boundary. -/
theorem consumeToken_enough (fs : List TokField) {s : State}
    (h : ((fs.dropWhile (· != s.tokAt)).map fieldWidth).sum ≤ (toRead s).length) :
    ∃ t, consumeToken fs s = .done () t ∧ Took ((fs.dropWhile (· != s.tokAt)).map fieldWidth).sum s t ∧
      t.tokAt = .tag := by
  obtain ⟨t, h1, h2, -⟩ := readFields_enough _ h
  exact ⟨{ t with tokAt := .tag }, by simp [consumeToken, h1, Read.andThen], h2.mark .tag, rfl⟩


/-- Every way a read can end, from `s`: the reader has consumed some bits and nothing else has changed; it waits only
while the input is open; what it raises is a fault; and it never runs past the end of `SIN`. -/
def Read.From {α : Type} (s : State) : Read α → Prop
  | .done _ t => ∃ k, Took k s t
  | .waits t => (∃ k, Took k s t) ∧ s.brClosed = false
  | .raises st _ t => (∃ k, Took k s t) ∧ isFaultStatus st = true
  | .pastEnd => False

theorem Read.From.andThen {α β : Type} {s : State} {r : Read α} {k : α → State → Read β} (h : r.From s)
    (hk : ∀ a t, (∃ n, Took n s t) → (k a t).From t) : (r.andThen k).From s := by
  cases r with
  | done a t =>
    obtain ⟨n, hn⟩ := h
    have ht := hk a t ⟨n, hn⟩
    show (k a t).From s
    revert ht
    generalize k a t = r'
    intro ht
    cases r' with
    | done b u => exact ht.elim fun m hm => ⟨_, hn.trans hm⟩
    | waits u => exact ⟨ht.1.elim fun m hm => ⟨_, hn.trans hm⟩, hn.closed ▸ ht.2⟩
    | raises st i u => exact ⟨ht.1.elim fun m hm => ⟨_, hn.trans hm⟩, ht.2⟩
    | pastEnd => exact ht
  | waits t => exact h
  | raises st i t => exact h
  | pastEnd => exact h

theorem readField_from (c : Nat) (s : State) : (readField c s).From s := by
  by_cases h : c ≤ (toRead s).length
  · obtain ⟨t, ht, hk, -⟩ := readField_enough h
    rw [ht]; exact ⟨c, hk⟩
  · rw [readField_short (by omega)]
    cases hc : s.brClosed
    · exact ⟨⟨0, Took.refl s⟩, hc⟩
    · exact ⟨⟨0, Took.refl s⟩, rfl⟩

theorem readAt_from (f : TokField) (s : State) : (readAt f s).From s := by
  have h := readField_from (fieldWidth f) s
  unfold readAt
  revert h
  cases readField (fieldWidth f) s with
  | done v t => exact id
  | waits t => exact fun h => ⟨h.1.elim fun k hk => ⟨k, hk.mark f⟩, h.2⟩
  | raises st i t => exact id
  | pastEnd => exact id

theorem readFields_from (fs : List TokField) (s : State) : (readFields fs s).From s := by
  induction fs generalizing s with
  | nil => exact ⟨0, Took.refl s⟩
  | cons f fs ih => exact (readAt_from f s).andThen fun _ t _ => ih t

theorem consumeToken_from (fs : List TokField) (s : State) : (consumeToken fs s).From s :=
  (readFields_from _ s).andThen fun _ t _ => ⟨0, (Took.refl t).mark .tag⟩

/-- A command that reads never stops the machine: if what follows the value goes on, the whole does. -/
theorem Read.From.goes {α : Type} {s : State} {r : Read α} {k : α → State → Host.Outcome State Fault Refusal}
    (h : r.From s) (hk : ∀ a t, (∃ n, Took n s t) → Goes (k a t)) : Goes (r.toOutcome k) := by
  cases r with
  | done a t => exact hk a t h
  | waits t => exact ⟨t, rfl⟩
  | raises st i t => exact ⟨_, rfl⟩
  | pastEnd => exact h.elim

end Sys2Proof.Machine
end

