-- ==== Sys2Proof/Laws/Writer.lean ====
section
/-! SUPPORT. What the operations of the bit writer do: to the bit string `written`, to the invariant, and nothing else
(40_bit_writer.md). -/

namespace Sys2Proof.Machine

/-- `f` is 0 to 7 (10_state.md R24). -/
theorem filled_lt (s : State) : filled s < 8 := by
  unfold filled; split
  · omega
  · have := s.bwFree.isLt
    have : s.bwFree.toNat ≠ 0 := fun h => by simp_all [BitVec.toNat_eq]
    omega

/-- Or-ing a bit into the first unfilled position (40_bit_writer.md R131). -/
theorem byteBits_put (acc : Byte) (b : Bool) (f : Nat) (hf : f < 8)
    (h : (byteBits acc).drop f = zeroBits (8 - f)) :
    byteBits (acc ||| ((BitVec.ofBool b).setWidth 8 <<< (7 - f))) = (byteBits acc).take f ++ b :: zeroBits (7 - f) := by
  have hg : ∀ i, (BitVec.ofBool b).getLsbD i = (decide (i = 0) && b) := by
    intro i; cases b <;> simp
  interval_cases f <;>
    simp [byteBits, lowBits, zeroBits, List.replicate] at h ⊢ <;> simp_all

/-- One more position is filled, or the byte is committed (R131). -/
theorem filled_putBit (b : Bool) (s : State) : filled (putBit b s) = if filled s = 7 then 0 else filled s + 1 := by
  have hf := filled_lt s
  have hp : (putBit b s).bwFree = if filled s = 7 then 0 else BitVec.ofNat 3 (7 - filled s) := by
    unfold putBit; dsimp only; split_ifs <;> rfl
  rw [filled, hp]
  generalize filled s = f at hf
  interval_cases f <;> rfl

/-- Everything `put_bit` does to the bit string, in one place (R131, R141). -/
theorem putBit_writer {s : State} (hw : WriterInv s) (b : Bool) :
    WriterInv (putBit b s) ∧ written (putBit b s) = written s ++ [b] := by
  have hf := filled_lt s
  have hz := byteBits_put s.bwAcc b (filled s) hf hw.unfilled_zero
  have hfp := filled_putBit b s
  have hl : ((byteBits s.bwAcc).take (filled s)).length = filled s := by simp; omega
  by_cases h : filled s = 7
  · rw [if_pos h] at hfp
    have ha : (putBit b s).bwAcc = 0 := by unfold putBit; dsimp only; rw [if_pos h]
    have hs : (putBit b s).sout = s.sout ++ [s.bwAcc ||| ((BitVec.ofBool b).setWidth 8 <<< (7 - filled s))] := by
      unfold putBit; dsimp only; rw [if_pos h]
    refine ⟨⟨?_⟩, ?_⟩
    · rw [hfp, ha]; decide
    · rw [written, hfp, ha, hs, written, bitsOf_append, bitsOf_cons, hz, h]; simp [zeroBits]
  · rw [if_neg h] at hfp
    have ha : (putBit b s).bwAcc = s.bwAcc ||| ((BitVec.ofBool b).setWidth 8 <<< (7 - filled s)) := by
      unfold putBit; dsimp only; rw [if_neg h]
    have hs : (putBit b s).sout = s.sout := by unfold putBit; dsimp only; rw [if_neg h]
    have h1 : (byteBits s.bwAcc).take (filled s) ++ b :: zeroBits (7 - filled s)
        = ((byteBits s.bwAcc).take (filled s) ++ [b]) ++ zeroBits (7 - filled s) := by simp
    have hl1 : ((byteBits s.bwAcc).take (filled s) ++ [b]).length = filled s + 1 := by simp; omega
    refine ⟨⟨?_⟩, ?_⟩
    · rw [hfp, ha, hz, h1, List.drop_left' hl1]; congr 1; omega
    · rw [written, hfp, ha, hs, hz, h1, List.take_left' hl1, written, List.append_assoc]

/-- Everything `write_bits` does to the bit string (R132, R141). -/
theorem writeBits_writer (v : Arg) (c : Nat) {s : State} (hw : WriterInv s) :
    WriterInv (writeBits v c s) ∧ written (writeBits v c s) = written s ++ lowBits v c := by
  induction c generalizing s with
  | zero => exact ⟨hw, by simp [writeBits, lowBits]⟩
  | succ c ih =>
    have hp := putBit_writer hw (v.getLsbD c)
    have h := ih hp.1
    exact ⟨h.1, by rw [writeBits, h.2, hp.2, lowBits]; simp⟩

theorem written_length (s : State) : (written s).length = 8 * s.sout.length + filled s := by
  have := filled_lt s
  simp [written]; omega

/-- Everything `flush` does to the bit string (R136, R141). -/
theorem flush_writer {s : State} (hw : WriterInv s) :
    WriterInv (flush s) ∧ written (flush s) = written s ++ padBits (written s).length := by
  have hz := hw.unfilled_zero
  have hf := filled_lt s
  by_cases h : s.bwFree = 0
  · have hs : flush s = s := by unfold flush; rw [if_neg (by simp [h])]
    have hf0 : filled s = 0 := by simp [filled, h]
    rw [hs]
    refine ⟨hw, ?_⟩
    rw [written_length, hf0]; simp [padBits, zeroBits]
  · have hp : 0 < filled s := by
      have := s.bwFree.isLt
      have : s.bwFree.toNat ≠ 0 := fun hh => h (by simpa [BitVec.toNat_eq] using hh)
      rw [filled, if_neg h]; omega
    have ha : (flush s).bwAcc = 0 := by unfold flush; rw [if_pos h]
    have hfr : (flush s).bwFree = 0 := by unfold flush; rw [if_pos h]
    have hs : (flush s).sout = s.sout ++ [s.bwAcc] := by unfold flush; rw [if_pos h]
    have hf0 : filled (flush s) = 0 := by simp [filled, hfr]
    refine ⟨⟨?_⟩, ?_⟩
    · rw [hf0, ha]; decide
    · rw [written_length, written, hf0, hs, written]
      have : (8 - (8 * s.sout.length + filled s) % 8) % 8 = 8 - filled s := by omega
      rw [padBits, this, ← hz]
      simp

/-! ### Frames of the writer -/

theorem OnlyWriter.refl (s : State) : OnlyWriter s s := rfl

theorem OnlyWriter.trans {s t u : State} (h : OnlyWriter s t) (h' : OnlyWriter t u) : OnlyWriter s u := by
  unfold OnlyWriter at h h' ⊢
  rw [h] at h'; exact h'

theorem putBit_only (b : Bool) (s : State) : OnlyWriter s (putBit b s) := by
  unfold putBit; dsimp only; split_ifs <;> rfl

theorem writeBits_only (v : Arg) (c : Nat) (s : State) : OnlyWriter s (writeBits v c s) := by
  induction c generalizing s with
  | zero => rfl
  | succ c ih => exact (putBit_only _ s).trans (ih _)

theorem flush_only (s : State) : OnlyWriter s (flush s) := by unfold flush; split_ifs <;> rfl

/-! ### `SOUT` only grows -/

theorem putBit_sout (b : Bool) (s : State) : s.sout <+: (putBit b s).sout := by
  unfold putBit; dsimp only; split_ifs
  · exact List.prefix_append _ _
  · exact List.prefix_rfl

theorem writeBits_sout (v : Arg) (c : Nat) (s : State) : s.sout <+: (writeBits v c s).sout := by
  induction c generalizing s with
  | zero => exact List.prefix_rfl
  | succ c ih => exact (putBit_sout _ s).trans (ih _)

theorem flush_sout (s : State) : s.sout <+: (flush s).sout := by
  unfold flush; split_ifs
  · exact List.prefix_append _ _
  · exact List.prefix_rfl

end Sys2Proof.Machine
end

