-- ==== Sys2Proof/Laws/Codec.lean ====
section
/-! SUPPORT. What the count codec, the token multiplexer and the expander's output step do (42_count_codec.md,
43_token_mux.md). -/

namespace Sys2Proof.Machine

/-! ### Frames -/

theorem encodeCount_only (n : Arg) (s : State) : OnlyWriter s (encodeCount n s) := by
  have a2 := writeBits_only 0 2 s
  have a4 := a2.trans (writeBits_only 0 4 _)
  have a8 := a4.trans (writeBits_only 0 8 _)
  unfold encodeCount
  split_ifs
  exacts [writeBits_only _ _ s, a2.trans (writeBits_only _ _ _), a4.trans (writeBits_only _ _ _),
    a8.trans (writeBits_only _ _ _)]

theorem emitRun_only (n : Arg) (s : State) : OnlyWriter s (emitRun n s) :=
  ((writeBits_only 1 1 s).trans (writeBits_only 0 1 _)).trans (encodeCount_only n _)

theorem emitLit_only (b : Arg) (s : State) : OnlyWriter s (emitLit b s) :=
  ((writeBits_only 0 1 s).trans (writeBits_only 1 1 _)).trans (writeBits_only b 8 _)

theorem encodeCount_sout (n : Arg) (s : State) : s.sout <+: (encodeCount n s).sout := by
  have a2 := writeBits_sout 0 2 s
  have a4 := a2.trans (writeBits_sout 0 4 _)
  have a8 := a4.trans (writeBits_sout 0 8 _)
  unfold encodeCount
  split_ifs
  exacts [writeBits_sout _ _ s, a2.trans (writeBits_sout _ _ _), a4.trans (writeBits_sout _ _ _),
    a8.trans (writeBits_sout _ _ _)]

theorem emitRun_sout (n : Arg) (s : State) : s.sout <+: (emitRun n s).sout :=
  ((writeBits_sout 1 1 s).trans (writeBits_sout 0 1 _)).trans (encodeCount_sout n _)

theorem emitLit_sout (b : Arg) (s : State) : s.sout <+: (emitLit b s).sout :=
  ((writeBits_sout 0 1 s).trans (writeBits_sout 1 1 _)).trans (writeBits_sout b 8 _)

/-! ### What the codecs append -/

theorem zeroBits_add (a b : Nat) : zeroBits a ++ zeroBits b = zeroBits (a + b) := by
  simp only [zeroBits, List.replicate_append_replicate]

/-- `encode_count` appends the code of R93 (42_count_codec.md R172). -/
theorem encodeCount_writer {s : State} (hw : WriterInv s) {n : Arg} (hn : n.toNat ≤ 65535) :
    WriterInv (encodeCount n s) ∧ written (encodeCount n s) = written s ++ countCode n.toNat := by
  have hb : ∀ k ≤ 16, lowBits n k = lowBits (BitVec.ofNat 16 n.toNat) k := fun k hk =>
    lowBits_congr k fun i _ => by
      rw [BitVec.getLsbD, BitVec.getLsbD, BitVec.toNat_ofNat, Nat.mod_eq_of_lt (by omega)]
  have h3 : ∀ k ≤ 16, 3 < n.toNat → lowBits (n - BitVec.ofNat 32 3) k = lowBits (BitVec.ofNat 16 (n.toNat - 3)) k := by
    intro k hk h
    refine lowBits_congr k fun i _ => ?_
    have : (n - BitVec.ofNat 32 3).toNat = n.toNat - 3 := by
      rw [BitVec.toNat_sub]; simp; omega
    rw [BitVec.getLsbD, BitVec.getLsbD, BitVec.toNat_ofNat, Nat.mod_eq_of_lt (by omega), this]
  have z : ∀ k, lowBits (0 : Arg) k = zeroBits k := fun k => lowBits_zero 32 k
  have a2 := writeBits_writer 0 2 hw
  have a4 := writeBits_writer 0 4 a2.1
  have a8 := writeBits_writer 0 8 a4.1
  unfold encodeCount countCode
  dsimp only [Config.t1Max, Config.t2Max, Config.t3Max, Config.t1W, Config.t2W, Config.t3W, Config.t4W, Config.t2Bias]
  split_ifs with h1 h2 h4
  · rw [← hb 2 (by omega)]; exact writeBits_writer _ _ hw
  · rw [← h3 4 (by omega) (by omega), ← z 2, ← List.append_assoc, ← a2.2]; exact writeBits_writer _ _ a2.1
  · rw [← hb 8 (by omega), show zeroBits 6 = zeroBits 2 ++ zeroBits 4 from rfl, ← z 2, ← z 4, ← List.append_assoc,
      ← List.append_assoc, ← a2.2, ← a4.2]
    exact writeBits_writer _ _ a4.1
  · rw [← hb 16 (by omega), show zeroBits 14 = zeroBits 2 ++ zeroBits 4 ++ zeroBits 8 from rfl, ← z 2, ← z 4, ← z 8,
      ← List.append_assoc, ← List.append_assoc, ← List.append_assoc, ← a2.2, ← a4.2, ← a8.2]
    exact writeBits_writer _ _ a8.1

/-- `emit_run` appends the tag `10` and the count's code (43_token_mux.md R192). -/
theorem emitRun_writer {s : State} (hw : WriterInv s) {n : Arg} (hn : n.toNat ≤ 65535) :
    WriterInv (emitRun n s) ∧ written (emitRun n s) = written s ++ runCode n.toNat := by
  have a1 := writeBits_writer 1 1 hw
  have a2 := writeBits_writer 0 1 a1.1
  have a3 := encodeCount_writer a2.1 hn
  exact ⟨a3.1, by rw [emitRun, a3.2, a2.2, a1.2, runCode]; simp [lowBits]⟩

/-- `emit_lit` appends the tag `01` and the low 8 bits of the sample (43_token_mux.md R193). -/
theorem emitLit_writer {s : State} (hw : WriterInv s) (b : Arg) :
    WriterInv (emitLit b s) ∧ written (emitLit b s) = written s ++ litCode (b.setWidth 8) := by
  have a1 := writeBits_writer 0 1 hw
  have a2 := writeBits_writer 1 1 a1.1
  have a3 := writeBits_writer b 8 a2.1
  refine ⟨a3.1, ?_⟩
  have : lowBits b 8 = byteBits (b.setWidth 8) := lowBits_congr 8 fun i hi => by simp [hi]
  show written (writeBits b 8 (writeBits 1 1 (writeBits 0 1 s))) = _
  rw [a3.2, a2.2, a1.2, litCode, this]; simp [lowBits]

/-- `repeat n times: emit(CX.last)` in one record (43_token_mux.md R207). -/
theorem emitLast_eq (n : Nat) (s : State) :
    emitLast n s = { s with pout := s.pout ++ List.replicate n s.cxLast, cxN := s.cxN + BitVec.ofNat 32 n } := by
  induction n generalizing s with
  | zero => simp [emitLast]
  | succ n ih =>
    rw [emitLast, ih]
    simp only [emit, List.replicate_succ, List.append_assoc, List.singleton_append, BitVec.ofNat_add, BitVec.add_assoc]
    rw [BitVec.add_comm 1 (BitVec.ofNat 32 n)]; rfl

/-! ### How the reads end -/

theorem decodeCountC16_from (s : State) : (decodeCountC16 s).From s :=
  (readAt_from .c16 s).andThen fun v t _ => by
    split_ifs
    · exact ⟨0, Took.refl t⟩
    · exact ⟨⟨0, Took.refl t⟩, rfl⟩

theorem decodeCountC8_from (s : State) : (decodeCountC8 s).From s :=
  (readAt_from .c8 s).andThen fun v t _ => by
    split_ifs
    · exact ⟨0, Took.refl t⟩
    · exact decodeCountC16_from t

theorem decodeCountC4_from (s : State) : (decodeCountC4 s).From s :=
  (readAt_from .c4 s).andThen fun v t _ => by
    split_ifs
    · exact ⟨0, Took.refl t⟩
    · exact decodeCountC8_from t

theorem decodeCount_from (s : State) : (decodeCount s).From s :=
  (readAt_from .c2 s).andThen fun v t _ => by
    split_ifs
    · exact ⟨0, Took.refl t⟩
    · exact decodeCountC4_from t

theorem resumeCount_from (s : State) : (resumeCount s).From s := by
  unfold resumeCount
  cases s.tokAt
  exacts [decodeCount_from s, decodeCount_from s, decodeCount_from s, decodeCountC4_from s, decodeCountC8_from s,
    decodeCountC16_from s]

theorem asRun_from {s : State} {r : Read Nat} (h : r.From s) : (asRun r).From s :=
  h.andThen fun _ t _ => ⟨0, Took.refl t⟩

theorem readTokenSample_from (s : State) : (readTokenSample s).From s :=
  (readAt_from .sample s).andThen fun _ t _ => ⟨0, Took.refl t⟩

theorem readToken_from (s : State) : (readToken s).From s :=
  (readAt_from .tag s).andThen fun v t _ => by
    split_ifs
    · exact readTokenSample_from t
    · exact asRun_from (decodeCount_from t)
    · exact ⟨⟨0, Took.refl t⟩, rfl⟩

theorem resumeToken_from (s : State) : (resumeToken s).From s := by
  unfold resumeToken
  cases s.tokAt
  exacts [readToken_from s, readTokenSample_from s, asRun_from (decodeCount_from s), asRun_from (decodeCountC4_from s),
    asRun_from (decodeCountC8_from s), asRun_from (decodeCountC16_from s)]

end Sys2Proof.Machine
end

