-- ==== Sys2Proof/Laws/Fetch.lean ====
section
/-! SUPPORT. What the token decoder and the fetch of a running D_PLANE do (30_encoding.md R90, R94, R96;
45_channel_decoder.md R234). -/

namespace Sys2Proof

/-- A field that is there stays there when more bits follow. -/
theorem takeField_append {w : Nat} {bits rest : List Bool} {v : BitVec w} (h : takeField w bits = some (v, rest))
    (more : List Bool) : takeField w (bits ++ more) = some (v, rest ++ more) := by
  rw [takeField_eq_some h, List.append_assoc]; exact takeField_lowBits v _

/-- The decoder reads a token off the bits it needs and no others (30_encoding.md R94). -/
theorem decodeToken_append {bits : List Bool} {i : Instr} (h : decodeToken bits = .ok i) (more : List Bool) :
    decodeToken (bits ++ more) = .ok i := by
  unfold decodeToken decodeRun at h ⊢
  split at h
  · cases h
  rename_i tag r ht
  rw [takeField_append ht]
  dsimp only
  split_ifs at h ⊢
  · split at h
    · cases h
    rename_i b r2 hb
    rw [takeField_append hb]; exact h
  · split at h
    · cases h
    rename_i c2 r2 h2
    rw [takeField_append h2]; dsimp only
    split_ifs at h ⊢
    · exact h
    split at h
    · cases h
    rename_i c4 r4 h4
    rw [takeField_append h4]; dsimp only
    split_ifs at h ⊢
    · exact h
    split at h
    · cases h
    rename_i c8 r8 h8
    rw [takeField_append h8]; dsimp only
    split_ifs at h ⊢
    · exact h
    split at h
    · cases h
    rename_i c16 r16 h16
    rw [takeField_append h16]; exact h
  · exact h
  · exact h

theorem takeField_enough {w : Nat} {bits : List Bool} (h : w ≤ bits.length) :
    ∃ v rest, takeField w bits = some (v, rest) ∧ rest.length = bits.length - w := by
  cases ht : takeField w bits with
  | none => rw [takeField_eq_none] at ht; omega
  | some p =>
    obtain ⟨v, rest⟩ := p
    exact ⟨v, rest, rfl, by rw [takeField_eq_some ht]; simp⟩

/-- 32 bits always hold a token (30_encoding.md R90). -/
theorem decodeToken_long {bits : List Bool} (h : 32 ≤ bits.length) : ∃ i, decodeToken bits = .ok i := by
  obtain ⟨tag, r, ht, hr⟩ := takeField_enough (w := 2) (bits := bits) (by omega)
  obtain ⟨b, r', hb, -⟩ := takeField_enough (w := 8) (bits := r) (by omega)
  obtain ⟨c2, r2, h2, hr2⟩ := takeField_enough (w := 2) (bits := r) (by omega)
  obtain ⟨c4, r4, h4, hr4⟩ := takeField_enough (w := 4) (bits := r2) (by omega)
  obtain ⟨c8, r8, h8, hr8⟩ := takeField_enough (w := 8) (bits := r4) (by omega)
  obtain ⟨c16, r16, h16, -⟩ := takeField_enough (w := 16) (bits := r8) (by omega)
  unfold decodeToken decodeRun
  rw [ht]; dsimp only
  rw [hb, h2]; dsimp only
  rw [h4]; dsimp only
  rw [h8]; dsimp only
  rw [h16]; dsimp only
  split_ifs <;> exact ⟨_, rfl⟩

/-- What the decoder reads at a token position is a token or an illegal encoding, never a seed or a command. -/
theorem decodeToken_wire {bits : List Bool} {i : Instr} (h : decodeToken bits = .ok i) :
    i.isWire = true ∧ ∀ b, i ≠ .seed b := by
  unfold decodeToken decodeRun at h
  repeat' (first | (split at h) | (split_ifs at h))
  all_goals first | (cases h; exact ⟨rfl, by simp⟩) | cases h

/-- Bits that hold no token end in one of the token's fields. -/
theorem decodeToken_short {bits : List Bool} {r : Reject} (h : decodeToken bits = .error r) :
    r ≠ .shortSeed ∧ r ≠ .wideCommand := by
  unfold decodeToken decodeRun at h
  repeat' (first | (split at h) | (split_ifs at h))
  all_goals first | (cases h; simp) | cases h

/-- A field of which bits are missing is not there. -/
theorem takeField_short {w : Nat} {bits : List Bool} (h : bits.length < w) : takeField w bits = none :=
  takeField_eq_none.mpr h

/-- The field that a token's bits break off in, as the decoder names it. -/
def Machine.shortAt : Machine.TokField → Reject
  | .tag => .shortTag
  | .sample => .shortSample
  | .c2 => .shortCount2
  | .c4 => .shortCount4
  | .c8 => .shortCount8
  | .c16 => .shortCount16

open Machine in
/-- Bits that break off in a field, after the bits that lead to it, are rejected by that field's name. -/
theorem decodeToken_bitsBefore {f : TokField} {rest : List Bool} (h : rest.length < fieldWidth f) :
    decodeToken (bitsBefore f ++ rest) = .error (shortAt f) := by
  have hs := takeField_short h
  cases f
  · change takeField 2 rest = none at hs
    simp [bitsBefore, decodeToken, hs, shortAt]
  · change takeField 8 rest = none at hs
    rw [decodeToken, show bitsBefore .sample ++ rest = lowBits (1 : BitVec 2) 2 ++ rest from rfl, takeField_lowBits]
    simp [hs, shortAt]
  · change takeField 2 rest = none at hs
    rw [decodeToken, show bitsBefore .c2 ++ rest = lowBits (2 : BitVec 2) 2 ++ rest from rfl, takeField_lowBits]
    simp [decodeRun, hs, shortAt]
  · change takeField 4 rest = none at hs
    rw [decodeToken, show bitsBefore .c4 ++ rest = lowBits (2 : BitVec 2) 2 ++ (lowBits (0 : BitVec 2) 2 ++ rest)
      from rfl, takeField_lowBits]
    simp [decodeRun, takeField_lowBits, hs, shortAt]
  · change takeField 8 rest = none at hs
    rw [decodeToken, show bitsBefore .c8 ++ rest =
      lowBits (2 : BitVec 2) 2 ++ (lowBits (0 : BitVec 2) 2 ++ (lowBits (0 : BitVec 4) 4 ++ rest)) from rfl,
      takeField_lowBits]
    simp [decodeRun, takeField_lowBits, hs, shortAt]
  · change takeField 16 rest = none at hs
    rw [decodeToken, show bitsBefore .c16 ++ rest = lowBits (2 : BitVec 2) 2 ++ (lowBits (0 : BitVec 2) 2 ++
      (lowBits (0 : BitVec 4) 4 ++ (lowBits (0 : BitVec 8) 8 ++ rest))) from rfl, takeField_lowBits]
    simp [decodeRun, takeField_lowBits, hs, shortAt]

namespace Machine

/-- The window the fetch looks at decodes to what all unread bits decode to. -/
theorem decodeToken_unread (pre : List Bool) (s : State) :
    decodeToken (pre ++ unread s) = decodeToken (pre ++ toRead s) := by
  have hsplit : toRead s = unread s ++ bitsOf ((s.sin.drop s.brIdx).drop 4) := by
    rw [toRead, unread, List.append_assoc, ← bitsOf_append, List.take_append_drop]
  by_cases h : s.sin.length - s.brIdx ≤ 4
  · rw [hsplit, List.drop_eq_nil_of_le (by simpa using h)]; simp
  · have hl : 32 ≤ (pre ++ unread s).length := by
      simp [unread]; omega
    obtain ⟨i, hi⟩ := decodeToken_long hl
    rw [hsplit, hi, ← List.append_assoc, decodeToken_append hi]

/-- What a running D_PLANE fetches is an instruction of the wire level. -/
theorem fetch_wire {s : State} {i : Instr} (h : fetch s = .ok i) : i.isWire = true := by
  unfold fetch at h
  split_ifs at h
  · unfold decodeSeed at h
    split at h <;> cases h
    rfl
  · exact (decodeToken_wire h).1

/-- On the wire level the two dispatches agree. -/
theorem exec_wire {i : Instr} (h : i.isWire = true) (s : State) : exec i s = execWire i s := by
  cases i <;> first | rfl | cases h

/-- A running D_PLANE executes the same tokens whether it is resumed by a step or runs inside its command. -/
theorem expandWith_exec (s : State) : expandWith exec s = expandWith execWire s := by
  unfold expandWith
  split_ifs
  · split
    · exact exec_wire (fetch_wire ‹_›) s
    · rfl
  · rfl

/-! ### Tokens whose bits end early (41_bit_reader.md R154; 60_exceptions.md R264) -/

/-- Fields that are there and one that is not: the first are read, the last waits or raises UNDERRUN (R154). -/
theorem readFields_short (fs : List TokField) (f : TokField) {s : State}
    (h : (fs.map fieldWidth).sum ≤ (toRead s).length)
    (h' : (toRead s).length < (fs.map fieldWidth).sum + fieldWidth f) :
    ∃ t, Took (fs.map fieldWidth).sum s t ∧ t.tokAt = s.tokAt ∧
      readFields (fs ++ [f]) s = if s.brClosed then .raises .underrun (BitVec.ofNat 32 (fieldWidth f)) t
        else .waits { t with tokAt := f } := by
  induction fs generalizing s with
  | nil =>
    refine ⟨s, Took.refl s, rfl, ?_⟩
    have hn : takeField (fieldWidth f) (toRead s) = none := takeField_eq_none.mpr (by simpa using h')
    simp only [List.nil_append, readFields, readAt_none hn]
    split_ifs <;> rfl
  | cons g fs ih =>
    simp only [List.map_cons, List.sum_cons] at h h' ⊢
    obtain ⟨u, h1, h2, h3⟩ := readField_enough (c := fieldWidth g) (s := s) (by omega)
    obtain ⟨t, g1, g2, g3⟩ := ih (s := u) (by rw [h2.left, List.length_drop]; omega)
      (by rw [h2.left, List.length_drop]; omega)
    exact ⟨t, h2.trans g1, g2.trans h3, by simp [readFields, readAt, h1, Read.andThen, g3, h2.closed]⟩

/-- The fields of a token that come before one of them (30_encoding.md R91). -/
def fieldsBefore : TokField → List TokField
  | .tag => []
  | .sample | .c2 => [.tag]
  | .c4 => [.tag, .c2]
  | .c8 => [.tag, .c2, .c4]
  | .c16 => [.tag, .c2, .c4, .c8]

/-- Where the bits of a token break off in the field `f`, a reader that stands at `g` has the fields up to `f` before
it, and no more. -/
theorem fields_to_short {f g : TokField} {bits rest : List Bool} (hb : bitsBefore g ++ bits = bitsBefore f ++ rest)
    (hr : rest.length < fieldWidth f) :
    ∃ mid, (rejectFields (shortAt f)).dropWhile (· != g) = mid ++ [f] ∧
      (mid.map fieldWidth).sum + (bitsBefore g).length = (bitsBefore f).length ∧
      (mid.map fieldWidth).sum + rest.length = bits.length ∧ bits.drop (mid.map fieldWidth).sum = rest := by
  have hm : (rejectFields (shortAt f)).dropWhile (· != g) = (fieldsBefore f).dropWhile (· != g) ++ [f] ∧
      (((fieldsBefore f).dropWhile (· != g)).map fieldWidth).sum + (bitsBefore g).length = (bitsBefore f).length := by
    have hl := congrArg List.length hb
    cases g <;> cases f <;> first
      | exact ⟨rfl, rfl⟩
      | (simp [bitsBefore, fieldWidth, Config.tagW, Config.sampleW, Config.t1W, Config.t2W, Config.t3W,
          Config.t4W] at hl hr; omega)
      | (simp [bitsBefore] at hb)
  refine ⟨_, hm.1, hm.2, ?_, ?_⟩
  · have hl := congrArg List.length hb
    simp only [List.length_append] at hl
    omega
  · have hd := congrArg (List.drop (bitsBefore f).length) hb
    rwa [List.drop_left, ← hm.2, Nat.add_comm, ← List.drop_drop, List.drop_left] at hd

/-- A token that breaks off in the field `f`, read by a reader that stands at `tokAt`: the fields before `f` are
consumed, and `f` waits or raises UNDERRUN (R154; 60_exceptions.md R264). -/
theorem consumeToken_short {f : TokField} {rest : List Bool} {s : State}
    (hb : bitsBefore s.tokAt ++ toRead s = bitsBefore f ++ rest) (hr : rest.length < fieldWidth f) :
    ∃ t k, Took k s t ∧ k + (bitsBefore s.tokAt).length = (bitsBefore f).length ∧ t.tokAt = s.tokAt ∧
      toRead t = rest ∧
      consumeToken (rejectFields (shortAt f)) s =
        if s.brClosed then .raises .underrun (BitVec.ofNat 32 (fieldWidth f)) t else .waits { t with tokAt := f } := by
  obtain ⟨mid, h1, h2, h3, h4⟩ := fields_to_short hb hr
  obtain ⟨t, g1, g2, g3⟩ := readFields_short (s := s) mid f (by omega) (by omega)
  refine ⟨t, _, g1, h2, g2, by rw [g1.left, h4], ?_⟩
  rw [consumeToken, h1, g3]
  cases s.brClosed <;> rfl

/-- A field of zeros that is there (R154, R173). -/
theorem readAt_zeros {f : TokField} {rest : List Bool} {s : State} (h : toRead s = zeroBits (fieldWidth f) ++ rest) :
    ∃ t, readAt f s = .done 0 t ∧ toRead t = rest ∧ Took (fieldWidth f) s t ∧ t.tokAt = s.tokAt := by
  have := takeField_lowBits (0 : BitVec (fieldWidth f)) rest
  rw [lowBits_zero, ← h] at this
  simpa using readAt_some this

end Machine

end Sys2Proof
end

