-- ==== Sys2Proof/Laws/PerInstr.lean ====
section
/-! SUPPORT. Facts about every instruction as syntax, one lemma per constructor. -/

namespace Sys2Proof.Laws

/-- The width of an instruction's encoding: 30_encoding.md R90 for the tokens, R96 for the illegal encodings, R100 for
the commands. -/
def EncodedWidth.width : Instr → Nat
  | .seed _ => 8
  | .lit _ => 10
  | .runT1 _ => 4
  | .runT2 _ => 8
  | .runT3 _ => 16
  | .runT4 _ => 32
  | .illegalTag00 => 2
  | .illegalTag11 => 2
  | .illegalZeroCount => 32
  | .eWbits _ _ => 41
  | .eFlush _ _ => 41
  | .eGetb _ _ => 41
  | .eCount _ _ => 41
  | .eLit _ _ => 41
  | .eRun _ _ => 41
  | .ePlane _ _ => 41
  | .eClr _ _ => 41
  | .dRbits _ _ => 41
  | .dAlign _ _ => 41
  | .dCount _ _ => 41
  | .dToken _ _ => 41
  | .dPlane _ _ => 41
  | .dClr _ _ => 41
  | .rdsr _ _ => 41
  | .reservedOp0 _ _ => 41

/-- The encoding has the width of its format, and decodes at its own level only. -/
def EncodedWidth.Statement (i : Instr) : Prop :=
  (encode i).bits.length = EncodedWidth.width i ∧ (i.isWire = true ↔ ∀ word, encode i ≠ .command word)

theorem EncodedWidth.seed (b : Byte) : EncodedWidth.Statement (.seed b) := ⟨by simp [encode, Source.bits, EncodedWidth.width], by simp [encode, Instr.isWire]⟩
theorem EncodedWidth.lit (b : Byte) : EncodedWidth.Statement (.lit b) := ⟨by simp [encode, Source.bits, EncodedWidth.width], by simp [encode, Instr.isWire]⟩
theorem EncodedWidth.runT1 (c : BitVec 2) : EncodedWidth.Statement (.runT1 c) := ⟨by simp [encode, Source.bits, EncodedWidth.width], by simp [encode, Instr.isWire]⟩
theorem EncodedWidth.runT2 (c : BitVec 4) : EncodedWidth.Statement (.runT2 c) := ⟨by simp [encode, Source.bits, EncodedWidth.width], by simp [encode, Instr.isWire]⟩
theorem EncodedWidth.runT3 (c : BitVec 8) : EncodedWidth.Statement (.runT3 c) := ⟨by simp [encode, Source.bits, EncodedWidth.width], by simp [encode, Instr.isWire]⟩
theorem EncodedWidth.runT4 (c : BitVec 16) : EncodedWidth.Statement (.runT4 c) := ⟨by simp [encode, Source.bits, EncodedWidth.width], by simp [encode, Instr.isWire]⟩
theorem EncodedWidth.illegalTag00 : EncodedWidth.Statement .illegalTag00 := ⟨by simp [encode, Source.bits, EncodedWidth.width], by simp [encode, Instr.isWire]⟩
theorem EncodedWidth.illegalTag11 : EncodedWidth.Statement .illegalTag11 := ⟨by simp [encode, Source.bits, EncodedWidth.width], by simp [encode, Instr.isWire]⟩
theorem EncodedWidth.illegalZeroCount : EncodedWidth.Statement .illegalZeroCount := ⟨by simp [encode, Source.bits, EncodedWidth.width], by simp [encode, Instr.isWire]⟩
theorem EncodedWidth.eWbits (cnt : Cnt) (arg : Arg) : EncodedWidth.Statement (.eWbits cnt arg) :=
  ⟨by simp [encode, Source.bits, EncodedWidth.width], by simp [encode, Instr.isWire]⟩
theorem EncodedWidth.eFlush (cnt : Cnt) (arg : Arg) : EncodedWidth.Statement (.eFlush cnt arg) :=
  ⟨by simp [encode, Source.bits, EncodedWidth.width], by simp [encode, Instr.isWire]⟩
theorem EncodedWidth.eGetb (cnt : Cnt) (arg : Arg) : EncodedWidth.Statement (.eGetb cnt arg) :=
  ⟨by simp [encode, Source.bits, EncodedWidth.width], by simp [encode, Instr.isWire]⟩
theorem EncodedWidth.eCount (cnt : Cnt) (arg : Arg) : EncodedWidth.Statement (.eCount cnt arg) :=
  ⟨by simp [encode, Source.bits, EncodedWidth.width], by simp [encode, Instr.isWire]⟩
theorem EncodedWidth.eLit (cnt : Cnt) (arg : Arg) : EncodedWidth.Statement (.eLit cnt arg) :=
  ⟨by simp [encode, Source.bits, EncodedWidth.width], by simp [encode, Instr.isWire]⟩
theorem EncodedWidth.eRun (cnt : Cnt) (arg : Arg) : EncodedWidth.Statement (.eRun cnt arg) :=
  ⟨by simp [encode, Source.bits, EncodedWidth.width], by simp [encode, Instr.isWire]⟩
theorem EncodedWidth.ePlane (cnt : Cnt) (arg : Arg) : EncodedWidth.Statement (.ePlane cnt arg) :=
  ⟨by simp [encode, Source.bits, EncodedWidth.width], by simp [encode, Instr.isWire]⟩
theorem EncodedWidth.eClr (cnt : Cnt) (arg : Arg) : EncodedWidth.Statement (.eClr cnt arg) :=
  ⟨by simp [encode, Source.bits, EncodedWidth.width], by simp [encode, Instr.isWire]⟩
theorem EncodedWidth.dRbits (cnt : Cnt) (arg : Arg) : EncodedWidth.Statement (.dRbits cnt arg) :=
  ⟨by simp [encode, Source.bits, EncodedWidth.width], by simp [encode, Instr.isWire]⟩
theorem EncodedWidth.dAlign (cnt : Cnt) (arg : Arg) : EncodedWidth.Statement (.dAlign cnt arg) :=
  ⟨by simp [encode, Source.bits, EncodedWidth.width], by simp [encode, Instr.isWire]⟩
theorem EncodedWidth.dCount (cnt : Cnt) (arg : Arg) : EncodedWidth.Statement (.dCount cnt arg) :=
  ⟨by simp [encode, Source.bits, EncodedWidth.width], by simp [encode, Instr.isWire]⟩
theorem EncodedWidth.dToken (cnt : Cnt) (arg : Arg) : EncodedWidth.Statement (.dToken cnt arg) :=
  ⟨by simp [encode, Source.bits, EncodedWidth.width], by simp [encode, Instr.isWire]⟩
theorem EncodedWidth.dPlane (cnt : Cnt) (arg : Arg) : EncodedWidth.Statement (.dPlane cnt arg) :=
  ⟨by simp [encode, Source.bits, EncodedWidth.width], by simp [encode, Instr.isWire]⟩
theorem EncodedWidth.dClr (cnt : Cnt) (arg : Arg) : EncodedWidth.Statement (.dClr cnt arg) :=
  ⟨by simp [encode, Source.bits, EncodedWidth.width], by simp [encode, Instr.isWire]⟩
theorem EncodedWidth.rdsr (cnt : Cnt) (arg : Arg) : EncodedWidth.Statement (.rdsr cnt arg) :=
  ⟨by simp [encode, Source.bits, EncodedWidth.width], by simp [encode, Instr.isWire]⟩
theorem EncodedWidth.reservedOp0 (cnt : Cnt) (arg : Arg) : EncodedWidth.Statement (.reservedOp0 cnt arg) :=
  ⟨by simp [encode, Source.bits, EncodedWidth.width], by simp [encode, Instr.isWire]⟩

end Sys2Proof.Laws
end

