-- ==== Sys2Proof/Laws/Plane.lean ====
section
/-! SUPPORT. What the compressor's run detection and one of its moves do, in the terms of the streaming compressor
(44_channel_encoder.md R213 to R219, R225). -/

namespace Sys2Proof.Machine

/-- What `detect_run` finds: so many bytes equal `prev`, and the next one, if it is below the cap, does not. -/
theorem countEqual_some {prev : Byte} {cap run : Nat} {bytes : List Byte} (h : countEqual prev cap bytes = some run) :
    run ≤ cap ∧ run ≤ bytes.length ∧ bytes = List.replicate run prev ++ bytes.drop run ∧
      (run < cap → ∃ b rest, bytes.drop run = b :: rest ∧ b ≠ prev) := by
  induction cap generalizing bytes run with
  | zero => simp [countEqual] at h; subst h; simp
  | succ cap ih =>
    cases bytes with
    | nil => simp [countEqual] at h
    | cons b rest =>
      rw [countEqual] at h
      split_ifs at h with hb
      · obtain ⟨r, hr, rfl⟩ := Option.map_eq_some_iff.mp h
        obtain ⟨h1, h2, h3, h4⟩ := ih hr
        subst hb
        refine ⟨by omega, by simpa using h2, ?_, fun hlt => ?_⟩
        · rw [List.replicate_succ, List.cons_append, List.drop_succ_cons, ← h3]
        · simpa using h4 (by omega)
      · simp at h; subst h
        exact ⟨by omega, by simp, by simp, fun _ => ⟨b, rest, rfl, hb⟩⟩

/-- A run that is determined stays what it is when more bytes arrive (R219). -/
theorem countEqual_append {prev : Byte} {cap run : Nat} {bytes : List Byte} (h : countEqual prev cap bytes = some run)
    (more : List Byte) : countEqual prev cap (bytes ++ more) = some run := by
  induction cap generalizing bytes run with
  | zero => simpa [countEqual] using h
  | succ cap ih =>
    cases bytes with
    | nil => simp [countEqual] at h
    | cons b rest =>
      rw [List.cons_append, countEqual]
      rw [countEqual] at h
      split_ifs at h ⊢
      · obtain ⟨r, hr, rfl⟩ := Option.map_eq_some_iff.mp h
        rw [ih hr]; rfl
      · exact h

/-- It is undetermined only while all bytes that have arrived equal `prev` and the cap is not reached. -/
theorem countEqual_none {prev : Byte} {cap : Nat} {bytes : List Byte} (h : countEqual prev cap bytes = none) :
    bytes.length < cap := by
  induction cap generalizing bytes with
  | zero => simp [countEqual] at h
  | succ cap ih =>
    cases bytes with
    | nil => simp
    | cons b rest =>
      rw [countEqual] at h
      split_ifs at h
      have := ih (bytes := rest) (by simpa using h)
      simpa using this

/-- A stretch of bytes equal to `prev` that has ended, or reached the cap, is what `detect_run` finds (R213). -/
theorem countEqual_determined {prev : Byte} {cap : Nat} {bytes : List Byte} (n : Nat) (hn : n ≤ cap)
    (hr : ∀ k < n, bytes[k]? = some prev) (hs : n = cap ∨ ∃ c, bytes[n]? = some c ∧ c ≠ prev) :
    countEqual prev cap bytes = some n := by
  induction cap generalizing n bytes with
  | zero => simp [countEqual]; omega
  | succ cap ih =>
    cases bytes with
    | nil =>
      rcases hs with rfl | ⟨c, hc, -⟩
      · simpa using hr 0 (by omega)
      · simp at hc
    | cons b rest =>
      rw [countEqual]
      cases n with
      | zero =>
        rcases hs with h | ⟨c, hc, hne⟩
        · omega
        · simp at hc; subst hc; rw [if_neg hne]
      | succ n =>
        have := hr 0 (by omega)
        simp at this
        rw [if_pos this, ih n (by omega) (fun k hk => by simpa using hr (k + 1) (by omega)) (by
          rcases hs with h | ⟨c, hc, hne⟩
          · left; omega
          · right; exact ⟨c, by simpa using hc, hne⟩)]
        rfl

/-- The streaming compressor counts bytes equal to `prev` (R225). -/
theorem streamTail_replicate (prev : Byte) (r k : Nat) (rest : List Byte) (h : k + r < 65535) :
    streamTail prev k (List.replicate r prev ++ rest) = streamTail prev (k + r) rest := by
  induction r generalizing k with
  | zero => rfl
  | succ r ih =>
    rw [List.replicate_succ, List.cons_append, streamTail, if_pos rfl, if_neg (by omega), ih _ (by omega)]
    congr 1; omega

/-- A stretch is closed by a different byte or the end of the plane (R225). -/
theorem streamTail_stop (prev : Byte) (k : Nat) (rest : List Byte)
    (h : rest = [] ∨ ∃ b tail, rest = b :: tail ∧ b ≠ prev) :
    streamTail prev k rest = stretchCode prev k ++ streamTail prev 0 rest := by
  rcases h with rfl | ⟨b, tail, rfl, hb⟩
  · simp [streamTail, stretchCode]
  · rw [streamTail, if_neg hb, streamTail, if_neg hb]; simp [stretchCode]

/-- The streaming compressor closes a stretch where `detect_run` stops (R225). -/
theorem streamTail_run {prev : Byte} {run : Nat} {rest : List Byte}
    (h : countEqual prev (min rest.length 65535) rest = some run) (h2 : 2 ≤ run) :
    streamTail prev 0 rest = runCode run ++ streamTail prev 0 (rest.drop run) := by
  obtain ⟨h1, hl, h3, h4⟩ := countEqual_some h
  by_cases hr : run = 65535
  · conv_lhs => rw [h3, hr, show (65535 : Nat) = 65534 + 1 from rfl, List.replicate_succ', List.append_assoc,
      streamTail_replicate _ _ _ _ (by norm_num)]
    rw [List.singleton_append, streamTail, if_pos rfl, if_pos (by norm_num), hr]
  · conv_lhs => rw [h3, streamTail_replicate _ _ _ _ (by omega)]
    rw [streamTail_stop, Nat.zero_add, stretchCode, if_pos h2]
    rcases Nat.lt_or_ge run (min rest.length 65535) with hlt | hge
    · exact .inr (h4 hlt)
    · left; apply List.drop_eq_nil_of_le; omega

/-- Where `detect_run` finds less than two, the next byte is a literal (R215, R225). -/
theorem streamTail_lit {prev b : Byte} {run : Nat} {rest : List Byte}
    (h : countEqual prev (min (b :: rest).length 65535) (b :: rest) = some run) (h2 : ¬ 2 ≤ run) :
    streamTail prev 0 (b :: rest) = litCode b ++ streamTail b 0 rest := by
  obtain ⟨h1, hl, h3, h4⟩ := countEqual_some h
  rcases Nat.lt_or_ge 0 run with h0 | h0
  · have hr : run = 1 := by omega
    subst hr
    have hb : b = prev := by simpa using congrArg List.head? h3
    subst hb
    rw [streamTail, if_pos rfl, if_neg (by norm_num), streamTail_stop]
    · simp [stretchCode]
    · rcases Nat.lt_or_ge 1 (min (b :: rest).length 65535) with hlt | hge
      · exact .inr (by simpa using h4 hlt)
      · left; have : (b :: rest).length ≤ 1 := by omega
        simpa using this
  · have hr : run = 0 := by omega
    subst hr
    have : 0 < min (b :: rest).length 65535 := by simp
    obtain ⟨c, tail, hc, hne⟩ := h4 this
    simp at hc
    rw [streamTail, if_neg (by rw [hc.1]; exact hne)]; simp [stretchCode]

/-- The bits still to be written when the compressor stands at position `i` of the plane. -/
def restCode (plane : List Byte) : Nat → List Bool
  | 0 => streamCode plane
  | 1 => match plane.drop 1 with
    | [] => []
    | b :: rest => byteBits b ++ streamTail b 0 rest
  | i + 2 => streamTail (plane.getD (i + 1) 0) 0 (plane.drop (i + 2))

/-- Nothing is left to write at the end of the plane (R216). -/
theorem restCode_end (plane : List Byte) : restCode plane plane.length = [] := by
  match h : plane.length with
  | 0 => rw [List.length_eq_zero_iff.mp h]; rfl
  | 1 => rw [restCode, List.drop_eq_nil_of_le (by omega)]
  | i + 2 => rw [restCode, List.drop_eq_nil_of_le (by omega)]; rfl

/-- A running E_PLANE that began when the bit string was `w`: whatever bytes are still to come, what it has written and
what is left to write make the stream of the whole plane (R219). -/
structure Compressing (w : List Bool) (s : State) : Prop where
  writer : WriterInv s
  scan_le : s.ccI.toNat ≤ s.pin.length
  pin_le : s.pin.length ≤ s.ccLen.toNat
  code : ∀ future : List Byte, (s.pin ++ future).length = s.ccLen.toNat →
    written s ++ restCode (s.pin ++ future) s.ccI.toNat = w ++ streamCode (s.pin ++ future)

/-- Everything the acceptance of a byte does (R218). -/
theorem acceptPin_some {s t : State} (h : acceptPin s = some t) :
    ∃ b, s.hPin = b :: t.hPin ∧ s.pin.length < s.ccLen.toNat ∧ t = { s with pin := s.pin ++ [b], hPin := t.hPin } := by
  unfold acceptPin at h
  split at h
  · cases h
  · rename_i b rest hb
    split_ifs at h with hl
    cases h
    exact ⟨b, hb, hl, rfl⟩

/-- Taking a byte keeps the progress. -/
theorem Compressing.accept {w : List Bool} {s t : State} (hc : Compressing w s) (h : acceptPin s = some t) :
    Compressing w t := by
  obtain ⟨b, hb, hl, ht⟩ := acceptPin_some h
  have hp : t.pin = s.pin ++ [b] := by rw [ht]
  have hw : written t = written s := by rw [ht]; rfl
  have hi : t.ccI = s.ccI := by rw [ht]
  have hL : t.ccLen = s.ccLen := by rw [ht]
  refine ⟨by rw [ht]; exact ⟨hc.writer.unfilled_zero⟩, ?_, ?_, fun future hf => ?_⟩
  · rw [hp, hi]; have := hc.scan_le; simp; omega
  · rw [hp, hL]; simp; omega
  · rw [hp, hL] at hf
    have := hc.code (b :: future) (by simpa using hf)
    rw [hp, hw, hi]; simpa using this

/-- The compressor writes the code of the next `k` bytes and moves past them. -/
theorem Compressing.wrote {w : List Bool} {s u : State} (hc : Compressing w s) (hu : WriterInv u)
    (ho : OnlyWriter s u) (code : List Bool) (hw : written u = written s ++ code) (i : BitVec 32) (k : Nat)
    (hi : i.toNat = s.ccI.toNat + k) (hk : s.ccI.toNat + k ≤ s.pin.length)
    (hr : ∀ future : List Byte, (s.pin ++ future).length = s.ccLen.toNat →
      restCode (s.pin ++ future) s.ccI.toNat = code ++ restCode (s.pin ++ future) (s.ccI.toNat + k)) :
    Compressing w { u with ccI := i } := by
  have hp : u.pin = s.pin := by rw [ho]
  have hL : u.ccLen = s.ccLen := by rw [ho]
  refine ⟨⟨hu.unfilled_zero⟩, ?_, ?_, fun future hf => ?_⟩
  · show i.toNat ≤ u.pin.length
    rw [hp, hi]; exact hk
  · show u.pin.length ≤ u.ccLen.toNat
    rw [hp, hL]; exact hc.pin_le
  · change (u.pin ++ future).length = u.ccLen.toNat at hf
    rw [hp, hL] at hf
    show written u ++ restCode (u.pin ++ future) i.toNat = _ ++ streamCode (u.pin ++ future)
    rw [hp, hi, hw, ← hc.code future hf, hr future hf, List.append_assoc]

/-- The scan position does not wrap (R27). -/
theorem toNat_add_one {i : BitVec 32} {n : Nat} (h : i.toNat < n) (hn : n < 2 ^ 32) : (i + 1).toNat = i.toNat + 1 := by
  rw [BitVec.toNat_add]; simp; omega

/-- Everything one move of the compressor can do (R217, R219): take a byte, write a seed or a token, or finish. -/
theorem Compressing.step {w : List Bool} {s t : State} (hc : Compressing w s) (ha : s.activity = .ePlane)
    (h : compressStep s = some t) :
    (t.activity = .ePlane ∧ Compressing w t) ∨
      (t.activity = .drainSout .ok 0 ∧ t.pin.length = t.ccLen.toNat ∧ WriterInv t ∧
        written t = w ++ streamCode t.pin ++ padBits (w ++ streamCode t.pin).length) := by
  have hlen := s.ccLen.isLt
  unfold compressStep at h
  rw [if_neg (by simp [ha])] at h
  split_ifs at h with h1 h2
  · -- seed
    unfold compressSeed memRead at h
    left
    split at h
    · have hA := hc.accept h
      obtain ⟨b, hb, hl, ht⟩ := acceptPin_some h
      exact ⟨by rw [ht]; exact ha, hA⟩
    · rename_i b hb
      obtain ⟨hlt, rfl⟩ := List.getElem?_eq_some_iff.mp hb
      have hw := writeBits_writer ((s.pin[s.ccI.toNat]).setWidth 32) 8 hc.writer
      have ho := writeBits_only ((s.pin[s.ccI.toNat]).setWidth 32) 8 s
      have hbits : lowBits ((s.pin[s.ccI.toNat]).setWidth 32) 8 = byteBits s.pin[s.ccI.toNat] :=
        lowBits_congr 8 fun i hi => by simp [BitVec.getLsbD_setWidth]; omega
      rw [hbits] at hw
      have hact : (writeBits ((s.pin[s.ccI.toNat]).setWidth 32) Config.sampleW s).activity = s.activity := by simp
      generalize writeBits ((s.pin[s.ccI.toNat]).setWidth 32) Config.sampleW s = u at *
      simp only [Option.some.injEq] at h
      subst h
      refine ⟨by show u.activity = _; rw [hact, ha], hc.wrote hw.1 ho _ hw.2 _ 1 (toNat_add_one h1 hlen) hlt fun future hf => ?_⟩
      have h01 : s.ccI.toNat = 0 ∨ s.ccI.toNat = 1 := by
        have : Config.seedMax = 2 := rfl
        omega
      have hg : (s.pin ++ future)[s.ccI.toNat]? = some s.pin[s.ccI.toNat] := by
        rw [List.getElem?_append_left hlt]; exact hb
      generalize s.pin[s.ccI.toNat] = b at hg
      generalize s.pin ++ future = plane at hg
      rcases h01 with h0 | h0 <;> rw [h0] at hg ⊢
      · match plane, hg with
        | [a], hg => simp at hg; subst hg; simp [restCode, streamCode]
        | a :: c :: rest, hg => simp at hg; subst hg; simp [restCode, streamCode]
      · match plane, hg with
        | a :: c :: rest, hg => simp at hg; subst hg; simp [restCode]
  · -- scan
    left
    unfold compressScan at h
    split at h
    · have hA := hc.accept h
      obtain ⟨b, hb, hl, ht⟩ := acceptPin_some h
      exact ⟨by rw [ht]; exact ha, hA⟩
    · rename_i run hrun
      have h2' : 2 ≤ s.ccI.toNat := by
        have : Config.seedMax = 2 := rfl
        omega
      obtain ⟨j, hj⟩ : ∃ j, s.ccI.toNat = j + 2 := ⟨s.ccI.toNat - 2, by omega⟩
      unfold detectRun memRead at hrun
      split at hrun
      · cases hrun
      rename_i prev hprev
      rw [show s.ccI.toNat - 1 = j + 1 by omega] at hprev
      have hall : ∀ future : List Byte, (s.pin ++ future).length = s.ccLen.toNat →
          (s.pin ++ future).getD (j + 1) 0 = prev ∧
          countEqual prev (min ((s.pin ++ future).drop (j + 2)).length 65535) ((s.pin ++ future).drop (j + 2)) = some run := by
        intro future hf
        obtain ⟨hlt, hpe⟩ := List.getElem?_eq_some_iff.mp hprev
        refine ⟨by rw [List.getD_eq_getElem?_getD, List.getElem?_append_left hlt, hprev]; rfl, ?_⟩
        have hle : j + 2 ≤ s.pin.length := by have := hc.scan_le; omega
        rw [List.length_drop, hf, List.drop_append_of_le_length hle, ← hj]
        exact countEqual_append hrun future
      obtain ⟨r1, r2, r3, r4⟩ := countEqual_some hrun
      split_ifs at h with hmin
      · have hr65 : run ≤ 65535 := by
          have : Config.countMax = 65535 := rfl
          omega
        have hrl : s.ccI.toNat + run ≤ s.ccLen.toNat := by omega
        have hn : (BitVec.ofNat 32 run).toNat = run := by simp; omega
        have hw := emitRun_writer hc.writer (n := BitVec.ofNat 32 run) (by omega)
        have ho := emitRun_only (BitVec.ofNat 32 run) s
        rw [hn] at hw
        have hact : (emitRun (BitVec.ofNat 32 run) s).activity = s.activity := by simp
        generalize emitRun (BitVec.ofNat 32 run) s = u at *
        simp only [Option.some.injEq] at h
        subst h
        refine ⟨by show u.activity = _; rw [hact, ha], hc.wrote hw.1 ho _ hw.2 _ run ?_ ?_ fun future hf => ?_⟩
        · rw [BitVec.toNat_add, hn]; omega
        · rw [List.length_drop] at r2; have := hc.scan_le; omega
        · obtain ⟨g1, g2⟩ := hall future hf
          obtain ⟨q, hq⟩ : ∃ q, run = q + 1 := ⟨run - 1, by have : Config.runMin = 2 := rfl; omega⟩
          rw [hj, restCode, g1, streamTail_run g2 hmin]
          congr 1
          rw [show j + 2 + run = (j + run) + 2 by omega, restCode, List.drop_drop]
          have : (s.pin ++ future).getD (j + run + 1) 0 = prev := by
            obtain ⟨-, -, k3, -⟩ := countEqual_some g2
            rw [List.getD_eq_getElem?_getD, show j + run + 1 = (j + 2) + q by omega, ← List.getElem?_drop, k3,
              List.getElem?_append_left (by simp; omega)]
            simp [hq]
          rw [this]; congr 2; omega
      · unfold compressLiteral memRead at h
        split at h
        · have hA := hc.accept h
          obtain ⟨b, hb, hl, ht⟩ := acceptPin_some h
          exact ⟨by rw [ht]; exact ha, hA⟩
        · rename_i b hb
          obtain ⟨hlt, hbe⟩ := List.getElem?_eq_some_iff.mp hb
          have hw := emitLit_writer hc.writer (b.setWidth 32)
          have ho := emitLit_only (b.setWidth 32) s
          rw [show (b.setWidth 32).setWidth 8 = b by simp] at hw
          have hact : (emitLit (b.setWidth 32) s).activity = s.activity := by simp
          generalize emitLit (b.setWidth 32) s = u at *
          simp only [Option.some.injEq] at h
          subst h
          refine ⟨by show u.activity = _; rw [hact, ha], hc.wrote hw.1 ho _ hw.2 _ 1 (toNat_add_one h1 hlen) hlt fun future hf => ?_⟩
          obtain ⟨g1, g2⟩ := hall future hf
          have hd : (s.pin ++ future).drop (j + 2) = b :: (s.pin ++ future).drop (j + 3) := by
            rw [List.drop_eq_getElem_cons (by rw [List.length_append]; omega)]
            congr 1
            rw [List.getElem_append_left (by omega)]; subst hbe; congr 1; omega
          rw [hd] at g2
          rw [hj, restCode, g1, hd, streamTail_lit g2 hmin, show j + 2 + 1 = (j + 1) + 2 by omega, restCode]
          congr 2
          rw [List.getD_eq_getElem?_getD, show j + 1 + 1 = j + 2 + 0 by omega, ← List.getElem?_drop, hd]; rfl
  · right
    simp only [Option.some.injEq] at h
    subst h
    have hw := flush_writer hc.writer
    have ho := flush_only s
    have hle := hc.scan_le
    have hpl := hc.pin_le
    have hpL : s.pin.length = s.ccLen.toNat := by omega
    have hcode := hc.code [] (by simpa using hpL)
    rw [List.append_nil, show s.ccI.toNat = s.pin.length by omega, restCode_end, List.append_nil] at hcode
    have hp : (flush s).pin = s.pin := by simp
    have hL : (flush s).ccLen = s.ccLen := by simp
    generalize flush s = u at *
    refine ⟨rfl, ?_, ⟨hw.1.unfilled_zero⟩, ?_⟩
    · show u.pin.length = u.ccLen.toNat
      rw [hp, hL, hpL]
    · show written u = _
      rw [hw.2, hcode]
      show _ = w ++ streamCode u.pin ++ padBits (w ++ streamCode u.pin).length
      rw [hp]
end Sys2Proof.Machine
end

