-- ==== Sys2Proof/Tests/Slice0.lean ====
section
/-! SUPPORT. The model's own tests: the smoke of WellFormed, a written-out word for every constructor, one-step tests
whose expected values are the spec's examples, and for every obligation with hypotheses a witness that meets them. -/

namespace Sys2Proof.Tests

open Sys2Proof Sys2Proof.Machine

/-! ### Helpers -/

/-- The next state, if there is one. -/
def after (o : Host.Outcome State Fault Refusal) : Option State :=
  match o with
  | .next t => some t
  | .fault _ => none
  | .refused _ => none

/-- The state one step later; the same state if the machine stopped. -/
def stepped (s : State) : State :=
  match step s with
  | .next t => t
  | .fault _ => s
  | .refused _ => s

/-- A reader at reset with `bytes` supplied. -/
def supplied (bytes : List Byte) : State := { State.reset with sin := bytes }

/-- A writer after `E_WBITS 0b101, 3` from reset (46_system_commands.md R250). -/
def threeBits : State := { State.reset with bwAcc := 0xA0, bwFree := 5 }

/-- A D_PLANE of `len` bytes that runs, has produced `n`, the last of them 0x07, and has `bytes` before it. -/
def expanding (len n : BitVec 32) (bytes : List Byte) : State :=
  { State.reset with sin := bytes, seqBusy := true, activity := .dPlane, cxLen := len, cxN := n, cxLast := 0x07 }

/-! ### WellFormed refuses an ill-formed term, check by check -/

theorem test_illformed_runT1_zero : (Instr.runT1 0).illFormed = some .zeroCountField := by decide
theorem test_illformed_runT2_zero : (Instr.runT2 0).illFormed = some .zeroCountField := by decide
theorem test_illformed_runT3_zero : (Instr.runT3 0).illFormed = some .zeroCountField := by decide
theorem test_illformed_runT4_zero : (Instr.runT4 0).illFormed = some .zeroCountField := by decide
theorem test_illformed_cnt_not_zero :
    (Instr.eFlush 1 0).illFormed = some .cntNotZero ∧ (Instr.eGetb 31 1).illFormed = some .cntNotZero ∧
    (Instr.eCount 1 19).illFormed = some .cntNotZero ∧ (Instr.eLit 1 0x41).illFormed = some .cntNotZero ∧
    (Instr.eRun 1 5).illFormed = some .cntNotZero ∧ (Instr.ePlane 1 5).illFormed = some .cntNotZero ∧
    (Instr.eClr 1 0).illFormed = some .cntNotZero ∧ (Instr.dAlign 1 0).illFormed = some .cntNotZero ∧
    (Instr.dCount 1 0).illFormed = some .cntNotZero ∧ (Instr.dToken 1 0).illFormed = some .cntNotZero ∧
    (Instr.dPlane 1 5).illFormed = some .cntNotZero ∧ (Instr.dClr 1 0).illFormed = some .cntNotZero ∧
    (Instr.rdsr 1 0).illFormed = some .cntNotZero := by decide
theorem test_illformed_arg_not_zero :
    (Instr.eFlush 0 1).illFormed = some .argNotZero ∧ (Instr.eGetb 0 1).illFormed = some .argNotZero ∧
    (Instr.eClr 0 1).illFormed = some .argNotZero ∧ (Instr.dRbits 4 1).illFormed = some .argNotZero ∧
    (Instr.dAlign 0 1).illFormed = some .argNotZero ∧ (Instr.dCount 0 1).illFormed = some .argNotZero ∧
    (Instr.dToken 0 1).illFormed = some .argNotZero ∧ (Instr.dClr 0 1).illFormed = some .argNotZero := by decide

/-! ### A word for every constructor, bit by bit from 30_encoding.md R91 and R101 -/

theorem test_decode_eWbits : decodeCommandNat
    0b0001_01001_00000000000000000000000111111111 = .ok (.eWbits 9 0x1FF) := by rfl
theorem test_decode_eFlush : decodeCommandNat
    0b0010_00000_00000000000000000000000000000000 = .ok (.eFlush 0 0x0) := by rfl
theorem test_decode_eGetb : decodeCommandNat
    0b0011_00000_00000000000000000000000000000000 = .ok (.eGetb 0 0x0) := by rfl
theorem test_decode_eCount : decodeCommandNat
    0b0100_00000_00000000000000000000000000010011 = .ok (.eCount 0 0x13) := by rfl
theorem test_decode_eLit : decodeCommandNat
    0b0101_00000_00000000000000000000000001000001 = .ok (.eLit 0 0x41) := by rfl
theorem test_decode_eRun : decodeCommandNat
    0b0110_00000_00000000000000000000000000000101 = .ok (.eRun 0 0x5) := by rfl
theorem test_decode_ePlane : decodeCommandNat
    0b0111_00000_00000000000000000000000000000101 = .ok (.ePlane 0 0x5) := by rfl
theorem test_decode_eClr : decodeCommandNat
    0b1000_00000_00000000000000000000000000000000 = .ok (.eClr 0 0x0) := by rfl
theorem test_decode_dRbits : decodeCommandNat
    0b1001_10000_00000000000000000000000000000000 = .ok (.dRbits 16 0x0) := by rfl
theorem test_decode_dAlign : decodeCommandNat
    0b1010_00000_00000000000000000000000000000000 = .ok (.dAlign 0 0x0) := by rfl
theorem test_decode_dCount : decodeCommandNat
    0b1011_00000_00000000000000000000000000000000 = .ok (.dCount 0 0x0) := by rfl
theorem test_decode_dToken : decodeCommandNat
    0b1100_00000_00000000000000000000000000000000 = .ok (.dToken 0 0x0) := by rfl
theorem test_decode_dPlane : decodeCommandNat
    0b1101_00000_00000000000000000000000000000101 = .ok (.dPlane 0 0x5) := by rfl
theorem test_decode_dClr : decodeCommandNat
    0b1110_00000_00000000000000000000000000000000 = .ok (.dClr 0 0x0) := by rfl
theorem test_decode_rdsr : decodeCommandNat
    0b1111_00000_00000000000000000000000000000011 = .ok (.rdsr 0 0x3) := by rfl
theorem test_decode_reservedOp0 : decodeCommandNat
    0b0000_00000_00000000000000000000000000000000 = .ok (.reservedOp0 0 0x0) := by rfl
theorem test_decode_seed : decode (.seedAt [false, true, false, false, false, false, false, false]) =
    .ok (.seed 0x40) := by rfl
theorem test_decode_lit :
    decode (.tokenAt [false, true, false, true, false, false, false, false, false, true]) = .ok (.lit 0x41) := by rfl
theorem test_decode_runT1 :
    decode (.tokenAt [true, false, true, true]) = .ok (.runT1 3) := by rfl
theorem test_decode_runT2 :
    decode (.tokenAt [true, false, false, false, false, false, true, false]) = .ok (.runT2 2) := by rfl
theorem test_decode_runT3 :
    decode (.tokenAt [true, false, false, false, false, false, false, false, false, false, false, true, false, false, true, true]) = .ok (.runT3 19) := by rfl
theorem test_decode_illegalTag00 :
    decode (.tokenAt [false, false]) = .ok (.illegalTag00) := by rfl
theorem test_decode_illegalTag11 :
    decode (.tokenAt [true, true]) = .ok (.illegalTag11) := by rfl
theorem test_decode_runT4 : decode (.tokenAt
    ([true, false, false, false, false, false, false, false, false, false, false, false, false, false, false, false] ++
      [false, false, false, false, false, false, false, true, false, false, false, false, false, false, true, true])) = .ok (.runT4 0x0103) := by rfl
theorem test_decode_illegalZeroCount : decode (.tokenAt (true :: List.replicate 31 false)) = .ok .illegalZeroCount := by rfl
theorem test_decode_short_tag : decode (.tokenAt [true]) = .error .shortTag := by rfl
theorem test_decode_wide_word : decodeCommandNat (2 ^ 41) = .error .wideCommand := by rfl
theorem test_table_words :
    decodeTableWord 16 0x8013 = some (.runT3 19) ∧ decodeTableWord 16 0x141 = some (.lit 0x41) ∧
    decodeTableWord 8 0x82 = some (.runT2 2) ∧ decodeTableWord 8 0xA = some (.runT1 2) ∧
    decodeTableWord 32 0x80000100 = some (.runT4 256) ∧ decodeTableWord 48 0x029000001FF = some (.eWbits 9 0x1FF) := by
  decide

/-! ### One step each, expected values from the spec's examples -/

/-- 40_bit_writer.md R138: `E_WBITS 0x1FF, 9` from reset. -/
theorem test_E_WBITS : (after (exec (.eWbits 9 0x1FF) .reset)).map (fun t => (t.sout, t.bwAcc, t.bwFree, t.activity)) =
    some ([0xFF], 0x80, 7, .drainSout .ok 0) := by decide
/-- 60_exceptions.md R262: `E_WBITS 0, 17`. -/
theorem test_E_WBITS_badarg : (after (exec (.eWbits 17 0) threeBits)).map (fun t => (t.bwAcc, t.activity)) =
    some (0xA0, .respond .badarg 0) := by decide
/-- 40_bit_writer.md R139. -/
theorem test_E_FLUSH : (after (exec (.eFlush 0 0) { State.reset with sout := [0xFF], bwAcc := 0x80, bwFree := 7 })).map
    (fun t => (t.sout, t.bwAcc, t.bwFree)) = some ([0xFF, 0x80], 0, 0) := by decide
/-- 60_exceptions.md R261: `E_FLUSH` with `arg` = 1 does not flush. -/
theorem test_E_FLUSH_illegal : (after (exec (.eFlush 0 1) threeBits)).map (fun t => (t.sout, t.bwFree, t.activity)) =
    some ([], 5, .respond .illegal 0) := by decide
/-- 40_bit_writer.md R140. -/
theorem test_E_GETB : (after (exec (.eGetb 0 0) threeBits)).map (fun t => (t.sout, t.bwFree)) =
    some ([0xA0], 0) := by decide
/-- 42_count_codec.md R178: 14 bits `00 0000 00010011`. -/
theorem test_E_COUNT : (after (exec (.eCount 0 19) .reset)).map (fun t => (t.sout, t.bwAcc, t.bwFree)) =
    some ([0x00], 0x4C, 2) := by decide
theorem test_E_COUNT_zero : (after (exec (.eCount 0 0) .reset)).map (fun t => (t.bwFree, t.activity)) =
    some (0, .respond .badarg 0) := by decide
/-- 43_token_mux.md R197: `arg` = 0x141 writes the token of 0x41. -/
theorem test_E_LIT : (after (exec (.eLit 0 0x141) .reset)).map (fun t => (t.sout, t.bwAcc, t.bwFree)) =
    some ([0x50], 0x40, 6) := by decide
/-- 43_token_mux.md R198. -/
theorem test_E_RUN : (after (exec (.eRun 0 5) .reset)).map (fun t => (t.sout, t.bwFree)) = some ([0x82], 0) := by decide
theorem test_E_RUN_one : (after (exec (.eRun 0 1) .reset)).map (fun t => (t.bwFree, t.activity)) =
    some (0, .respond .badarg 0) := by decide
/-- 44_channel_encoder.md R218. -/
theorem test_E_PLANE : (after (exec (.ePlane 0 5) { State.reset with hPin := [7, 7, 7, 7, 7] })).map
    (fun t => (t.sout, t.bwFree, t.activity)) = some ([0x07, 0x07, 0xB0], 0, .drainSout .ok 0) := by decide
/-- 44_channel_encoder.md R219: with three of five bytes the run is not determined. -/
theorem test_E_PLANE_waits : (after (exec (.ePlane 0 5) { State.reset with hPin := [7, 7, 7] })).map
    (fun t => (t.sout, t.pin, t.activity)) = some ([0x07, 0x07], [7, 7, 7], .ePlane) := by decide
/-- 46_system_commands.md R250. -/
theorem test_E_CLR : (after (exec (.eClr 0 0) threeBits)).map (fun t => (t.bwAcc, t.bwFree, t.sout)) =
    some (0, 0, []) := by decide
/-- 41_bit_reader.md R156: A5 3C, four bits. -/
theorem test_D_RBITS : (after (exec (.dRbits 4 0) (supplied [0xA5, 0x3C]))).map
    (fun t => (t.activity, t.brLeft, t.brCur, t.brIdx)) = some (.respond .ok 0xA, 4, 0xA5, 1) := by decide
/-- 41_bit_reader.md R156: then eight bits, across the byte boundary. -/
theorem test_D_RBITS_across : (after (exec (.dRbits 8 0)
    { supplied [0xA5, 0x3C] with brIdx := 1, brCur := 0xA5, brLeft := 4 })).map
    (fun t => (t.activity, t.brLeft, t.brCur, t.brIdx)) = some (.respond .ok 0x53, 4, 0x3C, 2) := by decide
/-- 41_bit_reader.md R157. -/
theorem test_D_ALIGN : (after (exec (.dAlign 0 0) { supplied [0xA5, 0x3C] with brIdx := 2, brCur := 0x3C, brLeft := 4 })).map
    (fun t => (bitPos t, t.brLeft)) = some (16, 0) := by decide
/-- 42_count_codec.md R179. -/
theorem test_D_COUNT : (after (exec (.dCount 0 0) (supplied [0x00, 0x4C]))).map
    (fun t => (t.activity, bitPos t, t.brLeft)) = some (.respond .ok 19, 14, 2) := by decide
/-- 43_token_mux.md R199. -/
theorem test_D_TOKEN_run : (after (exec (.dToken 0 0) (supplied [0x82]))).map (fun t => t.activity) =
    some (.respond .ok 0x00020005) := by decide
theorem test_D_TOKEN_lit : (after (exec (.dToken 0 0) (supplied [0x50, 0x40]))).map (fun t => (t.activity, bitPos t)) =
    some (.respond .ok 0x00010041, 10) := by decide
/-- 45_channel_decoder.md R237. -/
theorem test_D_PLANE : (after (exec (.dPlane 0 5) (supplied [0x07, 0x07, 0xB0]))).map
    (fun t => (t.pout, t.activity, bitPos t)) = some ([7, 7, 7, 7, 7], .drainPout .ok 0, 24) := by decide
/-- 60_exceptions.md R267. -/
theorem test_D_PLANE_overrun : (after (exec (.dPlane 0 4) (supplied [0x07, 0x07, 0xB0]))).map
    (fun t => (t.pout, t.activity, bitPos t, t.derr, t.dcode)) =
    some ([7, 7], .drainPout .overrun 3, 20, true, 7) := by decide
/-- 46_system_commands.md R251: out of the halted state. -/
theorem test_D_CLR : (after (exec (.dClr 0 0) { supplied [0xC0] with derr := true, dcode := 5, brIdx := 1, brLeft := 6 })).map
    (fun t => (t.derr, t.dcode, t.sin, sr0 t, t.activity)) = some (false, 0, [], 0, .respond .ok 0) := by decide
/-- 46_system_commands.md R252. -/
theorem test_RDSR : (after (exec (.rdsr 0 0) threeBits)).map (fun t => t.activity) = some (.respond .ok 0x500) := by decide
theorem test_RDSR_badarg : (after (exec (.rdsr 0 4) threeBits)).map (fun t => t.activity) =
    some (.respond .badarg 0) := by decide
/-- 30_encoding.md R103. -/
theorem test_reserved : (after (exec (.reservedOp0 0 0) .reset)).map (fun t => t.activity) =
    some (.respond .illegal 0) := by decide
/-- 43_token_mux.md R201. -/
theorem test_SEED : (after (exec (.seed 0x07) (expanding 5 0 [0x07]))).map (fun t => (t.pout, t.cxLast, t.cxN, bitPos t)) =
    some ([0x07], 0x07, 1, 8) := by decide
/-- 43_token_mux.md R202. -/
theorem test_LIT : (after (exec (.lit 0x41) (expanding 5 2 [0x50, 0x40]))).map (fun t => (t.pout, t.cxLast, bitPos t)) =
    some ([0x41], 0x41, 10) := by decide
/-- 43_token_mux.md R203. -/
theorem test_RUN_T1 : (after (exec (.runT1 2) (expanding 5 2 [0xA0]))).map (fun t => (t.pout, t.cxN, bitPos t)) =
    some ([7, 7], 4, 4) := by decide
/-- 43_token_mux.md R204: the bias. -/
theorem test_RUN_T2 : (after (exec (.runT2 2) (expanding 9 2 [0x82]))).map (fun t => (t.pout, t.cxN, bitPos t)) =
    some ([7, 7, 7, 7, 7], 7, 8) := by decide
/-- 43_token_mux.md R205: no bias, here in a non-canonical spelling. -/
theorem test_RUN_T3 : (after (exec (.runT3 3) (expanding 9 2 [0x80, 0x03]))).map (fun t => (t.pout, t.cxN, bitPos t)) =
    some ([7, 7, 7], 5, 16) := by decide
/-- 43_token_mux.md R206: most significant byte first, so 2 and not 512. -/
theorem test_RUN_T4 : (after (exec (.runT4 2) (expanding 9 2 [0x80, 0x00, 0x00, 0x02]))).map
    (fun t => (t.pout, t.cxN, bitPos t)) = some ([7, 7], 4, 32) := by decide
/-- 60_exceptions.md R265: 07 07 C0, `D_PLANE 3`. -/
theorem test_BADTAG : (after (exec (.dPlane 0 3) (supplied [0x07, 0x07, 0xC0]))).map
    (fun t => (t.pout, t.activity, bitPos t, t.dcode)) = some ([7, 7], .drainPout .badtag 3, 18, 5) := by decide
theorem test_illegal_tag_00 : (after (exec .illegalTag00 (expanding 5 2 [0x00]))).map
    (fun t => (t.activity, bitPos t)) = some (.drainPout .badtag 0, 2) := by decide
/-- 60_exceptions.md R266: 07 07 80 00 00 00, `D_PLANE 10`. -/
theorem test_ZEROCOUNT : (after (exec (.dPlane 0 10) (supplied [0x07, 0x07, 0x80, 0, 0, 0]))).map
    (fun t => (t.pout, t.activity, bitPos t)) = some ([7, 7], .drainPout .zerocount 0, 48) := by decide
/-- 60_exceptions.md R264: 07, closed, `D_PLANE 2`. -/
theorem test_UNDERRUN : (after (exec (.dPlane 0 2) { supplied [0x07] with brClosed := true })).map
    (fun t => (t.pout, t.activity, bitPos t)) = some ([7], .drainPout .underrun 8, 8) := by decide
/-- 46_system_commands.md R253: a step accepts a word and runs it. -/
theorem test_step_accepts : (after (step { State.reset with hCmd := [0x029000001FF] })).map
    (fun t => (t.sout, t.seqBusy, t.hCmd)) = some ([0xFF], true, []) := by decide
/-- 20_memory.md R70: the response waits for `sout`, and comes after the byte. -/
theorem test_step_delivers : (after (step { State.reset with
    seqBusy := true, activity := .drainSout .ok 0, sout := [0xFF], hSoutReady := true })).map
    (fun t => (t.hSoutGot, t.activity)) = some ([0xFF], .respond .ok 0) := by decide
/-- 70_reset_and_hazards.md R290: reset abandons a running command. -/
theorem test_step_resets : (after (step { expanding 5 2 [0x82] with hScript := [.assertReset], derr := true })).map
    (fun t => (t.activity, t.seqBusy, t.sin, t.derr)) = some (.idle, false, [], false) := by decide
/-- 30_encoding.md R112: `sin_eos` with no byte offered closes the input. -/
theorem test_step_closes : (after (step { State.reset with hScript := [.driveEos true] })).map (fun t => t.brClosed) =
    some true := by decide
/-- The rows' words, where the next step fetches them. -/
theorem test_fetch_word_command : (after (step (State.reset.withFetchWord 48 0x0E0FFFFFFFF))).map
    (fun t => (t.activity, t.ccLen)) = some (.ePlane, 0xFFFFFFFF) := by decide
theorem test_fetch_word_token : (after (step (State.reset.withFetchWord 16 0x8013))).map
    (fun t => (t.pout.length, bitPos t)) = some (19, 16) := by decide

/-! ### Witnesses: for every obligation with hypotheses, states and operands that meet them -/

theorem threeBits_writer : WriterInv threeBits := ⟨by decide⟩
theorem reset_writer : WriterInv State.reset := ⟨by decide⟩

/-- A reader in the middle of its second byte. -/
def midByte : State := { supplied [0xA5, 0x3C, 0x40] with brIdx := 2, brCur := 0x3C, brLeft := 4 }

theorem midByte_reader : ReaderInv midByte := ⟨by decide, by decide, by decide⟩
theorem supplied_reader (bytes : List Byte) : ReaderInv (supplied bytes) :=
  ⟨Nat.zero_le _, fun _ => ⟨rfl, rfl⟩, fun h => absurd h (lt_irrefl 0)⟩
theorem expanding_reader (len n : BitVec 32) (bytes : List Byte) : ReaderInv (expanding len n bytes) :=
  ⟨Nat.zero_le _, fun _ => ⟨rfl, rfl⟩, fun h => absurd h (lt_irrefl 0)⟩

theorem witness_DecodeOfEncode :
    (Instr.seed 0x40).WellFormed ∧ (Instr.lit 0).WellFormed ∧ (Instr.runT1 3).WellFormed ∧ (Instr.runT2 15).WellFormed ∧
    (Instr.runT3 1).WellFormed ∧ (Instr.runT4 65535).WellFormed ∧ Instr.illegalZeroCount.WellFormed ∧
    (Instr.eWbits 31 0xFFFFFFFF).WellFormed ∧ (Instr.dPlane 0 1).WellFormed := by decide
theorem witness_CommandWordsAreInstructions : (Instr.eFlush 31 1).isWire = false := by decide
theorem witness_TokensAreTheirBits :
    decodeToken [true, false, true, true, false] = .ok (.runT1 3) ∧
    decodeSeed [false, true, false, false, false, false, false, false, true] = .ok (.seed 0x40) ∧
    32 ≤ (true :: List.replicate 31 false).length ∧ decodeToken [true] = .error .shortTag ∧
    decodeToken (true :: List.replicate 30 false) = .error .shortCount16 := ⟨rfl, rfl, by decide, rfl, rfl⟩

theorem witness_WriterIsItsBitString :
    WriterInv threeBits ∧ isEncoderCommand (.rdsr 0 0) = false ∧
    (∃ t, exec (.rdsr 0 0) threeBits = .next t) ∧ (∃ t, step threeBits = .next t) ∧
    WriterInv { threeBits with pin := [1] } ∧ written threeBits = written { threeBits with pin := [1] } :=
  ⟨threeBits_writer, rfl, ⟨_, rfl⟩, ⟨_, rfl⟩, ⟨by decide⟩, rfl⟩
theorem witness_WriteBitsMasks : WriterInv threeBits := threeBits_writer
theorem witness_WriteBitsSplits : 7 + 9 ≤ 16 ∧ 0 + 16 ≤ 16 := by decide
theorem witness_FlushCommitsThePartialByte :
    threeBits.bwFree ≠ 0 ∧ State.reset.bwFree = 0 ∧ WriterInv threeBits ∧ WriterInv State.reset :=
  ⟨by decide, rfl, threeBits_writer, reset_writer⟩

theorem witness_EWbitsWritesItsGroup : WriterInv threeBits ∧ (0 : Cnt).toNat ≤ 16 ∧ (16 : Cnt).toNat ≤ 16 :=
  ⟨threeBits_writer, by decide, by decide⟩
theorem witness_EFlushAndEGetbFlush :
    WriterInv threeBits ∧ (Instr.eFlush 0 0 = .eFlush 0 0 ∨ Instr.eFlush 0 0 = .eGetb 0 0) ∧
    (Instr.eGetb 0 0 = .eFlush 0 0 ∨ Instr.eGetb 0 0 = .eGetb 0 0) := ⟨threeBits_writer, .inl rfl, .inr rfl⟩
theorem witness_ECountWritesTheCode :
    WriterInv threeBits ∧ 1 ≤ (1 : Arg).toNat ∧ (1 : Arg).toNat ≤ 65535 ∧ 1 ≤ (65535 : Arg).toNat ∧
    (65535 : Arg).toNat ≤ 65535 := ⟨threeBits_writer, by decide, by decide, by decide, by decide⟩
theorem witness_ELitWritesALiteral : WriterInv threeBits := threeBits_writer
theorem witness_ERunWritesARun :
    WriterInv threeBits ∧ 2 ≤ (2 : Arg).toNat ∧ (2 : Arg).toNat ≤ 65535 ∧ 2 ≤ (65535 : Arg).toNat ∧
    (65535 : Arg).toNat ≤ 65535 := ⟨threeBits_writer, by decide, by decide, by decide, by decide⟩
theorem witness_EPlaneWritesTheStream :
    WriterInv { threeBits with hPin := [7, 7, 7, 7, 9] } ∧
    ({ threeBits with hPin := [7, 7, 7, 7, 9] } : State).hPin = [7, 7, 7, 7] ++ [9] ∧
    ([7, 7, 7, 7] : List Byte).length < 2 ^ 32 ∧
    ({ threeBits with hPin := [7, 7, 7, 7, 9] } : State).hPin = [] ++ [7, 7, 7, 7, 9] :=
  ⟨⟨by decide⟩, rfl, by decide, rfl⟩
theorem witness_EPlaneWaitsForItsBytes :
    State.reset.hPin.length < (1 : Arg).toNat ∧
    ({ State.reset with hPin := [7, 7] } : State).hPin.length < (3 : Arg).toNat := by decide

/-- A running E_PLANE of one byte, which the host is about to offer. -/
def planeInPieces : State :=
  { State.reset with
    seqBusy := true, hScript := [.offerPin 0x41, .letBlockMove, .letBlockMove, .letBlockMove] }

/-- The same after its E_PLANE has begun and waits. -/
def planeBegun : State := { planeInPieces with ccLen := 1, activity := .ePlane }

theorem witness_PlaneBytesMayArriveInPieces :
    WriterInv planeInPieces ∧ exec (.ePlane 0 1) planeInPieces = .next planeBegun ∧
    ∃ t, StepsWhile (fun u => u.activity = .ePlane) planeBegun t ∧ t.activity = .drainSout .ok 0 ∧ t.sout = [0x41] :=
  ⟨⟨by decide⟩, rfl, stepped (stepped (stepped (stepped planeBegun))),
    .tail (.tail (.tail (.tail .refl rfl rfl) (by decide) rfl) (by decide) rfl) (by decide) rfl, by decide, by decide⟩
theorem witness_PlaneBytesMayArriveInPieces_moves :
    planeBegun.activity = .ePlane ∧ planeBegun.ccI.toNat < planeBegun.ccLen.toNat ∧
    ({ planeBegun with pin := [0x41], ccI := 1 } : State).activity = .ePlane ∧
    ({ planeBegun with pin := [0x41], ccI := 1 } : State).ccLen.toNat ≤
      ({ planeBegun with pin := [0x41], ccI := 1 } : State).ccI.toNat := by decide
/-- A run that its cap, the end of the plane, determines, and one that no byte has yet closed. -/
theorem test_E_PLANE_resumed :
    (after (sequencer exec { planeBegun with ccLen := 4, pin := [7, 7, 7, 7], ccI := 2 })).map
        (fun t => (t.ccI, written t)) = some (4, runCode 2) ∧
    (after (sequencer exec { planeBegun with ccLen := 5, pin := [7, 7, 7, 7], ccI := 2, hPin := [9] })).map
        (fun t => (t.ccI, t.pin, t.hPin)) = some (2, [7, 7, 7, 7, 9], []) := ⟨rfl, rfl⟩

theorem witness_SmallAndCappedPlanes :
    WriterInv State.reset ∧ State.reset.bwFree = 0 ∧
    (∃ t, exec (.ePlane 0 0) State.reset = .next t) ∧
    (∃ t, exec (.ePlane 0 3) { State.reset with hPin := [7, 7, 7] } = .next t) ∧
    (∃ t, exec (.ePlane 0 65537) { State.reset with hPin := List.replicate 65537 7 } = .next t) ∧
    (∃ t, exec (.ePlane 0 65538) { State.reset with hPin := List.replicate 65538 7 } = .next t) ∧
    (∃ t, exec (.ePlane 0 65539) { State.reset with hPin := List.replicate 65539 7 } = .next t) := by
  have h : ∀ (l : Arg) (s : State), ∃ t, exec (.ePlane 0 l) s = .next t := fun l s => ⟨_, rfl⟩
  exact ⟨reset_writer, rfl, h _ _, h _ _, h _ _, h _ _, h _ _⟩
theorem witness_EncoderNeverFaults : isEncoderCommand (.ePlane 1 0xFFFFFFFF) = true := rfl

theorem witness_ReaderInverseLaw :
    ReaderInv midByte ∧ 12 ≤ 16 ∧
    (bitsOf midByte.sin).drop (bitPos midByte) = lowBits (0xFFFC40 : Arg) 12 ++ [] := by
  exact ⟨midByte_reader, by decide, by decide⟩
theorem witness_ReadIsAllOrNothing :
    ReaderInv midByte ∧ 12 ≤ avail midByte ∧ avail midByte < 13 ∧ midByte.brClosed = false ∧
    avail { midByte with brClosed := true } < 13 := ⟨midByte_reader, by decide, by decide, rfl, by decide⟩
theorem witness_ReadSplits :
    4 + 8 ≤ 16 ∧ 4 + 8 ≤ avail midByte ∧ 12 ≤ avail { midByte with brClosed := true } ∧
    avail { midByte with brClosed := true } < 12 + 1 := by decide
theorem witness_DAlignMovesToTheBoundary :
    midByte.derr = false ∧ ReaderInv midByte ∧ ReaderInv (supplied [0x82]) ∧ bitPos (supplied [0x82]) % 8 = 0 :=
  ⟨rfl, midByte_reader, supplied_reader _, rfl⟩
theorem witness_DRbitsReadsItsGroup :
    ReaderInv midByte ∧ midByte.derr = false ∧ (16 : Cnt).toNat ≤ 16 ∧ (12 : Cnt).toNat ≤ avail midByte ∧
    avail midByte < (16 : Cnt).toNat ∧ midByte.brClosed = false ∧ ReaderInv { midByte with brClosed := true } ∧
    (0 : Cnt).toNat ≤ avail (supplied []) :=
  ⟨midByte_reader, rfl, by decide, by decide, by decide, rfl, ⟨by decide, by decide, by decide⟩, by decide⟩

theorem witness_DCountReadsACount :
    (supplied [0x40]).derr = false ∧
    toRead (supplied [0x40]) = lowBits (1 : BitVec 2) 2 ++ zeroBits 6 ∧
    toRead (supplied [0x3C]) = (zeroBits 2 ++ lowBits (15 : BitVec 4) 4) ++ zeroBits 2 ∧
    toRead (supplied [0x00, 0x14]) = (zeroBits 6 ++ lowBits (5 : BitVec 8) 8) ++ zeroBits 2 ∧
    toRead (supplied [0x00, 0x00, 0x00, 0x14]) = (zeroBits 14 ++ lowBits (5 : BitVec 16) 16) ++ zeroBits 2 ∧
    ReaderInv (supplied [0x40]) ∧ ReaderInv (supplied [0x3C]) ∧ ReaderInv (supplied [0x00, 0x14]) ∧
    ReaderInv (supplied [0x00, 0x00, 0x00, 0x14]) :=
  ⟨rfl, by decide, by decide, by decide, by decide, supplied_reader _, supplied_reader _, supplied_reader _,
    supplied_reader _⟩
theorem witness_DCountRefusesZero :
    ReaderInv (supplied [0, 0, 0, 0]) ∧ (supplied [0, 0, 0, 0]).derr = false ∧
    toRead (supplied [0, 0, 0, 0]) = zeroBits 30 ++ zeroBits 2 := ⟨supplied_reader _, rfl, by decide⟩
theorem witness_DTokenReadsAToken :
    ReaderInv midByte ∧ midByte.derr = false ∧ decodeToken (toRead midByte) = .ok .illegalTag11 ∧
    decodeToken (toRead (supplied [0x50, 0x40])) = .ok (.lit 0x41) ∧
    decodeToken (toRead (supplied [0x80, 0, 0, 0])) = .ok .illegalZeroCount ∧
    decodeToken (toRead (supplied [0x80, 0, 0, 1])) = .ok (.runT4 1) :=
  ⟨midByte_reader, rfl, rfl, rfl, rfl, rfl⟩
theorem witness_TokensEndEarly :
    (toRead (supplied []) = bitsBefore .tag ++ [] ∧ ([] : List Bool).length < fieldWidth .tag) ∧
    (toRead (supplied [0x41]) = bitsBefore .sample ++ lowBits (1 : BitVec 6) 6 ∧
      (lowBits (1 : BitVec 6) 6).length < fieldWidth .sample) ∧
    (toRead { supplied [0x02] with brIdx := 1, brCur := 0x02, brLeft := 2 } = bitsBefore .c2 ++ [] ∧
      ([] : List Bool).length < fieldWidth .c2) ∧
    (toRead { supplied [0x08] with brIdx := 1, brCur := 0x08, brLeft := 4 } = bitsBefore .c4 ++ [] ∧
      ([] : List Bool).length < fieldWidth .c4) ∧
    (toRead (supplied [0x80]) = bitsBefore .c8 ++ [] ∧ ([] : List Bool).length < fieldWidth .c8) ∧
    (toRead (supplied [0x80, 0x00]) = bitsBefore .c16 ++ [] ∧ ([] : List Bool).length < fieldWidth .c16) ∧
    ReaderInv (supplied [0x80]) ∧ (supplied [0x80]).brClosed = false ∧ (supplied [0x80]).derr = false ∧
    ({ supplied [0x80] with brClosed := true } : State).brClosed = true :=
  ⟨by decide, by decide, by decide, by decide, by decide, by decide, supplied_reader _, rfl, rfl, rfl⟩
theorem witness_TokensEndEarly_count :
    (toRead (supplied []) = countBitsBefore .c2 ++ [] ∧ ([] : List Bool).length < fieldWidth .c2) ∧
    (toRead { supplied [0x00] with brIdx := 1, brLeft := 5 } = countBitsBefore .c4 ++ zeroBits 3 ∧
      (zeroBits 3).length < fieldWidth .c4) ∧
    (toRead (supplied [0x00]) = countBitsBefore .c8 ++ zeroBits 2 ∧ (zeroBits 2).length < fieldWidth .c8) ∧
    (toRead (supplied [0x00, 0x00, 0x00]) = countBitsBefore .c16 ++ zeroBits 10 ∧
      (zeroBits 10).length < fieldWidth .c16) ∧
    ReaderInv (supplied [0x00]) ∧ (supplied [0x00]).derr = false ∧ TokField.c8 ∈ [TokField.c2, .c4, .c8, .c16] ∧
    ({ supplied [0x00] with brClosed := true } : State).brClosed = true :=
  ⟨by decide, by decide, by decide, by decide, supplied_reader _, rfl, by decide, rfl⟩
theorem witness_TokensEndEarly_plane :
    (expanding 2 1 []).activity = .dPlane ∧ (expanding 2 1 []).cxN.toNat < 2 ∧
    (expanding 2 1 []).cxN.toNat < (expanding 2 1 []).cxLen.toNat ∧ (toRead (expanding 2 1 [])).length < 8 ∧
    ReaderInv (expanding 3 2 [0x80]) ∧ 2 ≤ (expanding 3 2 [0x80]).cxN.toNat ∧
    (expanding 3 2 [0x80]).cxN.toNat < (expanding 3 2 [0x80]).cxLen.toNat ∧
    bitsBefore (expanding 3 2 [0x80]).tokAt ++ toRead (expanding 3 2 [0x80]) = bitsBefore .c8 ++ [] ∧
    ([] : List Bool).length < fieldWidth .c8 ∧
    (expanding 2 1 []).brClosed = false ∧ ({ expanding 2 1 [] with brClosed := true } : State).brClosed = true :=
  ⟨rfl, by decide, by decide, by decide, expanding_reader _ _ _, by decide, by decide, by decide, by decide, rfl, rfl⟩
theorem witness_TokensEndEarly_inside :
    ReaderInv { expanding 3 2 [] with tokAt := .c8 } ∧
    bitsBefore ({ expanding 3 2 [] with tokAt := .c8 } : State).tokAt ++ toRead { expanding 3 2 [] with tokAt := .c8 } =
      bitsBefore .c8 ++ [] := ⟨⟨by decide, by decide, by decide⟩, by decide⟩
/-- The vectors K24 and K26 of 95_test_vectors.md: a count that ends early on a closed input. -/
theorem test_count_ends_early :
    (after (exec (.dCount 0 0) { supplied [0, 0, 0] with brClosed := true })).map (fun t => (t.activity, bitPos t)) =
      some (.drainPout .underrun 0x10, 14) ∧
    (after (exec (.dCount 0 0) { supplied [0] with brClosed := true })).map (fun t => (t.activity, bitPos t)) =
      some (.drainPout .underrun 8, 6) := ⟨rfl, rfl⟩

theorem witness_CountRoundTrip :
    WriterInv State.reset ∧ ReaderInv (supplied [0x00, 0x4C]) ∧ (supplied [0x00, 0x4C]).derr = false ∧
    1 ≤ (19 : Arg).toNat ∧ (19 : Arg).toNat ≤ 65535 ∧ bitPos (supplied [0x00, 0x4C]) = (written State.reset).length ∧
    written (encodeCount 19 State.reset) <+: bitsOf (supplied [0x00, 0x4C]).sin :=
  ⟨reset_writer, supplied_reader _, rfl, by decide, by decide, rfl, by decide⟩
theorem witness_TokenRoundTrip :
    WriterInv State.reset ∧ ReaderInv (supplied [0x50, 0x40]) ∧ (supplied [0x50, 0x40]).derr = false ∧
    bitPos (supplied [0x50, 0x40]) = (written State.reset).length ∧
    written (emitLit 0x141 State.reset) <+: bitsOf (supplied [0x50, 0x40]).sin ∧
    2 ≤ (5 : Arg).toNat ∧ (5 : Arg).toNat ≤ 65535 ∧
    written (emitRun 5 State.reset) <+: bitsOf (supplied [0x82]).sin :=
  ⟨reset_writer, supplied_reader _, rfl, rfl, by decide, by decide, by decide, by decide⟩
theorem witness_ReadsResumeWhereTheyWaited :
    (∃ t, exec (.dRbits 9 0) (supplied [0x82]) = .next t ∧ readsInput t.activity = true) ∧
    (∃ t, exec (.dCount 0 0) (supplied [0x00]) = .next t ∧ readsInput t.activity = true ∧ t.tokAt = .c8) ∧
    (∃ t, exec (.dToken 0 0) (supplied [0x41]) = .next t ∧ readsInput t.activity = true ∧ t.tokAt = .sample) :=
  ⟨⟨_, rfl, rfl⟩, ⟨_, rfl, rfl, rfl⟩, ⟨_, rfl, rfl, rfl⟩⟩
/-- The vector B8 of 95_test_vectors.md: the close of a waiting D_RBITS; and that of a D_TOKEN inside its token. -/
theorem test_close_ends_a_wait :
    (after (sequencer exec { supplied [0xAB] with
        brIdx := 1, brCur := 0xAB, brLeft := 4, activity := .dRbits 8, brClosed := true })).map
        (fun t => (t.activity, bitPos t, t.dcode)) = some (.drainPout .underrun 8, 4, 4) ∧
    (after (sequencer exec { supplied [0x41] with
        brIdx := 1, brCur := 0x41, brLeft := 6, activity := .dToken, tokAt := .sample, brClosed := true })).map
        (fun t => (t.activity, bitPos t, t.dcode)) = some (.drainPout .underrun 8, 2, 4) := ⟨rfl, rfl⟩

theorem witness_SeedAndLitEmitTheirSample :
    ReaderInv (expanding 5 0 [0x50, 0x40]) ∧ toRead (expanding 5 0 [0x50, 0x40]) = byteBits 0x50 ++ byteBits 0x40 ∧
    bitsBefore (expanding 5 0 [0x50, 0x40]).tokAt ++ toRead (expanding 5 0 [0x50, 0x40]) =
      false :: true :: (byteBits 0x41 ++ zeroBits 6) ∧
    ReaderInv { expanding 5 2 [0x41] with tokAt := .sample } ∧
    bitsBefore ({ expanding 5 2 [0x41] with tokAt := .sample } : State).tokAt ++
      toRead { expanding 5 2 [0x41] with tokAt := .sample } = false :: true :: (byteBits 0x41 ++ []) :=
  ⟨expanding_reader _ _ _, by decide, by decide, ⟨by decide, by decide, by decide⟩, by decide⟩

theorem witness_RunsReplicateTheLastByte :
    ReaderInv (expanding 20 2 [0x82]) ∧ (expanding 20 2 [0x82]).tokAt = .tag ∧
    (Instr.runT1 3).WellFormed ∧ runCountOf (.runT1 3) = some 3 ∧ 3 ≤ remaining (expanding 5 2 [0xB0]) ∧
    bitsBefore .tag ++ toRead (expanding 5 2 [0xB0]) = (encode (.runT1 3)).bits ++ zeroBits 4 ∧
    (Instr.runT2 15).WellFormed ∧ runCountOf (.runT2 15) = some 18 ∧ 18 ≤ remaining (expanding 20 2 [0x8F]) ∧
    toRead (expanding 20 2 [0x8F]) = (encode (.runT2 15)).bits ++ [] ∧
    (Instr.runT3 1).WellFormed ∧ runCountOf (.runT3 1) = some 1 ∧ 1 ≤ remaining (expanding 3 2 [0x80, 0x01]) ∧
    toRead (expanding 3 2 [0x80, 0x01]) = (encode (.runT3 1)).bits ++ [] ∧
    (Instr.runT4 65535).WellFormed ∧ runCountOf (.runT4 65535) = some 65535 ∧
    65535 ≤ remaining (expanding 65537 2 [0x80, 0x00, 0xFF, 0xFF]) ∧
    toRead (expanding 65537 2 [0x80, 0x00, 0xFF, 0xFF]) = (encode (.runT4 65535)).bits ++ [] :=
  ⟨expanding_reader _ _ _, rfl, rfl, rfl, by decide, by decide, rfl, rfl, by decide, by decide, rfl, rfl, by decide,
    by decide, rfl, rfl, by decide, by decide⟩
theorem witness_RunsReplicateTheLastByte_inside :
    ReaderInv { expanding 20 2 [0xF0] with tokAt := .c4 } ∧ (Instr.runT2 15).WellFormed ∧
    runCountOf (.runT2 15) = some 18 ∧ 18 ≤ remaining { expanding 20 2 [0xF0] with tokAt := .c4 } ∧
    bitsBefore ({ expanding 20 2 [0xF0] with tokAt := .c4 } : State).tokAt ++
      toRead { expanding 20 2 [0xF0] with tokAt := .c4 } = (encode (.runT2 15)).bits ++ zeroBits 4 :=
  ⟨⟨by decide, by decide, by decide⟩, rfl, rfl, by decide, by decide⟩

theorem witness_RunsNeverOverrun :
    ReaderInv (expanding 4 2 [0xB0]) ∧ (expanding 4 2 [0xB0]).tokAt = .tag ∧ (Instr.runT1 3).WellFormed ∧
    runCountOf (.runT1 3) = some 3 ∧ toRead (expanding 4 2 [0xB0]) = (encode (.runT1 3)).bits ++ zeroBits 4 ∧
    remaining (expanding 4 2 [0xB0]) < 3 := ⟨expanding_reader _ _ _, rfl, rfl, rfl, by decide, by decide⟩
theorem witness_RunsNeverOverrun_inside :
    ReaderInv { expanding 4 2 [0xC0] with tokAt := .c2 } ∧ remaining { expanding 4 2 [0xC0] with tokAt := .c2 } < 3 ∧
    bitsBefore ({ expanding 4 2 [0xC0] with tokAt := .c2 } : State).tokAt ++
      toRead { expanding 4 2 [0xC0] with tokAt := .c2 } = (encode (.runT1 3)).bits ++ zeroBits 6 :=
  ⟨⟨by decide, by decide, by decide⟩, by decide, by decide⟩

theorem witness_IllegalEncodingsFault :
    ReaderInv (expanding 5 2 [0xC0]) ∧ (expanding 5 2 [0xC0]).tokAt = .tag ∧
    toRead (expanding 5 2 [0xC0]) = (encode .illegalTag11).bits ++ zeroBits 6 ∧
    toRead (expanding 5 2 [0x00]) = (encode .illegalTag00).bits ++ zeroBits 6 ∧
    toRead (expanding 5 2 [0x80, 0, 0, 0]) = true :: false :: (zeroBits 30 ++ []) :=
  ⟨expanding_reader _ _ _, rfl, by decide, by decide, by decide⟩
theorem witness_IllegalEncodingsFault_inside :
    ReaderInv { expanding 5 2 [0, 0] with tokAt := .c16 } ∧
    bitsBefore ({ expanding 5 2 [0, 0] with tokAt := .c16 } : State).tokAt ++
      toRead { expanding 5 2 [0, 0] with tokAt := .c16 } = true :: false :: (zeroBits 30 ++ []) :=
  ⟨⟨by decide, by decide, by decide⟩, by decide⟩

theorem witness_DPlaneOfSmallPlanes :
    ReaderInv midByte ∧ midByte.derr = false ∧ ([] : List Byte).length ≤ 2 ∧ ([0x07, 0x40] : List Byte).length ≤ 2 ∧
    toRead midByte = bitsOf [] ++ toRead midByte ∧ toRead (supplied [0x07, 0x40, 0xFF]) = bitsOf [0x07, 0x40] ++ byteBits 0xFF :=
  ⟨midByte_reader, rfl, by decide, by decide, rfl, by decide⟩
theorem witness_DPlaneExecutesTheStream :
    ReaderInv (supplied [0x07, 0x07, 0xA5, 0x06]) ∧ (supplied [0x07, 0x07, 0xA5, 0x06]).derr = false ∧
    (∀ i ∈ [Instr.runT1 2, .lit 0x41], IsToken i) ∧ (tokenListBytes 7 [.runT1 2, .lit 0x41]).length + 2 < 2 ^ 32 ∧
    toRead (supplied [0x07, 0x07, 0xA5, 0x06]) =
      byteBits 7 ++ byteBits 7 ++ tokenListBits [.runT1 2, .lit 0x41] ++ [true, false] := by
  refine ⟨supplied_reader _, rfl, ?_, by decide, by decide⟩
  intro i hi
  simp only [List.mem_cons, List.not_mem_nil, or_false] at hi
  rcases hi with rfl | rfl
  · exact ⟨rfl, .inr rfl⟩
  · exact ⟨rfl, .inl rfl⟩
theorem witness_PlaneRoundTrip :
    WriterInv { State.reset with hPin := [7, 7, 7, 7, 7] } ∧
    ({ State.reset with hPin := [7, 7, 7, 7, 7] } : State).bwFree = 0 ∧ ([7, 7, 7, 7, 7] : List Byte).length < 2 ^ 32 ∧
    (∃ e', exec (.ePlane 0 5) { State.reset with hPin := [7, 7, 7, 7, 7] } = .next e' ∧
      e'.sout = [] ++ [0x07, 0x07, 0xB0]) ∧
    ReaderInv (supplied [0x07, 0x07, 0xB0, 0xFF]) ∧ (supplied [0x07, 0x07, 0xB0, 0xFF]).brLeft = 0 ∧
    (supplied [0x07, 0x07, 0xB0, 0xFF]).derr = false ∧
    [0x07, 0x07, 0xB0] <+: (supplied [0x07, 0x07, 0xB0, 0xFF]).sin.drop (supplied [0x07, 0x07, 0xB0, 0xFF]).brIdx :=
  ⟨⟨by decide⟩, rfl, by decide, ⟨_, rfl, by decide⟩, supplied_reader _, rfl, rfl, by decide⟩
theorem witness_DPlaneEndsAsItSays : ReaderInv midByte ∧ midByte.derr = false := ⟨midByte_reader, rfl⟩
theorem witness_DPlaneEndsAsItSays_short :
    ReaderInv (supplied [0x07]) ∧ (supplied [0x07]).derr = false ∧ ([0x07] : List Byte).length < (2 : Arg).toNat ∧
    toRead (supplied [0x07]) = bitsOf [0x07] ++ [] ∧ ([] : List Bool).length < 8 ∧
    ReaderInv (supplied [1, 2, 0xA4]) ∧ (supplied [1, 2, 0xA4]).derr = false ∧
    (∀ i ∈ [Instr.runT1 2], IsToken i) ∧ (tokenListBytes 2 [.runT1 2]).length + 2 < (5 : Arg).toNat ∧
    toRead (supplied [1, 2, 0xA4]) =
      byteBits 1 ++ byteBits 2 ++ tokenListBits [.runT1 2] ++ bitsBefore .sample ++ zeroBits 2 ∧
    (zeroBits 2).length < fieldWidth .sample := by
  refine ⟨supplied_reader _, rfl, by decide, by decide, by decide, supplied_reader _, rfl, ?_, by decide, by decide,
    by decide⟩
  intro i hi
  rw [List.mem_singleton] at hi
  subst hi
  exact ⟨rfl, .inr rfl⟩
/-- The vectors E17 and E18 of 95_test_vectors.md: a stream that ends early on a closed input. -/
theorem test_stream_ends_early :
    (after (exec (.dPlane 0 2) { supplied [0x07] with brClosed := true })).map
        (fun t => (t.activity, t.pout, bitPos t)) = some (.drainPout .underrun 8, [0x07], 8) ∧
    (after (exec (.dPlane 0 3) { supplied [1, 2, 0x40] with brClosed := true })).map
        (fun t => (t.activity, t.pout, bitPos t)) = some (.drainPout .underrun 8, [1, 2], 18) := ⟨rfl, rfl⟩

/-- A D_PLANE of three bytes whose last byte of stream the host is about to push. -/
def streamInPieces : State :=
  { supplied [0x07, 0x07] with seqBusy := true, hScript := [.offerSin 0x50, .letBlockMove, .offerSin 0x40] }

theorem witness_StreamBytesMayArriveInPieces :
    streamInPieces.derr = false ∧ exec (.dPlane 0 3) streamInPieces = .next (((after (exec (.dPlane 0 3) streamInPieces))).getD .reset) ∧
    ∃ t, StepsWhile (fun u => u.activity = .dPlane) (((after (exec (.dPlane 0 3) streamInPieces))).getD .reset) t ∧
      t.activity = .drainPout .ok 0 ∧ t.pout = [0x07, 0x07, 0x41] :=
  ⟨rfl, rfl, stepped (stepped (stepped (stepped (stepped (((after (exec (.dPlane 0 3) streamInPieces))).getD .reset))))),
    .tail (.tail (.tail (.tail (.tail .refl (by decide) rfl) (by decide) rfl) (by decide) rfl) (by decide) rfl) (by decide) rfl,
    by decide, by decide⟩
theorem witness_StreamBytesMayArriveInPieces_end :
    (expanding 5 5 [0xB0]).activity = .dPlane ∧ (expanding 5 5 [0xB0]).cxLen.toNat ≤ (expanding 5 5 [0xB0]).cxN.toNat := by
  decide

theorem witness_ReservedOpcodeIsIllegal : opOf 0x01F00000001 = 0 := by decide
theorem witness_IllegalCommandsAreRejected :
    illegalWord 0x00000000000 ∧ illegalWord 0x04000000001 ∧ illegalWord (commandWord 0xF 1 0) ∧
    ¬ illegalWord (commandWord 0x1 31 0xFFFFFFFF) := by unfold illegalWord; decide
theorem witness_HaltedCommandsAreRejected :
    ¬ illegalWord (commandWord 0x9 17 0) ∧ haltableWord (commandWord 0x9 17 0) ∧
    ({ State.reset with derr := true } : State).derr = true ∧ ¬ illegalWord (commandWord 0xE 0 0) ∧
    ¬ (haltableWord (commandWord 0xE 0 0) ∧ ({ State.reset with derr := true } : State).derr = true) := by
  unfold illegalWord haltableWord; decide
theorem witness_BadArgumentsAreRejected :
    ¬ illegalWord (commandWord 0x4 0 65536) ∧ badargWord (commandWord 0x4 0 65536) ∧
    ¬ illegalWord (commandWord 0x4 0 65535) ∧ ¬ badargWord (commandWord 0x4 0 65535) := by
  unfold illegalWord badargWord; decide
theorem witness_BadArgumentsAreRejected_plane :
    ¬ illegalWord (commandWord 0x6 0 1) ∧ badargWord (commandWord 0x6 0 1) ∧
    ¬ illegalWord (commandWord 0xF 0 4) ∧ badargWord (commandWord 0xF 0 4) := by
  unfold illegalWord badargWord; decide
theorem witness_BadArgumentsAreRejected_decoder :
    ¬ illegalWord (commandWord 0x9 17 0) ∧ badargWord (commandWord 0x9 17 0) ∧
    ¬ (haltableWord (commandWord 0x9 17 0) ∧ State.reset.derr = true) := by
  unfold illegalWord badargWord haltableWord; decide
theorem witness_OutcomesOfTheTable :
    (Instr.dRbits 4 0).isWire = false ∧ ∃ t, exec (.dRbits 4 0) State.reset = .next t := ⟨rfl, _, rfl⟩
theorem witness_OutcomesOfTheTable_resumed :
    (∃ t, sequencer exec planeBegun = .next t) ∧ planeBegun.activity = .ePlane ∧
    (∃ t, sequencer exec { midByte with activity := .dRbits 8 } = .next t) ∧
    (∃ t, sequencer exec { supplied [0x40] with activity := .dCount, tokAt := .c2 } = .next t) ∧
    (∃ t, sequencer exec { supplied [0xC0] with activity := .dToken } = .next t) ∧
    (∃ t, sequencer exec (expanding 5 2 [0xC0]) = .next t) ∧ (expanding 5 2 [0xC0]).activity = .dPlane :=
  ⟨⟨_, rfl⟩, rfl, ⟨_, rfl⟩, ⟨_, rfl⟩, ⟨_, rfl⟩, ⟨_, rfl⟩, rfl⟩

theorem witness_FaultEntryThenDelivery :
    ({ State.reset with activity := .drainPout .badtag 3, pout := [7] } : State).activity = .drainPout .badtag 3 ∧
    ({ State.reset with activity := .drainPout .badtag 3, pout := [7] } : State).poutTaken < 1 ∧
    ({ State.reset with activity := .drainPout .badtag 3, pout := [7], poutTaken := 1 } : State).pout.length ≤ 1 := by
  decide
theorem witness_FaultEntryThenDelivery_response :
    ({ State.reset with activity := .drainSout .ok 0, sout := [7] } : State).activity = .drainSout .ok 0 ∧
    ({ State.reset with activity := .drainSout .ok 0, sout := [7] } : State).soutTaken < 1 ∧
    ({ State.reset with activity := .drainSout .ok 0, sout := [7], soutTaken := 1 } : State).sout.length ≤ 1 ∧
    ({ State.reset with activity := .respond .ok 5 } : State).activity = .respond .ok 5 ∧
    ({ State.reset with activity := .respond .ok 5 } : State).hRspReady = false ∧
    ({ State.reset with activity := .respond .ok 5, hRspReady := true } : State).hRspReady = true := by
  decide

/-- A quiet machine with a host that is ready to take a response. -/
def quiet : State := { State.reset with hRspReady := true }

theorem quiet_inv : Inv quiet where
  writer := ⟨by decide⟩
  reader := ⟨by decide, by decide, by decide⟩
  plane := ⟨by decide, by decide, by decide⟩
  fault := ⟨by decide, fun h => absurd h (by decide)⟩
  sequencer := ⟨by decide, by decide, by decide, by decide⟩
  delivery := ⟨by decide, by decide, by decide, by decide, List.nil_suffix, List.nil_suffix⟩

/-- The same halted by a fault, with a D_CLR held out. -/
def quietHalted : State := { quiet with derr := true, dcode := 5, hCmd := [clearDecoderWord] }

theorem quietHalted_inv : Inv quietHalted where
  writer := ⟨by decide⟩
  reader := ⟨by decide, by decide, by decide⟩
  plane := ⟨by decide, by decide, by decide⟩
  fault := ⟨by decide, fun _ => ⟨.badtag, rfl, rfl⟩⟩
  sequencer := ⟨by decide, by decide, by decide, by decide⟩
  delivery := ⟨by decide, by decide, by decide, by decide, List.nil_suffix, List.nil_suffix⟩

/-- The same running a D_PLANE that is about to meet tag `11`. -/
def quietExpanding : State :=
  { quiet with sin := [0xC0], seqBusy := true, activity := .dPlane, cxLen := 5, cxN := 2 }

theorem quietExpanding_inv : Inv quietExpanding where
  writer := ⟨by decide⟩
  reader := ⟨by decide, by decide, by decide⟩
  plane := ⟨by decide, by decide, by decide⟩
  fault := ⟨by decide, fun h => absurd h (by decide)⟩
  sequencer := ⟨by decide, by decide, by decide, by decide⟩
  delivery := ⟨by decide, by decide, by decide, by decide, List.nil_suffix, List.nil_suffix⟩

theorem witness_DerrIsStickyUntilCleared :
    Inv quietExpanding ∧ step quietExpanding = .next (stepped quietExpanding) ∧ quietExpanding.derr = false ∧
    (stepped quietExpanding).derr = true ∧ Inv quietHalted ∧ step quietHalted = .next (stepped quietHalted) ∧
    quietHalted.derr = true :=
  ⟨quietExpanding_inv, rfl, rfl, by decide, quietHalted_inv, rfl, rfl⟩
theorem witness_StepKeepsTheInvariant :
    Inv quietExpanding ∧ step quietExpanding = .next (stepped quietExpanding) := ⟨quietExpanding_inv, rfl⟩
theorem witness_HalvesShareNothing :
    encHalf threeBits = encHalf { threeBits with derr := true } ∧ isEncoderCommand (.eFlush 0 0) = true ∧
    (∃ t, exec (.eFlush 0 0) threeBits = .next t) ∧
    decHalf midByte = decHalf { midByte with bwAcc := 0xA0 } ∧ isDecoderInstr (.dRbits 4 0) = true ∧
    (∃ t, exec (.dRbits 4 0) midByte = .next t) ∧ isDecoderInstr (.runT1 3) = true ∧
    (∃ t, exec (.runT1 3) quietExpanding = .next t) ∧ ∃ t, exec (.rdsr 0 3) midByte = .next t :=
  ⟨rfl, rfl, ⟨_, rfl⟩, rfl, rfl, ⟨_, rfl⟩, rfl, ⟨_, rfl⟩, ⟨_, rfl⟩⟩
theorem witness_StepRunsWhatItFetches :
    turn { quiet with hCmd := [0x18000000000] } = .block (portBeats { quiet with hCmd := [0x18000000000] }) ∧
    (portBeats { quiet with hCmd := [0x18000000000] }).hCmd = 0x18000000000 :: [] ∧
    turn quietExpanding = .block (portBeats quietExpanding) ∧ fetch (portBeats quietExpanding) = .ok .illegalTag11 ∧
    (portBeats quietExpanding).cxN.toNat < (portBeats quietExpanding).cxLen.toNat :=
  ⟨rfl, rfl, rfl, rfl, by decide⟩
theorem witness_StepRunsWhatItFetches_host :
    ({ quiet with hScript := [.letBlockMove] } : State).hScript = .letBlockMove :: [] ∧
    ({ quiet with hScript := [.assertReset] } : State).hScript = .assertReset :: [] ∧
    HostAct.assertReset ≠ .letBlockMove ∧ ∃ u, turn { quiet with hScript := [.assertReset] } = .host u :=
  ⟨rfl, rfl, by decide, _, rfl⟩

theorem witness_OneCommandOneResponse :
    Inv quietHalted ∧ step quietHalted = .next (stepped quietHalted) ∧ ¬ ResetNext quietHalted ∧
    quietHalted.seqBusy = false ∧ (stepped quietHalted).seqBusy = true ∧
    quietExpanding.seqBusy = true ∧ ¬ ResetNext quietExpanding :=
  ⟨quietHalted_inv, rfl, by unfold ResetNext; decide, rfl, by decide, rfl, by unfold ResetNext; decide⟩
theorem witness_ClosedInputStaysClosed :
    step { quietExpanding with brClosed := true, hSin := [7] } =
      .next (stepped { quietExpanding with brClosed := true, hSin := [7] }) ∧
    turn { quiet with hEos := true } = .block (portBeats { quiet with hEos := true }) ∧
    ({ quiet with hEos := true } : State).hSin = [] := ⟨rfl, rfl, rfl⟩
theorem witness_ClosedInputStaysClosed_closing :
    step { quiet with hScript := [.driveEos true] } = .next (stepped { quiet with hScript := [.driveEos true] }) ∧
    (stepped { quiet with hScript := [.driveEos true] }).brClosed = true ∧
    (stepped { quiet with hScript := [.driveEos true], hSin := [7] }).brClosed = false := ⟨rfl, rfl, rfl⟩

theorem witness_ClosedInputStaysClosed_open :
    turn { quiet with hSin := [7, 8] } = .block (portBeats { quiet with hSin := [7, 8] }) ∧
    ({ quiet with hSin := [7, 8] } : State).hSin = 7 :: [8] ∧ ({ quiet with hSin := [7, 8] } : State).brClosed = false ∧
    turn { quiet with brClosed := true } = .block (portBeats { quiet with brClosed := true }) ∧
    State.reset.hSin = [] := ⟨rfl, rfl, rfl, rfl, rfl⟩

theorem witness_FetchPointerNeverGoesBack :
    Inv quietExpanding ∧ step quietExpanding = .next (stepped quietExpanding) ∧ bitPos (stepped quietExpanding) = 2 ∧
    AcceptsNext quietHalted clearDecoderWord :=
  ⟨quietExpanding_inv, rfl, by decide, rfl, rfl, rfl, .inl rfl⟩
theorem witness_OutputsOnlyGrow : step quietExpanding = .next (stepped quietExpanding) := rfl
theorem witness_OutputsOnlyGrow_taken :
    turn { quiet with sout := [7], hSoutReady := true, pout := [8, 9], poutTaken := 1, hPoutReady := true } =
      .block (portBeats { quiet with sout := [7], hSoutReady := true, pout := [8, 9], poutTaken := 1, hPoutReady := true }) ∧
    ([7] : List Byte)[0]? = some 7 ∧ ([8, 9] : List Byte)[1]? = some 9 ∧
    turn quiet = .block (portBeats quiet) ∧ quiet.hSoutReady = false ∧ quiet.hPoutReady = false :=
  ⟨rfl, rfl, rfl, rfl, rfl, rfl⟩

end Sys2Proof.Tests
end

section
/-! What the encoder half does in one move of the sequencer: the frame, the growth of `SOUT`, and the parts of the
invariant that speak of the half (10_state.md R22 to R27). -/

namespace Sys2Proof.Machine

/-- 10_state.md R26, R27: the scan position and the bytes accepted stay within the plane. -/
def WithinPlane (s : State) : Prop := s.ccI.toNat ≤ s.ccLen.toNat ∧ s.pin.length ≤ s.ccLen.toNat

/-- A move of an E_ command that leads from `s` to `t` and does not end with the response: only the encoder half has
changed, and it has kept its invariant. -/
structure EncoderMove (s t : State) : Prop where
  frame : OnlyEncoder s t
  grows : s.sout <+: t.sout
  writer : WriterInv s → WriterInv t
  within : WithinPlane s → WithinPlane t
  owing : mayOweSout t.activity = true

theorem EncoderMove.active {s t : State} (h : EncoderMove s t) : t.activity ≠ .idle := fun hidle => by
  have ho := h.owing
  rw [hidle] at ho
  cases ho

/-- What the bit writer's operations do: append to `SOUT`, keep the unfilled positions 0, and nothing else (R131 to
R136). -/
structure Wrote (s u : State) : Prop where
  only : OnlyWriter s u
  grows : s.sout <+: u.sout
  writer : WriterInv s → WriterInv u

theorem writeBits_wrote (v : Arg) (c : Nat) (s : State) : Wrote s (writeBits v c s) :=
  ⟨writeBits_only v c s, writeBits_sout v c s, fun h => (writeBits_writer v c h).1⟩

theorem flush_wrote (s : State) : Wrote s (flush s) :=
  ⟨flush_only s, flush_sout s, fun h => (flush_writer h).1⟩

theorem encodeCount_wrote {n : Arg} (hn : n.toNat ≤ Config.countMax) (s : State) : Wrote s (encodeCount n s) :=
  ⟨encodeCount_only n s, encodeCount_sout n s, fun h => (encodeCount_writer h hn).1⟩

theorem emitRun_wrote {n : Arg} (hn : n.toNat ≤ Config.countMax) (s : State) : Wrote s (emitRun n s) :=
  ⟨emitRun_only n s, emitRun_sout n s, fun h => (emitRun_writer h hn).1⟩

theorem emitLit_wrote (b : Arg) (s : State) : Wrote s (emitLit b s) :=
  ⟨emitLit_only b s, emitLit_sout b s, fun h => (emitLit_writer h b).1⟩

theorem EncoderMove.refl {s : State} (ha : mayOweSout s.activity = true) : EncoderMove s s :=
  ⟨rfl, List.prefix_rfl, id, id, ha⟩

theorem OnlyEncoder.trans {s t u : State} (h : OnlyEncoder s t) (h' : OnlyEncoder t u) : OnlyEncoder s u := by
  unfold OnlyEncoder at *
  rw [h] at h'
  exact h'

theorem EncoderMove.trans {s t u : State} (h : EncoderMove s t) (h' : EncoderMove t u) : EncoderMove s u where
  frame := h.frame.trans h'.frame
  grows := h.grows.trans h'.grows
  writer := h'.writer ∘ h.writer
  within := h'.within ∘ h.within
  owing := h'.owing

/-- Writing, then waiting for `SOUT` to be taken, is a move of the encoder half. -/
theorem Wrote.respondAfterSout {s u : State} (h : Wrote s u) (st : Status) (val : Arg) :
    EncoderMove s (respondAfterSout st val u) where
  frame := by rw [h.only]; rfl
  grows := h.grows
  writer hw := ⟨(h.writer hw).unfilled_zero⟩
  within hs := by rw [h.only]; exact hs
  owing := rfl

/-- Writing in a running E_PLANE and moving the scan position within the plane is a move of the encoder half. -/
theorem Wrote.scanned {s u : State} (h : Wrote s u) (ha : s.activity = .ePlane) {i : BitVec 32}
    (hi : i.toNat ≤ s.ccLen.toNat) : EncoderMove s { u with ccI := i } where
  frame := by rw [h.only]; rfl
  grows := h.grows
  writer hw := ⟨(h.writer hw).unfilled_zero⟩
  within hs := by rw [h.only]; exact ⟨hi, hs.2⟩
  owing := by rw [h.only]; simp [ha, mayOweSout]

/-! ### The compressor -/

section compressor
variable {s t : State} (ha : s.activity = .ePlane)
include ha

theorem acceptPin_move (h : acceptPin s = some t) : EncoderMove s t := by
  obtain ⟨b, -, hlt, ht⟩ := acceptPin_some h
  rw [ht]
  refine ⟨rfl, List.prefix_rfl, fun hw => ⟨hw.unfilled_zero⟩, fun hs => ⟨hs.1, ?_⟩, by rw [ha]; rfl⟩
  simpa using hlt

theorem compressSeed_move (hi : s.ccI.toNat < s.ccLen.toNat) (h : compressSeed s = some t) : EncoderMove s t := by
  unfold compressSeed at h
  split at h
  · exact acceptPin_move ha h
  next b hb =>
    rw [← Option.some.inj h]
    exact (writeBits_wrote (b.setWidth 32) Config.sampleW s).scanned ha (by bv_omega)

theorem compressLiteral_move (hi : s.ccI.toNat < s.ccLen.toNat) (h : compressLiteral s = some t) :
    EncoderMove s t := by
  unfold compressLiteral at h
  split at h
  · exact acceptPin_move ha h
  next b hb =>
    rw [← Option.some.inj h]
    exact (emitLit_wrote (b.setWidth 32) s).scanned ha (by bv_omega)

omit ha in
/-- `detect_run` looks no further than the end of the plane and the cap (R213). -/
theorem detectRun_le {run : Nat} (h : detectRun s = some run) :
    run ≤ s.ccLen.toNat - s.ccI.toNat ∧ run ≤ Config.countMax := by
  unfold detectRun at h
  split at h
  · cases h
  · obtain ⟨hcap, -⟩ := countEqual_some h
    exact ⟨hcap.trans (Nat.min_le_left _ _), hcap.trans (Nat.min_le_right _ _)⟩

theorem compressScan_move (hi : s.ccI.toNat < s.ccLen.toNat) (h : compressScan s = some t) : EncoderMove s t := by
  unfold compressScan at h
  split at h
  · exact acceptPin_move ha h
  next run hrun =>
    obtain ⟨hend, hcap⟩ := detectRun_le hrun
    have hmax : Config.countMax = 65535 := rfl
    have hn : (BitVec.ofNat 32 run).toNat = run := by simp; omega
    split_ifs at h
    · cases h
      refine (emitRun_wrote (by omega) s).scanned ha ?_
      rw [BitVec.toNat_add, hn]
      omega
    · exact compressLiteral_move ha hi h

end compressor

/-- Everything one move of a running E_PLANE can do (R216, R217). -/
theorem compressStep_move {s t : State} (h : compressStep s = some t) : EncoderMove s t := by
  unfold compressStep at h
  split_ifs at h with ha hi hseed
  · exact compressSeed_move (not_not.mp ha) hi h
  · exact compressScan_move (not_not.mp ha) hi h
  · cases h
    exact (flush_wrote s).respondAfterSout .ok 0

theorem compressMoves_move (fuel : Nat) {s : State} (ha : mayOweSout s.activity = true) :
    EncoderMove s (compressMoves fuel s) := by
  induction fuel generalizing s with
  | zero => exact .refl ha
  | succ fuel ih =>
    unfold compressMoves
    split
    · exact .refl ha
    next t ht => exact (compressStep_move ht).trans (ih (compressStep_move ht).owing)

/-- `encode_plane` from its start on (R217, R218). -/
theorem startEncode_move (fuel : Nat) (len : Arg) (s : State) :
    EncoderMove s (compressMoves fuel (startEncode len s)) :=
  have start : EncoderMove s (startEncode len s) :=
    ⟨rfl, List.prefix_rfl, fun h => ⟨h.unfilled_zero⟩, fun _ => ⟨by simp, by simp⟩, rfl⟩
  start.trans (compressMoves_move fuel rfl)

end Sys2Proof.Machine
end

section
/-! What the decoder half does in one move of the sequencer: the frame, the growth of `POUT`, the fetch pointer, the
fault entry, and the parts of the invariant that speak of the half (10_state.md R28 to R37). -/

namespace Sys2Proof.Machine

/-! ### Where a read stands -/

/-- The invariant of the place a D_ command stands at: no reading command runs while the half is halted
(60_exceptions.md R263), and a D_PLANE stands inside a token only after its seeds and within its plane (10_state.md
R33, log entry 5). -/
structure PlaceInv (s : State) : Prop where
  not_halted : readsInput s.activity = true → s.derr = false
  boundary : readsFields s.activity = false → s.tokAt = .tag
  inside : s.activity = .dPlane → s.tokAt ≠ .tag →
    Config.seedMax ≤ s.cxN.toNat ∧ s.cxN.toNat < s.cxLen.toNat
  made_le : s.cxN.toNat ≤ s.cxLen.toNat

theorem Inv.place {s : State} (h : Inv s) : PlaceInv s :=
  ⟨h.sequencer.not_halted, h.sequencer.boundary, h.sequencer.inside, h.plane.made_le⟩

/-- At a token boundary, with no reading command running or with the half not halted, the place is as it must be. -/
theorem PlaceInv.of_tag {s : State} (hh : readsInput s.activity = true → s.derr = false) (ht : s.tokAt = .tag)
    (hm : s.cxN.toNat ≤ s.cxLen.toNat) : PlaceInv s :=
  ⟨hh, fun _ => ht, fun _ hne => absurd ht hne, hm⟩

/-- `t` has taken a fault (60_exceptions.md R268). -/
def TookFault (t : State) : Prop :=
  t.derr = true ∧
    ∃ st info, isFaultStatus st = true ∧ t.activity = .drainPout st info ∧ t.dcode = statusCode st

/-- A move of a D_ command that leads from `s` to `t`: only the decoder half has changed, without `SIN` and
`BR.closed`; `POUT` and the fetch pointer have only grown; `DERR` and `DCODE` are as they were or a fault has been
taken; and the invariants of the half are kept. -/
structure DecoderMove (s t : State) : Prop where
  frame : OnlyDecoder s t
  active : t.activity ≠ .idle
  grows : s.pout <+: t.pout
  owed : mayOwePout t.activity = false → mayOwePout s.activity = false ∧ t.pout = s.pout
  reader : ReaderInv s → ReaderInv t ∧ bitPos s ≤ bitPos t
  fault : (t.derr = s.derr ∧ t.dcode = s.dcode) ∨ TookFault t
  place : PlaceInv s → PlaceInv t

theorem OnlyDecoder.trans {s t u : State} (h : OnlyDecoder s t) (h' : OnlyDecoder t u) : OnlyDecoder s u := by
  unfold OnlyDecoder at *
  rw [h] at h'
  exact h'

theorem DecoderMove.refl {s : State} (ha : s.activity ≠ .idle) : DecoderMove s s :=
  ⟨rfl, ha, List.prefix_rfl, fun h => ⟨h, rfl⟩, fun h => ⟨h, le_rfl⟩, .inl ⟨rfl, rfl⟩, id⟩

/-- Moves of a D_PLANE that goes on compose. -/
theorem DecoderMove.trans {s t u : State} (h : DecoderMove s t) (ha : t.activity = .dPlane)
    (h' : DecoderMove t u) : DecoderMove s u where
  frame := h.frame.trans h'.frame
  active := h'.active
  grows := h.grows.trans h'.grows
  owed hu := by
    obtain ⟨ht, -⟩ := h'.owed hu
    rw [ha] at ht
    cases ht
  reader hr := by
    obtain ⟨ht, hst⟩ := h.reader hr
    obtain ⟨hu, htu⟩ := h'.reader ht
    exact ⟨hu, hst.trans htu⟩
  fault := by
    rcases h.fault with ⟨hd, hc⟩ | ⟨-, st, info, -, hdrain, -⟩
    · rw [← hd, ← hc]
      exact h'.fault
    · rw [ha] at hdrain
      cases hdrain
  place := h'.place ∘ h.place

/-! ### What the reader has done before the move ends -/

/-- From `s` to `u` only the reader has moved: its registers and the field it stands at. -/
structure ReaderMove (s u : State) : Prop where
  frame : u = { s with brIdx := u.brIdx, brCur := u.brCur, brLeft := u.brLeft, tokAt := u.tokAt }
  reader : ReaderInv s → ReaderInv u ∧ bitPos s ≤ bitPos u

theorem Took.readerMove {k : Nat} {s u : State} (h : Took k s u) : ReaderMove s u where
  frame := h.frame
  reader hr := by
    obtain ⟨hu, hpos⟩ := h.reader hr
    exact ⟨hu, by omega⟩

/-- `align` discards what is left of the current byte (41_bit_reader.md R155). -/
theorem align_readerMove (s : State) : ReaderMove s (align s) where
  frame := rfl
  reader hr := by
    refine ⟨⟨hr.idx_le, fun h => ⟨rfl, (hr.fresh h).2⟩, hr.cur_eq⟩, ?_⟩
    show 8 * s.brIdx - s.brLeft.toNat ≤ 8 * s.brIdx - 0
    omega

section ends
variable {s u : State} (h : ReaderMove s u)
include h

theorem ReaderMove.activity : u.activity = s.activity := by rw [h.frame]
theorem ReaderMove.pout : u.pout = s.pout := by rw [h.frame]
theorem ReaderMove.derr : u.derr = s.derr := by rw [h.frame]
theorem ReaderMove.dcode : u.dcode = s.dcode := by rw [h.frame]
theorem ReaderMove.cxN : u.cxN = s.cxN := by rw [h.frame]
theorem ReaderMove.cxLen : u.cxLen = s.cxLen := by rw [h.frame]

theorem ReaderMove.only : OnlyDecoder s u := by
  unfold OnlyDecoder
  exact h.frame.trans (by rw [h.frame])

/-- The invariant and the position speak of the reader's registers only. -/
theorem ReaderMove.reader_of {t : State} (ht : readerPart t = readerPart u) :
    ReaderInv s → ReaderInv t ∧ bitPos s ≤ bitPos t := fun hr => by
  obtain ⟨⟨hle, hfresh, hcur⟩, hpos⟩ := h.reader hr
  simp only [readerPart, Prod.mk.injEq] at ht
  obtain ⟨hsin, hidx, hc, hleft, -⟩ := ht
  rw [← hidx, ← hsin] at hle
  rw [← hidx, ← hleft, ← hc] at hfresh
  rw [← hidx, ← hsin, ← hc] at hcur
  rw [bitPos, bitPos, ← hidx, ← hleft] at hpos
  exact ⟨⟨hle, hfresh, hcur⟩, hpos⟩

/-- A read that waits. -/
theorem ReaderMove.waits (ha : s.activity ≠ .idle) (hp : PlaceInv s → PlaceInv u) : DecoderMove s u where
  frame := h.only
  active := h.activity ▸ ha
  grows := by rw [h.pout]
  owed hu := ⟨h.activity ▸ hu, h.pout⟩
  reader := h.reader
  fault := .inl ⟨h.derr, h.dcode⟩
  place := hp

/-- A read that ends in a fault. -/
theorem ReaderMove.faults {st : Status} (hf : isFaultStatus st = true) (info : Arg) :
    DecoderMove s (faultEntry st info u) where
  frame := h.only.trans rfl
  active := by simp
  grows := by simp [h.pout]
  owed hu := by cases hu
  reader := h.reader_of rfl
  fault := .inr ⟨rfl, st, info, hf, rfl, rfl⟩
  place hs := .of_tag nofun rfl (by simpa [h.cxN, h.cxLen] using hs.made_le)

/-- A command that responds at once after its reads. -/
theorem ReaderMove.responds (ha : mayOwePout s.activity = false) {f : TokField} (ht : PlaceInv s → f = .tag)
    (st : Status) (val : Arg) : DecoderMove s (respond st val { u with tokAt := f }) where
  frame := h.only.trans rfl
  active := by simp
  grows := by simp [h.pout]
  owed _ := ⟨ha, h.pout⟩
  reader := h.reader_of rfl
  fault := .inl ⟨h.derr, h.dcode⟩
  place hs := .of_tag nofun (ht hs) (by simpa [h.cxN, h.cxLen] using hs.made_le)

/-- A D_PLANE that ends: its response follows when `POUT` has been taken. -/
theorem ReaderMove.drains (ht : PlaceInv s → u.tokAt = .tag) (st : Status) (val : Arg) :
    DecoderMove s (respondAfterPout st val u) where
  frame := h.only.trans rfl
  active := by simp
  grows := by simp [h.pout]
  owed hu := by cases hu
  reader := h.reader_of rfl
  fault := .inl ⟨h.derr, h.dcode⟩
  place hs := .of_tag nofun (ht hs) (by simpa [h.cxN, h.cxLen] using hs.made_le)

/-- A D_PLANE that has read a seed or token puts out the bytes it stands for. -/
theorem ReaderMove.emits (ha : s.activity = .dPlane) (ht : PlaceInv s → u.tokAt = .tag) (bytes : List Byte)
    (last : Byte) {n : BitVec 32} (hn : n.toNat ≤ s.cxLen.toNat) :
    DecoderMove s { u with pout := u.pout ++ bytes, cxLast := last, cxN := n } where
  frame := h.only.trans rfl
  active := by show u.activity ≠ _; rw [h.activity, ha]; nofun
  grows := by rw [h.pout]; exact List.prefix_append _ _
  owed hu := by
    change mayOwePout u.activity = false at hu
    rw [h.activity, ha] at hu
    cases hu
  reader := h.reader_of rfl
  fault := .inl ⟨h.derr, h.dcode⟩
  place hs :=
    .of_tag (fun _ => h.derr.trans (hs.not_halted (by rw [ha]; rfl))) (ht hs)
      (by show n.toNat ≤ u.cxLen.toNat; rw [h.cxLen]; exact hn)

end ends

/-- A wait moves nothing but the reader, so the place is kept if the mark of the field is not moved, or a command that
reads fields stands at it. -/
theorem ReaderMove.place {s u : State} (h : ReaderMove s u) (hs : PlaceInv s)
    (hb : readsFields s.activity = false → u.tokAt = s.tokAt)
    (hi : s.activity = .dPlane → u.tokAt ≠ .tag → Config.seedMax ≤ s.cxN.toNat ∧ s.cxN.toNat < s.cxLen.toNat) :
    PlaceInv u where
  not_halted := by rw [h.activity, h.derr]; exact hs.not_halted
  boundary := by rw [h.activity]; exact fun hr => (hb hr).trans (hs.boundary hr)
  inside := by rw [h.activity, h.cxN, h.cxLen]; exact hi
  made_le := by rw [h.cxN, h.cxLen]; exact hs.made_le

/-! ### How the reads of a command end -/

/-- Everything a command can do with what it has read (R254, R268). -/
theorem toOutcome_next {α : Type} {s t : State} {r : Read α} {k : α → State → Host.Outcome State Fault Refusal}
    (hr : r.From s) (h : r.toOutcome k = .next t) :
    (∃ a u, r = .done a u ∧ ReaderMove s u ∧ k a u = .next t) ∨ (r = .waits t ∧ ReaderMove s t) ∨
      ∃ st info u, ReaderMove s u ∧ isFaultStatus st = true ∧ t = faultEntry st info u := by
  cases r with
  | done a u =>
    obtain ⟨n, hn⟩ := hr
    exact .inl ⟨a, u, rfl, hn.readerMove, h⟩
  | waits u =>
    obtain ⟨⟨n, hn⟩, -⟩ := hr
    cases h
    exact .inr (.inl ⟨rfl, hn.readerMove⟩)
  | raises st info u =>
    obtain ⟨⟨n, hn⟩, hf⟩ := hr
    cases h
    exact .inr (.inr ⟨st, info, u, hn.readerMove, hf, rfl⟩)
  | pastEnd => exact hr.elim

/-- A read that is done and goes on in the same command. -/
theorem toOutcome_move {α : Type} {s t : State} {r : Read α} {k : α → State → Host.Outcome State Fault Refusal}
    (hr : r.From s) (ha : s.activity ≠ .idle) (h : r.toOutcome k = .next t)
    (hwait : r = .waits t → ReaderMove s t → PlaceInv s → PlaceInv t)
    (hdone : ∀ a u, r = .done a u → ReaderMove s u → k a u = .next t → DecoderMove s t) : DecoderMove s t := by
  rcases toOutcome_next hr h with ⟨a, u, hru, hu, hk⟩ | ⟨hrt, ht⟩ | ⟨st, info, u, hu, hf, rfl⟩
  · exact hdone a u hru hu hk
  · exact ht.waits ha (hwait hrt ht)
  · exact hu.faults hf info

/-- `read_bits` does not move the mark of the field. -/
theorem readField_tokAt {c : Nat} {s t : State} (h : readField c s = .waits t ∨ ∃ v, readField c s = .done v t) :
    t.tokAt = s.tokAt := by
  by_cases hc : c ≤ (toRead s).length
  · obtain ⟨u, hu, -, htok⟩ := readField_enough hc
    rw [hu] at h
    rcases h with h | ⟨v, h⟩ <;> cases h
    exact htok
  · rw [readField_short (by omega)] at h
    cases hcl : s.brClosed <;> rw [hcl] at h <;> rcases h with h | ⟨v, h⟩ <;> cases h
    rfl

/-- After a token the reader is at a token boundary. -/
theorem consumeToken_tokAt {fs : List TokField} {s u : State} (h : consumeToken fs s = .done () u) :
    u.tokAt = .tag := by
  unfold consumeToken at h
  cases hr : readFields (fs.dropWhile (· != s.tokAt)) s <;> rw [hr] at h <;> cases h
  rfl

/-! ### D_RBITS, D_COUNT, D_TOKEN from where they stand -/

theorem runRbits_move {cnt : Cnt} {s t : State} (ha : s.activity = .dRbits cnt) (h : runRbits cnt s = .next t) :
    DecoderMove s t := by
  refine toOutcome_move (readField_from _ s) (by rw [ha]; nofun) h (fun hw hr hs => ?_) fun v u hv hu hk => ?_
  · exact hr.place hs (fun _ => readField_tokAt (.inl hw)) (by rw [ha]; nofun)
  · cases hk
    exact hu.responds (by rw [ha]; rfl)
      (fun hs => (readField_tokAt (.inr ⟨v, hv⟩)).trans (hs.boundary (by rw [ha]; rfl))) .ok _

theorem runCount_move {s t : State} (ha : s.activity = .dCount) (h : runCount s = .next t) : DecoderMove s t := by
  refine toOutcome_move (resumeCount_from s) (by rw [ha]; nofun) h (fun hw hr hs => ?_) fun v u _ hu hk => ?_
  · exact hr.place hs (by rw [ha]; nofun) (by rw [ha]; nofun)
  · cases hk
    exact hu.responds (by rw [ha]; rfl) (fun _ => rfl) .ok _

theorem runToken_move {s t : State} (ha : s.activity = .dToken) (h : runToken s = .next t) : DecoderMove s t := by
  refine toOutcome_move (resumeToken_from s) (by rw [ha]; nofun) h (fun hw hr hs => ?_) fun v u _ hu hk => ?_
  · exact hr.place hs (by rw [ha]; nofun) (by rw [ha]; nofun)
  · cases hk
    exact hu.responds (by rw [ha]; rfl) (fun _ => rfl) .ok _

end Sys2Proof.Machine
end

section
/-! One move of a running D_PLANE: a seed, a token, an illegal encoding, a field that is not there, or the closing align
(45_channel_decoder.md R233 to R236). -/

namespace Sys2Proof.Machine

/-- A count that fits in what is left does not wrap around. -/
theorem toNat_add_le_len {n len : BitVec 32} {k : Nat} (h : k ≤ len.toNat - n.toNat) (hn : n.toNat ≤ len.toNat) :
    (n + BitVec.ofNat 32 k).toNat ≤ len.toNat := by
  have := len.isLt
  rw [BitVec.toNat_add, BitVec.toNat_ofNat]
  omega

section running
variable {s t : State} (ha : s.activity = .dPlane) (hlt : s.cxN.toNat < s.cxLen.toNat)
include ha

/-- A seed that is read, or the wait for its bits: the reader is at a token boundary before and after (R233). -/
theorem seedRead_move {k : Nat → State → Host.Outcome State Fault Refusal} (hseed : atSeed s = true)
    (h : (readField Config.sampleW s).toOutcome k = .next t)
    (hk : ∀ v u, (PlaceInv s → u.tokAt = .tag) → ReaderMove s u → k v u = .next t → DecoderMove s t) :
    DecoderMove s t := by
  have htag : PlaceInv s → s.tokAt = .tag := fun hs => by
    by_contra hne
    obtain ⟨hge, -⟩ := hs.inside ha hne
    simp only [atSeed, decide_eq_true_eq] at hseed
    omega
  refine toOutcome_move (readField_from _ s) (by rw [ha]; nofun) h (fun hw hr hs => ?_) fun v u hv hu => ?_
  · exact hr.place hs (by rw [ha]; nofun)
      fun _ hne => absurd ((readField_tokAt (.inl hw)).trans (htag hs)) hne
  · exact hk v u (fun hs => (readField_tokAt (.inr ⟨v, hv⟩)).trans (htag hs)) hu

include hlt

/-- A token that is read, or the wait for its next field: it stands after the seeds (R195, R234). -/
theorem tokenRead_move {fields : List TokField} {k : Unit → State → Host.Outcome State Fault Refusal}
    (hseed : atSeed s = false) (h : (consumeToken fields s).toOutcome k = .next t)
    (hk : ∀ u, u.tokAt = .tag → ReaderMove s u → k () u = .next t → DecoderMove s t) : DecoderMove s t := by
  refine toOutcome_move (consumeToken_from fields s) (by rw [ha]; nofun) h (fun _ hr hs => ?_) fun _ u hv hu => ?_
  · refine hr.place hs (by rw [ha]; nofun) fun _ _ => ⟨?_, hlt⟩
    simpa only [atSeed, decide_eq_false_iff_not, not_lt] using hseed
  · exact hk u (consumeToken_tokAt hv) hu

theorem execSeed_move {b : Byte} (hseed : atSeed s = true) (h : execSeed b s = .next t) : DecoderMove s t :=
  seedRead_move ha hseed h fun _ u htag hu hk => by
    cases hk
    exact hu.emits ha htag [b] b (hu.cxN ▸ toNat_add_le_len (k := 1) (by omega) hlt.le)

theorem execLit_move {b : Byte} (hseed : atSeed s = false) (h : execLit b s = .next t) : DecoderMove s t :=
  tokenRead_move ha hlt hseed h fun u htag hu hk => by
    cases hk
    exact hu.emits ha (fun _ => htag) [b] b (hu.cxN ▸ toNat_add_le_len (k := 1) (by omega) hlt.le)

/-- A run is put out whole if it fits, else it faults and nothing is put out (R207, R267). -/
theorem runOf_move {fields : List TokField} {count : Nat} (hseed : atSeed s = false)
    (h : runOf fields count s = .next t) : DecoderMove s t :=
  tokenRead_move ha hlt hseed h fun u htag hu hk => by
    split_ifs at hk with hrem
    · cases hk
      exact hu.faults rfl _
    · cases hk
      rw [emitLast_eq]
      refine hu.emits ha (fun _ => htag) _ u.cxLast ?_
      rw [remaining, hu.cxN, hu.cxLen] at hrem
      exact hu.cxN ▸ toNat_add_le_len (by omega) hlt.le

/-- An illegal encoding is consumed and faults (R265, R266). -/
theorem illegal_move {fields : List TokField} {st : Status} {info : Arg} (hf : isFaultStatus st = true)
    (hseed : atSeed s = false)
    (h : ((consumeToken fields s).toOutcome fun _ u => .next (faultEntry st info u)) = .next t) : DecoderMove s t :=
  tokenRead_move ha hlt hseed h fun u _ hu hk => by
    cases hk
    exact hu.faults hf info

/-- What a running D_PLANE fetches after the seeds is a token or an illegal encoding. -/
theorem execToken_move {i : Instr} (hseed : atSeed s = false) (hi : i.isWire = true) (hns : ∀ b, i ≠ .seed b)
    (h : execWire i s = .next t) : DecoderMove s t := by
  cases i with
  | seed b => exact absurd rfl (hns b)
  | lit b => exact execLit_move ha hlt hseed h
  | runT1 c => exact runOf_move ha hlt hseed h
  | runT2 c => exact runOf_move ha hlt hseed h
  | runT3 c => exact runOf_move ha hlt hseed h
  | runT4 c => exact runOf_move ha hlt hseed h
  | illegalTag00 => exact illegal_move ha hlt rfl hseed h
  | illegalTag11 => exact illegal_move ha hlt rfl hseed h
  | illegalZeroCount => exact illegal_move ha hlt rfl hseed h
  | _ => cases hi

/-- A seed or token whose bits have not all arrived (R154). -/
theorem fetchShort_move {r : Reject} (hr : r = .shortSeed ↔ atSeed s = true) (h : fetchShort r s = .next t) :
    DecoderMove s t := by
  have token : ∀ {fields : List TokField}, atSeed s = false →
      ((consumeToken fields s).toOutcome fun _ u => .next u) = .next t → DecoderMove s t :=
    fun hseed h => tokenRead_move ha hlt hseed h fun u htag hu hk => by
      cases hk
      exact hu.waits (by rw [ha]; nofun) fun hs =>
        hu.place hs (by rw [ha]; nofun) fun _ hne => absurd htag hne
  have hns : r ≠ .shortSeed → atSeed s = false := fun hne => by simpa using mt hr.mpr hne
  cases r with
  | shortSeed =>
    exact seedRead_move ha (hr.mp rfl) h fun _ u htag hu hk => by
      cases hk
      exact hu.waits (by rw [ha]; nofun) fun hs =>
        hu.place hs (by rw [ha]; nofun) fun _ hne => absurd (htag hs) hne
  | wideCommand => cases h
  | shortTag => exact token (hns nofun) h
  | shortSample => exact token (hns nofun) h
  | shortCount2 => exact token (hns nofun) h
  | shortCount4 => exact token (hns nofun) h
  | shortCount8 => exact token (hns nofun) h
  | shortCount16 => exact token (hns nofun) h

end running

/-- At a seed position the fetch finds a seed, or its bits are not all there (R233). -/
theorem decodeSeed_cases (bits : List Bool) :
    (∃ b, decodeSeed bits = .ok (.seed b)) ∨ decodeSeed bits = .error .shortSeed := by
  unfold decodeSeed
  split
  · exact .inr rfl
  · exact .inl ⟨_, rfl⟩

/-- Everything one move of a running D_PLANE can do (R234, R236). -/
theorem expandWith_move {s t : State} (ha : s.activity = .dPlane) (h : expandWith execWire s = .next t) :
    DecoderMove s t := by
  unfold expandWith at h
  split_ifs at h with hlt
  · cases hseed : atSeed s with
    | true =>
      rw [fetch, if_pos hseed] at h
      rcases decodeSeed_cases (unread s) with ⟨b, hb⟩ | hb <;> rw [hb] at h
      · exact execSeed_move ha hlt hseed h
      · exact fetchShort_move ha hlt (by simp [hseed]) h
    | false =>
      rw [fetch, if_neg (by simp [hseed])] at h
      split at h
      next i hi => exact execToken_move ha hlt hseed (decodeToken_wire hi).1 (decodeToken_wire hi).2 h
      next r hr => exact fetchShort_move ha hlt (by simp [hseed, (decodeToken_short hr).1]) h
  · cases h
    refine (align_readerMove s).drains (fun hs => ?_) .ok 0
    by_contra hne
    exact hlt (hs.inside ha hne).2

theorem expandMoves_move (fuel : Nat) {s t : State} (ha : s.activity = .dPlane)
    (h : expandMoves fuel s = .next t) : DecoderMove s t := by
  induction fuel generalizing s with
  | zero =>
    cases h
    exact .refl (by rw [ha]; nofun)
  | succ fuel ih =>
    unfold expandMoves at h
    split at h
    next u hu =>
      have hm := expandWith_move ha hu
      split_ifs at h with hgo
      · exact hm.trans hgo.1 (ih hgo.1 h)
      · cases h
        exact hm
    all_goals cases h

end Sys2Proof.Machine
end

section
/-! What a command can do from acceptance on, and what one move of the sequencer can do: the inversion lemmas from which
the invariants of a step follow (46_system_commands.md R250 to R254). -/

namespace Sys2Proof

theorem commandWord_fields (word : CmdWord) : commandWord (opOf word) (cntOf word) (argOf word) = word := by
  apply BitVec.eq_of_getLsbD_eq
  intro i hi
  simp only [commandWord, opOf, cntOf, argOf, BitVec.getLsbD_append, BitVec.getLsbD_extractLsb']
  grind

/-- A command word holds what it decodes to (30_encoding.md R100, R101). -/
theorem encode_decodeCommand (word : CmdWord) : encode (decodeCommand word) = .command word := by
  conv_rhs => rw [← commandWord_fields word]
  unfold decodeCommand
  generalize opOf word = op, cntOf word = cnt, argOf word = arg
  obtain ⟨n, hn⟩ := op
  interval_cases n <;> rfl

theorem decodeCommand_not_wire (word : CmdWord) : (decodeCommand word).isWire = false := by
  unfold decodeCommand
  dsimp only
  split <;> rfl

end Sys2Proof

namespace Sys2Proof.Machine

/-! ### The D_ commands from an idle sequencer -/

section commands
variable {s t : State} (ha : s.activity = .idle)
include ha

/-- A D_ command starts from an idle sequencer: what it does from its start on, it does from there. -/
theorem DecoderMove.started (a : Activity) (f : TokField) (len n : BitVec 32)
    (hp : PlaceInv s → PlaceInv { s with activity := a, tokAt := f, cxLen := len, cxN := n })
    (h : DecoderMove { s with activity := a, tokAt := f, cxLen := len, cxN := n } t) : DecoderMove s t where
  frame := h.frame
  active := h.active
  grows := h.grows
  owed ht := ⟨by rw [ha]; rfl, (h.owed ht).2⟩
  reader hr := h.reader ⟨hr.idx_le, hr.fresh, hr.cur_eq⟩
  fault := h.fault
  place := h.place ∘ hp

theorem execDRbits_started {cnt : Cnt} (hd : s.derr = false)
    (h : runRbits cnt { s with activity := .dRbits cnt } = .next t) : DecoderMove s t :=
  .started ha (.dRbits cnt) s.tokAt s.cxLen s.cxN
    (fun hs => .of_tag (fun _ => hd) (hs.boundary (by rw [ha]; rfl)) hs.made_le) (runRbits_move rfl h)

theorem execDCount_started (hd : s.derr = false)
    (h : runCount { s with activity := .dCount, tokAt := .c2 } = .next t) : DecoderMove s t :=
  .started ha .dCount .c2 s.cxLen s.cxN (fun hs => ⟨fun _ => hd, nofun, nofun, hs.made_le⟩) (runCount_move rfl h)

theorem execDToken_started (hd : s.derr = false)
    (h : runToken { s with activity := .dToken, tokAt := .tag } = .next t) : DecoderMove s t :=
  .started ha .dToken .tag s.cxLen s.cxN (fun hs => .of_tag (fun _ => hd) rfl hs.made_le) (runToken_move rfl h)

theorem execDPlane_started {fuel : Nat} {len : Arg} (hd : s.derr = false)
    (h : expandMoves fuel (startDecode len s) = .next t) : DecoderMove s t :=
  .started ha .dPlane .tag len 0 (fun _ => .of_tag (fun _ => hd) rfl (Nat.zero_le _)) (expandMoves_move fuel rfl h)

theorem align_started : DecoderMove s (respond .ok 0 (align s)) :=
  (align_readerMove s).responds (by rw [ha]; rfl) (fun hs => hs.boundary (by rw [ha]; rfl)) .ok 0

end commands

/-! ### Every command -/

/-- What the execution of the command `i` from an idle sequencer can lead to. -/
inductive Executed (i : Instr) (s t : State) : Prop where
  /-- A rejection, or the value of a status register. -/
  | answers (st : Status) (val : Arg) (h : t = respond st val s)
  | encodes (h : EncoderMove s t)
  | clearsEncoder (hi : i = .eClr 0 0) (h : t = respond .ok 0 (clearEncoder s))
  | decodes (hd : s.derr = false) (h : DecoderMove s t)
  | clearsDecoder (hi : i = .dClr 0 0) (h : t = respond .ok 0 (clearDecoder s))

theorem Executed.rejects {i : Instr} {s t : State} {st : Status} (h : reject st s = .next t) : Executed i s t :=
  .answers st 0 (by cases h; rfl)

theorem Executed.writes {i : Instr} {s t u : State} {st : Status} {val : Arg} (hw : Wrote s u)
    (h : Host.Outcome.next (respondAfterSout st val u) = (.next t : Host.Outcome State Fault Refusal)) :
    Executed i s t :=
  .encodes (by cases h; exact hw.respondAfterSout st val)

theorem Executed.reads {i : Instr} {s t : State} (hd : ¬ s.derr = true) (h : s.derr = false → DecoderMove s t) :
    Executed i s t :=
  .decodes (Bool.eq_false_of_not_eq_true hd) (h (Bool.eq_false_of_not_eq_true hd))

/-- A command whose fields are all zero, once it is past the check. -/
theorem anyField_eq_false {cnt : Cnt} {arg : Arg} (h : ¬ anyField cnt arg = true) : cnt = 0 ∧ arg = 0 := by
  simpa [anyField] using h

theorem exec_executed {i : Instr} {s t : State} (hi : i.isWire = false) (ha : s.activity = .idle)
    (h : exec i s = .next t) : Executed i s t := by
  cases i with
  | seed | lit | runT1 | runT2 | runT3 | runT4 | illegalTag00 | illegalTag11 | illegalZeroCount => cases hi
  | eWbits cnt arg =>
    change execEWbits cnt arg s = _ at h
    unfold execEWbits at h
    split_ifs at h
    · exact .rejects h
    · exact .writes (writeBits_wrote arg cnt.toNat s) h
  | eFlush cnt arg =>
    change execEFlush cnt arg s = _ at h
    unfold execEFlush at h
    split_ifs at h
    · exact .rejects h
    · exact .writes (flush_wrote s) h
  | eGetb cnt arg =>
    change execEGetb cnt arg s = _ at h
    unfold execEGetb at h
    split_ifs at h
    · exact .rejects h
    · exact .writes (flush_wrote s) h
  | eCount cnt arg =>
    change execECount cnt arg s = _ at h
    unfold execECount at h
    split_ifs at h with hcnt hbad
    · exact .rejects h
    · exact .rejects h
    · exact .writes (encodeCount_wrote (by simp [badCount] at hbad; exact hbad.2) s) h
  | eLit cnt arg =>
    change execELit cnt arg s = _ at h
    unfold execELit at h
    split_ifs at h
    · exact .rejects h
    · exact .writes (emitLit_wrote arg s) h
  | eRun cnt arg =>
    change execERun cnt arg s = _ at h
    unfold execERun at h
    split_ifs at h with hcnt hbad
    · exact .rejects h
    · exact .rejects h
    · exact .writes (emitRun_wrote (by simp [badRun] at hbad; exact hbad.2) s) h
  | ePlane cnt arg =>
    change execEPlane cnt arg s = _ at h
    unfold execEPlane at h
    split_ifs at h
    · exact .rejects h
    · cases h
      exact .encodes (startEncode_move _ arg s)
  | eClr cnt arg =>
    change execEClr cnt arg s = _ at h
    unfold execEClr at h
    split_ifs at h with hf
    · exact .rejects h
    · obtain ⟨rfl, rfl⟩ := anyField_eq_false hf
      cases h
      exact .clearsEncoder rfl rfl
  | dRbits cnt arg =>
    change execDRbits cnt arg s = _ at h
    unfold execDRbits at h
    split_ifs at h with _ hd
    · exact .rejects h
    · exact .rejects h
    · exact .rejects h
    · exact .reads hd fun hd => execDRbits_started ha hd h
  | dAlign cnt arg =>
    change execDAlign cnt arg s = _ at h
    unfold execDAlign at h
    split_ifs at h with _ hd
    · exact .rejects h
    · exact .rejects h
    · cases h
      exact .reads hd fun _ => align_started ha
  | dCount cnt arg =>
    change execDCount cnt arg s = _ at h
    unfold execDCount at h
    split_ifs at h with _ hd
    · exact .rejects h
    · exact .rejects h
    · exact .reads hd fun hd => execDCount_started ha hd h
  | dToken cnt arg =>
    change execDToken cnt arg s = _ at h
    unfold execDToken at h
    split_ifs at h with _ hd
    · exact .rejects h
    · exact .rejects h
    · exact .reads hd fun hd => execDToken_started ha hd h
  | dPlane cnt arg =>
    change execDPlane cnt arg s = _ at h
    unfold execDPlane at h
    split_ifs at h with _ hd
    · exact .rejects h
    · exact .rejects h
    · exact .reads hd fun hd => execDPlane_started ha hd h
  | dClr cnt arg =>
    change execDClr cnt arg s = _ at h
    unfold execDClr at h
    split_ifs at h with hf
    · exact .rejects h
    · obtain ⟨rfl, rfl⟩ := anyField_eq_false hf
      cases h
      exact .clearsDecoder rfl rfl
  | rdsr cnt arg =>
    change execRdsr cnt arg s = _ at h
    unfold execRdsr at h
    split_ifs at h
    · exact .rejects h
    · split at h
      · exact .rejects h
      · cases h
        exact .answers .ok _ rfl
  | reservedOp0 cnt arg => exact .rejects h

end Sys2Proof.Machine
end

section
/-! What one step can do: a move of the host, or the clock edge of the data ports and one move of the sequencer (log
entries 1 and 3; 46_system_commands.md R253, R254). -/

namespace Sys2Proof.Machine

/-! ### One move of the sequencer -/

/-- What one move of the sequencer from `u` can lead to. -/
inductive SequencerMove (u t : State) : Prop where
  /-- Nothing to do, or a wait (00_scope.md R11). -/
  | waits (h : t = u)
  /-- The output has been taken: the response is presented. -/
  | presents (st : Status) (val : Arg) (ha : u.activity = .drainSout st val ∧ u.sout.length ≤ u.soutTaken ∨
      u.activity = .drainPout st val ∧ u.pout.length ≤ u.poutTaken) (h : t = respond st val u)
  /-- The host takes the response. -/
  | completes (st : Status) (val : Arg) (ha : u.activity = .respond st val) (h : t = completeCommand st val u)
  | encodes (ha : u.activity = .ePlane) (h : EncoderMove u t)
  | decodes (ha : readsInput u.activity = true) (h : DecoderMove u t)
  /-- A command is accepted and executed. -/
  | accepts (word : CmdWord) (rest : List CmdWord) (ha : u.activity = .idle) (hb : u.seqBusy = false)
      (hc : u.hCmd = word :: rest) (h : Executed (decodeCommand word) (acceptCommand rest u) t)

theorem sequencerIdle_move {u t : State} (ha : u.activity = .idle) (h : sequencerIdle exec u = .next t) :
    SequencerMove u t := by
  unfold sequencerIdle at h
  split at h
  · cases h
    exact .waits rfl
  next word rest hc =>
    split_ifs at h with hr
    · exact .accepts word rest ha (by simpa [cmdReady] using hr) hc
        (exec_executed (decodeCommand_not_wire word) ha h)
    · cases h
      exact .waits rfl

/-- Everything one move of the sequencer can do. -/
theorem sequencer_move {u t : State} (h : sequencer exec u = .next t) : SequencerMove u t := by
  unfold sequencer at h
  split at h
  next ha => exact sequencerIdle_move ha h
  next cnt ha => exact .decodes (by rw [ha]; rfl) (runRbits_move ha h)
  next ha => exact .decodes (by rw [ha]; rfl) (runCount_move ha h)
  next ha => exact .decodes (by rw [ha]; rfl) (runToken_move ha h)
  next ha =>
    unfold runCompressor at h
    split at h <;> cases h
    · exact .waits rfl
    next hm => exact .encodes ha (compressStep_move hm)
  next ha =>
    rw [expandWith_exec] at h
    exact .decodes (by rw [ha]; rfl) (expandWith_move ha h)
  next st val ha =>
    unfold awaitSout at h
    split_ifs at h with hall <;> cases h
    · exact .presents st val (.inl ⟨ha, hall⟩) rfl
    · exact .waits rfl
  next st val ha =>
    unfold awaitPout at h
    split_ifs at h with hall <;> cases h
    · exact .presents st val (.inr ⟨ha, hall⟩) rfl
    · exact .waits rfl
  next st val ha =>
    unfold awaitRsp at h
    split_ifs at h <;> cases h
    · exact .completes st val ha rfl
    · exact .waits rfl

/-! ### The clock edge of the data ports -/

theorem sinBeat_frame (s : State) :
    sinBeat s = { s with sin := (sinBeat s).sin, hSin := (sinBeat s).hSin, brClosed := (sinBeat s).brClosed } := by
  unfold sinBeat closeInput
  split <;> split_ifs <;> rfl

theorem soutBeat_frame (s : State) :
    soutBeat s = { s with soutTaken := (soutBeat s).soutTaken, hSoutGot := (soutBeat s).hSoutGot } := by
  unfold soutBeat
  split
  · rfl
  · split_ifs <;> rfl

theorem poutBeat_frame (s : State) :
    poutBeat s = { s with poutTaken := (poutBeat s).poutTaken, hPoutGot := (poutBeat s).hPoutGot } := by
  unfold poutBeat
  split
  · rfl
  · split_ifs <;> rfl

/-- `u` is `s` but for what the clock edge of the data ports can change, and the host's script. -/
def OnlyPorts (s u : State) : Prop :=
  u = { s with
    sin := u.sin, hSin := u.hSin, brClosed := u.brClosed, soutTaken := u.soutTaken, hSoutGot := u.hSoutGot,
    poutTaken := u.poutTaken, hPoutGot := u.hPoutGot, hScript := u.hScript }

theorem portBeats_only (s : State) : OnlyPorts s (portBeats s) := by
  unfold OnlyPorts portBeats
  rw [poutBeat_frame (soutBeat (sinBeat s)), soutBeat_frame (sinBeat s), sinBeat_frame s]

@[simp] theorem sinBeat_sout (s : State) : (sinBeat s).sout = s.sout := by rw [sinBeat_frame]
@[simp] theorem sinBeat_soutTaken (s : State) : (sinBeat s).soutTaken = s.soutTaken := by rw [sinBeat_frame]
@[simp] theorem sinBeat_hSoutReady (s : State) : (sinBeat s).hSoutReady = s.hSoutReady := by rw [sinBeat_frame]
@[simp] theorem sinBeat_hSoutGot (s : State) : (sinBeat s).hSoutGot = s.hSoutGot := by rw [sinBeat_frame]
@[simp] theorem sinBeat_pout (s : State) : (sinBeat s).pout = s.pout := by rw [sinBeat_frame]
@[simp] theorem sinBeat_poutTaken (s : State) : (sinBeat s).poutTaken = s.poutTaken := by rw [sinBeat_frame]
@[simp] theorem sinBeat_hPoutReady (s : State) : (sinBeat s).hPoutReady = s.hPoutReady := by rw [sinBeat_frame]
@[simp] theorem sinBeat_hPoutGot (s : State) : (sinBeat s).hPoutGot = s.hPoutGot := by rw [sinBeat_frame]

@[simp] theorem soutBeat_sin (s : State) : (soutBeat s).sin = s.sin := by rw [soutBeat_frame]
@[simp] theorem soutBeat_hSin (s : State) : (soutBeat s).hSin = s.hSin := by rw [soutBeat_frame]
@[simp] theorem soutBeat_brClosed (s : State) : (soutBeat s).brClosed = s.brClosed := by rw [soutBeat_frame]
@[simp] theorem soutBeat_sout (s : State) : (soutBeat s).sout = s.sout := by rw [soutBeat_frame]
@[simp] theorem soutBeat_pout (s : State) : (soutBeat s).pout = s.pout := by rw [soutBeat_frame]
@[simp] theorem soutBeat_poutTaken (s : State) : (soutBeat s).poutTaken = s.poutTaken := by rw [soutBeat_frame]
@[simp] theorem soutBeat_hPoutReady (s : State) : (soutBeat s).hPoutReady = s.hPoutReady := by rw [soutBeat_frame]
@[simp] theorem soutBeat_hPoutGot (s : State) : (soutBeat s).hPoutGot = s.hPoutGot := by rw [soutBeat_frame]

@[simp] theorem poutBeat_sin (s : State) : (poutBeat s).sin = s.sin := by rw [poutBeat_frame]
@[simp] theorem poutBeat_hSin (s : State) : (poutBeat s).hSin = s.hSin := by rw [poutBeat_frame]
@[simp] theorem poutBeat_brClosed (s : State) : (poutBeat s).brClosed = s.brClosed := by rw [poutBeat_frame]
@[simp] theorem poutBeat_sout (s : State) : (poutBeat s).sout = s.sout := by rw [poutBeat_frame]
@[simp] theorem poutBeat_soutTaken (s : State) : (poutBeat s).soutTaken = s.soutTaken := by rw [poutBeat_frame]
@[simp] theorem poutBeat_hSoutGot (s : State) : (poutBeat s).hSoutGot = s.hSoutGot := by rw [poutBeat_frame]
@[simp] theorem poutBeat_pout (s : State) : (poutBeat s).pout = s.pout := by rw [poutBeat_frame]

/-- The close action (R112). -/
theorem closeInput_eq (s : State) :
    closeInput s = { s with brClosed := s.brClosed || (s.hEos && s.hSin.isEmpty) } := by
  unfold closeInput
  split_ifs with h
  · rw [h, Bool.or_true]
  · rw [Bool.eq_false_of_not_eq_true h, Bool.or_false]

/-- A byte offered to an open input is appended (30_encoding.md R111). -/
theorem sinBeat_accepts {s : State} {b : Byte} {rest : List Byte} (hb : s.hSin = b :: rest)
    (hc : s.brClosed = false) : sinBeat s = { s with sin := s.sin ++ [b], hSin := rest } := by
  simp [sinBeat, hb, sinReady, hc]

/-- With no byte offered, the level of `sin_eos` closes the input (R112). -/
theorem sinBeat_empty {s : State} (hb : s.hSin = []) : sinBeat s = { s with brClosed := s.brClosed || s.hEos } := by
  have : sinBeat s = closeInput s := by simp [sinBeat, hb]
  rw [this, closeInput_eq, hb, List.isEmpty_nil, Bool.and_true]

/-- A closed input accepts nothing and stays closed (R111). -/
theorem sinBeat_closed {s : State} (hc : s.brClosed = true) : sinBeat s = s := by
  cases hb : s.hSin with
  | nil =>
    have : (s.brClosed || s.hEos) = s.brClosed := by rw [hc, Bool.true_or]
    rw [sinBeat_empty hb, this]
  | cons b rest => simp [sinBeat, hb, sinReady, hc]

/-- A ready host takes the next byte of `SOUT` (20_memory.md R70). -/
theorem soutBeat_takes {s : State} {b : Byte} (hb : s.sout[s.soutTaken]? = some b) (hr : s.hSoutReady = true) :
    soutBeat s = { s with soutTaken := s.soutTaken + 1, hSoutGot := s.hSoutGot ++ [b] } := by
  simp [soutBeat, soutData, hb, hr]

/-- A host that is not ready, or has taken all, takes nothing (R70). -/
theorem soutBeat_holds {s : State} (h : s.hSoutReady = false ∨ s.sout.length ≤ s.soutTaken) : soutBeat s = s := by
  rcases h with h | h
  · unfold soutBeat
    split <;> simp [h]
  · simp [soutBeat, soutData, h]

/-- A ready host takes the next byte of `POUT` (20_memory.md R70). -/
theorem poutBeat_takes {s : State} {b : Byte} (hb : s.pout[s.poutTaken]? = some b) (hr : s.hPoutReady = true) :
    poutBeat s = { s with poutTaken := s.poutTaken + 1, hPoutGot := s.hPoutGot ++ [b] } := by
  simp [poutBeat, poutData, hb, hr]

/-- A host that is not ready, or has taken all, takes nothing (R70). -/
theorem poutBeat_holds {s : State} (h : s.hPoutReady = false ∨ s.pout.length ≤ s.poutTaken) : poutBeat s = s := by
  rcases h with h | h
  · unfold poutBeat
    split <;> simp [h]
  · simp [poutBeat, poutData, h]

/-- What the edge on `sin` does to the input (30_encoding.md R111, R112). -/
theorem sinBeat_input (s : State) :
    (∀ b rest, s.hSin = b :: rest → s.brClosed = false →
      (sinBeat s).sin = s.sin ++ [b] ∧ (sinBeat s).hSin = rest ∧ (sinBeat s).brClosed = false) ∧
    (s.brClosed = true → (sinBeat s).sin = s.sin ∧ (sinBeat s).hSin = s.hSin ∧ (sinBeat s).brClosed = true) ∧
    (s.hSin = [] →
      (sinBeat s).sin = s.sin ∧ (sinBeat s).hSin = [] ∧ (sinBeat s).brClosed = (s.brClosed || s.hEos)) := by
  refine ⟨fun b rest hb hc => ?_, fun hc => ?_, fun hb => ?_⟩
  · rw [sinBeat_accepts hb hc]
    exact ⟨rfl, rfl, hc⟩
  · rw [sinBeat_closed hc]
    exact ⟨rfl, rfl, hc⟩
  · rw [sinBeat_empty hb]
    exact ⟨rfl, hb, rfl⟩

/-- `u` is `s` after the clock edge of the data ports in a turn of the block, which may take an entry off the host's
script (log entry 3). -/
def PortEdge (s u : State) : Prop := ∃ rest, u = portBeats { s with hScript := rest }

section edge
variable {s u : State} (h : PortEdge s u)
include h

theorem PortEdge.only : OnlyPorts s u := by
  obtain ⟨rest, rfl⟩ := h
  exact portBeats_only { s with hScript := rest }

theorem PortEdge.input :
    (∀ b rest, s.hSin = b :: rest → s.brClosed = false →
      u.sin = s.sin ++ [b] ∧ u.hSin = rest ∧ u.brClosed = false) ∧
    (s.brClosed = true → u.sin = s.sin ∧ u.hSin = s.hSin ∧ u.brClosed = true) ∧
    (s.hSin = [] → u.sin = s.sin ∧ u.hSin = [] ∧ u.brClosed = (s.brClosed || s.hEos)) := by
  obtain ⟨rest, rfl⟩ := h
  simpa only [portBeats, poutBeat_sin, poutBeat_hSin, poutBeat_brClosed, soutBeat_sin, soutBeat_hSin,
    soutBeat_brClosed] using sinBeat_input { s with hScript := rest }

theorem PortEdge.outputs : u.sout = s.sout ∧ u.pout = s.pout := by
  rw [h.only]
  exact ⟨rfl, rfl⟩

theorem PortEdge.sout_takes {b : Byte} (hb : s.sout[s.soutTaken]? = some b) (hr : s.hSoutReady = true) :
    u.soutTaken = s.soutTaken + 1 ∧ u.hSoutGot = s.hSoutGot ++ [b] := by
  obtain ⟨rest, rfl⟩ := h
  simp [portBeats, soutBeat_takes (s := sinBeat { s with hScript := rest }) (b := b) (by simpa using hb)
    (by simpa using hr)]

theorem PortEdge.sout_holds (hh : s.hSoutReady = false ∨ s.sout.length ≤ s.soutTaken) :
    u.soutTaken = s.soutTaken ∧ u.hSoutGot = s.hSoutGot := by
  obtain ⟨rest, rfl⟩ := h
  simp [portBeats, soutBeat_holds (s := sinBeat { s with hScript := rest }) (by simpa using hh)]

theorem PortEdge.pout_takes {b : Byte} (hb : s.pout[s.poutTaken]? = some b) (hr : s.hPoutReady = true) :
    u.poutTaken = s.poutTaken + 1 ∧ u.hPoutGot = s.hPoutGot ++ [b] := by
  obtain ⟨rest, rfl⟩ := h
  simp [portBeats, poutBeat_takes (s := soutBeat (sinBeat { s with hScript := rest })) (b := b) (by simpa using hb)
    (by simpa using hr)]

theorem PortEdge.pout_holds (hh : s.hPoutReady = false ∨ s.pout.length ≤ s.poutTaken) :
    u.poutTaken = s.poutTaken ∧ u.hPoutGot = s.hPoutGot := by
  obtain ⟨rest, rfl⟩ := h
  simp [portBeats, poutBeat_holds (s := soutBeat (sinBeat { s with hScript := rest })) (by simpa using hh)]

end edge

/-! ### The host's moves -/

/-- The offers, the levels and the close: all a host can change without a reset. -/
theorem hostAct_frame {a : HostAct} (ha : a ≠ .assertReset) (s : State) :
    hostAct a s = { s with
      brClosed := (hostAct a s).brClosed, hCmd := (hostAct a s).hCmd, hPin := (hostAct a s).hPin,
      hSin := (hostAct a s).hSin, hEos := (hostAct a s).hEos, hRspReady := (hostAct a s).hRspReady,
      hSoutReady := (hostAct a s).hSoutReady, hPoutReady := (hostAct a s).hPoutReady } := by
  cases a with
  | assertReset => exact absurd rfl ha
  | driveEos level => simp only [hostAct, closeInput_eq]
  | _ => rfl

/-- No action of the host opens a closed input but a reset, and only `sin_eos` closes it (30_encoding.md R112). -/
theorem hostAct_closed {a : HostAct} (ha : a ≠ .assertReset) (s : State) :
    (hostAct a s).brClosed = (s.brClosed || (decide (a = .driveEos true) && s.hSin.isEmpty)) := by
  cases a with
  | assertReset => exact absurd rfl ha
  | driveEos level => cases level <;> simp [hostAct, closeInput_eq]
  | _ => simp [hostAct]

/-! ### One step -/

/-- The block has its turn. -/
def BlockTurn (s : State) : Prop := s.hScript = [] ∨ s.hScript.head? = some .letBlockMove

theorem turn_block {s u : State} (h : turn s = .block u) : BlockTurn s ∧ PortEdge s u := by
  unfold turn at h
  split at h
  next hs =>
    cases h
    exact ⟨.inl hs, [], by rw [← hs]⟩
  next rest hs =>
    cases h
    exact ⟨.inr (by rw [hs]; rfl), rest, rfl⟩
  · cases h

theorem turn_host {s u : State} (h : turn s = .host u) :
    ∃ a rest, s.hScript = a :: rest ∧ u = hostAct a { s with hScript := rest } := by
  unfold turn at h
  split at h
  · cases h
  · cases h
  next a rest _ hs =>
    cases h
    exact ⟨a, rest, hs, rfl⟩

/-- What one step from `s` can lead to. -/
inductive StepMove (s t : State) : Prop where
  | reset (hr : ResetNext s) (rest : List HostAct) (h : t = resetBlock { s with hScript := rest })
  | host (a : HostAct) (ha : a ≠ .assertReset) (rest : List HostAct) (hs : s.hScript = a :: rest)
      (h : t = hostAct a { s with hScript := rest })
  | block (hs : BlockTurn s) (u : State) (hu : PortEdge s u) (h : SequencerMove u t)

/-- Everything one step can do. -/
theorem step_move {s t : State} (h : step s = .next t) : StepMove s t := by
  unfold step at h
  split at h
  next u hu =>
    cases h
    obtain ⟨a, rest, hs, hua⟩ := turn_host hu
    by_cases ha : a = .assertReset
    · subst ha
      exact .reset (by rw [ResetNext, hs]; rfl) rest hua
    · exact .host a ha rest hs hua
  next u hu =>
    obtain ⟨hs, hedge⟩ := turn_block hu
    exact .block hs u hedge (sequencer_move h)

/-- A word that decodes to a command without operands is that command's word. -/
theorem eq_clearEncoderWord {word : CmdWord} (h : decodeCommand word = .eClr 0 0) : word = clearEncoderWord := by
  have hw := encode_decodeCommand word
  rw [h] at hw
  cases hw
  rfl

theorem eq_clearDecoderWord {word : CmdWord} (h : decodeCommand word = .dClr 0 0) : word = clearDecoderWord := by
  have hw := encode_decodeCommand word
  rw [h] at hw
  cases hw
  rfl

/-- A command accepted after the clock edge was held out before it. -/
theorem OnlyPorts.acceptsNext {s u : State} (h : OnlyPorts s u) (hs : BlockTurn s) (ha : u.activity = .idle)
    (hb : u.seqBusy = false) {word : CmdWord} {rest : List CmdWord} (hc : u.hCmd = word :: rest) :
    AcceptsNext s word := by
  rw [h] at ha hb hc
  exact ⟨ha, hb, by simp_all, hs⟩

end Sys2Proof.Machine
end

section
/-! Every step keeps the invariant of the machine (10_state.md R22 to R37, R42; 20_memory.md R70): each kind of move keeps
all of it but the word on `SEQ.busy`, which is then read off the move. -/

namespace Sys2Proof.Machine

/-- The invariant but for `SEQ.busy`, which the acceptance of a command sets before the command executes. -/
structure RunInv (s : State) : Prop where
  writer : WriterInv s
  within : WithinPlane s
  reader : ReaderInv s
  fault : FaultInv s
  place : PlaceInv s
  delivery : DeliveryInv s

/-- 10_state.md R42: `SEQ.busy` says whether a command is executing. -/
def BusyInv (s : State) : Prop := s.seqBusy = true ↔ s.activity ≠ .idle

theorem inv_iff {s : State} : Inv s ↔ RunInv s ∧ BusyInv s :=
  ⟨fun h => ⟨⟨h.writer, ⟨h.plane.scan_le, h.plane.pin_le⟩, h.reader, h.fault, h.place, h.delivery⟩, h.sequencer.busy⟩,
    fun ⟨h, hb⟩ => ⟨h.writer, h.reader, ⟨h.within.1, h.within.2, h.place.made_le⟩, h.fault,
      ⟨hb, h.place.not_halted, h.place.boundary, h.place.inside⟩, h.delivery⟩⟩

/-- A writer whose byte is empty meets its invariant. -/
theorem WriterInv.of_empty {s : State} (ha : s.bwAcc = 0) (hf : s.bwFree = 0) : WriterInv s :=
  ⟨by rw [filled, if_pos hf, ha]; decide⟩

/-- `t` is `s` but for `BR.closed`, `SEQ.busy` and the ports: what the invariant, apart from the delivery of the output,
does not speak of. -/
def OnlyOutside (s t : State) : Prop :=
  t = { s with
    brClosed := t.brClosed, seqBusy := t.seqBusy, soutTaken := t.soutTaken, poutTaken := t.poutTaken, hCmd := t.hCmd,
    hPin := t.hPin, hSin := t.hSin, hEos := t.hEos, hRspReady := t.hRspReady, hSoutReady := t.hSoutReady,
    hPoutReady := t.hPoutReady, hSoutGot := t.hSoutGot, hPoutGot := t.hPoutGot, hRspGot := t.hRspGot,
    hScript := t.hScript }

theorem RunInv.outside {s t : State} (h : RunInv s) (ht : OnlyOutside s t) (hd : DeliveryInv t) : RunInv t := by
  refine ⟨?_, ?_, ?_, ?_, ?_, hd⟩ <;> rw [ht]
  · exact ⟨h.writer.unfilled_zero⟩
  · exact h.within
  · exact ⟨h.reader.idx_le, h.reader.fresh, h.reader.cur_eq⟩
  · exact ⟨h.fault.clear, h.fault.set⟩
  · exact ⟨h.place.not_halted, h.place.boundary, h.place.inside, h.place.made_le⟩

/-- The invariant does not speak of the host's offers and levels, of `BR.closed`, nor of `SEQ.busy`. -/
theorem RunInv.host {s : State} (h : RunInv s) (closed busy eos rsp sout pout : Bool) (cmd : List CmdWord)
    (pin sin : List Byte) (script : List HostAct) :
    RunInv { s with brClosed := closed, seqBusy := busy, hCmd := cmd, hPin := pin, hSin := sin, hEos := eos,
                    hRspReady := rsp, hSoutReady := sout, hPoutReady := pout, hScript := script } :=
  h.outside rfl ⟨h.delivery.sout_le, h.delivery.pout_le, h.delivery.sout_all, h.delivery.pout_all, h.delivery.sout_got,
    h.delivery.pout_got⟩

/-! ### Reset and the host's moves -/

/-- The invariant holds after reset, whatever the host's side is (10_state.md R45). -/
theorem resetBlock_inv (s : State) : Inv (resetBlock s) where
  writer := .of_empty rfl rfl
  reader := ⟨le_rfl, fun _ => ⟨rfl, rfl⟩, fun h => absurd h (lt_irrefl 0)⟩
  plane := ⟨le_rfl, le_rfl, le_rfl⟩
  fault := ⟨fun _ => rfl, nofun⟩
  sequencer := ⟨⟨nofun, fun h => absurd rfl h⟩, nofun, fun _ => rfl, nofun⟩
  delivery := ⟨le_rfl, le_rfl, fun _ => rfl, fun _ => rfl, List.nil_suffix, List.nil_suffix⟩

theorem hostAct_inv {s : State} (h : Inv s) {a : HostAct} (ha : a ≠ .assertReset) (rest : List HostAct) :
    Inv (hostAct a { s with hScript := rest }) := by
  rw [hostAct_frame ha]
  exact inv_iff.mpr ⟨(inv_iff.mp h).1.host .., h.sequencer.busy⟩

/-! ### The clock edge of the data ports -/

/-- Bytes accepted behind the fetch pointer do not touch what has been fetched. -/
theorem ReaderInv.append {s : State} (h : ReaderInv s) (more : List Byte) :
    ReaderInv { s with sin := s.sin ++ more } where
  idx_le := by show s.brIdx ≤ (s.sin ++ more).length; rw [List.length_append]; exact h.idx_le.trans (Nat.le_add_right _ _)
  fresh := h.fresh
  cur_eq h0 := by
    have hc := h.cur_eq h0
    show (s.sin ++ more)[s.brIdx - 1]? = _
    rwa [List.getElem?_append_left (List.getElem?_eq_some_iff.mp hc).1]

theorem RunInv.accepts {s : State} (h : RunInv s) (b : Byte) : RunInv { s with sin := s.sin ++ [b] } where
  writer := ⟨h.writer.unfilled_zero⟩
  within := h.within
  reader := h.reader.append [b]
  fault := ⟨h.fault.clear, h.fault.set⟩
  place := ⟨h.place.not_halted, h.place.boundary, h.place.inside, h.place.made_le⟩
  delivery := ⟨h.delivery.sout_le, h.delivery.pout_le, h.delivery.sout_all, h.delivery.pout_all, h.delivery.sout_got,
    h.delivery.pout_got⟩

theorem sinBeat_runInv {s : State} (h : RunInv s) : RunInv (sinBeat s) := by
  cases hc : s.brClosed with
  | true => rwa [sinBeat_closed hc]
  | false =>
    cases hb : s.hSin with
    | nil =>
      rw [sinBeat_empty hb]
      exact h.host ..
    | cons b rest =>
      rw [sinBeat_accepts hb hc]
      exact RunInv.host (h.accepts b) ..

/-- One more byte of a sequence is taken, once and in order (20_memory.md R70). -/
theorem take_succ_suffix {out got : List Byte} {k : Nat} {b : Byte} (hb : out[k]? = some b)
    (hg : out.take k <:+ got) : k + 1 ≤ out.length ∧ out.take (k + 1) <:+ got ++ [b] := by
  obtain ⟨hlt, -⟩ := List.getElem?_eq_some_iff.mp hb
  refine ⟨hlt, ?_⟩
  rw [List.take_add_one, hb]
  obtain ⟨before, rfl⟩ := hg
  exact ⟨before, by simp⟩

/-- The edge on an output port finds the host ready and a byte to take, or changes nothing. -/
theorem beat_cases (out : List Byte) (taken : Nat) (ready : Bool) :
    (∃ b, out[taken]? = some b ∧ ready = true) ∨ ready = false ∨ out.length ≤ taken := by
  cases ready with
  | false => exact .inr (.inl rfl)
  | true =>
    cases hb : out[taken]? with
    | none => exact .inr (.inr (by simpa using hb))
    | some b => exact .inl ⟨b, rfl, rfl⟩

theorem soutBeat_runInv {s : State} (h : RunInv s) : RunInv (soutBeat s) := by
  rcases beat_cases s.sout s.soutTaken s.hSoutReady with ⟨b, hb, hr⟩ | hhold
  · rw [soutBeat_takes hb hr]
    obtain ⟨hle, hgot⟩ := take_succ_suffix hb h.delivery.sout_got
    have hall : mayOweSout s.activity = false → s.soutTaken + 1 = s.sout.length := fun ho => by
      have := h.delivery.sout_all ho
      omega
    exact h.outside rfl ⟨hle, h.delivery.pout_le, hall, h.delivery.pout_all, hgot, h.delivery.pout_got⟩
  · rwa [soutBeat_holds hhold]

theorem poutBeat_runInv {s : State} (h : RunInv s) : RunInv (poutBeat s) := by
  rcases beat_cases s.pout s.poutTaken s.hPoutReady with ⟨b, hb, hr⟩ | hhold
  · rw [poutBeat_takes hb hr]
    obtain ⟨hle, hgot⟩ := take_succ_suffix hb h.delivery.pout_got
    have hall : mayOwePout s.activity = false → s.poutTaken + 1 = s.pout.length := fun ho => by
      have := h.delivery.pout_all ho
      omega
    exact h.outside rfl ⟨h.delivery.sout_le, hle, h.delivery.sout_all, hall, h.delivery.sout_got, hgot⟩
  · rwa [poutBeat_holds hhold]

theorem PortEdge.inv {s u : State} (hu : PortEdge s u) (h : Inv s) : Inv u := by
  obtain ⟨rest, rfl⟩ := hu
  have hrun : RunInv { s with hScript := rest } := (inv_iff.mp h).1.host ..
  refine inv_iff.mpr ⟨poutBeat_runInv (soutBeat_runInv (sinBeat_runInv hrun)), ?_⟩
  rw [BusyInv, portBeats_only { s with hScript := rest }]
  exact h.sequencer.busy

/-! ### The moves of the sequencer -/

theorem mayOweSout_cases {a : Activity} (h : mayOweSout a = true) : a = .ePlane ∨ ∃ st val, a = .drainSout st val := by
  cases a with
  | ePlane => exact .inl rfl
  | drainSout st val => exact .inr ⟨st, val, rfl⟩
  | _ => cases h

/-- A sequence that has been taken as far as it went is still so when it has grown. -/
theorem take_of_prefix {out out' got : List Byte} {k : Nat} (hp : out <+: out') (hle : k ≤ out.length)
    (hg : out.take k <:+ got) : k ≤ out'.length ∧ out'.take k <:+ got := by
  obtain ⟨more, rfl⟩ := hp
  refine ⟨by rw [List.length_append]; omega, ?_⟩
  rwa [List.take_append_of_le_length hle]

theorem RunInv.encodes {s t : State} (h : RunInv s) (hr : readsInput s.activity = false)
    (hp : mayOwePout s.activity = false) (hm : EncoderMove s t) : RunInv t := by
  have hf := hm.frame
  have hfields : readsFields s.activity = false := by
    revert hr
    cases s.activity <;> simp [readsInput, readsFields]
  have hin : readsInput t.activity = false := by
    rcases mayOweSout_cases hm.owing with h | ⟨st, val, h⟩ <;> rw [h] <;> rfl
  have htok : t.tokAt = .tag := by rw [hf]; exact h.place.boundary hfields
  have hsout := take_of_prefix hm.grows h.delivery.sout_le h.delivery.sout_got
  refine ⟨hm.writer h.writer, hm.within h.within, ?_, ?_, .of_tag (by rw [hin]; nofun) htok ?_, ?_⟩
  · rw [hf]; exact ⟨h.reader.idx_le, h.reader.fresh, h.reader.cur_eq⟩
  · rw [hf]; exact ⟨h.fault.clear, h.fault.set⟩
  · rw [hf]; exact h.place.made_le
  · have hown := hm.owing
    rw [hf] at hsout hown ⊢
    exact ⟨hsout.1, h.delivery.pout_le, fun hno => absurd hown (by rw [hno]; nofun), fun _ => h.delivery.pout_all hp,
      hsout.2, h.delivery.pout_got⟩

theorem RunInv.decodes {s t : State} (h : RunInv s) (ho : mayOweSout s.activity = false) (hm : DecoderMove s t) :
    RunInv t := by
  have hf := hm.frame
  have hpout := take_of_prefix hm.grows h.delivery.pout_le h.delivery.pout_got
  have hall : mayOwePout t.activity = false → s.poutTaken = t.pout.length := fun hno => by
    obtain ⟨hs, heq⟩ := hm.owed hno
    rw [heq]
    exact h.delivery.pout_all hs
  have hfault : FaultInv t := by
    rcases hm.fault with ⟨hd, hc⟩ | ⟨hd, st, info, hst, -, hc⟩
    · exact ⟨by rw [hd, hc]; exact h.fault.clear, by rw [hd, hc]; exact h.fault.set⟩
    · exact ⟨by rw [hd]; nofun, fun _ => ⟨st, hst, hc⟩⟩
  refine ⟨?_, ?_, (hm.reader h.reader).1, hfault, hm.place h.place, ?_⟩
  · rw [hf]; exact ⟨h.writer.unfilled_zero⟩
  · rw [hf]; exact h.within
  · rw [hf] at hpout hall ⊢
    exact ⟨h.delivery.sout_le, hpout.1, fun _ => h.delivery.sout_all ho, hall, h.delivery.sout_got, hpout.2⟩

/-- A response is presented when both outputs have been taken and no read is under way. -/
theorem RunInv.responds {s : State} (h : RunInv s) (hf : readsFields s.activity = false)
    (hs : s.soutTaken = s.sout.length) (hp : s.poutTaken = s.pout.length) (st : Status) (val : Arg) :
    RunInv (respond st val s) where
  writer := ⟨h.writer.unfilled_zero⟩
  within := h.within
  reader := ⟨h.reader.idx_le, h.reader.fresh, h.reader.cur_eq⟩
  fault := ⟨h.fault.clear, h.fault.set⟩
  place := .of_tag nofun (h.place.boundary hf) h.place.made_le
  delivery := ⟨h.delivery.sout_le, h.delivery.pout_le, fun _ => hs, fun _ => hp, h.delivery.sout_got,
    h.delivery.pout_got⟩

theorem RunInv.completes {s : State} {st : Status} {val : Arg} (h : RunInv s) (ha : s.activity = .respond st val) :
    RunInv (completeCommand st val s) where
  writer := ⟨h.writer.unfilled_zero⟩
  within := h.within
  reader := ⟨h.reader.idx_le, h.reader.fresh, h.reader.cur_eq⟩
  fault := ⟨h.fault.clear, h.fault.set⟩
  place := .of_tag nofun (h.place.boundary (by rw [ha]; rfl)) h.place.made_le
  delivery := ⟨h.delivery.sout_le, h.delivery.pout_le, fun _ => h.delivery.sout_all (by rw [ha]; rfl),
    fun _ => h.delivery.pout_all (by rw [ha]; rfl), h.delivery.sout_got, h.delivery.pout_got⟩

theorem RunInv.clearsEncoder {s : State} (h : RunInv s) (ha : s.activity = .idle) : RunInv (clearEncoder s) where
  writer := .of_empty rfl rfl
  within := ⟨le_rfl, le_rfl⟩
  reader := ⟨h.reader.idx_le, h.reader.fresh, h.reader.cur_eq⟩
  fault := ⟨h.fault.clear, h.fault.set⟩
  place := ⟨h.place.not_halted, h.place.boundary, h.place.inside, h.place.made_le⟩
  delivery := ⟨le_rfl, h.delivery.pout_le, fun _ => rfl, fun _ => h.delivery.pout_all (by rw [ha]; rfl),
    List.nil_suffix, h.delivery.pout_got⟩

theorem RunInv.clearsDecoder {s : State} (h : RunInv s) (ha : s.activity = .idle) : RunInv (clearDecoder s) where
  writer := ⟨h.writer.unfilled_zero⟩
  within := h.within
  reader := ⟨le_rfl, fun _ => ⟨rfl, rfl⟩, fun h => absurd h (lt_irrefl 0)⟩
  fault := ⟨fun _ => rfl, nofun⟩
  place := .of_tag (fun _ => rfl) rfl le_rfl
  delivery := ⟨h.delivery.sout_le, le_rfl, fun _ => h.delivery.sout_all (by rw [ha]; rfl), fun _ => rfl,
    h.delivery.sout_got, List.nil_suffix⟩

/-- A command leads from an idle machine that meets the invariant to one that meets it. -/
theorem Executed.runInv {i : Instr} {s t : State} (hm : Executed i s t) (h : RunInv s) (ha : s.activity = .idle) :
    RunInv t := by
  have hf : readsFields s.activity = false := by rw [ha]; rfl
  have hs : s.soutTaken = s.sout.length := h.delivery.sout_all (by rw [ha]; rfl)
  have hp : s.poutTaken = s.pout.length := h.delivery.pout_all (by rw [ha]; rfl)
  cases hm with
  | answers st val ht => exact ht ▸ h.responds hf hs hp st val
  | encodes hm => exact h.encodes (by rw [ha]; rfl) (by rw [ha]; rfl) hm
  | clearsEncoder _ ht => exact ht ▸ (h.clearsEncoder ha).responds hf rfl hp .ok 0
  | decodes _ hm => exact h.decodes (by rw [ha]; rfl) hm
  | clearsDecoder _ ht => exact ht ▸ (h.clearsDecoder ha).responds hf hs rfl .ok 0

/-- After acceptance the command is executing: `SEQ.busy` stays 1 and the sequencer is not idle (R42). -/
theorem Executed.busy {i : Instr} {s t : State} (hm : Executed i s t) :
    t.seqBusy = s.seqBusy ∧ t.activity ≠ .idle := by
  cases hm with
  | answers st val ht => exact ht ▸ ⟨rfl, nofun⟩
  | encodes hm => exact ⟨by rw [hm.frame], hm.active⟩
  | clearsEncoder _ ht => exact ht ▸ ⟨rfl, nofun⟩
  | decodes _ hm => exact ⟨by rw [hm.frame], hm.active⟩
  | clearsDecoder _ ht => exact ht ▸ ⟨rfl, nofun⟩

theorem SequencerMove.inv {u t : State} (hm : SequencerMove u t) (h : Inv u) : Inv t := by
  obtain ⟨hrun, hbusy⟩ := inv_iff.mp h
  cases hm with
  | waits ht => exact ht ▸ h
  | presents st val ha ht =>
    rw [ht]
    have htaken : readsFields u.activity = false ∧ u.soutTaken = u.sout.length ∧ u.poutTaken = u.pout.length ∧
        u.activity ≠ .idle := by
      rcases ha with ⟨ha, hall⟩ | ⟨ha, hall⟩
      · exact ⟨by rw [ha]; rfl, le_antisymm hrun.delivery.sout_le hall,
          hrun.delivery.pout_all (by rw [ha]; rfl), by rw [ha]; nofun⟩
      · exact ⟨by rw [ha]; rfl, hrun.delivery.sout_all (by rw [ha]; rfl),
          le_antisymm hrun.delivery.pout_le hall, by rw [ha]; nofun⟩
    obtain ⟨hf, hs, hp, hne⟩ := htaken
    exact inv_iff.mpr ⟨hrun.responds hf hs hp st val, iff_of_true (hbusy.mpr hne) nofun⟩
  | completes st val ha ht =>
    rw [ht]
    exact inv_iff.mpr ⟨hrun.completes ha, iff_of_false nofun fun hne => hne rfl⟩
  | encodes ha hm =>
    have hb : t.seqBusy = u.seqBusy := by rw [hm.frame]
    have hne : u.activity ≠ .idle := by rw [ha]; nofun
    exact inv_iff.mpr
      ⟨hrun.encodes (by rw [ha]; rfl) (by rw [ha]; rfl) hm, iff_of_true (hb.trans (hbusy.mpr hne)) hm.active⟩
  | decodes ha hm =>
    have hb : t.seqBusy = u.seqBusy := by rw [hm.frame]
    have hne : u.activity ≠ .idle := fun hidle => by rw [hidle] at ha; cases ha
    have ho : mayOweSout u.activity = false := by
      revert ha
      cases u.activity <;> simp [readsInput, mayOweSout]
    exact inv_iff.mpr ⟨hrun.decodes ho hm, iff_of_true (hb.trans (hbusy.mpr hne)) hm.active⟩
  | accepts word rest ha _ _ hm =>
    have hacc : RunInv (acceptCommand rest u) := hrun.host ..
    obtain ⟨hb, hne⟩ := hm.busy
    exact inv_iff.mpr ⟨hm.runInv hacc ha, iff_of_true (hb.trans rfl) hne⟩

/-- One step keeps the invariant. -/
theorem StepMove.inv {s t : State} (hm : StepMove s t) (h : Inv s) : Inv t := by
  cases hm with
  | reset _ rest ht => exact ht ▸ resetBlock_inv _
  | host a ha rest _ ht => exact ht ▸ hostAct_inv h ha rest
  | block _ u hu hm => exact hm.inv (hu.inv h)

/-- Settles O52: reset puts the block at the reset state. -/
theorem resetMeetsTheInvariant : Obligations.ResetMeetsTheInvariant :=
  resetBlock_inv State.reset

/-- Settles O53, by cases on what a step can do. -/
theorem stepKeepsTheInvariant : Obligations.StepKeepsTheInvariant :=
  fun _ _ h hst => (step_move hst).inv h

end Sys2Proof.Machine
end

section
/-! What a step does to the registers the state rules speak of: `DERR` and `DCODE` (10_state.md R37), `SIN` and
`BR.closed` (R32), the fetch pointer (R42), `SOUT` and `POUT` (R25, R35); and the values of STATUS and of reset (R38,
R45). -/

namespace Sys2Proof.Machine

/-! ### What a turn of the block does to each half -/

/-- The decoder half is as it was, in the terms of the rules below. -/
theorem decHalf_eq {s t : State} (h : decHalf t = decHalf s) :
    (t.sin = s.sin ∧ t.brClosed = s.brClosed) ∧ bitPos t = bitPos s ∧ t.pout = s.pout ∧ t.derr = s.derr ∧
      t.dcode = s.dcode := by
  simp only [decHalf, readerPart, Prod.mk.injEq] at h
  obtain ⟨⟨hsin, hidx, -, hleft, hclosed⟩, -, -, -, hpout, hderr, hdcode, -, -⟩ := h
  exact ⟨⟨hsin, hclosed⟩, by rw [bitPos, bitPos, hidx, hleft], hpout, hderr, hdcode⟩

/-- What a turn of the block from `s`, with `u` after the clock edge, can lead to, half by half. -/
inductive HalfMove (s u t : State) : Prop where
  /-- A wait, a response, or a move of the encoder half. -/
  | encodes (hd : decHalf t = decHalf u) (hs : u.sout <+: t.sout)
  | clearsEncoder (hw : AcceptsNext s clearEncoderWord) (hd : decHalf t = decHalf u) (hs : t.sout = [])
  /-- A move of the decoder half, which does not run while the half is halted. -/
  | decodes (hr : PlaceInv u → u.derr = false) (hs : t.sout = u.sout) (hi : t.sin = u.sin ∧ t.brClosed = u.brClosed)
      (hp : u.pout <+: t.pout) (hb : ReaderInv u → bitPos u ≤ bitPos t)
      (hf : (t.derr = u.derr ∧ t.dcode = u.dcode) ∨ TookFault t)
  | clearsDecoder (hw : AcceptsNext s clearDecoderWord) (hs : t.sout = u.sout)
      (hd : decHalf t = decHalf State.reset)

theorem EncoderMove.decHalf {s t : State} (h : EncoderMove s t) : decHalf t = decHalf s := by rw [h.frame]; rfl

theorem DecoderMove.input {s t : State} (h : DecoderMove s t) : t.sin = s.sin ∧ t.brClosed = s.brClosed := by
  rw [h.frame]; exact ⟨rfl, rfl⟩

theorem DecoderMove.sout {s t : State} (h : DecoderMove s t) : t.sout = s.sout := by rw [h.frame]

theorem SequencerMove.half {s u t : State} (hm : SequencerMove u t) (hu : OnlyPorts s u) (hs : BlockTurn s) :
    HalfMove s u t := by
  cases hm with
  | waits ht => exact ht ▸ .encodes rfl List.prefix_rfl
  | presents st val _ ht => exact ht ▸ .encodes rfl List.prefix_rfl
  | completes st val _ ht => exact ht ▸ .encodes rfl List.prefix_rfl
  | encodes _ hm => exact .encodes hm.decHalf hm.grows
  | decodes ha hm =>
    exact .decodes (fun hp => hp.not_halted ha) hm.sout hm.input hm.grows (fun hr => (hm.reader hr).2) hm.fault
  | accepts word rest ha hb hc hm =>
    have hnext := hu.acceptsNext hs ha hb hc
    cases hm with
    | answers st val ht => exact ht ▸ .encodes rfl List.prefix_rfl
    | encodes hm => exact .encodes hm.decHalf hm.grows
    | clearsEncoder hi ht => exact ht ▸ .clearsEncoder (eq_clearEncoderWord hi ▸ hnext) rfl rfl
    | decodes hd hm =>
      exact .decodes (fun _ => hd) hm.sout hm.input hm.grows
        (fun hr => (hm.reader ⟨hr.idx_le, hr.fresh, hr.cur_eq⟩).2) hm.fault
    | clearsDecoder hi ht => exact ht ▸ .clearsDecoder (eq_clearDecoderWord hi ▸ hnext) rfl rfl

/-- What a step from `s` can lead to, half by half. -/
inductive StepHalf (s t : State) : Prop where
  | reset (hr : ResetNext s) (rest : List HostAct) (h : t = resetBlock { s with hScript := rest })
  | host (a : HostAct) (ha : a ≠ .assertReset) (rest : List HostAct) (hs : s.hScript = a :: rest)
      (h : t = hostAct a { s with hScript := rest })
  | block (u : State) (hu : PortEdge s u) (h : HalfMove s u t)

theorem step_half {s t : State} (h : step s = .next t) : StepHalf s t := by
  cases step_move h with
  | reset hr rest ht => exact .reset hr rest ht
  | host a ha rest hs ht => exact .host a ha rest hs ht
  | block hs u hu hm => exact .block u hu (hm.half hu.only hs)

theorem PortEdge.errors {s u : State} (h : PortEdge s u) : u.derr = s.derr ∧ u.dcode = s.dcode := by
  rw [h.only]
  exact ⟨rfl, rfl⟩

theorem PortEdge.bitPos {s u : State} (h : PortEdge s u) : bitPos u = bitPos s := by
  rw [h.only]
  rfl

/-! ### DERR and DCODE -/

/-- A step leaves `DERR` and `DCODE` alone, or takes a fault while `DERR` is 0, or is one of the two clears. -/
theorem step_derr {s t : State} (hi : Inv s) (hst : step s = .next t) :
    (t.derr = s.derr ∧ t.dcode = s.dcode) ∨ (s.derr = false ∧ TookFault t) ∨
      (t.derr = false ∧ t.dcode = 0 ∧ (ResetNext s ∨ AcceptsNext s clearDecoderWord)) := by
  cases step_half hst with
  | reset hr rest ht => exact .inr (.inr (by rw [ht]; exact ⟨rfl, rfl, .inl hr⟩))
  | host a ha rest _ ht => exact .inl (by rw [ht, hostAct_frame ha]; exact ⟨rfl, rfl⟩)
  | block u hu hm =>
    obtain ⟨hderr, hdcode⟩ := hu.errors
    rw [← hderr, ← hdcode]
    cases hm with
    | encodes hd _ => exact .inl (decHalf_eq hd).2.2.2
    | clearsEncoder _ hd _ => exact .inl (decHalf_eq hd).2.2.2
    | decodes hr _ _ _ _ hf => exact hf.imp_right fun hf => .inl ⟨hr (hu.inv hi).place, hf⟩
    | clearsDecoder hw _ hd =>
      obtain ⟨-, -, -, hclear⟩ := decHalf_eq hd
      exact .inr (.inr ⟨hclear.1, hclear.2, .inr hw⟩)

/-- Settles O47: only a fault entry sets `DERR`, and no D_ command that could take one runs while it is set. -/
theorem derrIsStickyUntilCleared : Obligations.DerrIsStickyUntilCleared := by
  intro s t hi hst
  rcases step_derr hi hst with ⟨hd, hc⟩ | ⟨hs, -, hf⟩ | ⟨hd, hc, hw⟩
  · exact ⟨fun hs ht => (Bool.noConfusion (hs.symm.trans (hd.symm.trans ht))), fun hs => .inl ⟨hd.trans hs, hc⟩⟩
  · exact ⟨fun _ _ => hf, fun hs' => Bool.noConfusion (hs.symm.trans hs')⟩
  · exact ⟨fun _ ht => Bool.noConfusion (hd.symm.trans ht), fun _ => .inr ⟨hd, hc, hw⟩⟩

/-! ### The fetch pointer -/

/-- Settles O59: by the invariant the pointer stays within `SIN`, and every move but the two resets of the half reads
forward. -/
theorem fetchPointerNeverGoesBack : Obligations.FetchPointerNeverGoesBack := by
  intro s t hi hst
  constructor
  · have hle := (stepKeepsTheInvariant s t hi hst).reader.idx_le
    unfold bitPos
    omega
  cases step_half hst with
  | reset hr rest ht => exact .inr ⟨by rw [ht]; rfl, .inl hr⟩
  | host a ha rest _ ht => exact .inl (by rw [ht, hostAct_frame ha]; exact le_rfl)
  | block u hu hm =>
    rw [← hu.bitPos]
    cases hm with
    | encodes hd _ => exact .inl (decHalf_eq hd).2.1.ge
    | clearsEncoder _ hd _ => exact .inl (decHalf_eq hd).2.1.ge
    | decodes _ _ _ _ hb _ => exact .inl (hb (hu.inv hi).reader)
    | clearsDecoder hw _ hd => exact .inr ⟨(decHalf_eq hd).2.1, .inr hw⟩

/-! ### The input -/

/-- A step leaves the input as the clock edge or the host's `sin_eos` makes it, or is one of the two clears. -/
def InputStep (s t : State) : Prop :=
  (s.brClosed = true ∧ t.brClosed = true ∧ t.sin = s.sin) ∨
    (s.brClosed = false ∧ s.sin <+: t.sin ∧
      (t.brClosed = true → s.hSin = [] ∧ (s.hEos = true ∨ s.hScript.head? = some (.driveEos true)))) ∨
    (t.sin = [] ∧ t.brClosed = false ∧ (ResetNext s ∨ AcceptsNext s clearDecoderWord))

/-- The clock edge on `sin`, with the move of the sequencer leaving the input alone. -/
theorem PortEdge.inputStep {s u t : State} (h : PortEdge s u) (ht : t.sin = u.sin ∧ t.brClosed = u.brClosed) :
    InputStep s t := by
  obtain ⟨haccepts, hclosed, hempty⟩ := h.input
  unfold InputStep
  rw [ht.1, ht.2]
  cases hc : s.brClosed with
  | true => exact .inl ⟨rfl, (hclosed hc).2.2, (hclosed hc).1⟩
  | false =>
    refine .inr (.inl ⟨rfl, ?_⟩)
    cases hb : s.hSin with
    | nil =>
      obtain ⟨hsin, -, hcl⟩ := hempty hb
      rw [hsin, hcl, hc]
      exact ⟨List.prefix_rfl, fun h => ⟨rfl, .inl h⟩⟩
    | cons b rest =>
      obtain ⟨hsin, -, hcl⟩ := haccepts b rest hb hc
      rw [hsin, hcl]
      exact ⟨List.prefix_append _ _, nofun⟩

/-- The host's own moves: only `sin_eos` reaches the input. -/
theorem hostAct_inputStep {a : HostAct} (ha : a ≠ .assertReset) {s : State} {rest : List HostAct}
    (hs : s.hScript = a :: rest) : InputStep s (hostAct a { s with hScript := rest }) := by
  have hsin : (hostAct a { s with hScript := rest }).sin = s.sin := by rw [hostAct_frame ha]
  unfold InputStep
  rw [hsin, hostAct_closed ha]
  cases hc : s.brClosed with
  | true => exact .inl ⟨rfl, rfl, rfl⟩
  | false =>
    refine .inr (.inl ⟨rfl, List.prefix_rfl, fun h => ?_⟩)
    simp only [Bool.false_or, Bool.and_eq_true, decide_eq_true_eq, List.isEmpty_iff] at h
    exact ⟨h.2, .inr (by rw [hs, h.1]; rfl)⟩

theorem step_inputStep {s t : State} (hst : step s = .next t) : InputStep s t := by
  cases step_half hst with
  | reset hr rest ht => exact .inr (.inr (by rw [ht]; exact ⟨rfl, rfl, .inl hr⟩))
  | host a ha rest hs ht => exact ht ▸ hostAct_inputStep ha hs
  | block u hu hm =>
    cases hm with
    | encodes hd _ => exact hu.inputStep (decHalf_eq hd).1
    | clearsEncoder _ hd _ => exact hu.inputStep (decHalf_eq hd).1
    | decodes _ _ hi _ _ _ => exact hu.inputStep hi
    | clearsDecoder hw _ hd =>
      obtain ⟨⟨hsin, hclosed⟩, -⟩ := decHalf_eq hd
      exact .inr (.inr ⟨hsin, hclosed, .inr hw⟩)

/-- Settles O58: the edge on `sin` and the host's `sin_eos` act on the input, the two resets of the half clear it, and
nothing else touches it. -/
theorem closedInputStaysClosed : Obligations.ClosedInputStaysClosed := by
  refine ⟨fun s t => step_inputStep, fun s u hu => (turn_block hu).2.input, fun s hs => ?_⟩
  show closeInput { s with hEos := true } = _
  rw [closeInput_eq, hs, List.isEmpty_nil, Bool.and_true, Bool.or_true]

/-! ### The outputs -/

/-- Settles O60: the moves of each half only append to its output, the clears empty it, and the clock edge takes the
bytes. -/
theorem outputsOnlyGrow : Obligations.OutputsOnlyGrow := by
  refine ⟨fun s t hst => ?_, fun s u hu => ?_⟩
  · cases step_half hst with
    | reset hr rest ht => exact ⟨.inr ⟨by rw [ht]; rfl, .inl hr⟩, .inr ⟨by rw [ht]; rfl, .inl hr⟩⟩
    | host a ha rest _ ht =>
      rw [ht, hostAct_frame ha]
      exact ⟨.inl List.prefix_rfl, .inl List.prefix_rfl⟩
    | block u hu hm =>
      obtain ⟨hsout, hpout⟩ := hu.outputs
      rw [← hsout, ← hpout]
      cases hm with
      | encodes hd hs => exact ⟨.inl hs, .inl (by rw [(decHalf_eq hd).2.2.1])⟩
      | clearsEncoder hw hd hs => exact ⟨.inr ⟨hs, .inr hw⟩, .inl (by rw [(decHalf_eq hd).2.2.1])⟩
      | decodes _ hs _ hp _ _ => exact ⟨.inl (by rw [hs]), .inl hp⟩
      | clearsDecoder hw hs hd => exact ⟨.inl (by rw [hs]), .inr ⟨(decHalf_eq hd).2.2.1, .inr hw⟩⟩
  · obtain ⟨-, hedge⟩ := turn_block hu
    exact ⟨hedge.outputs.1, hedge.outputs.2, fun _ => hedge.sout_takes, hedge.sout_holds, fun _ => hedge.pout_takes,
      hedge.pout_holds⟩

/-! ### STATUS and reset -/

/-- STATUS with the width of each field in view (10_state.md R38). -/
def statusWord (s : State) : BitVec (15 + 1 + 1 + 3 + 1 + 3 + 4 + 3 + 1) :=
  (0 : BitVec 15) ++ BitVec.ofBool s.brClosed ++ (0 : BitVec 1) ++ s.brLeft ++ (0 : BitVec 1) ++ s.bwFree ++ s.dcode
    ++ (0 : BitVec 3) ++ BitVec.ofBool s.derr

theorem sr0_bit (s : State) (i : Nat) : (sr0 s).getLsbD i = (statusWord s).getLsbD i := rfl
theorem sr0_field (s : State) (start len : Nat) :
    (sr0 s).extractLsb' start len = (statusWord s).extractLsb' start len := rfl

/-- Settles O49: each field of STATUS is found at its place among the fields below it. -/
theorem statusFields : Obligations.StatusFields := by
  intro s
  simp only [sr0_bit, sr0_field, statusWord, BitVec.getLsbD_append, BitVec.extractLsb'_append_eq_ite]
  refine ⟨?_, ?_, ?_, ?_, ?_, ?_, ?_, ?_, ?_, rfl⟩ <;> simp
/-- Settles O51: a reset block holds the values of the table, whatever it held before. -/
theorem resetValues : Obligations.ResetValues :=
  ⟨fun _ => ⟨rfl, rfl, rfl, rfl, rfl, rfl⟩, rfl, rfl, rfl, rfl, rfl, rfl, rfl, rfl⟩

end Sys2Proof.Machine
end

section
/-! The halves share nothing (10_state.md R20). A half of one state is put on the rest of another, and every operation of
that half commutes with this: what it does to the half, it does whatever the rest is, and the rest it leaves alone. -/

namespace Sys2Proof.Machine

/-- What follows an outcome's next state. -/
def mapNext (g : State → State) : Host.Outcome State Fault Refusal → Host.Outcome State Fault Refusal
  | .next t => .next (g t)
  | .fault r => .fault r
  | .refused r => .refused r

/-! ### The encoder half -/

/-- `d` with the encoder half of `e` and the bytes `e` has on `pin`. -/
def encoderOn (d e : State) : State :=
  { d with bwAcc := e.bwAcc, bwFree := e.bwFree, sout := e.sout, pin := e.pin, ccLen := e.ccLen, ccI := e.ccI,
           soutTaken := e.soutTaken, hPin := e.hPin }

/-- The same, with the sequencer standing where it stands in `e`. -/
def encoderRunOn (d e : State) : State := { encoderOn d e with activity := e.activity }

theorem encoderOn_eq {d e : State} (h : encHalf e = encHalf d) (hp : e.hPin = d.hPin) : encoderOn d e = d := by
  simp only [encHalf, Prod.mk.injEq] at h
  obtain ⟨h1, h2, h3, h4, h5, h6, h7⟩ := h
  rw [encoderOn, h1, h2, h3, h4, h5, h6, h7, hp]

theorem putBit_on (b : Bool) (d e : State) : putBit b (encoderOn d e) = encoderOn d (putBit b e) := by
  have hf : filled (encoderOn d e) = filled e := rfl
  unfold putBit
  rw [hf]
  dsimp only
  split_ifs <;> rfl

theorem writeBits_on (v : Arg) (c : Nat) (d e : State) :
    writeBits v c (encoderOn d e) = encoderOn d (writeBits v c e) := by
  induction c generalizing e with
  | zero => rfl
  | succ c ih => rw [writeBits, writeBits, putBit_on, ih]

theorem flush_on (d e : State) : flush (encoderOn d e) = encoderOn d (flush e) := by
  have hf : (encoderOn d e).bwFree = e.bwFree := rfl
  unfold flush
  rw [hf]
  split_ifs <;> rfl

theorem encodeCount_on (n : Arg) (d e : State) : encodeCount n (encoderOn d e) = encoderOn d (encodeCount n e) := by
  unfold encodeCount
  split_ifs <;> simp only [writeBits_on]

theorem emitRun_on (n : Arg) (d e : State) : emitRun n (encoderOn d e) = encoderOn d (emitRun n e) := by
  simp only [emitRun, writeBits_on, encodeCount_on]

theorem emitLit_on (b : Arg) (d e : State) : emitLit b (encoderOn d e) = encoderOn d (emitLit b e) := by
  simp only [emitLit, writeBits_on]

/-- An operation of the writer that commutes with the change of the rest does so in a running E_PLANE too. -/
theorem runOn_of_on {W : State → State} (hW : ∀ d e, W (encoderOn d e) = encoderOn d (W e))
    (ha : ∀ e, (W e).activity = e.activity) (d e : State) : W (encoderRunOn d e) = encoderRunOn d (W e) := by
  have h : W (encoderOn { d with activity := e.activity } e) = encoderOn { d with activity := (W e).activity } (W e) :=
    (hW _ e).trans (by rw [ha])
  exact h

theorem acceptPin_runOn (d e : State) : acceptPin (encoderRunOn d e) = (acceptPin e).map (encoderRunOn d) := by
  have hp : (encoderRunOn d e).hPin = e.hPin := rfl
  unfold acceptPin
  rw [hp]
  cases e.hPin with
  | nil => rfl
  | cons b rest =>
    show (if e.pin.length < e.ccLen.toNat then _ else _) = Option.map _ (if e.pin.length < e.ccLen.toNat then _ else _)
    split_ifs <;> rfl

theorem compressSeed_runOn (d e : State) :
    compressSeed (encoderRunOn d e) = (compressSeed e).map (encoderRunOn d) := by
  have hm : memRead (encoderRunOn d e).pin (encoderRunOn d e).ccI.toNat = memRead e.pin e.ccI.toNat := rfl
  unfold compressSeed
  rw [hm]
  cases memRead e.pin e.ccI.toNat with
  | none => exact acceptPin_runOn d e
  | some b =>
    dsimp only
    rw [runOn_of_on (writeBits_on (b.setWidth 32) Config.sampleW) (writeBits_activity _ _)]
    generalize writeBits (b.setWidth 32) Config.sampleW e = u
    rfl

theorem compressLiteral_runOn (d e : State) :
    compressLiteral (encoderRunOn d e) = (compressLiteral e).map (encoderRunOn d) := by
  have hm : memRead (encoderRunOn d e).pin (encoderRunOn d e).ccI.toNat = memRead e.pin e.ccI.toNat := rfl
  unfold compressLiteral
  rw [hm]
  cases memRead e.pin e.ccI.toNat with
  | none => exact acceptPin_runOn d e
  | some b =>
    dsimp only
    rw [runOn_of_on (emitLit_on (b.setWidth 32)) (emitLit_activity _)]
    generalize emitLit (b.setWidth 32) e = u
    rfl

theorem compressScan_runOn (d e : State) :
    compressScan (encoderRunOn d e) = (compressScan e).map (encoderRunOn d) := by
  have hm : detectRun (encoderRunOn d e) = detectRun e := rfl
  unfold compressScan
  rw [hm]
  cases detectRun e with
  | none => exact acceptPin_runOn d e
  | some run =>
    dsimp only
    split_ifs
    · rw [runOn_of_on (emitRun_on (BitVec.ofNat 32 run)) (emitRun_activity _)]
      generalize emitRun (BitVec.ofNat 32 run) e = u
      rfl
    · exact compressLiteral_runOn d e

theorem compressStep_runOn (d e : State) :
    compressStep (encoderRunOn d e) = (compressStep e).map (encoderRunOn d) := by
  have ha : (encoderRunOn d e).activity = e.activity := rfl
  have hi : (encoderRunOn d e).ccI = e.ccI := rfl
  have hl : (encoderRunOn d e).ccLen = e.ccLen := rfl
  unfold compressStep
  rw [ha, hi, hl]
  split_ifs
  · rfl
  · exact compressSeed_runOn d e
  · exact compressScan_runOn d e
  · rw [runOn_of_on flush_on flush_activity]
    rfl

theorem compressMoves_runOn (fuel : Nat) (d e : State) :
    compressMoves fuel (encoderRunOn d e) = encoderRunOn d (compressMoves fuel e) := by
  induction fuel generalizing e with
  | zero => rfl
  | succ fuel ih =>
    rw [compressMoves, compressMoves, compressStep_runOn]
    cases compressStep e with
    | none => rfl
    | some t => exact ih t

theorem reject_on (st : Status) (d e : State) :
    reject st (encoderOn d e) = mapNext (encoderRunOn d) (reject st e) := rfl

theorem respondAfterSout_on (st : Status) (val : Arg) (d u : State) :
    Host.Outcome.next (respondAfterSout st val (encoderOn d u)) =
      mapNext (encoderRunOn d) (.next (respondAfterSout st val u)) := rfl

/-- What a command of the E_ group does to the encoder half on one rest, it does on every rest. -/
theorem exec_encoderOn {i : Instr} (hi : isEncoderCommand i = true) (d e : State) :
    exec i (encoderOn d e) = mapNext (encoderRunOn d) (exec i e) := by
  cases i with
  | eWbits cnt arg =>
    show execEWbits cnt arg _ = mapNext _ (execEWbits cnt arg e)
    unfold execEWbits
    rw [writeBits_on]
    split_ifs
    exacts [reject_on _ d e, respondAfterSout_on _ _ d _]
  | eFlush cnt arg =>
    show execEFlush cnt arg _ = mapNext _ (execEFlush cnt arg e)
    unfold execEFlush
    rw [flush_on]
    split_ifs
    exacts [reject_on _ d e, respondAfterSout_on _ _ d _]
  | eGetb cnt arg =>
    show execEGetb cnt arg _ = mapNext _ (execEGetb cnt arg e)
    unfold execEGetb getBytes
    rw [flush_on]
    split_ifs
    exacts [reject_on _ d e, respondAfterSout_on _ _ d _]
  | eCount cnt arg =>
    show execECount cnt arg _ = mapNext _ (execECount cnt arg e)
    unfold execECount
    rw [encodeCount_on]
    split_ifs
    exacts [reject_on _ d e, reject_on _ d e, respondAfterSout_on _ _ d _]
  | eLit cnt arg =>
    show execELit cnt arg _ = mapNext _ (execELit cnt arg e)
    unfold execELit
    rw [emitLit_on]
    split_ifs
    exacts [reject_on _ d e, respondAfterSout_on _ _ d _]
  | eRun cnt arg =>
    show execERun cnt arg _ = mapNext _ (execERun cnt arg e)
    unfold execERun
    rw [emitRun_on]
    split_ifs
    exacts [reject_on _ d e, reject_on _ d e, respondAfterSout_on _ _ d _]
  | ePlane cnt arg =>
    have hs : startEncode arg (encoderOn d e) = encoderRunOn d (startEncode arg e) := rfl
    show execEPlane cnt arg _ = mapNext _ (execEPlane cnt arg e)
    unfold execEPlane
    rw [hs, compressMoves_runOn]
    split_ifs
    exacts [reject_on _ d e, rfl]
  | eClr cnt arg =>
    show execEClr cnt arg _ = mapNext _ (execEClr cnt arg e)
    unfold execEClr
    split_ifs <;> rfl
  | _ => cases hi

/-! ### The decoder half -/

/-- `d` with the decoder half of `e`, and the sequencer standing where it stands in `e`. -/
def decoderOn (d e : State) : State :=
  { d with sin := e.sin, brIdx := e.brIdx, brCur := e.brCur, brLeft := e.brLeft, brClosed := e.brClosed,
           cxLen := e.cxLen, cxN := e.cxN, cxLast := e.cxLast, pout := e.pout, derr := e.derr, dcode := e.dcode,
           tokAt := e.tokAt, poutTaken := e.poutTaken, activity := e.activity }

theorem decoderOn_eq {d e : State} (h : decHalf e = decHalf d) (ha : e.activity = d.activity) : decoderOn d e = d := by
  simp only [decHalf, readerPart, Prod.mk.injEq] at h
  obtain ⟨⟨h1, h2, h3, h4, h5⟩, h6, h7, h8, h9, h10, h11, h12, h13⟩ := h
  rw [decoderOn, h1, h2, h3, h4, h5, h6, h7, h8, h9, h10, h11, h12, h13, ha]

/-- The same read, with its state followed by `g`. -/
def Read.mapState {α : Type} (g : State → State) : Read α → Read α
  | .done a s => .done a (g s)
  | .waits s => .waits (g s)
  | .raises st info s => .raises st info (g s)
  | .pastEnd => .pastEnd

/-- The read `f` looks at the decoder half only, and leaves the rest alone. -/
def ReadsDecoder {α : Type} (f : State → Read α) : Prop :=
  ∀ d e, f (decoderOn d e) = (f e).mapState (decoderOn d)

/-- The operation `f` works on the decoder half only. -/
def RunsOnDecoder (f : State → Host.Outcome State Fault Refusal) : Prop :=
  ∀ d e, f (decoderOn d e) = mapNext (decoderOn d) (f e)

theorem ReadsDecoder.done {α : Type} {a : α} : ReadsDecoder fun s => .done a s := fun _ _ => rfl

theorem ReadsDecoder.raises {α : Type} {st : Status} {info : Arg} :
    ReadsDecoder fun s => (.raises st info s : Read α) := fun _ _ => rfl

theorem ReadsDecoder.andThen {α β : Type} {f : State → Read α} {k : α → State → Read β} (hf : ReadsDecoder f)
    (hk : ∀ a, ReadsDecoder (k a)) : ReadsDecoder fun s => (f s).andThen k := by
  intro d e
  dsimp only
  rw [hf d e]
  cases f e with
  | done a t => exact hk a d t
  | _ => rfl

theorem ReadsDecoder.toOutcome {α : Type} {f : State → Read α} {k : α → State → Host.Outcome State Fault Refusal}
    (hf : ReadsDecoder f) (hk : ∀ a, RunsOnDecoder (k a)) : RunsOnDecoder fun s => (f s).toOutcome k := by
  intro d e
  dsimp only
  rw [hf d e]
  cases f e with
  | done a t => exact hk a d t
  | _ => rfl

/-! ### The reads -/

theorem getBit_on (d e : State) :
    getBit (decoderOn d e) = (getBit e).map fun p => (p.1, decoderOn d p.2) := by
  have hm : memRead (decoderOn d e).sin (decoderOn d e).brIdx = memRead e.sin e.brIdx := rfl
  have hl : (decoderOn d e).brLeft = e.brLeft := rfl
  unfold getBit
  rw [hm, hl]
  split_ifs
  · cases memRead e.sin e.brIdx <;> rfl
  · rfl

theorem readGroup_on (v c : Nat) (d e : State) :
    readGroup v c (decoderOn d e) = (readGroup v c e).map fun p => (p.1, decoderOn d p.2) := by
  induction c generalizing v e with
  | zero => rfl
  | succ c ih =>
    rw [readGroup, readGroup, getBit_on]
    cases getBit e with
    | none => rfl
    | some p => exact ih _ p.2

theorem readField_reads (c : Nat) : ReadsDecoder (readField c) := by
  intro d e
  have hr : requireBits c (decoderOn d e) = requireBits c e := rfl
  unfold readField
  rw [hr, readGroup_on]
  cases requireBits c e with
  | enough => cases readGroup 0 c e <;> rfl
  | _ => rfl

theorem readAt_reads (f : TokField) : ReadsDecoder (readAt f) := by
  intro d e
  unfold readAt
  rw [readField_reads]
  cases readField (fieldWidth f) e <;> rfl

theorem readFields_reads (fs : List TokField) : ReadsDecoder (readFields fs) := by
  induction fs with
  | nil => exact .done
  | cons f fs ih => exact (readAt_reads f).andThen fun _ => ih

theorem consumeToken_reads (fs : List TokField) : ReadsDecoder (consumeToken fs) := fun d e =>
  ((readFields_reads (fs.dropWhile (· != e.tokAt))).andThen fun _ _ _ => rfl) d e

theorem decodeCountC16_reads : ReadsDecoder decodeCountC16 :=
  (readAt_reads .c16).andThen fun v => by
    split_ifs
    exacts [.done, .raises]

theorem decodeCountC8_reads : ReadsDecoder decodeCountC8 :=
  (readAt_reads .c8).andThen fun v => by
    split_ifs
    exacts [.done, decodeCountC16_reads]

theorem decodeCountC4_reads : ReadsDecoder decodeCountC4 :=
  (readAt_reads .c4).andThen fun v => by
    split_ifs
    exacts [.done, decodeCountC8_reads]

theorem decodeCount_reads : ReadsDecoder decodeCount :=
  (readAt_reads .c2).andThen fun v => by
    split_ifs
    exacts [.done, decodeCountC4_reads]

theorem asRun_reads {f : State → Read Nat} (hf : ReadsDecoder f) : ReadsDecoder fun s => asRun (f s) :=
  hf.andThen fun _ => .done

theorem readTokenSample_reads : ReadsDecoder readTokenSample := (readAt_reads .sample).andThen fun _ => .done

theorem readToken_reads : ReadsDecoder readToken :=
  (readAt_reads .tag).andThen fun v => by
    split_ifs
    exacts [readTokenSample_reads, asRun_reads decodeCount_reads, .raises]

theorem resumeCount_reads : ReadsDecoder resumeCount := by
  intro d e
  have ht : (decoderOn d e).tokAt = e.tokAt := rfl
  unfold resumeCount
  rw [ht]
  cases e.tokAt
  exacts [decodeCount_reads d e, decodeCount_reads d e, decodeCount_reads d e, decodeCountC4_reads d e,
    decodeCountC8_reads d e, decodeCountC16_reads d e]

theorem resumeToken_reads : ReadsDecoder resumeToken := by
  intro d e
  have ht : (decoderOn d e).tokAt = e.tokAt := rfl
  unfold resumeToken
  rw [ht]
  cases e.tokAt
  exacts [readToken_reads d e, readTokenSample_reads d e, asRun_reads decodeCount_reads d e,
    asRun_reads decodeCountC4_reads d e, asRun_reads decodeCountC8_reads d e, asRun_reads decodeCountC16_reads d e]

/-! ### The tokens -/

theorem execSeed_runs (b : Byte) : RunsOnDecoder (execSeed b) :=
  (readField_reads _).toOutcome fun _ _ _ => rfl

theorem execLit_runs (b : Byte) : RunsOnDecoder (execLit b) :=
  (consumeToken_reads _).toOutcome fun _ _ _ => rfl

theorem runOf_runs (fields : List TokField) (count : Nat) : RunsOnDecoder (runOf fields count) :=
  (consumeToken_reads fields).toOutcome fun _ d e => by
    have hr : remaining (decoderOn d e) = remaining e := rfl
    rw [hr, emitLast_eq, emitLast_eq]
    split_ifs <;> rfl

theorem illegal_runs (fields : List TokField) (st : Status) (info : Arg) :
    RunsOnDecoder fun s => (consumeToken fields s).toOutcome fun _ u => .next (faultEntry st info u) :=
  (consumeToken_reads fields).toOutcome fun _ _ _ => rfl

theorem execWire_runs (i : Instr) : RunsOnDecoder (execWire i) := by
  cases i with
  | seed b => exact execSeed_runs b
  | lit b => exact execLit_runs b
  | runT1 c => exact runOf_runs _ _
  | runT2 c => exact runOf_runs _ _
  | runT3 c => exact runOf_runs _ _
  | runT4 c => exact runOf_runs _ _
  | illegalTag00 => exact illegal_runs _ _ _
  | illegalTag11 => exact illegal_runs _ _ _
  | illegalZeroCount => exact illegal_runs _ _ _
  | _ => exact fun _ _ => rfl

theorem fetchShort_runs (r : Reject) : RunsOnDecoder (fetchShort r) := by
  have token : ∀ fields, RunsOnDecoder fun s => (consumeToken fields s).toOutcome fun _ u => .next u :=
    fun fields => (consumeToken_reads fields).toOutcome fun _ _ _ => rfl
  cases r with
  | shortSeed => exact (readField_reads _).toOutcome fun _ _ _ => rfl
  | wideCommand => exact fun _ _ => rfl
  | _ => exact token _

theorem expandWith_runs : RunsOnDecoder (expandWith execWire) := by
  intro d e
  have hf : fetch (decoderOn d e) = fetch e := rfl
  have hn : (decoderOn d e).cxN = e.cxN := rfl
  have hl : (decoderOn d e).cxLen = e.cxLen := rfl
  unfold expandWith
  rw [hf, hn, hl]
  split_ifs
  · cases fetch e with
    | ok i => exact execWire_runs i d e
    | error r => exact fetchShort_runs r d e
  · rfl

theorem expandMoves_runs (fuel : Nat) : RunsOnDecoder (expandMoves fuel) := by
  induction fuel with
  | zero => exact fun _ _ => rfl
  | succ fuel ih =>
    intro d e
    have hn : (decoderOn d e).cxN = e.cxN := rfl
    rw [expandMoves, expandMoves, expandWith_runs, hn]
    cases expandWith execWire e with
    | next t =>
      show (if t.activity = .dPlane ∧ t.cxN ≠ e.cxN then _ else _) = _
      dsimp only
      split_ifs
      · exact ih d t
      · rfl
    | _ => rfl

/-! ### The commands -/

/-- What a command of the D_ group or a token does to the decoder half on one rest, it does on every rest. -/
theorem exec_runsOnDecoder {i : Instr} (hi : isDecoderInstr i = true) : RunsOnDecoder (exec i) := by
  intro d e
  have hd : (decoderOn d e).derr = e.derr := rfl
  cases i with
  | dRbits cnt arg =>
    have hrun : RunsOnDecoder (runRbits cnt) := (readField_reads _).toOutcome fun _ _ _ => rfl
    show execDRbits cnt arg _ = mapNext _ (execDRbits cnt arg e)
    unfold execDRbits
    rw [hd]
    split_ifs
    exacts [rfl, rfl, rfl, hrun d { e with activity := .dRbits cnt }]
  | dAlign cnt arg =>
    show execDAlign cnt arg _ = mapNext _ (execDAlign cnt arg e)
    unfold execDAlign
    rw [hd]
    split_ifs <;> rfl
  | dCount cnt arg =>
    have hrun : RunsOnDecoder runCount := resumeCount_reads.toOutcome fun _ _ _ => rfl
    show execDCount cnt arg _ = mapNext _ (execDCount cnt arg e)
    unfold execDCount
    rw [hd]
    split_ifs
    exacts [rfl, rfl, hrun d { e with activity := .dCount, tokAt := .c2 }]
  | dToken cnt arg =>
    have hrun : RunsOnDecoder runToken := resumeToken_reads.toOutcome fun _ _ _ => rfl
    show execDToken cnt arg _ = mapNext _ (execDToken cnt arg e)
    unfold execDToken
    rw [hd]
    split_ifs
    exacts [rfl, rfl, hrun d { e with activity := .dToken, tokAt := .tag }]
  | dPlane cnt arg =>
    show execDPlane cnt arg _ = mapNext _ (execDPlane cnt arg e)
    unfold execDPlane
    rw [hd]
    split_ifs
    exacts [rfl, rfl, expandMoves_runs _ d (startDecode arg e)]
  | dClr cnt arg =>
    show execDClr cnt arg _ = mapNext _ (execDClr cnt arg e)
    unfold execDClr
    split_ifs <;> rfl
  | seed | lit | runT1 | runT2 | runT3 | runT4 | illegalTag00 | illegalTag11 | illegalZeroCount =>
    rw [exec_wire rfl, exec_wire rfl]
    exact execWire_runs _ d e
  | _ => cases hi

/-- RDSR only presents a response (46_system_commands.md R252). -/
theorem exec_rdsr_responds {cnt : Cnt} {arg : Arg} {s t : State} (h : exec (.rdsr cnt arg) s = .next t) :
    ∃ st val, t = respond st val s := by
  change execRdsr cnt arg s = _ at h
  unfold execRdsr at h
  split_ifs at h
  · cases h
    exact ⟨_, _, rfl⟩
  · split at h <;> cases h <;> exact ⟨_, _, rfl⟩

/-- Settles O55: each half put on its own rest gives the frame, and put on the rest of the other state gives the
independence. -/
theorem halvesShareNothing : Obligations.HalvesShareNothing := by
  refine ⟨fun i s s' t hi he hp h => ⟨?_, ?_⟩, fun i s s' t hi he ha h => ⟨?_, ?_⟩, fun cnt arg s t h => ?_⟩
  · have hs := exec_encoderOn hi s s
    rw [encoderOn_eq rfl rfl, h] at hs
    rw [Host.Outcome.next.inj hs]
    rfl
  · have hs := exec_encoderOn hi s' s
    rw [encoderOn_eq he hp, h] at hs
    exact ⟨_, hs, rfl, rfl, rfl⟩
  · have hs := exec_runsOnDecoder hi s s
    rw [decoderOn_eq rfl rfl, h] at hs
    rw [Host.Outcome.next.inj hs]
    rfl
  · have hs := exec_runsOnDecoder hi s' s
    rw [decoderOn_eq he ha, h] at hs
    exact ⟨_, hs, rfl, rfl⟩
  · obtain ⟨st, val, rfl⟩ := exec_rdsr_responds h
    exact ⟨rfl, rfl⟩

end Sys2Proof.Machine
end

section
/-! A read that is given more bytes, or the close of the input, goes on as it would have with them from the start
(20_memory.md R71; 41_bit_reader.md R154). A read of a token or a count is a chain of reads of fields, and a wait is
marked with the field it is at, so it is enough to follow the chain. -/

namespace Sys2Proof.Machine

/-! ### A reader with more bytes behind it -/

/-- `e`'s decoder half on the rest of `d`, with the bytes `more` after its `SIN` and `BR.closed` as `closed` says. -/
def given (d : State) (more : List Byte) (closed : Bool) (e : State) : State :=
  decoderOn d { e with sin := e.sin ++ more, brClosed := closed, poutTaken := d.poutTaken }

/-- The state with the mark of the field moved. -/
def mark (f : TokField) (s : State) : State := { s with tokAt := f }

/-- `g` leaves the next bit of the reader as it is. -/
def KeepsBits (g : State → State) : Prop := ∀ e b t, getBit e = some (b, t) → getBit (g e) = some (b, g t)

theorem given_keepsBits (d : State) (more : List Byte) (closed : Bool) : KeepsBits (given d more closed) := by
  intro e b t h
  have hl : (given d more closed e).brLeft = e.brLeft := rfl
  have hm : memRead (given d more closed e).sin (given d more closed e).brIdx = (e.sin ++ more)[e.brIdx]? := rfl
  unfold getBit at h ⊢
  rw [hl, hm]
  split_ifs at h ⊢
  · cases hb : memRead e.sin e.brIdx with
    | none => rw [hb] at h; cases h
    | some c =>
      rw [hb] at h
      obtain ⟨hlt, -⟩ := List.getElem?_eq_some_iff.mp hb
      rw [List.getElem?_append_left hlt, show e.sin[e.brIdx]? = some c from hb]
      cases h
      rfl
  · cases h
    rfl

theorem mark_keepsBits (f : TokField) : KeepsBits (mark f) := by
  intro e b t h
  have hl : (mark f e).brLeft = e.brLeft := rfl
  have hm : memRead (mark f e).sin (mark f e).brIdx = memRead e.sin e.brIdx := rfl
  unfold getBit at h ⊢
  rw [hl, hm]
  split_ifs at h ⊢
  · cases hb : memRead e.sin e.brIdx <;> rw [hb] at h <;> cases h
    rfl
  · cases h
    rfl

theorem readGroup_keepsBits {g : State → State} (hg : KeepsBits g) {v c n : Nat} {e t : State}
    (h : readGroup v c e = some (n, t)) : readGroup v c (g e) = some (n, g t) := by
  induction c generalizing v e with
  | zero =>
    cases h
    rfl
  | succ c ih =>
    rw [readGroup] at h ⊢
    cases hb : getBit e with
    | none => rw [hb] at h; cases h
    | some p =>
      rw [hb] at h
      rw [hg e p.1 p.2 hb]
      exact ih h

/-- Where `require_bits` finds the same, `read_bits` reads the same. -/
theorem readField_keepsBits {g : State → State} (hg : KeepsBits g) {c : Nat} {e : State}
    (h : requireBits c (g e) = requireBits c e) : readField c (g e) = (readField c e).mapState g := by
  have hne := readField_ne_pastEnd c e
  unfold readField at hne ⊢
  rw [h]
  cases hr : requireBits c e with
  | enough =>
    rw [hr] at hne
    dsimp only at hne ⊢
    cases hgroup : readGroup 0 c e with
    | none => rw [hgroup] at hne; exact absurd rfl hne
    | some p =>
      rw [readGroup_keepsBits hg hgroup]
      rfl
  | _ => rfl

/-- The read `r` at `e` has all its bits, or `more` and `closed` are what `e` has already. -/
def NeedsNoMore (more : List Byte) (closed : Bool) (e : State) {α : Type} (r : Read α) : Prop :=
  (∃ a t, r = .done a t) ∨ more = [] ∧ closed = e.brClosed

theorem readField_done_iff {c : Nat} {e : State} : (∃ v t, readField c e = .done v t) ↔ c ≤ avail e := by
  rw [← toRead_length]
  refine ⟨fun ⟨v, t, h⟩ => ?_, fun h => ?_⟩
  · by_contra hc
    rw [readField_short (by omega)] at h
    split_ifs at h
  · obtain ⟨t, ht, -⟩ := readField_enough h
    exact ⟨_, t, ht⟩

theorem readField_given {d : State} {more : List Byte} {closed : Bool} {c : Nat} {e : State}
    (h : NeedsNoMore more closed e (readField c e)) :
    readField c (given d more closed e) = (readField c e).mapState (given d more closed) := by
  have ha : avail (given d more closed e) = 8 * ((e.sin ++ more).length - e.brIdx) + e.brLeft.toNat := rfl
  have hc : (given d more closed e).brClosed = closed := rfl
  refine readField_keepsBits (given_keepsBits d more closed) ?_
  unfold requireBits
  rw [ha, hc]
  rcases h with h | ⟨rfl, rfl⟩
  · have henough := readField_done_iff.mp h
    rw [if_pos henough, if_pos (by rw [List.length_append]; unfold avail at henough; omega)]
  · rw [List.append_nil]
    rfl

/-! ### Chains of fields -/

/-- The read without the mark of the field, where it does not wait: a command that goes on, or faults, moves it. -/
def Read.unmark {α : Type} : Read α → Read α
  | .done a s => .done a (mark .tag s)
  | .waits s => .waits s
  | .raises st info s => .raises st info (mark .tag s)
  | .pastEnd => .pastEnd

/-- A command that ends at a token boundary does not look at the mark of the field. -/
theorem Read.toOutcome_congr {α : Type} {r r' : Read α} (h : r.unmark = r'.unmark)
    (k : α → State → Host.Outcome State Fault Refusal) :
    (r.toOutcome fun a s => k a (mark .tag s)) = r'.toOutcome fun a s => k a (mark .tag s) := by
  have hr : ∀ r : Read α,
      (r.toOutcome fun a s => k a (mark .tag s)) = r.unmark.toOutcome fun a s => k a (mark .tag s) :=
    fun r => by cases r <;> rfl
  rw [hr r, hr r', h]

theorem Read.andThen_assoc {α β γ : Type} (r : Read α) (k : α → State → Read β) (l : β → State → Read γ) :
    (r.andThen k).andThen l = r.andThen fun a s => (k a s).andThen l := by
  cases r <;> rfl

/-- A read that is a chain of fields, with values that satisfy `ok`; `resume` takes it up again at the field it is
marked with (log entry 5). -/
inductive FieldRead {α : Type} (resume : State → Read α) (ok : α → Prop) : (State → Read α) → Prop where
  | done {a : α} (ha : ok a) : FieldRead resume ok fun s => .done a s
  | raises (st : Status) (info : Arg) : FieldRead resume ok fun s => .raises st info s
  | field {f : TokField} {k : Nat → State → Read α} (hr : ∀ s, s.tokAt = f → resume s = (readAt f s).andThen k)
      (hk : ∀ v, FieldRead resume ok (k v)) : FieldRead resume ok fun s => (readAt f s).andThen k

theorem readAt_waits {f : TokField} {s t : State} (h : readAt f s = .waits t) : t = mark f s := by
  cases hf : takeField (fieldWidth f) (toRead s) with
  | some p =>
    obtain ⟨u, hu, -⟩ := readAt_some hf
    rw [hu] at h
    cases h
  | none =>
    rw [readAt_none hf] at h
    split_ifs at h
    cases h
    rfl

theorem readAt_done {f : TokField} {s t : State} {v : Nat} (h : readAt f s = .done v t) :
    readField (fieldWidth f) s = .done v t := by
  unfold readAt at h
  cases hr : readField (fieldWidth f) s <;> rw [hr] at h <;> cases h
  rfl

theorem readAt_given {d : State} {more : List Byte} {closed : Bool} {f : TokField} {e : State}
    (h : NeedsNoMore more closed e (readAt f e)) :
    readAt f (given d more closed e) = (readAt f e).mapState (given d more closed) := by
  have hf : NeedsNoMore more closed e (readField (fieldWidth f) e) :=
    h.imp_left fun ⟨v, t, ht⟩ => ⟨v, t, readAt_done ht⟩
  unfold readAt
  rw [readField_given hf]
  cases readField (fieldWidth f) e <;> rfl

theorem readField_mark (c : Nat) (m : TokField) (s : State) :
    readField c (mark m s) = (readField c s).mapState (mark m) :=
  readField_keepsBits (mark_keepsBits m) rfl

section chains
variable {α : Type} {resume : State → Read α} {ok : α → Prop} {f : State → Read α} (hf : FieldRead resume ok f)
include hf

theorem FieldRead.ok_of_done {s t : State} {a : α} (h : f s = .done a t) : ok a := by
  induction hf generalizing s with
  | done ha =>
    cases h
    exact ha
  | raises st info => cases h
  | @field f k hr hk ih =>
    dsimp only at h
    cases hread : readAt f s <;> rw [hread] at h
    case done v u => exact ih v h
    all_goals cases h

/-- A chain that has all its bits reads the same ones with more behind them; one that has not stays short if none are
added. -/
theorem FieldRead.reads_given {d : State} {more : List Byte} {closed : Bool} {e : State}
    (h : NeedsNoMore more closed e (f e)) : f (given d more closed e) = (f e).mapState (given d more closed) := by
  induction hf generalizing e with
  | done ha => rfl
  | raises st info => rfl
  | @field f k hr hk ih =>
    dsimp only at h ⊢
    have hread : NeedsNoMore more closed e (readAt f e) := by
      rcases h with ⟨a, t, h⟩ | h
      · cases hread : readAt f e <;> rw [hread] at h
        case done v u => exact .inl ⟨v, u, rfl⟩
        all_goals cases h
      · exact .inr h
    rw [readAt_given hread]
    have hfrom := readAt_from f e
    cases hv : readAt f e with
    | done v u =>
      rw [hv] at h hfrom
      obtain ⟨n, hn⟩ := hfrom
      exact ih v (h.imp_right fun ⟨hm, hc⟩ => ⟨hm, hc.trans hn.closed.symm⟩)
    | _ => rfl

theorem FieldRead.unmark_mark (m : TokField) (s : State) : (f (mark m s)).unmark = (f s).unmark := by
  induction hf generalizing s with
  | done ha => rfl
  | raises st info => rfl
  | @field f k hr hk ih =>
    dsimp only
    unfold readAt
    rw [readField_mark]
    cases readField (fieldWidth f) s with
    | done v u => exact ih v u
    | _ => rfl

/-- A chain that waited, and is given more, goes on as it would have with them from the start. -/
theorem FieldRead.resumes {d : State} {more : List Byte} {closed : Bool} {s t : State} (h : f s = .waits t) :
    (resume (given d more closed t)).unmark = (f (given d more closed s)).unmark := by
  induction hf generalizing s with
  | done ha => cases h
  | raises st info => cases h
  | @field f k hr hk ih =>
    dsimp only at h ⊢
    cases hread : readAt f s with
    | done v u =>
      rw [hread] at h
      rw [readAt_given (.inl ⟨v, u, hread⟩), hread]
      exact ih v h
    | waits u =>
      have hu := readAt_waits hread
      rw [hread] at h
      cases h
      rw [hr _ (by rw [hu]; rfl), hu]
      exact (FieldRead.field hr hk).unmark_mark f (given d more closed s)
    | raises st info u => rw [hread] at h; cases h
    | pastEnd => rw [hread] at h; cases h

end chains

/-! ### Counts and tokens are chains of fields -/

/-- `resume` takes a count followed by `k` up again at each of its four fields (42_count_codec.md R173). -/
structure ResumesCount {α : Type} (resume : State → Read α) (k : Nat → State → Read α) : Prop where
  c2 : ∀ s, s.tokAt = .c2 → resume s = (decodeCount s).andThen k
  c4 : ∀ s, s.tokAt = .c4 → resume s = (decodeCountC4 s).andThen k
  c8 : ∀ s, s.tokAt = .c8 → resume s = (decodeCountC8 s).andThen k
  c16 : ∀ s, s.tokAt = .c16 → resume s = (decodeCountC16 s).andThen k

section counts
variable {α : Type} {resume : State → Read α} {ok : α → Prop} {k : Nat → State → Read α}
  (h : ResumesCount resume k) (hk : ∀ n, n ≠ 0 → FieldRead resume ok (k n))
include h hk

theorem decodeCountC16_fieldRead : FieldRead resume ok fun s => (decodeCountC16 s).andThen k := by
  have h16 := h.c16
  simp only [decodeCountC16, Read.andThen_assoc] at h16 ⊢
  refine .field h16 fun v => ?_
  by_cases hv : v = 0
  · simpa [hv, Read.andThen] using .raises .zerocount 0
  · simpa [hv, Read.andThen] using hk v hv

theorem decodeCountC8_fieldRead : FieldRead resume ok fun s => (decodeCountC8 s).andThen k := by
  have h8 := h.c8
  simp only [decodeCountC8, Read.andThen_assoc] at h8 ⊢
  refine .field h8 fun v => ?_
  by_cases hv : v = 0
  · simpa [hv] using decodeCountC16_fieldRead h hk
  · simpa [hv, Read.andThen] using hk v hv

theorem decodeCountC4_fieldRead : FieldRead resume ok fun s => (decodeCountC4 s).andThen k := by
  have h4 := h.c4
  simp only [decodeCountC4, Read.andThen_assoc] at h4 ⊢
  refine .field h4 fun v => ?_
  by_cases hv : v = 0
  · simpa [hv] using decodeCountC8_fieldRead h hk
  · simpa [hv, Read.andThen] using hk (v + Config.t2Bias) (by omega)

theorem decodeCount_fieldRead : FieldRead resume ok fun s => (decodeCount s).andThen k := by
  have h2 := h.c2
  simp only [decodeCount, Read.andThen_assoc] at h2 ⊢
  refine .field h2 fun v => ?_
  by_cases hv : v = 0
  · simpa [hv] using decodeCountC4_fieldRead h hk
  · simpa [hv, Read.andThen] using hk v hv

end counts

theorem Read.andThen_done {α : Type} (r : Read α) : (r.andThen fun a s => .done a s) = r := by cases r <;> rfl

/-- `decode_count` as D_COUNT resumes it; it never yields 0 (R174). -/
theorem decodeCount_chain : FieldRead resumeCount (· ≠ 0) decodeCount := by
  have h : ResumesCount resumeCount fun n s => .done n s := by
    constructor <;> intro s hs <;> rw [resumeCount, hs, Read.andThen_done]
  simpa only [Read.andThen_done] using decodeCount_fieldRead h fun n hn => .done hn

/-- `read_token` from the field `f` on. -/
def tokenFrom : TokField → State → Read TokenRead
  | .tag => readToken
  | .sample => readTokenSample
  | .c2 => fun s => asRun (decodeCount s)
  | .c4 => fun s => asRun (decodeCountC4 s)
  | .c8 => fun s => asRun (decodeCountC8 s)
  | .c16 => fun s => asRun (decodeCountC16 s)

theorem resumeToken_eq (s : State) : resumeToken s = tokenFrom s.tokAt s := by
  unfold resumeToken
  cases s.tokAt <;> rfl

theorem resumeToken_at {s : State} {f : TokField} (h : s.tokAt = f) : resumeToken s = tokenFrom f s := by
  rw [resumeToken_eq, h]

/-- `read_token` from any field on, as D_TOKEN resumes it; a run is never of 0 (43_token_mux.md R195). -/
theorem tokenFrom_chain (f : TokField) : FieldRead resumeToken (· ≠ .run 0) (tokenFrom f) := by
  have hcount : ResumesCount resumeToken fun n s => .done (.run n) s :=
    ⟨fun _ => resumeToken_at, fun _ => resumeToken_at, fun _ => resumeToken_at, fun _ => resumeToken_at⟩
  have hrun : ∀ n, n ≠ 0 → FieldRead resumeToken (· ≠ .run 0) fun s => .done (.run n) s :=
    fun n hn => .done fun h => hn (TokenRead.run.inj h)
  have hsample : FieldRead resumeToken (· ≠ .run 0) readTokenSample :=
    .field (fun _ => resumeToken_at) fun _ => .done nofun
  cases f with
  | tag =>
    refine .field (fun _ => resumeToken_at) fun v => ?_
    split_ifs
    exacts [hsample, decodeCount_fieldRead hcount hrun, .raises _ _]
  | sample => exact hsample
  | c2 => exact decodeCount_fieldRead hcount hrun
  | c4 => exact decodeCountC4_fieldRead hcount hrun
  | c8 => exact decodeCountC8_fieldRead hcount hrun
  | c16 => exact decodeCountC16_fieldRead hcount hrun

/-! ### The commands that read -/

/-- Only the reader has moved, so what `s` and `u` are given leads to the same state. -/
theorem ReaderMove.given_eq {s u : State} (h : ReaderMove s u) (more : List Byte) (closed : Bool) :
    given s more closed u = { u with sin := u.sin ++ more, brClosed := closed } := by
  rw [h.frame]
  rfl

/-- A chain that waited in a command, and is given more, leads to what it would have with them from the start. -/
theorem FieldRead.outcome_resumes {α : Type} {resume start : State → Read α} {ok : α → Prop}
    (hf : FieldRead resume ok start) {s t : State} (hw : start s = .waits t) (hm : ReaderMove s t) (more : List Byte)
    (closed : Bool) (k : α → State → Host.Outcome State Fault Refusal) :
    ((resume { t with sin := t.sin ++ more, brClosed := closed }).toOutcome fun a u => k a (mark .tag u)) =
      (start { s with sin := s.sin ++ more, brClosed := closed }).toOutcome fun a u => k a (mark .tag u) := by
  rw [← hm.given_eq]
  exact Read.toOutcome_congr (hf.resumes (d := s) hw) k

/-- A command that reads and is still reading has waited: when its read is done it responds. -/
theorem toOutcome_reading {α : Type} {s t : State} {r : Read α} {k : α → State → Host.Outcome State Fault Refusal}
    (hr : r.From s) (h : r.toOutcome k = .next t) (ht : readsInput t.activity = true)
    (hk : ∀ a u, k a u = .next t → readsInput t.activity = false) : r = .waits t ∧ ReaderMove s t := by
  rcases toOutcome_next hr h with ⟨a, u, -, -, hku⟩ | hw | ⟨st, info, u, -, -, rfl⟩
  · rw [hk a u hku] at ht
    cases ht
  · exact hw
  · cases ht

theorem exec_dRbits (cnt : Cnt) (s : State) : exec (.dRbits cnt 0) s =
    if s.derr then reject .halted s else if groupTooWide cnt then reject .badarg s
    else runRbits cnt { s with activity := .dRbits cnt } := rfl

theorem exec_dCount (s : State) : exec (.dCount 0 0) s =
    if s.derr then reject .halted s else runCount { s with activity := .dCount, tokAt := .c2 } := rfl

theorem sequencer_dCount {s : State} (h : s.activity = .dCount) : sequencer exec s = runCount s := by
  rw [sequencer, h]

theorem sequencer_dToken {s : State} (h : s.activity = .dToken) : sequencer exec s = runToken s := by
  rw [sequencer, h]

theorem exec_dToken (s : State) : exec (.dToken 0 0) s =
    if s.derr then reject .halted s else runToken { s with activity := .dToken, tokAt := .tag } := rfl

/-- `read_bits` waits where it starts (R154). -/
theorem readField_waits {c : Nat} {s t : State} (h : readField c s = .waits t) : t = s := by
  by_cases hc : c ≤ (toRead s).length
  · obtain ⟨u, hu, -⟩ := readField_enough hc
    rw [hu] at h
    cases h
  · rw [readField_short (by omega)] at h
    split_ifs at h
    cases h
    rfl

theorem dRbits_resumes {cnt : Cnt} {s t : State} (more : List Byte) (closed : Bool)
    (h : exec (.dRbits cnt 0) s = .next t) (ht : readsInput t.activity = true) :
    sequencer exec { t with sin := t.sin ++ more, brClosed := closed } =
      exec (.dRbits cnt 0) { s with sin := s.sin ++ more, brClosed := closed } := by
  rw [exec_dRbits] at h ⊢
  split_ifs at h ⊢
  · cases h; cases ht
  · cases h; cases ht
  · obtain ⟨hw, -⟩ := toOutcome_reading (readField_from _ _) h ht fun v u hk => by cases hk; rfl
    rw [readField_waits hw]
    rfl

theorem dCount_resumes {s t : State} (more : List Byte) (closed : Bool) (h : exec (.dCount 0 0) s = .next t)
    (ht : readsInput t.activity = true) :
    sequencer exec { t with sin := t.sin ++ more, brClosed := closed } =
      exec (.dCount 0 0) { s with sin := s.sin ++ more, brClosed := closed } := by
  rw [exec_dCount] at h ⊢
  split_ifs at h ⊢
  · cases h; cases ht
  · obtain ⟨hw, hm⟩ := toOutcome_reading (resumeCount_from _) h ht fun v u hk => by cases hk; rfl
    refine Eq.trans (sequencer_dCount hm.activity) ?_
    exact decodeCount_chain.outcome_resumes hw hm more closed fun n u => .next (respond .ok (BitVec.ofNat 32 n) u)

theorem dToken_resumes {s t : State} (more : List Byte) (closed : Bool) (h : exec (.dToken 0 0) s = .next t)
    (ht : readsInput t.activity = true) :
    sequencer exec { t with sin := t.sin ++ more, brClosed := closed } =
      exec (.dToken 0 0) { s with sin := s.sin ++ more, brClosed := closed } := by
  rw [exec_dToken] at h ⊢
  split_ifs at h ⊢
  · cases h; cases ht
  · obtain ⟨hw, hm⟩ := toOutcome_reading (resumeToken_from _) h ht fun v u hk => by cases hk; rfl
    refine Eq.trans (sequencer_dToken hm.activity) ?_
    exact (tokenFrom_chain .tag).outcome_resumes hw hm more closed fun tok u => .next (respond .ok (tokenVal tok) u)

/-- Settles O31: the reads of the three commands are one field or a chain of fields, and each is taken up again at the
field it is marked with. -/
theorem readsResumeWhereTheyWaited : Obligations.ReadsResumeWhereTheyWaited := by
  rintro i s t more closed (⟨cnt, rfl⟩ | rfl | rfl) h ht
  · exact dRbits_resumes more closed h ht
  · exact dCount_resumes more closed h ht
  · exact dToken_resumes more closed h ht

end Sys2Proof.Machine
end

section
/-! A running D_PLANE fetches a token and then executes it (45_channel_decoder.md R234, R236). Here this is shown to be
what `read_token` does (43_token_mux.md R195), followed by the output of what it has read: the fetch looks ahead at the
fields that the execution then reads. So what is known of a read that waits holds of D_PLANE. -/

namespace Sys2Proof.Machine

/-! ### Where a field leads -/

/-- What the value of a field of a token decides: the instruction, or the field that comes next (30_encoding.md R94). -/
def fieldLeads : TokField → Nat → Instr ⊕ TokField
  | .tag, v =>
    if v = Config.tagLit then .inr .sample else if v = Config.tagRun then .inr .c2
    else if v = 0 then .inl .illegalTag00 else .inl .illegalTag11
  | .sample, v => .inl (.lit (BitVec.ofNat 8 v))
  | .c2, v => if v ≠ 0 then .inl (.runT1 (BitVec.ofNat 2 v)) else .inr .c4
  | .c4, v => if v ≠ 0 then .inl (.runT2 (BitVec.ofNat 4 v)) else .inr .c8
  | .c8, v => if v ≠ 0 then .inl (.runT3 (BitVec.ofNat 8 v)) else .inr .c16
  | .c16, v => .inl (if v ≠ 0 then .runT4 (BitVec.ofNat 16 v) else .illegalZeroCount)

/-- The fields that lead to another one, with the value that does. -/
inductive NextField : TokField → Nat → TokField → Prop where
  | sample : NextField .tag 1 .sample
  | c2 : NextField .tag 2 .c2
  | c4 : NextField .c2 0 .c4
  | c8 : NextField .c4 0 .c8
  | c16 : NextField .c8 0 .c16

theorem fieldLeads_next {f f' : TokField} {v : Nat} (h : fieldLeads f v = .inr f') : NextField f v f' := by
  cases f with
  | sample => cases h
  | c16 => cases h
  | tag =>
    simp only [fieldLeads] at h
    split_ifs at h with h1 h2 <;> cases h
    exacts [h1 ▸ .sample, h2 ▸ .c2]
  | c2 | c4 | c8 =>
    simp only [fieldLeads] at h
    split_ifs at h with h0
    cases h
    rw [not_not.mp h0]
    constructor

/-- The next field follows the fields before this one, and this one (R91). -/
theorem NextField.fields {f f' : TokField} {v : Nat} (h : NextField f v f') :
    fieldsBefore f' = fieldsBefore f ++ [f] := by
  cases h <;> rfl

/-- The bits before the next field are those before this one, and this one (R91). -/
theorem NextField.bits {f f' : TokField} {v : Nat} (h : NextField f v f') :
    bitsBefore f' = bitsBefore f ++ lowBits (BitVec.ofNat (fieldWidth f) v) (fieldWidth f) := by
  cases h <;> rfl

/-- A tag of no token is an illegal encoding (R96). -/
theorem decodeToken_tag (tag : BitVec 2) (h1 : tag ≠ 1) (h2 : tag ≠ 2) (rest : List Bool) :
    decodeToken (lowBits tag 2 ++ rest) = .ok (if tag = 0 then .illegalTag00 else .illegalTag11) := by
  rw [decodeToken, takeField_lowBits]
  dsimp only
  rw [if_neg h1, if_neg h2]
  split_ifs <;> rfl

/-! The last field of each token, by its tier (R91). -/

theorem decodeToken_sample (b : BitVec 8) (rest : List Bool) :
    decodeToken (bitsBefore .sample ++ (lowBits b 8 ++ rest)) = .ok (.lit b) := by
  change decodeToken (lowBits 1#2 2 ++ _) = _
  simp [decodeToken]

/-- After the tag `10` a run is decoded. -/
theorem decodeToken_runTag (bits : List Bool) : decodeToken (true :: false :: bits) = decodeRun bits := by
  change decodeToken (lowBits 2#2 2 ++ bits) = _
  rw [decodeToken, takeField_lowBits]
  rfl

theorem decodeToken_c2 {c : BitVec 2} (h : c ≠ 0#2) (rest : List Bool) :
    decodeToken (bitsBefore .c2 ++ (lowBits c 2 ++ rest)) = .ok (.runT1 c) := by
  refine (decodeToken_runTag _).trans ?_
  change decodeRun (lowBits c 2 ++ rest) = _
  simp [decodeRun, h]

theorem decodeToken_c4 {c : BitVec 4} (h : c ≠ 0#4) (rest : List Bool) :
    decodeToken (bitsBefore .c4 ++ (lowBits c 4 ++ rest)) = .ok (.runT2 c) := by
  refine (decodeToken_runTag _).trans ?_
  change decodeRun (lowBits 0#2 2 ++ (lowBits c 4 ++ rest)) = _
  simp [decodeRun, h]

theorem decodeToken_c8 {c : BitVec 8} (h : c ≠ 0#8) (rest : List Bool) :
    decodeToken (bitsBefore .c8 ++ (lowBits c 8 ++ rest)) = .ok (.runT3 c) := by
  refine (decodeToken_runTag _).trans ?_
  change decodeRun (lowBits 0#2 2 ++ (lowBits 0#4 4 ++ (lowBits c 8 ++ rest))) = _
  simp [decodeRun, h]

theorem decodeToken_c16 (c : BitVec 16) (rest : List Bool) :
    decodeToken (bitsBefore .c16 ++ (lowBits c 16 ++ rest)) =
      if c = 0#16 then .ok .illegalZeroCount else .ok (.runT4 c) := by
  refine (decodeToken_runTag _).trans ?_
  change decodeRun (lowBits 0#2 2 ++ (lowBits 0#4 4 ++ (lowBits 0#8 8 ++ (lowBits c 16 ++ rest)))) = _
  simp [decodeRun]

theorem ofNat_eq_zero_iff {w n : Nat} (h : n < 2 ^ w) : BitVec.ofNat w n = 0#w ↔ n = 0 := by
  rw [BitVec.toNat_eq, BitVec.toNat_ofNat, BitVec.toNat_ofNat, Nat.mod_eq_of_lt h, Nat.zero_mod]

/-- The decoder at a field that is there and decides the instruction. -/
theorem decodeToken_field_ok {f : TokField} {v : Nat} (hv : v < 2 ^ fieldWidth f) {i : Instr}
    (h : fieldLeads f v = .inl i) (rest : List Bool) :
    decodeToken (bitsBefore f ++ (lowBits (BitVec.ofNat (fieldWidth f) v) (fieldWidth f) ++ rest)) = .ok i := by
  cases f with
  | tag =>
    simp only [fieldLeads] at h
    change v < 4 at hv
    interval_cases v <;> cases h
    exacts [decodeToken_tag 0 (by decide) (by decide) rest, decodeToken_tag 3 (by decide) (by decide) rest]
  | sample =>
    cases h
    exact decodeToken_sample _ rest
  | c2 =>
    simp only [fieldLeads] at h
    split_ifs at h with h0
    cases h
    exact decodeToken_c2 (mt (ofNat_eq_zero_iff hv).mp h0) rest
  | c4 =>
    simp only [fieldLeads] at h
    split_ifs at h with h0
    cases h
    exact decodeToken_c4 (mt (ofNat_eq_zero_iff hv).mp h0) rest
  | c8 =>
    simp only [fieldLeads] at h
    split_ifs at h with h0
    cases h
    exact decodeToken_c8 (mt (ofNat_eq_zero_iff hv).mp h0) rest
  | c16 =>
    cases h
    refine (decodeToken_c16 (BitVec.ofNat 16 v) rest).trans ?_
    rw [if_congr (ofNat_eq_zero_iff (w := 16) hv) rfl rfl]
    by_cases h0 : v = 0 <;> simp [h0]

/-- The decoder at a field that is there: it has its instruction, or goes on to the next field (R94). -/
theorem decodeToken_field {f : TokField} (v : BitVec (fieldWidth f)) (rest : List Bool) :
    decodeToken (bitsBefore f ++ (lowBits v (fieldWidth f) ++ rest)) =
      (fieldLeads f v.toNat).elim .ok fun f' => decodeToken (bitsBefore f' ++ rest) := by
  have hv : BitVec.ofNat (fieldWidth f) v.toNat = v := by rw [BitVec.ofNat_toNat, BitVec.setWidth_eq]
  cases h : fieldLeads f v.toNat with
  | inl i =>
    have hok := decodeToken_field_ok v.isLt h rest
    rwa [hv] at hok
  | inr f' =>
    have hb := (fieldLeads_next h).bits
    rw [hv] at hb
    rw [← List.append_assoc, ← hb]
    rfl

/-! ### What is read is executed -/

/-- What a running D_PLANE does with what it has fetched. -/
def execFetched (e : Except Reject Instr) (s : State) : Host.Outcome State Fault Refusal :=
  match e with
  | .ok i => execWire i s
  | .error r => fetchShort r s

/-- What D_PLANE does with what `read_token` returns: its output, if it fits in the plane (43_token_mux.md R202 to
R207). -/
def produce : TokenRead → State → Host.Outcome State Fault Refusal
  | .lit b, s => .next (emit (BitVec.ofNat 8 b) s)
  | .run n, s =>
    if remaining s < n then .next (faultEntry .overrun (BitVec.ofNat 32 n) s) else .next (emitLast n s)

/-- A read of a token in a running D_PLANE, to its end. -/
def produceRead (r : Read TokenRead) : Host.Outcome State Fault Refusal :=
  r.toOutcome fun tok s => produce tok (mark .tag s)

/-- From `s`, the fields of a token up to `f` are read, and the reader is at `u`. -/
def ReadUpTo (s : State) (f : TokField) (u : State) : Prop :=
  ∀ fs, consumeToken (fieldsBefore f ++ f :: fs) s = (readFields (f :: fs) u).andThen fun _ w => .done () (mark .tag w)

/-- A read that is taken up again starts at the field it is marked with. -/
theorem readUpTo_start (s : State) : ReadUpTo s s.tokAt s := by
  intro fs
  have h : (fieldsBefore s.tokAt ++ s.tokAt :: fs).dropWhile (· != s.tokAt) = s.tokAt :: fs := by
    cases s.tokAt <;> rfl
  rw [consumeToken, h]
  rfl

theorem ReadUpTo.next {s u w : State} {f f' : TokField} {v : Nat} (h : ReadUpTo s f u)
    (hv : readAt f u = .done v w) (hf : fieldLeads f v = .inr f') : ReadUpTo s f' w := by
  intro fs
  have := h (f' :: fs)
  rw [(fieldLeads_next hf).fields, List.append_assoc, List.singleton_append, this, readFields, hv]
  rfl

/-- A token of which `f` is the last field. -/
theorem ReadUpTo.last {s u w : State} {f : TokField} {v : Nat} (h : ReadUpTo s f u) (hv : readAt f u = .done v w) :
    consumeToken (fieldsBefore f ++ [f]) s = .done () (mark .tag w) := by
  rw [h [], readFields, hv]
  rfl

theorem ReadUpTo.short {s u : State} {f : TokField} (h : ReadUpTo s f u) :
    fetchShort (shortAt f) s = (readAt f u).toOutcome fun _ w => .next (mark .tag w) := by
  have hf : fetchShort (shortAt f) s = (consumeToken (fieldsBefore f ++ [f]) s).toOutcome fun _ w => .next w := by
    cases f <;> rfl
  rw [hf, h [], readFields]
  cases readAt f u <;> rfl

theorem tokenFrom_readAt (f : TokField) : ∃ k, ∀ u, tokenFrom f u = (readAt f u).andThen k := by
  cases f with
  | tag | sample => exact ⟨_, fun _ => rfl⟩
  | _ => exact ⟨_, fun _ => Read.andThen_assoc _ _ _⟩

/-- A run whose token is read is put out if it fits (43_token_mux.md R207). -/
theorem runOf_produceRead {fields : List TokField} {count n : Nat} {s w : State} {r : Read TokenRead}
    (h : consumeToken fields s = .done () (mark .tag w)) (hr : r = .done (.run n) w) (hn : count = n) :
    runOf fields count s = produceRead r := by
  rw [runOf, h, hr, hn]
  rfl

/-- The instruction that a field leads to does what `read_token` and the output do. -/
theorem execWire_produceRead {s u w : State} {f : TokField} {v : Nat} {i : Instr} (hlt : v < 2 ^ fieldWidth f)
    (h : ReadUpTo s f u) (hv : readAt f u = .done v w) (hf : fieldLeads f v = .inl i) :
    execWire i s = produceRead (tokenFrom f u) := by
  have hlast := h.last hv
  have hvalue : (BitVec.ofNat (fieldWidth f) v).toNat = v := by rw [BitVec.toNat_ofNat, Nat.mod_eq_of_lt hlt]
  cases f with
  | tag =>
    simp only [fieldLeads] at hf
    change v < 4 at hlt
    change consumeToken [.tag] s = _ at hlast
    interval_cases v <;> cases hf
    · rw [execWire, execIllegalTag00, hlast, tokenFrom, readToken, hv]
      rfl
    · rw [execWire, execIllegalTag11, hlast, tokenFrom, readToken, hv]
      rfl
  | sample =>
    cases hf
    change consumeToken litFields s = _ at hlast
    rw [execWire, execLit, hlast, tokenFrom, readTokenSample, hv]
    rfl
  | c2 =>
    simp only [fieldLeads] at hf
    split_ifs at hf with h0
    cases hf
    exact runOf_produceRead hlast (by simp [tokenFrom, asRun, decodeCount, hv, Read.andThen, h0]) hvalue
  | c4 =>
    simp only [fieldLeads] at hf
    split_ifs at hf with h0
    cases hf
    exact runOf_produceRead hlast (by simp [tokenFrom, asRun, decodeCountC4, hv, Read.andThen, h0])
      (congrArg (· + Config.t2Bias) hvalue)
  | c8 =>
    simp only [fieldLeads] at hf
    split_ifs at hf with h0
    cases hf
    exact runOf_produceRead hlast (by simp [tokenFrom, asRun, decodeCountC8, hv, Read.andThen, h0]) hvalue
  | c16 =>
    cases hf
    split_ifs with h0
    · exact runOf_produceRead hlast (by simp [tokenFrom, asRun, decodeCountC16, hv, Read.andThen, h0]) hvalue
    · change consumeToken runFieldsT4 s = _ at hlast
      rw [not_not.mp h0] at hv
      change execIllegalZeroCount s = produceRead (asRun (decodeCountC16 u))
      rw [execIllegalZeroCount, hlast, decodeCountC16, hv]
      rfl

/-- `read_token` at a field that leads to another one goes on with that. -/
theorem tokenFrom_next {u w : State} {f f' : TokField} {v : Nat} (hv : readAt f u = .done v w)
    (hf : fieldLeads f v = .inr f') : tokenFrom f u = tokenFrom f' w := by
  cases fieldLeads_next hf <;>
    simp [tokenFrom, readToken, asRun, decodeCount, decodeCountC4, decodeCountC8, Read.andThen, hv]

/-- One field: what is fetched from it is executed as it is read, if that is so from the field it leads to. -/
theorem execFetched_field {f : TokField}
    (ih : ∀ v f', fieldLeads f v = .inr f' → ∀ s u, ReadUpTo s f' u →
      execFetched (decodeToken (bitsBefore f' ++ toRead u)) s = produceRead (tokenFrom f' u))
    (s u : State) (h : ReadUpTo s f u) :
    execFetched (decodeToken (bitsBefore f ++ toRead u)) s = produceRead (tokenFrom f u) := by
  cases ht : takeField (fieldWidth f) (toRead u) with
  | none =>
    obtain ⟨k, hk⟩ := tokenFrom_readAt f
    rw [decodeToken_bitsBefore (takeField_eq_none.mp ht), hk]
    show fetchShort (shortAt f) s = _
    rw [h.short, readAt_none ht]
    cases u.brClosed <;> rfl
  | some p =>
    obtain ⟨v, rest⟩ := p
    obtain ⟨w, hv, rfl, -⟩ := readAt_some ht
    rw [takeField_eq_some ht, decodeToken_field]
    cases hf : fieldLeads f v.toNat with
    | inl i => exact execWire_produceRead v.isLt h hv hf
    | inr f' => exact (ih _ f' hf s w (h.next hv hf)).trans (by rw [tokenFrom_next hv hf])

/-- Fetching a token and executing it is reading it and putting out what it stands for. -/
theorem execFetched_token (f : TokField) : ∀ s u, ReadUpTo s f u →
    execFetched (decodeToken (bitsBefore f ++ toRead u)) s = produceRead (tokenFrom f u) := by
  have h16 := execFetched_field (f := .c16) nofun
  have h8 := execFetched_field (f := .c8) fun v f' h => by cases fieldLeads_next h; exact h16
  have h4 := execFetched_field (f := .c4) fun v f' h => by cases fieldLeads_next h; exact h8
  have h2 := execFetched_field (f := .c2) fun v f' h => by cases fieldLeads_next h; exact h4
  have hsample := execFetched_field (f := .sample) nofun
  have htag := execFetched_field (f := .tag) fun v f' h => by
    cases fieldLeads_next h
    exacts [hsample, h2]
  cases f
  exacts [htag, hsample, h2, h4, h8, h16]

/-! ### One move of a running D_PLANE as a read -/

/-- What the fetch looks at is the beginning of what is unread. -/
theorem toRead_eq_unread (s : State) : toRead s = unread s ++ bitsOf ((s.sin.drop s.brIdx).drop 4) := by
  rw [toRead, unread, List.append_assoc, ← bitsOf_append, List.take_append_drop]

/-- At a seed position the fetch looks far enough (R233). -/
theorem takeField_unread (s : State) {b : Byte} {rest : List Bool} (h : takeField 8 (unread s) = some (b, rest)) :
    ∃ more, takeField 8 (toRead s) = some (b, rest ++ more) :=
  ⟨_, by rw [toRead_eq_unread, takeField_append h]⟩

theorem toRead_short {s : State} (h : takeField 8 (unread s) = none) : (toRead s).length < 8 := by
  have hl := takeField_eq_none.mp h
  rw [toRead_length, avail]
  simp only [unread, List.length_append, lowBits_length, bitsOf_length, List.length_take, List.length_drop] at hl
  omega

/-- A seed is read like the sample of a literal (43_token_mux.md R201). -/
def readSeed (s : State) : Read TokenRead := (readField Config.sampleW s).andThen fun b u => .done (.lit b) u

/-- What a running D_PLANE reads next: a seed, or what is left of a token (45_channel_decoder.md R233, R234). -/
def readNext (s : State) : Read TokenRead := if atSeed s then readSeed s else resumeToken s

/-- Fetching a seed and executing it is reading it and putting it out. -/
theorem execFetched_seed {s : State} (ht : s.tokAt = .tag) :
    execFetched (decodeSeed (unread s)) s = produceRead (readSeed s) := by
  have hmark : ∀ u : State, u.tokAt = .tag → mark .tag u = u := fun u hu => by rw [mark, ← hu]
  cases hf : takeField 8 (unread s) with
  | none =>
    have hshort := readField_short (s := s) (toRead_short hf)
    rw [decodeSeed, hf]
    show (readField 8 s).toOutcome _ = produceRead ((readField 8 s).andThen _)
    rw [hshort]
    cases s.brClosed <;> rfl
  | some p =>
    obtain ⟨b, rest⟩ := p
    obtain ⟨more, hm⟩ := takeField_unread s hf
    obtain ⟨u, hu, -, -, htok⟩ := readAt_some (f := .sample) hm
    have hread : readField 8 s = .done b.toNat u := readAt_done hu
    rw [decodeSeed, hf]
    show (readField 8 s).toOutcome _ = produceRead ((readField 8 s).andThen _)
    rw [hread]
    simp [produceRead, Read.andThen, Read.toOutcome, produce, hmark u (htok.trans ht)]

/-- One move of a running D_PLANE: a seed or token is read and put out, or the plane is complete (R234, R236). -/
theorem expandWith_eq {s : State} (hs : atSeed s = true → s.tokAt = .tag) :
    expandWith execWire s =
      if s.cxN.toNat < s.cxLen.toNat then produceRead (readNext s) else .next (finishDecode s) := by
  have hfetch : execFetched (fetch s) s = produceRead (readNext s) := by
    unfold fetch readNext
    cases hseed : atSeed s with
    | true => exact execFetched_seed (hs hseed)
    | false =>
      have htoken := execFetched_token s.tokAt s s (readUpTo_start s)
      rwa [← decodeToken_unread, ← resumeToken_eq] at htoken
  rw [← hfetch]
  rfl

end Sys2Proof.Machine
end

section
/-! However the bytes of a stream arrive while a D_PLANE runs, it ends as if all had been there from the start
(20_memory.md R71; 41_bit_reader.md R154). From the end of the run back to its start, each step is followed on the
decoder that has all the bytes: a token read is the same move there, a wait is no move there, and what arrives is there
already. -/

namespace Sys2Proof.Machine

/-! ### The next read of a D_PLANE with more bytes behind it -/

theorem readSeed_from (s : State) : (readSeed s).From s :=
  (readField_from _ s).andThen fun _ t _ => ⟨0, Took.refl t⟩

theorem readNext_from (s : State) : (readNext s).From s := by
  unfold readNext
  split_ifs
  exacts [readSeed_from s, resumeToken_from s]

theorem readSeed_given {d : State} {more : List Byte} {closed : Bool} {e : State}
    (h : NeedsNoMore more closed e (readSeed e)) :
    readSeed (given d more closed e) = (readSeed e).mapState (given d more closed) := by
  unfold readSeed at h ⊢
  have hf : NeedsNoMore more closed e (readField Config.sampleW e) := by
    refine h.imp_left fun ⟨tok, t, ht⟩ => ?_
    cases hr : readField Config.sampleW e <;> rw [hr] at ht <;> cases ht
    exact ⟨_, _, rfl⟩
  rw [readField_given hf]
  cases readField Config.sampleW e <;> rfl

theorem readNext_given {d : State} {more : List Byte} {closed : Bool} {e : State}
    (h : NeedsNoMore more closed e (readNext e)) :
    readNext (given d more closed e) = (readNext e).mapState (given d more closed) := by
  have hseed : atSeed (given d more closed e) = atSeed e := rfl
  unfold readNext at h ⊢
  rw [hseed]
  split_ifs at h ⊢
  · exact readSeed_given h
  · rw [resumeToken_eq] at h ⊢
    rw [resumeToken_eq]
    exact (tokenFrom_chain e.tokAt).reads_given h

/-- A wait for a seed is where it starts; a wait in a token is at the field it is marked with. -/
theorem readNext_resumes {d : State} {more : List Byte} {closed : Bool} {s t : State} (h : readNext s = .waits t) :
    (readNext (given d more closed t)).unmark = (readNext (given d more closed s)).unmark := by
  have hfrom := readNext_from s
  rw [h] at hfrom
  obtain ⟨⟨n, hn⟩, -⟩ := hfrom
  have hseed : ∀ u, atSeed (given d more closed u) = atSeed u := fun _ => rfl
  have hst : atSeed t = atSeed s := by unfold atSeed; rw [hn.readerMove.cxN]
  unfold readNext at h ⊢
  rw [hseed, hseed, hst]
  split_ifs at h ⊢
  · have ht : t = s := by
      unfold readSeed at h
      cases hr : readField Config.sampleW s <;> rw [hr] at h <;> cases h
      exact readField_waits hr
    rw [ht]
  · rw [resumeToken_eq s] at h
    rw [resumeToken_eq (given d more closed s)]
    exact (tokenFrom_chain s.tokAt).resumes h

/-- No seed or token stands for an empty run (R174). -/
theorem readNext_ne_run_zero {s t : State} {tok : TokenRead} (h : readNext s = .done tok t) : tok ≠ .run 0 := by
  unfold readNext at h
  split_ifs at h
  · unfold readSeed at h
    cases hr : readField Config.sampleW s <;> rw [hr] at h <;> cases h
    nofun
  · rw [resumeToken_eq] at h
    exact (tokenFrom_chain s.tokAt).ok_of_done h

/-! ### One move with more bytes behind it -/

theorem produce_given (tok : TokenRead) (d : State) (more : List Byte) (closed : Bool) (e : State) :
    produce tok (given d more closed e) = mapNext (given d more closed) (produce tok e) := by
  cases tok with
  | lit b => rfl
  | run n =>
    have hr : remaining (given d more closed e) = remaining e := rfl
    rw [produce, produce, hr, emitLast_eq, emitLast_eq]
    split_ifs <;> rfl

theorem produceRead_mapState (r : Read TokenRead) (d : State) (more : List Byte) (closed : Bool) :
    produceRead (r.mapState (given d more closed)) = mapNext (given d more closed) (produceRead r) := by
  cases r with
  | done tok s => exact produce_given tok d more closed (mark .tag s)
  | _ => rfl

theorem PlaceInv.seed_tag {s : State} (h : PlaceInv s) (ha : s.activity = .dPlane) (hs : atSeed s = true) :
    s.tokAt = .tag := by
  by_contra hne
  obtain ⟨hge, -⟩ := h.inside ha hne
  simp only [atSeed, decide_eq_true_eq] at hs
  omega

section move
variable {s t : State} (hp : PlaceInv s) (ha : s.activity = .dPlane)
include hp ha

theorem expandWith_reads : expandWith execWire s =
    if s.cxN.toNat < s.cxLen.toNat then produceRead (readNext s) else .next (finishDecode s) :=
  expandWith_eq (hp.seed_tag ha)

theorem expandWith_reads_given (d : State) (more : List Byte) (closed : Bool) :
    expandWith execWire (given d more closed s) =
      if s.cxN.toNat < s.cxLen.toNat then produceRead (readNext (given d more closed s))
      else .next (finishDecode (given d more closed s)) :=
  expandWith_eq (s := given d more closed s) (hp.seed_tag ha)

/-- A move that needs no more bytes is the same move with more behind it. -/
theorem expandWith_given {d : State} {more : List Byte} {closed : Bool}
    (h : NeedsNoMore more closed s (readNext s)) :
    expandWith execWire (given d more closed s) = mapNext (given d more closed) (expandWith execWire s) := by
  rw [expandWith_reads hp ha, expandWith_reads_given hp ha, readNext_given h, produceRead_mapState]
  split_ifs <;> rfl

/-- A move that waits changes nothing for a reader with more bytes behind it. -/
theorem expandWith_resumes {d : State} {more : List Byte} {closed : Bool} (hlt : s.cxN.toNat < s.cxLen.toNat)
    (h : readNext s = .waits t) (hm : ReaderMove s t) (hpt : PlaceInv t) :
    expandWith execWire (given d more closed t) = expandWith execWire (given d more closed s) := by
  rw [expandWith_reads_given hp ha, expandWith_reads_given hpt (hm.activity.trans ha), hm.cxN, hm.cxLen, if_pos hlt,
    if_pos hlt]
  exact Read.toOutcome_congr (readNext_resumes h) produce

end move

/-! ### Runs of a D_PLANE -/

/-- From `s`, moves of a running D_PLANE, each of which leaves less of its plane to be produced, and a last one that
ends the command in `t`. -/
inductive RunsTo : State → State → Prop where
  | last {s t : State} (h : expandWith execWire s = .next t) (ha : t.activity ≠ .dPlane) : RunsTo s t
  | move {s u t : State} (h : expandWith execWire s = .next u) (ha : u.activity = .dPlane) (hn : u.cxN ≠ s.cxN)
      (hr : remaining u < remaining s) (hu : RunsTo u t) : RunsTo s t

/-- The moves that D_PLANE makes when it executes are enough for a run to its end (log entry 7). -/
theorem RunsTo.expandMoves_eq {s t : State} (h : RunsTo s t) {fuel : Nat} (hf : remaining s < fuel) :
    expandMoves fuel s = .next t := by
  induction h generalizing fuel with
  | last h ha =>
    obtain ⟨k, rfl⟩ := Nat.exists_eq_succ_of_ne_zero (Nat.ne_zero_of_lt hf)
    rw [expandMoves, h]
    exact if_neg fun hgo => ha hgo.1
  | move h ha hn hr _ ih =>
    obtain ⟨k, rfl⟩ := Nat.exists_eq_succ_of_ne_zero (Nat.ne_zero_of_lt hf)
    rw [expandMoves, h]
    exact (if_pos ⟨ha, hn⟩).trans (ih (by omega))

/-- What is put out is part of what is left of the plane. -/
theorem produce_progress {tok : TokenRead} {s t : State} (h0 : tok ≠ .run 0) (hlt : s.cxN.toNat < s.cxLen.toNat)
    (h : produce tok s = .next t) (ha : t.activity = .dPlane) : t.cxN ≠ s.cxN ∧ remaining t < remaining s := by
  have step : ∀ n, n ≠ 0 → n ≤ remaining s → t.cxN = s.cxN + BitVec.ofNat 32 n → t.cxLen = s.cxLen →
      t.cxN ≠ s.cxN ∧ remaining t < remaining s := by
    intro n hn hle ht hl
    have hlen := s.cxLen.isLt
    have hnat : t.cxN.toNat = s.cxN.toNat + n := by
      unfold remaining at hle
      rw [ht, BitVec.toNat_add, BitVec.toNat_ofNat]
      omega
    refine ⟨fun heq => ?_, ?_⟩
    · rw [heq] at hnat
      omega
    · unfold remaining at *
      rw [hl]
      omega
  cases tok with
  | lit b =>
    cases h
    exact step 1 (by decide) (by unfold remaining; omega) rfl rfl
  | run n =>
    rw [produce] at h
    split_ifs at h with hrem <;> cases h
    · cases ha
    · exact step n (fun hn => h0 (by rw [hn])) (by omega) (by rw [emitLast_eq]) (by simp)

/-- A run from `b` is a run from `a`, for a reader that has the bytes `got` from the start: `b` is `a` after the bytes
`got` have arrived and moves of a D_PLANE have been made that have not ended it. -/
structure Continues (got : List Byte) (a b : State) : Prop where
  place : PlaceInv b
  activity : b.activity = .dPlane
  sin : b.sin = a.sin ++ got
  runs : ∀ d more closed w, RunsTo (given d more closed b) w → RunsTo (given d (got ++ more) closed a) w

theorem Continues.refl {s : State} (hp : PlaceInv s) (ha : s.activity = .dPlane) : Continues [] s s :=
  ⟨hp, ha, (List.append_nil _).symm, fun _ _ _ _ h => h⟩

theorem Continues.trans {got got' : List Byte} {a b c : State} (h : Continues got a b) (h' : Continues got' b c) :
    Continues (got ++ got') a c where
  place := h'.place
  activity := h'.activity
  sin := by rw [h'.sin, h.sin, List.append_assoc]
  runs d more closed w hw := by
    rw [List.append_assoc]
    exact h.runs d _ closed w (h'.runs d more closed w hw)

/-- A move that does not end the D_PLANE: a token is read and put out, or the read waits. -/
theorem expandWith_continues {s t : State} (hp : PlaceInv s) (ha : s.activity = .dPlane)
    (h : expandWith execWire s = .next t) (ht : t.activity = .dPlane) : Continues [] s t := by
  have hmove := expandWith_move ha h
  have hpt := hmove.place hp
  refine ⟨hpt, ht, by rw [hmove.input.1, List.append_nil], fun d more closed w hw => ?_⟩
  rw [List.nil_append]
  have hreads := expandWith_reads hp ha
  rw [h] at hreads
  split_ifs at hreads with hlt
  · rcases toOutcome_next (readNext_from s) hreads.symm with ⟨tok, u, hr, hu, hk⟩ | ⟨hr, hm⟩ | ⟨st, info, u, -, -, rfl⟩
    · have hsame := expandWith_given hp ha (d := d) (more := more) (closed := closed) (.inl ⟨tok, u, hr⟩)
      rw [h] at hsame
      obtain ⟨hn, hrem⟩ := produce_progress (s := mark .tag u) (readNext_ne_run_zero hr)
        (by show u.cxN.toNat < u.cxLen.toNat; rwa [hu.cxN, hu.cxLen]) hk ht
      refine .move hsame ht ?_ ?_ hw
      · exact fun he => hn (he.trans hu.cxN.symm)
      · have hrs : remaining (mark .tag u) = remaining s := by
          show u.cxLen.toNat - u.cxN.toNat = _
          rw [hu.cxN, hu.cxLen]
          rfl
        exact hrem.trans_eq hrs
    · have hsame := expandWith_resumes hp ha (d := d) (more := more) (closed := closed) hlt hr hm hpt
      cases hw with
      | last h' ha' => exact .last (hsame ▸ h') ha'
      | move h' ha' hn hrem hw =>
        refine .move (hsame ▸ h') ha' (fun he => hn (he.trans hm.cxN.symm)) ?_ hw
        have hrs : remaining (given d more closed t) = remaining (given d more closed s) := by
          show t.cxLen.toNat - t.cxN.toNat = s.cxLen.toNat - s.cxN.toNat
          rw [hm.cxN, hm.cxLen]
        exact hrem.trans_eq hrs
    · cases ht
  · cases hreads
    cases ht

theorem expandMoves_continues (fuel : Nat) {s t : State} (hp : PlaceInv s) (ha : s.activity = .dPlane)
    (h : expandMoves fuel s = .next t) (ht : t.activity = .dPlane) : Continues [] s t := by
  induction fuel generalizing s with
  | zero =>
    cases h
    exact .refl hp ha
  | succ fuel ih =>
    rw [expandMoves] at h
    split at h
    next u hu =>
      split_ifs at h with hgo
      · have hcont := expandWith_continues hp ha hu hgo.1
        exact hcont.trans (ih hcont.place hgo.1 h)
      · cases h
        exact expandWith_continues hp ha hu ht
    all_goals cases h

/-! ### The steps of the machine while a D_PLANE runs -/

theorem sequencer_dPlane {s : State} (h : s.activity = .dPlane) : sequencer exec s = expandWith execWire s := by
  rw [sequencer, h, ← expandWith_exec]

/-- What a step can lead to while a D_PLANE runs: a reset, an action of the host, or a move of the D_PLANE after the
clock edge (log entries 1 and 3). -/
theorem step_running {s t : State} (ha : s.activity = .dPlane) (h : step s = .next t) (ht : t.activity ≠ .idle) :
    (∃ a rest, a ≠ .assertReset ∧ t = hostAct a { s with hScript := rest }) ∨
      ∃ u, PortEdge s u ∧ expandWith execWire u = .next t := by
  unfold step at h
  split at h
  next u hu =>
    cases h
    obtain ⟨a, rest, -, rfl⟩ := turn_host hu
    refine .inl ⟨a, rest, fun hr => ht ?_, rfl⟩
    rw [hr]
    rfl
  next u hu =>
    obtain ⟨-, hedge⟩ := turn_block hu
    have hau : u.activity = .dPlane := by
      rw [hedge.only]
      exact ha
    rw [sequencer_dPlane hau] at h
    exact .inr ⟨u, hedge, h⟩

theorem hostAct_continues {a : HostAct} (hr : a ≠ .assertReset) {s : State} (rest : List HostAct) (hp : PlaceInv s)
    (ha : s.activity = .dPlane) : Continues [] s (hostAct a { s with hScript := rest }) := by
  rw [hostAct_frame hr]
  exact ⟨⟨hp.not_halted, hp.boundary, hp.inside, hp.made_le⟩, ha, (List.append_nil _).symm, fun _ _ _ _ h => h⟩

/-- The clock edge appends what it accepts to `SIN` (30_encoding.md R111). -/
theorem PortEdge.sin_grows {s u : State} (h : PortEdge s u) : s.sin <+: u.sin := by
  obtain ⟨haccepts, hclosed, hempty⟩ := h.input
  cases hc : s.brClosed with
  | true => rw [(hclosed hc).1]
  | false =>
    cases hb : s.hSin with
    | nil => rw [(hempty hb).1]
    | cons b rest =>
      rw [(haccepts b rest hb hc).1]
      exact List.prefix_append _ _

theorem PortEdge.continues {s u : State} (h : PortEdge s u) (hp : PlaceInv s) (ha : s.activity = .dPlane) :
    ∃ got, Continues got s u := by
  obtain ⟨got, hgot⟩ := h.sin_grows
  have hgiven : ∀ d more closed, given d more closed u = given d (got ++ more) closed s := by
    intro d more closed
    have hu : given d more closed u = given d more closed { s with sin := u.sin } := by
      conv_lhs => rw [h.only]
      rfl
    rw [hu, ← hgot]
    unfold given
    rw [List.append_assoc]
  have hpu : PlaceInv u := by
    rw [h.only]
    exact ⟨hp.not_halted, hp.boundary, hp.inside, hp.made_le⟩
  have hau : u.activity = .dPlane := by
    rw [h.only]
    exact ha
  exact ⟨got, hpu, hau, hgot.symm, fun d more closed w hw => hgiven d more closed ▸ hw⟩

theorem step_continues {s t : State} (hp : PlaceInv s) (ha : s.activity = .dPlane) (h : step s = .next t)
    (ht : t.activity = .dPlane) : ∃ got, Continues got s t := by
  rcases step_running ha h (by rw [ht]; nofun) with ⟨a, rest, hr, rfl⟩ | ⟨u, hedge, hu⟩
  · exact ⟨[], hostAct_continues hr rest hp ha⟩
  · obtain ⟨got, hcont⟩ := hedge.continues hp ha
    exact ⟨_, hcont.trans (expandWith_continues hcont.place hcont.activity hu ht)⟩

/-- The last step of a D_PLANE: with the bytes that have arrived and the input as it is, the run ends there. -/
theorem step_ends {s t : State} {st : Status} {info : Arg} (hp : PlaceInv s) (ha : s.activity = .dPlane)
    (h : step s = .next t) (ht : t.activity = .drainPout st info) :
    ∃ got, t.sin = s.sin ++ got ∧
      ∀ d, RunsTo (given d got t.brClosed s) (given d [] t.brClosed t) := by
  rcases step_running ha h (by rw [ht]; nofun) with ⟨a, rest, hr, rfl⟩ | ⟨u, hedge, hu⟩
  · rw [(hostAct_continues hr rest hp ha).activity] at ht
    cases ht
  · obtain ⟨got, hcont⟩ := hedge.continues hp ha
    obtain ⟨hsin, hclosed⟩ := (expandWith_move hcont.activity hu).input
    refine ⟨got, hsin.trans hcont.sin, fun d => ?_⟩
    have hlast := expandWith_given hcont.place hcont.activity (d := d) (more := []) (closed := t.brClosed)
      (.inr ⟨rfl, hclosed⟩)
    rw [hu] at hlast
    have hrun := hcont.runs d [] t.brClosed _ (.last hlast (by show t.activity ≠ _; rw [ht]; nofun))
    rwa [List.append_nil] at hrun

theorem StepsWhile.holds_at_start {p : State → Prop} {s t : State} (h : StepsWhile p s t) (ht : p t) : p s := by
  induction h with
  | refl => exact ht
  | tail _ hu _ ih => exact ih hu

theorem stepsWhile_continues {s t : State} (hp : PlaceInv s) (ha : s.activity = .dPlane)
    (h : StepsWhile (fun u => u.activity = .dPlane) s t) (ht : t.activity = .dPlane) : ∃ got, Continues got s t := by
  induction h with
  | refl => exact ⟨[], .refl hp ha⟩
  | tail _ hu hst ih =>
    obtain ⟨got, hcont⟩ := ih hu
    obtain ⟨got', hcont'⟩ := step_continues hcont.place hu hst ht
    exact ⟨_, hcont.trans hcont'⟩

/-- A D_PLANE that passes its checks runs as far as the bytes allow (45_channel_decoder.md R236, R237). -/
theorem exec_dPlane (len : Arg) {s : State} (hd : s.derr = false) :
    exec (.dPlane 0 len) s = expandMoves (len.toNat + 1) (startDecode len s) := by
  show (if s.derr then reject .halted s else _) = _
  rw [hd]
  rfl

/-- A D_PLANE that has waited for bytes and has ended: its start, given them, runs to the same end. -/
theorem dPlane_runsTo {len : Arg} {s s₁ v t : State} {st : Status} {info : Arg} (hd : s.derr = false)
    (hs : exec (.dPlane 0 len) s = .next s₁) (hsv : StepsWhile (fun u => u.activity = .dPlane) s₁ v)
    (hv : v.activity = .dPlane) (hstep : step v = .next t) (ht : t.activity = .drainPout st info) :
    ∃ got, t.sin = s.sin ++ got ∧
      ∀ d, RunsTo (given d got t.brClosed (startDecode len s)) (given d [] t.brClosed t) := by
  have hp : PlaceInv (startDecode len s) := .of_tag (fun _ => hd) rfl (Nat.zero_le _)
  have ha₁ := hsv.holds_at_start hv
  have hcont := expandMoves_continues _ hp rfl ((exec_dPlane len hd).symm.trans hs) ha₁
  obtain ⟨got, hcont'⟩ := stepsWhile_continues hcont.place ha₁ hsv hv
  have hrun := hcont.trans hcont'
  obtain ⟨got', hsin, hend⟩ := step_ends hrun.place hv hstep ht
  exact ⟨got ++ got', by rw [hsin, hrun.sin, List.nil_append, List.append_assoc]; rfl,
    fun d => hrun.runs d got' _ _ (hend d)⟩

/-- A run of the given start to its end is what D_PLANE does when it executes with those bytes. -/
theorem dPlane_given {len : Arg} {s t : State} {got : List Byte} (hd : s.derr = false) (hsin : t.sin = s.sin ++ got)
    (h : RunsTo (given s got t.brClosed (startDecode len s)) (given s [] t.brClosed t)) :
    exec (.dPlane 0 len) { s with sin := t.sin, brClosed := t.brClosed } = .next (given s [] t.brClosed t) := by
  refine Eq.trans (exec_dPlane len hd) ?_
  rw [hsin]
  exact h.expandMoves_eq (Nat.lt_succ_of_le (Nat.sub_le _ _))

theorem readerPart_given (d s : State) : readerPart (given d [] s.brClosed s) = readerPart s := by
  show (s.sin ++ [], _) = (s.sin, _)
  rw [List.append_nil]
  rfl

/-- A D_PLANE that is complete ends at once (R234, R235, R237). -/
theorem expandWith_complete {s : State} (h : s.cxLen.toNat ≤ s.cxN.toNat) :
    expandWith execWire s = .next { s with brLeft := 0, activity := .drainPout .ok 0 } :=
  if_neg (Nat.not_lt.mpr h)

/-- Settles O40: a D_PLANE that never waited has seen all its bytes; one that did is followed from its last step back to
its start, on the decoder that has all the bytes and the input in its final state. -/
theorem streamBytesMayArriveInPieces : Obligations.StreamBytesMayArriveInPieces := by
  refine ⟨fun len s s₁ t st info hd hs hst ht => ?_, fun s ha hc => ?_⟩
  · cases hst with
    | refl =>
      obtain ⟨hsin, hclosed⟩ := (expandMoves_move _ rfl ((exec_dPlane len hd).symm.trans hs)).input
      rw [hsin, hclosed]
      exact ⟨List.prefix_rfl, s₁, hs, rfl, rfl, rfl, rfl, rfl, rfl⟩
    | tail hsv hv hstep =>
      obtain ⟨got, hsin, hrun⟩ := dPlane_runsTo hd hs hsv hv hstep ht
      exact ⟨hsin ▸ List.prefix_append _ _, given s [] t.brClosed t, dPlane_given hd hsin (hrun s), rfl, rfl, rfl,
        readerPart_given s t, rfl, rfl⟩
  · rw [sequencer_dPlane ha]
    exact expandWith_complete hc

end Sys2Proof.Machine
end

section
/-! The decoder and the encoder are inverse to each other: on the command words (30_encoding.md R100, R101), and on the
bits of the wire level, where a token is known by its own bits and by nothing that follows (R90 to R96). -/

namespace Sys2Proof

/-! ### Command words -/

@[simp] theorem opOf_commandWord (op : BitVec 4) (cnt : Cnt) (arg : Arg) : opOf (commandWord op cnt arg) = op :=
  (BitVec.extractLsb'_append_eq_of_le (by decide)).trans BitVec.extractLsb'_append_eq_left

@[simp] theorem cntOf_commandWord (op : BitVec 4) (cnt : Cnt) (arg : Arg) : cntOf (commandWord op cnt arg) = cnt :=
  (BitVec.extractLsb'_append_eq_of_le (by decide)).trans BitVec.extractLsb'_append_eq_right

@[simp] theorem argOf_commandWord (op : BitVec 4) (cnt : Cnt) (arg : Arg) : argOf (commandWord op cnt arg) = arg :=
  BitVec.extractLsb'_append_eq_right

/-- The word of a command decodes to that command, whatever its fields hold (R101). -/
theorem decodeCommand_of_encode {i : Instr} {word : CmdWord} (h : encode i = .command word) :
    decodeCommand word = i := by
  cases i with
  | seed | lit | runT1 | runT2 | runT3 | runT4 | illegalTag00 | illegalTag11 | illegalZeroCount => cases h
  | _ =>
    cases h
    simp [decodeCommand]

theorem exists_word_of_not_wire {i : Instr} (h : i.isWire = false) : ∃ word, encode i = .command word := by
  cases i with
  | seed | lit | runT1 | runT2 | runT3 | runT4 | illegalTag00 | illegalTag11 | illegalZeroCount => cases h
  | _ => exact ⟨_, rfl⟩

/-- The opcode no command has (R103). -/
theorem decodeCommand_reserved {word : CmdWord} (h : opOf word = 0) :
    decodeCommand word = .reservedOp0 (cntOf word) (argOf word) := by
  simp [decodeCommand, h]

/-! ### The bits of a token -/

/-- The check of a count field, passed. -/
theorem ne_zero_of_checked {w : Nat} {c : BitVec w} {why : IllFormed}
    (h : (if c = 0 then some why else none) = none) : c ≠ 0#w :=
  fun hc => Option.some_ne_none why ((if_pos hc).symm.trans h)

/-- A wire instruction is read off its bits, whatever follows them: the count field of a run is not 0, so it is not
taken for the escape to the next tier (R91, R94). -/
theorem decode_encode_wire {i : Instr} (hw : i.isWire = true) (h : i.WellFormed) (rest : List Bool) :
    decode ((encode i).followedBy rest) = .ok i := by
  cases i with
  | seed b =>
    show decodeSeed (lowBits b 8 ++ rest) = _
    rw [decodeSeed, takeField_lowBits]
  | lit b =>
    show decodeToken (Machine.bitsBefore .sample ++ (lowBits b 8 ++ rest)) = _
    exact Machine.decodeToken_sample b rest
  | runT1 c =>
    show decodeToken (Machine.bitsBefore .c2 ++ (lowBits c 2 ++ rest)) = _
    exact Machine.decodeToken_c2 (ne_zero_of_checked h) rest
  | runT2 c =>
    show decodeToken (Machine.bitsBefore .c4 ++ (lowBits c 4 ++ rest)) = _
    exact Machine.decodeToken_c4 (ne_zero_of_checked h) rest
  | runT3 c =>
    show decodeToken (Machine.bitsBefore .c8 ++ (lowBits c 8 ++ rest)) = _
    exact Machine.decodeToken_c8 (ne_zero_of_checked h) rest
  | runT4 c =>
    show decodeToken (Machine.bitsBefore .c16 ++ (lowBits c 16 ++ rest)) = _
    exact (Machine.decodeToken_c16 c rest).trans (if_neg (ne_zero_of_checked h))
  | illegalTag00 => exact Machine.decodeToken_tag 0 (by decide) (by decide) rest
  | illegalTag11 => exact Machine.decodeToken_tag 3 (by decide) (by decide) rest
  | illegalZeroCount =>
    show decodeToken (Machine.bitsBefore .c16 ++ (lowBits 0#16 16 ++ rest)) = _
    rw [Machine.decodeToken_c16, if_pos rfl]
  | _ => cases hw

/-- Settles O1: a command word holds its fields in their places, and a wire instruction is read off its own bits. -/
theorem decodeOfEncode : Obligations.DecodeOfEncode := by
  intro i rest h
  cases hw : i.isWire with
  | true => exact decode_encode_wire hw h rest
  | false =>
    obtain ⟨word, hword⟩ := exists_word_of_not_wire hw
    rw [hword]
    exact congrArg Except.ok (decodeCommand_of_encode hword)

/-- Settles O2: the word of a decoded command is the word decoded, and a command decodes from its word. -/
theorem commandWordsAreInstructions : Obligations.CommandWordsAreInstructions := by
  refine ⟨fun word => ⟨encode_decodeCommand word, decodeCommand_not_wire word⟩, fun i hi => ?_⟩
  obtain ⟨word, hword⟩ := exists_word_of_not_wire hi
  exact ⟨word, hword, decodeCommand_of_encode hword⟩

/-- Settles O41: the word decodes to the reserved opcode with its fields, whose whole meaning is the rejection. -/
theorem reservedOpcodeIsIllegal : Obligations.ReservedOpcodeIsIllegal :=
  fun word _ h => ⟨cntOf word, argOf word, decodeCommand_reserved h, rfl⟩

/-- Settles O4: each word, evaluated. -/
theorem wordsOfTheSpec : Obligations.WordsOfTheSpec :=
  ⟨rfl, rfl, rfl, rfl, rfl, rfl, rfl, rfl, rfl, rfl, rfl, rfl, rfl, rfl⟩

end Sys2Proof

namespace Sys2Proof.Machine

/-! ### What the decoder has read -/

/-- The fields of a token in the order in which they lead to one another (R94): what holds of a field if it holds of
those it leads to, holds of every field. -/
theorem tokField_induction {p : TokField → Prop}
    (step : ∀ f, (∀ v f', fieldLeads f v = .inr f' → p f') → p f) (f : TokField) : p f := by
  have h16 : p .c16 := step _ nofun
  have h8 : p .c8 := step _ fun v f' hf => by cases fieldLeads_next hf; exact h16
  have h4 : p .c4 := step _ fun v f' hf => by cases fieldLeads_next hf; exact h8
  have h2 : p .c2 := step _ fun v f' hf => by cases fieldLeads_next hf; exact h4
  have hsample : p .sample := step _ nofun
  have htag : p .tag := step _ fun v f' hf => by
    cases fieldLeads_next hf
    exacts [hsample, h2]
  cases f
  exacts [htag, hsample, h2, h4, h8, h16]

/-- The instruction that a field decides is well formed, and its bits are those before the field and the field. -/
theorem fieldLeads_encodes {f : TokField} {v : Nat} {i : Instr} (hv : v < 2 ^ fieldWidth f)
    (h : fieldLeads f v = .inl i) :
    i.WellFormed ∧ encode i = .tokenAt (bitsBefore f ++ lowBits (BitVec.ofNat (fieldWidth f) v) (fieldWidth f)) := by
  cases f with
  | tag =>
    simp only [fieldLeads] at h
    change v < 4 at hv
    interval_cases v <;> cases h <;> exact ⟨rfl, rfl⟩
  | sample =>
    cases h
    exact ⟨rfl, rfl⟩
  | c2 =>
    simp only [fieldLeads] at h
    split_ifs at h with h0
    cases h
    exact ⟨if_neg (mt (ofNat_eq_zero_iff hv).mp h0), rfl⟩
  | c4 =>
    simp only [fieldLeads] at h
    split_ifs at h with h0
    cases h
    exact ⟨if_neg (mt (ofNat_eq_zero_iff hv).mp h0), rfl⟩
  | c8 =>
    simp only [fieldLeads] at h
    split_ifs at h with h0
    cases h
    exact ⟨if_neg (mt (ofNat_eq_zero_iff hv).mp h0), rfl⟩
  | c16 =>
    cases h
    split_ifs with h0
    · exact ⟨if_neg (mt (ofNat_eq_zero_iff hv).mp h0), rfl⟩
    · rw [not_not.mp h0]
      exact ⟨rfl, rfl⟩

/-- What the decoder reads, with the bits of a token that come before a field in front, is well formed and its bits
stand there. -/
theorem decodeToken_stands (f : TokField) : ∀ {bits : List Bool} {i : Instr},
    decodeToken (bitsBefore f ++ bits) = .ok i →
    i.WellFormed ∧ ∃ code rest, encode i = .tokenAt code ∧ bitsBefore f ++ bits = code ++ rest := by
  induction f using tokField_induction with
  | step f ih =>
    intro bits i h
    cases ht : takeField (fieldWidth f) bits with
    | none =>
      rw [decodeToken_bitsBefore (takeField_eq_none.mp ht)] at h
      cases h
    | some p =>
      obtain ⟨v, rest⟩ := p
      have hv : BitVec.ofNat (fieldWidth f) v.toNat = v := by rw [BitVec.ofNat_toNat, BitVec.setWidth_eq]
      rw [takeField_eq_some ht, decodeToken_field] at h
      rw [takeField_eq_some ht, ← List.append_assoc]
      cases hf : fieldLeads f v.toNat with
      | inl j =>
        rw [hf] at h
        cases h
        obtain ⟨hwf, henc⟩ := fieldLeads_encodes v.isLt hf
        rw [hv] at henc
        exact ⟨hwf, _, rest, henc, rfl⟩
      | inr f' =>
        rw [hf] at h
        have hbits := (fieldLeads_next hf).bits
        rw [hv] at hbits
        rw [← hbits]
        exact ih _ f' hf h

/-- Bits that hold no token begin one: with more bits after them a token is read, and it ends among those, since a token
within the bits would have been read before (R90, R94). -/
theorem decodeToken_error_begins {bits : List Bool} {r : Reject} (h : decodeToken bits = .error r) :
    ∃ more i, decodeToken (bits ++ more) = .ok i ∧ bits.length < (encode i).bits.length := by
  obtain ⟨i, hi⟩ := decodeToken_long (bits := bits ++ zeroBits longestToken) (by simp [longestToken])
  refine ⟨_, i, hi, ?_⟩
  obtain ⟨hwf, code, rest, henc, hcode⟩ := decodeToken_stands .tag hi
  rw [henc]
  by_contra hle
  obtain ⟨more, rfl⟩ := List.prefix_of_prefix_length_le (hcode ▸ List.prefix_append code rest)
    (List.prefix_append bits _) (not_lt.mp hle)
  have hread := decodeOfEncode i more hwf
  rw [henc] at hread
  cases h.symm.trans hread

/-- Settles O3: a seed is any 8 bits; a token is read field by field, off its own bits. -/
theorem tokensAreTheirBits : Obligations.TokensAreTheirBits := by
  refine ⟨fun bits i h => ?_, fun bits i h => ?_, fun bits => decodeToken_long, fun bits r => decodeToken_error_begins⟩
  · obtain ⟨hwf, code, rest, henc, hcode⟩ := decodeToken_stands .tag h
    exact ⟨hwf, (decodeToken_wire h).1, rest, by rw [henc]; exact congrArg _ hcode.symm⟩
  · unfold decodeSeed at h
    split at h
    · cases h
    next b rest ht =>
      cases h
      exact ⟨b, rest, rfl, takeField_eq_some ht⟩

end Sys2Proof.Machine
end

section
/-! What `read_token` returns for a token that stands at the reader, and what an illegal encoding does when it is
executed (43_token_mux.md R195, R199; 60_exceptions.md R265, R266); and E_COUNT (42_count_codec.md R178). -/

namespace Sys2Proof.Machine

/-- Settles O12: a count in range passes the checks, and `encode_count` appends its code. -/
theorem eCountWritesTheCode : Obligations.ECountWritesTheCode := by
  intro n s hw h1 hn
  obtain ⟨hw', hwritten⟩ := encodeCount_writer hw hn
  have hbad : badCount n = false := by
    have hne : n ≠ 0 := fun h0 => by simp [h0] at h1
    simp only [badCount, hne, not_lt.mpr hn, or_self, decide_false]
  have hexec : exec (.eCount 0 n) s = .next (respondAfterSout .ok 0 (encodeCount n s)) := by
    show execECount 0 n s = _
    simp [execECount, hbad]
  refine ⟨_, hexec, ⟨hw'.unfilled_zero⟩, hwritten, ?_⟩
  rw [encodeCount_only n s]
  rfl

/-! ### D_TOKEN -/

/-- How `read_token` ends when it has read the bits of the instruction `i` and the reader is at `w` (R195). -/
def tokenEnd : Instr → State → Read TokenRead
  | .lit b, w => .done (.lit b.toNat) w
  | .runT1 c, w => .done (.run (countT1 c)) w
  | .runT2 c, w => .done (.run (countT2 c)) w
  | .runT3 c, w => .done (.run (countT3 c)) w
  | .runT4 c, w => .done (.run (countT4 c)) w
  | .illegalTag00, w => .raises .badtag 0 w
  | .illegalTag11, w => .raises .badtag 3 w
  | .illegalZeroCount, w => .raises .zerocount 0 w
  | _, _ => .pastEnd

theorem done_of_eq {α : Type} {a b : α} {r : Read α} {w : State} (h : r = .done a w) (hab : b = a) : r = .done b w :=
  hab ▸ h

/-- `read_token` at the last field of a token. -/
theorem tokenFrom_last {f : TokField} {v : Nat} {u w : State} {i : Instr} (hlt : v < 2 ^ fieldWidth f)
    (hv : readAt f u = .done v w) (hf : fieldLeads f v = .inl i) : tokenFrom f u = tokenEnd i w := by
  have hvalue : (BitVec.ofNat (fieldWidth f) v).toNat = v := by rw [BitVec.toNat_ofNat, Nat.mod_eq_of_lt hlt]
  cases f with
  | tag =>
    simp only [fieldLeads] at hf
    change v < 4 at hlt
    interval_cases v <;> cases hf <;> rw [tokenFrom, readToken, hv] <;> rfl
  | sample =>
    cases hf
    exact done_of_eq (by simp [tokenFrom, readTokenSample, hv, Read.andThen]) (congrArg TokenRead.lit hvalue)
  | c2 =>
    simp only [fieldLeads] at hf
    split_ifs at hf with h0
    cases hf
    exact done_of_eq (by simp [tokenFrom, asRun, decodeCount, hv, Read.andThen, h0]) (congrArg TokenRead.run hvalue)
  | c4 =>
    simp only [fieldLeads] at hf
    split_ifs at hf with h0
    cases hf
    exact done_of_eq (by simp [tokenFrom, asRun, decodeCountC4, hv, Read.andThen, h0])
      (congrArg (fun n => TokenRead.run (n + Config.t2Bias)) hvalue)
  | c8 =>
    simp only [fieldLeads] at hf
    split_ifs at hf with h0
    cases hf
    exact done_of_eq (by simp [tokenFrom, asRun, decodeCountC8, hv, Read.andThen, h0]) (congrArg TokenRead.run hvalue)
  | c16 =>
    cases hf
    split_ifs with h0
    · exact done_of_eq (by simp [tokenFrom, asRun, decodeCountC16, hv, Read.andThen, h0])
        (congrArg TokenRead.run hvalue)
    · rw [not_not.mp h0] at hv
      show asRun (decodeCountC16 u) = _
      rw [decodeCountC16, hv]
      rfl

/-- A token that stands at the reader, with the bits before a field in front, is read from that field on to its end
(30_encoding.md R94; R195). -/
theorem tokenFrom_reads (f : TokField) : ∀ {u : State} {i : Instr}, decodeToken (bitsBefore f ++ toRead u) = .ok i →
    ∃ w k, Took k u w ∧ k + (bitsBefore f).length = (encode i).bits.length ∧ tokenFrom f u = tokenEnd i w := by
  induction f using tokField_induction with
  | step f ih =>
    intro u i h
    cases ht : takeField (fieldWidth f) (toRead u) with
    | none =>
      rw [decodeToken_bitsBefore (takeField_eq_none.mp ht)] at h
      cases h
    | some p =>
      obtain ⟨v, rest⟩ := p
      obtain ⟨w, hv, rfl, hw, -⟩ := readAt_some ht
      rw [takeField_eq_some ht, decodeToken_field] at h
      cases hf : fieldLeads f v.toNat with
      | inl j =>
        rw [hf] at h
        cases h
        obtain ⟨-, henc⟩ := fieldLeads_encodes v.isLt hf
        refine ⟨w, _, hw, ?_, tokenFrom_last v.isLt hv hf⟩
        rw [henc, Source.bits, List.length_append, lowBits_length, Nat.add_comm]
      | inr f' =>
        rw [hf] at h
        obtain ⟨x, k, hx, hk, hread⟩ := ih _ f' hf h
        refine ⟨x, _, hw.trans hx, ?_, (tokenFrom_next hv hf).trans hread⟩
        rw [← hk, (fieldLeads_next hf).bits, List.length_append, lowBits_length]
        omega

/-- How D_TOKEN ends with what it has read (R199; 60_exceptions.md R268). -/
theorem tokenEnd_answers {i : Instr} (hi : i.isWire = true) (hs : ∀ b, i ≠ .seed b) (w : State) :
    ∃ t, ((tokenEnd i w).toOutcome fun tok u => .next (respond .ok (tokenVal tok) { u with tokAt := .tag })) = .next t ∧
      t = { w with tokAt := .tag, derr := t.derr, dcode := t.dcode, activity := tokenAnswer i } ∧
      (t.derr, t.dcode) =
        if i = .illegalTag00 ∨ i = .illegalTag11 then (true, 5)
        else if i = .illegalZeroCount then (true, 6) else (w.derr, w.dcode) := by
  cases i with
  | seed b => exact absurd rfl (hs b)
  | lit | runT1 | runT2 | runT3 | runT4 => exact ⟨_, rfl, rfl, by simp⟩
  | illegalTag00 | illegalTag11 | illegalZeroCount => exact ⟨_, rfl, rfl, rfl⟩
  | _ => cases hi

/-- D_TOKEN while the half is not halted (R199). -/
theorem exec_dToken_reads {s : State} (hd : s.derr = false) : exec (.dToken 0 0) s =
    (tokenFrom .tag { s with activity := .dToken, tokAt := .tag }).toOutcome
      fun tok u => .next (respond .ok (tokenVal tok) { u with tokAt := .tag }) := by
  rw [exec_dToken, if_neg (by simp [hd])]
  rfl

/-- Settles O27: the token is read to its end, and the command ends as `read_token` does. -/
theorem dTokenReadsAToken : Obligations.DTokenReadsAToken := by
  intro s i hr hd h
  obtain ⟨w, k, hw, hk, hread⟩ :=
    tokenFrom_reads .tag (u := { s with activity := .dToken, tokAt := .tag }) (i := i) h
  have hk : k = (encode i).bits.length := hk
  obtain ⟨hi, hns⟩ := decodeToken_wire h
  obtain ⟨t, ht, hframe, herr⟩ := tokenEnd_answers hi hns w
  obtain ⟨hrw, hpos⟩ := hw.reader ⟨hr.idx_le, hr.fresh, hr.cur_eq⟩
  have herrw : (w.derr, w.dcode) = (false, s.dcode) := by rw [hw.frame, ← hd]
  rw [← hk]
  refine ⟨t, (exec_dToken_reads hd).trans (hread ▸ ht), ?_, ?_, ?_, ?_, herrw ▸ herr⟩
  · rw [hframe]
    exact ⟨hrw.idx_le, hrw.fresh, hrw.cur_eq⟩
  · rw [hframe]
    exact hw.left
  · rw [hframe]
    exact hpos
  · rw [hframe, hw.frame]

/-! ### The illegal encodings -/

/-- The fields of a token that stands at the reader, which may be inside it, are read to the end of its bits. -/
theorem consumeToken_whole {fields : List TokField} {s : State} {code rest : List Bool}
    (hb : bitsBefore s.tokAt ++ toRead s = code ++ rest)
    (hk : ((fields.dropWhile (· != s.tokAt)).map fieldWidth).sum + (bitsBefore s.tokAt).length = code.length) :
    ∃ t k, consumeToken fields s = .done () t ∧ Took k s t ∧ t.tokAt = .tag ∧ toRead t = rest ∧
      k + (bitsBefore s.tokAt).length = code.length := by
  have hl := congrArg List.length hb
  simp only [List.length_append] at hl
  obtain ⟨t, ht, hw, htag⟩ := consumeToken_enough fields (s := s) (by omega)
  refine ⟨t, _, ht, hw, htag, ?_, hk⟩
  have hd := congrArg (List.drop code.length) hb
  rwa [List.drop_left, ← hk, Nat.add_comm, ← List.drop_drop, List.drop_left, ← hw.left] at hd

/-- An illegal encoding that stands at the reader is consumed whole, and its fault is its whole effect. -/
theorem illegal_faults {fields : List TokField} {s : State} {code rest : List Bool} (st : Status) (info : Arg)
    (hr : ReaderInv s) (hb : bitsBefore s.tokAt ++ toRead s = code ++ rest)
    (hk : ((fields.dropWhile (· != s.tokAt)).map fieldWidth).sum + (bitsBefore s.tokAt).length = code.length) :
    ∃ t, ((consumeToken fields s).toOutcome fun _ u => .next (faultEntry st info u)) = .next t ∧ ReaderInv t ∧
      toRead t = rest ∧ bitPos t + (bitsBefore s.tokAt).length = bitPos s + code.length ∧
      t = { s with
        brIdx := t.brIdx, brCur := t.brCur, brLeft := t.brLeft, tokAt := .tag, derr := true, dcode := statusCode st,
        activity := .drainPout st info } := by
  obtain ⟨u, k, hu, hw, -, hrest, hk⟩ := consumeToken_whole hb hk
  obtain ⟨hru, hpos⟩ := hw.reader hr
  refine ⟨faultEntry st info u, by rw [hu]; rfl, ⟨hru.idx_le, hru.fresh, hru.cur_eq⟩, hrest, ?_, ?_⟩
  · change bitPos u + _ = _
    omega
  · rw [hw.frame]
    rfl

/-- A tag of two equal bits is not the beginning of a longer token, so the reader stands before it. -/
theorem tokAt_of_equal_tag {f : TokField} {b : Bool} {bits rest : List Bool}
    (h : bitsBefore f ++ bits = [b, b] ++ rest) : f = .tag := by
  cases f with
  | tag => rfl
  | _ => cases b <;> cases h

/-- Settles O35: the reader stands before a tag, or before or inside the all-zero count; the fields that are left end
with the encoding. -/
theorem illegalEncodingsFault : Obligations.IllegalEncodingsFault := by
  refine ⟨fun s rest i tag hr hi hb => ?_, fun s rest hr hb => ?_⟩
  · obtain ⟨rfl, rfl⟩ | ⟨rfl, rfl⟩ := hi
    · exact illegal_faults (fields := [.tag]) .badtag 0 hr hb (by rw [tokAt_of_equal_tag hb]; rfl)
    · exact illegal_faults (fields := [.tag]) .badtag 3 hr hb (by rw [tokAt_of_equal_tag hb]; rfl)
  · have hk : ((runFieldsT4.dropWhile (· != s.tokAt)).map fieldWidth).sum + (bitsBefore s.tokAt).length =
        (true :: false :: zeroBits 30).length := by
      cases hf : s.tokAt with
      | sample =>
        rw [hf] at hb
        cases hb
      | _ => rfl
    exact illegal_faults (fields := runFieldsT4) .zerocount 0 hr hb hk

end Sys2Proof.Machine
end

section
/-! The machine never stops (60_exceptions.md R260): the reads never run past the end of `SIN`, and D_PLANE fetches only
instructions of the wire level, so no move answers a fault of the model (log entry 10). -/

namespace Sys2Proof.Machine

theorem Goes.next (t : State) : Goes (.next t) := ⟨t, rfl⟩

theorem Goes.ite {p : Prop} [Decidable p] {o o' : Host.Outcome State Fault Refusal} (h : Goes o) (h' : Goes o') :
    Goes (if p then o else o') := by
  split_ifs
  exacts [h, h']

/-- A rejection answers a next state, so a check goes on if what follows it does. -/
theorem Goes.checked {p : Prop} [Decidable p] {st : Status} {s : State} {o : Host.Outcome State Fault Refusal}
    (h : Goes o) : Goes (if p then reject st s else o) :=
  .ite (.next _) h

/-! ### The tokens -/

theorem runOf_goes (fields : List TokField) (count : Nat) (s : State) : Goes (runOf fields count s) :=
  (consumeToken_from fields s).goes fun _ _ _ => .ite (.next _) (.next _)

/-- Every instruction a stream can hold goes on (30_encoding.md R96). -/
theorem execWire_goes {i : Instr} (hi : i.isWire = true) (s : State) : Goes (execWire i s) := by
  cases i with
  | seed b => exact (readField_from _ s).goes fun _ _ _ => .next _
  | lit b => exact (consumeToken_from _ s).goes fun _ _ _ => .next _
  | runT1 c => exact runOf_goes _ _ s
  | runT2 c => exact runOf_goes _ _ s
  | runT3 c => exact runOf_goes _ _ s
  | runT4 c => exact runOf_goes _ _ s
  | illegalTag00 => exact (consumeToken_from _ s).goes fun _ _ _ => .next _
  | illegalTag11 => exact (consumeToken_from _ s).goes fun _ _ _ => .next _
  | illegalZeroCount => exact (consumeToken_from _ s).goes fun _ _ _ => .next _
  | _ => cases hi

theorem fetchShort_goes {r : Reject} (hr : r ≠ .wideCommand) (s : State) : Goes (fetchShort r s) := by
  cases r with
  | wideCommand => exact absurd rfl hr
  | shortSeed => exact (readField_from _ s).goes fun _ _ _ => .next _
  | _ => exact (consumeToken_from _ s).goes fun _ _ _ => .next _

/-- What ends the bits at the fetch pointer is a field of a seed or token, never the width of a command word. -/
theorem fetch_short {s : State} {r : Reject} (h : fetch s = .error r) : r ≠ .wideCommand := by
  unfold fetch at h
  split_ifs at h
  · rcases decodeSeed_cases (unread s) with ⟨b, hb⟩ | hb <;> rw [hb] at h <;> cases h
    nofun
  · exact (decodeToken_short h).2

theorem expandWith_goes (s : State) : Goes (expandWith execWire s) := by
  unfold expandWith
  refine .ite ?_ (.next _)
  split
  next i hi => exact execWire_goes (fetch_wire hi) s
  next r hr => exact fetchShort_goes (fetch_short hr) s

theorem expandMoves_goes (fuel : Nat) (s : State) : Goes (expandMoves fuel s) := by
  induction fuel generalizing s with
  | zero => exact .next s
  | succ fuel ih =>
    obtain ⟨t, ht⟩ := expandWith_goes s
    rw [expandMoves, ht]
    exact .ite (ih t) (.next t)

/-! ### The commands -/

theorem runRbits_goes (cnt : Cnt) (s : State) : Goes (runRbits cnt s) :=
  (readField_from _ s).goes fun _ _ _ => .next _

theorem runCount_goes (s : State) : Goes (runCount s) := (resumeCount_from s).goes fun _ _ _ => .next _

theorem runToken_goes (s : State) : Goes (runToken s) := (resumeToken_from s).goes fun _ _ _ => .next _

/-- Every instruction goes on: each check is a rejection, which is a next state, and each read ends (R260). -/
theorem exec_goes (i : Instr) (s : State) : Goes (exec i s) := by
  cases i with
  | seed | lit | runT1 | runT2 | runT3 | runT4 | illegalTag00 | illegalTag11 | illegalZeroCount =>
    rw [exec_wire (by rfl)]
    exact execWire_goes (by rfl) s
  | eWbits cnt arg => exact .checked (.next _)
  | eFlush cnt arg => exact .checked (.next _)
  | eGetb cnt arg => exact .checked (.next _)
  | eCount cnt arg => exact .checked (.checked (.next _))
  | eLit cnt arg => exact .checked (.next _)
  | eRun cnt arg => exact .checked (.checked (.next _))
  | ePlane cnt arg => exact .checked (.next _)
  | eClr cnt arg => exact .checked (.next _)
  | dRbits cnt arg => exact .checked (.checked (.checked (runRbits_goes cnt _)))
  | dAlign cnt arg => exact .checked (.checked (.next _))
  | dCount cnt arg => exact .checked (.checked (runCount_goes _))
  | dToken cnt arg => exact .checked (.checked (runToken_goes _))
  | dPlane cnt arg => exact .checked (.checked (expandMoves_goes _ _))
  | dClr cnt arg => exact .checked (.next _)
  | rdsr cnt arg =>
    refine .checked ?_
    cases statusRegister s arg with
    | none => exact .next _
    | some v => exact .next _
  | reservedOp0 cnt arg => exact .next _

/-! ### The sequencer -/

theorem sequencerIdle_goes (s : State) : Goes (sequencerIdle exec s) := by
  unfold sequencerIdle
  split
  · exact .next s
  · exact .ite (exec_goes _ _) (.next s)

theorem runCompressor_goes (s : State) : Goes (runCompressor s) := by
  unfold runCompressor
  split <;> exact .next _

theorem sequencer_goes (s : State) : Goes (sequencer exec s) := by
  unfold sequencer
  cases s.activity with
  | idle => exact sequencerIdle_goes s
  | dRbits cnt => exact runRbits_goes cnt s
  | dCount => exact runCount_goes s
  | dToken => exact runToken_goes s
  | ePlane => exact runCompressor_goes s
  | dPlane =>
    show Goes (expandWith exec s)
    rw [expandWith_exec]
    exact expandWith_goes s
  | drainSout st val => exact .ite (.next _) (.next s)
  | drainPout st val => exact .ite (.next _) (.next s)
  | respond st val => exact .ite (.next _) (.next s)

/-- Settles O54: a move of the host is a next state, and so is every move of the sequencer. -/
theorem noStateStopsTheMachine : Obligations.NoStateStopsTheMachine := by
  intro s
  unfold step
  split
  · exact ⟨_, rfl⟩
  · exact sequencer_goes _

end Sys2Proof.Machine
end

section
/-! The command port and the response port (46_system_commands.md R253, R254): what each move of the machine does to the
words held out on `cmd`, to the responses taken on `rsp`, and to `SEQ.busy`. -/

namespace Sys2Proof.Machine

/-- `SEQ.busy`, the words not yet accepted and the responses taken are in `t` what they are in `s`. -/
def SameCommandPorts (s t : State) : Prop := t.seqBusy = s.seqBusy ∧ t.hCmd = s.hCmd ∧ t.hRspGot = s.hRspGot

theorem EncoderMove.sameCommandPorts {s t : State} (h : EncoderMove s t) : SameCommandPorts s t := by
  rw [h.frame]
  exact ⟨rfl, rfl, rfl⟩

theorem DecoderMove.sameCommandPorts {s t : State} (h : DecoderMove s t) : SameCommandPorts s t := by
  rw [h.frame]
  exact ⟨rfl, rfl, rfl⟩

/-- No command reaches the two ports: its word is accepted before, and its response taken after. -/
theorem Executed.sameCommandPorts {i : Instr} {s t : State} (h : Executed i s t) : SameCommandPorts s t := by
  cases h with
  | answers st val ht => exact ht ▸ ⟨rfl, rfl, rfl⟩
  | encodes hm => exact hm.sameCommandPorts
  | clearsEncoder _ ht => exact ht ▸ ⟨rfl, rfl, rfl⟩
  | decodes _ hm => exact hm.sameCommandPorts
  | clearsDecoder _ ht => exact ht ▸ ⟨rfl, rfl, rfl⟩

/-- What a step without a reset can do to the two ports. -/
inductive CommandMove (s t : State) : Prop where
  /-- The host may hold out more words. -/
  | keeps (hb : t.seqBusy = s.seqBusy) (hc : s.hCmd <+: t.hCmd) (hr : t.hRspGot = s.hRspGot)
  /-- One word is accepted. -/
  | accepts (hb : s.seqBusy = false) (hb' : t.seqBusy = true) (word : CmdWord) (hc : s.hCmd = word :: t.hCmd)
      (hr : t.hRspGot = s.hRspGot)
  /-- One response is taken. -/
  | responds (st : Status) (val : Arg) (ha : s.activity = .respond st val) (hb : t.seqBusy = false)
      (hc : t.hCmd = s.hCmd) (hr : t.hRspGot = s.hRspGot ++ [rspWord st val])

theorem SameCommandPorts.move {s t : State} (h : SameCommandPorts s t) : CommandMove s t := by
  obtain ⟨hb, hc, hr⟩ := h
  exact .keeps hb (by rw [hc]) hr

theorem SequencerMove.commandMove {u t : State} (h : SequencerMove u t) : CommandMove u t := by
  cases h with
  | waits ht => exact ht ▸ SameCommandPorts.move ⟨rfl, rfl, rfl⟩
  | presents st val _ ht => exact ht ▸ SameCommandPorts.move ⟨rfl, rfl, rfl⟩
  | completes st val ha ht => exact ht ▸ .responds st val ha rfl rfl rfl
  | encodes _ hm => exact hm.sameCommandPorts.move
  | decodes _ hm => exact hm.sameCommandPorts.move
  | accepts word rest _ hb hc hm =>
    obtain ⟨hb', hc', hr⟩ := hm.sameCommandPorts
    exact .accepts hb hb' word (by rw [hc, hc']; rfl) hr

/-- The clock edge of the data ports is not seen on `cmd` and `rsp`. -/
theorem CommandMove.after_edge {s u t : State} (hu : OnlyPorts s u) (h : CommandMove u t) : CommandMove s t := by
  rw [hu] at h
  cases h with
  | keeps hb hc hr => exact .keeps hb hc hr
  | accepts hb hb' word hc hr => exact .accepts hb hb' word hc hr
  | responds st val ha hb hc hr => exact .responds st val ha hb hc hr

/-- The host's own moves only add words to `cmd`. -/
theorem hostAct_commandMove {a : HostAct} (ha : a ≠ .assertReset) (s : State) : CommandMove s (hostAct a s) := by
  have hc : s.hCmd <+: (hostAct a s).hCmd := by
    cases a with
    | assertReset => exact absurd rfl ha
    | offerCmd word => exact List.prefix_append _ _
    | driveEos level => rw [hostAct, closeInput_eq]
    | _ => exact List.prefix_rfl
  exact .keeps (by rw [hostAct_frame ha]) hc (by rw [hostAct_frame ha])

theorem step_commandMove {s t : State} (hst : step s = .next t) (hn : ¬ ResetNext s) : CommandMove s t := by
  cases step_move hst with
  | reset hr _ _ => exact absurd hr hn
  | host a ha rest _ ht =>
    have hm : CommandMove { s with hScript := rest } t := ht ▸ hostAct_commandMove ha _
    exact hm.after_edge (show OnlyPorts s { s with hScript := rest } from rfl)
  | block _ u hu hm => exact hm.commandMove.after_edge hu.only

/-- Settles O57: by the invariant a response is presented only while the sequencer is busy. -/
theorem oneCommandOneResponse : Obligations.OneCommandOneResponse := by
  intro s t hi hst hn
  cases step_commandMove hst hn with
  | keeps hb hc hr =>
    exact ⟨fun _ => hc, fun hs => ⟨hr, .inl ⟨hb.trans hs, hc⟩⟩, fun hs => .inl ⟨hb.trans hs, hr⟩⟩
  | accepts hb hb' word hc hr =>
    have hbusy : s.seqBusy ≠ true := by simp [hb]
    exact ⟨fun hs => absurd hs hbusy, fun _ => ⟨hr, .inr ⟨hb', word, hc⟩⟩, fun hs => absurd hs hbusy⟩
  | responds st val ha hb hc hr =>
    have hbusy : s.seqBusy = true := hi.sequencer.busy.mpr (by rw [ha]; nofun)
    exact ⟨fun _ => by rw [hc], fun hs => absurd (hbusy.symm.trans hs) nofun, fun _ => .inr ⟨hb, st, val, ha, hr⟩⟩

end Sys2Proof.Machine
end

section
/-! The bit writer and its commands (40_bit_writer.md): the bit string `W` as the writer's whole state (R141), the loop
of `write_bits` (R132, R133, R142), `flush` (R136), and E_WBITS, E_FLUSH, E_GETB (R138 to R140). -/

namespace Sys2Proof

theorem byteBits_injective {a b : Byte} (h : byteBits a = byteBits b) : a = b := by
  have hv := congrArg bitsValue h
  rw [byteBits, byteBits, bitsValue_lowBits, bitsValue_lowBits, Nat.mod_eq_of_lt a.isLt, Nat.mod_eq_of_lt b.isLt] at hv
  exact BitVec.eq_of_toNat_eq hv

theorem bitsOf_injective {xs ys : List Byte} (h : bitsOf xs = bitsOf ys) : xs = ys := by
  induction xs generalizing ys with
  | nil =>
    have hlen := congrArg List.length h
    exact (List.length_eq_zero_iff.mp (by simpa using hlen.symm)).symm
  | cons x xs ih =>
    cases ys with
    | nil => simpa using congrArg List.length h
    | cons y ys =>
      obtain ⟨hbyte, hrest⟩ := List.append_inj h (by simp)
      rw [byteBits_injective hbyte, ih hrest]

end Sys2Proof

namespace Sys2Proof.Machine

/-! ### The registers read off the bit string -/

/-- The filled positions are the bits of `W` past its last whole byte (10_state.md R24). -/
theorem filled_eq_written_length (s : State) : filled s = (written s).length % 8 := by
  have := filled_lt s
  rw [written_length]
  omega

/-- `BW.free` counts the unfilled positions of a partial byte, and is 0 when there is none (10_state.md R23, R24). -/
theorem bwFree_toNat (s : State) : s.bwFree.toNat = (8 - filled s) % 8 := by
  have hlt := s.bwFree.isLt
  by_cases h : s.bwFree = 0
  · simp [filled, h]
  · have hne : s.bwFree.toNat ≠ 0 := fun h0 => h (BitVec.eq_of_toNat_eq h0)
    rw [filled, if_neg h]
    omega

theorem bwFree_toNat_written (s : State) : s.bwFree.toNat = (8 - (written s).length % 8) % 8 := by
  rw [bwFree_toNat, filled_eq_written_length]

/-- The pad bits are those of the partial byte's unfilled positions (R136, R141). -/
theorem padBits_written (s : State) : padBits (written s).length = zeroBits s.bwFree.toNat := by
  rw [padBits, bwFree_toNat_written]

/-- `SOUT` is the whole bytes of `W` (R141). -/
theorem bitsOf_sout (s : State) : bitsOf s.sout = (written s).take (8 * ((written s).length / 8)) := by
  have hlen : (bitsOf s.sout).length = 8 * ((written s).length / 8) := by
    have := filled_lt s
    rw [bitsOf_length, written_length]
    omega
  rw [← hlen, written, List.take_left]

/-- With no partial byte `W` is the bits of `SOUT`. -/
theorem written_eq_bitsOf_sout {s : State} (h : s.bwFree = 0) : written s = bitsOf s.sout := by
  simp [written, filled, h]

/-- With no partial byte every position of `BW.acc` is unfilled, hence 0 (10_state.md R22). -/
theorem WriterInv.bwAcc_eq_zero {s : State} (hw : WriterInv s) (h : s.bwFree = 0) : s.bwAcc = 0 := by
  have hz := hw.unfilled_zero
  simp only [filled, h, if_true, List.drop_zero] at hz
  exact byteBits_injective (hz.trans (lowBits_zero 8 8).symm)

/-- `W` is the writer's whole state: its length gives `BW.free`, its whole bytes `SOUT`, and the bits after them the
filled positions of `BW.acc`, whose others are 0 (R141). -/
theorem WriterInv.eq_of_written {s t : State} (hs : WriterInv s) (ht : WriterInv t) (h : written s = written t) :
    s.bwAcc = t.bwAcc ∧ s.bwFree = t.bwFree ∧ s.sout = t.sout := by
  have hfilled : filled s = filled t := by rw [filled_eq_written_length, filled_eq_written_length, h]
  have hsout : s.sout = t.sout := bitsOf_injective (by rw [bitsOf_sout, bitsOf_sout, h])
  have hfree : s.bwFree = t.bwFree := BitVec.eq_of_toNat_eq (by rw [bwFree_toNat, bwFree_toNat, hfilled])
  have htake : (byteBits s.bwAcc).take (filled s) = (byteBits t.bwAcc).take (filled t) := by
    rw [written, written, hsout] at h
    exact List.append_cancel_left h
  have hdrop : (byteBits s.bwAcc).drop (filled s) = (byteBits t.bwAcc).drop (filled t) := by
    rw [hs.unfilled_zero, ht.unfilled_zero, hfilled]
  refine ⟨byteBits_injective ?_, hfree, hsout⟩
  rw [← List.take_append_drop (filled s) (byteBits s.bwAcc), htake, hdrop, List.take_append_drop]

/-! ### What leaves the bit string alone -/

theorem written_of_encHalf {s t : State} (h : encHalf t = encHalf s) : written t = written s := by
  simp only [encHalf, Prod.mk.injEq] at h
  obtain ⟨hacc, hfree, hsout, -⟩ := h
  rw [written, written, filled, filled, hacc, hfree, hsout]

/-- An instruction that is not of the E_ group is of the D_ group or a token, RDSR, or the reserved opcode, and none of
these reaches the encoder half. -/
theorem exec_written {i : Instr} {s t : State} (hi : isEncoderCommand i = false) (h : exec i s = .next t) :
    written t = written s := by
  obtain ⟨-, hdecoder, hrdsr⟩ := halvesShareNothing
  cases hd : isDecoderInstr i with
  | true => exact written_of_encHalf (hdecoder i s s t hd rfl rfl h).1
  | false =>
    cases i with
    | rdsr cnt arg => exact written_of_encHalf (hrdsr cnt arg s t h).1
    | reservedOp0 cnt arg =>
      cases h
      rfl
    | eWbits | eFlush | eGetb | eCount | eLit | eRun | ePlane | eClr => cases hi
    | _ => cases hd

theorem DecoderMove.written {s t : State} (h : DecoderMove s t) : written t = written s := by
  rw [h.frame]
  rfl

theorem OnlyPorts.written {s u : State} (h : OnlyPorts s u) : written u = written s := by
  rw [h]
  rfl

/-- One move of the sequencer changes `W` only in a running E_PLANE or by a command of the E_ group. -/
theorem sequencer_written {u t : State} (h : sequencer exec u = .next t) :
    written t = written u ∨ u.activity = .ePlane ∨
      ∃ word rest, (u.activity = .idle ∧ u.seqBusy = false ∧ u.hCmd = word :: rest) ∧
        isEncoderCommand (decodeCommand word) = true := by
  cases sequencer_move h with
  | waits ht => exact .inl (by rw [ht])
  | presents st val _ ht => exact .inl (by rw [ht]; rfl)
  | completes st val _ ht => exact .inl (by rw [ht]; rfl)
  | encodes ha _ => exact .inr (.inl ha)
  | decodes _ hm => exact .inl hm.written
  | accepts word rest ha hb hc _ =>
    cases hi : isEncoderCommand (decodeCommand word) with
    | true => exact .inr (.inr ⟨word, rest, ⟨ha, hb, hc⟩, hi⟩)
    | false =>
      have hexec : exec (decodeCommand word) (acceptCommand rest u) = .next t := by
        simpa [sequencer, ha, sequencerIdle, hc, cmdReady, hb] using h
      exact .inl ((exec_written hi hexec).trans rfl)

/-- One step changes `W` only by a reset, in a running E_PLANE, or by a command of the E_ group that it accepts. -/
theorem step_written {s t : State} (h : step s = .next t) :
    written t = written s ∨ ResetNext s ∨ s.activity = .ePlane ∨
      ∃ word, AcceptsNext s word ∧ isEncoderCommand (decodeCommand word) = true := by
  unfold step at h
  split at h
  next u hu =>
    cases h
    obtain ⟨a, rest, hs, rfl⟩ := turn_host hu
    by_cases ha : a = .assertReset
    · exact .inr (.inl (by rw [ResetNext, hs, ha]; rfl))
    · exact .inl (by rw [hostAct_frame ha]; rfl)
  next u hu =>
    obtain ⟨hblock, hedge⟩ := turn_block hu
    rcases sequencer_written h with hw | ha | ⟨word, rest, ⟨ha, hb, hc⟩, hi⟩
    · exact .inl (hw.trans hedge.only.written)
    · rw [hedge.only] at ha
      exact .inr (.inr (.inl ha))
    · exact .inr (.inr (.inr ⟨word, hedge.only.acceptsNext hblock ha hb hc, hi⟩))

/-- Settles O5: what the operations do to `W`, the registers read off `W`, and the moves that leave it alone. -/
theorem writerIsItsBitString : Obligations.WriterIsItsBitString :=
  ⟨fun v c _ hw => writeBits_writer v c hw, fun _ hw => flush_writer hw, fun _ => ⟨rfl, rfl⟩,
    fun _ _ _ hi h => exec_written hi h, fun s _ => ⟨bwFree_toNat_written s, bitsOf_sout s⟩,
    fun _ _ h => step_written h, fun _ _ hs ht h => hs.eq_of_written ht h⟩

/-! ### The loop of `write_bits` -/

/-- `put_bit` commits a byte when it fills the last position (R131). -/
theorem putBit_commits (b : Bool) (s : State) :
    ∃ more, (putBit b s).sout = s.sout ++ more ∧ more.length = (filled s + 1) / 8 := by
  have hlt := filled_lt s
  unfold putBit
  dsimp only
  split_ifs with h
  · exact ⟨_, rfl, by rw [h]; rfl⟩
  · exact ⟨[], (List.append_nil _).symm, by rw [List.length_nil]; omega⟩

theorem filled_putBit_mod (b : Bool) (s : State) : filled (putBit b s) = (filled s + 1) % 8 := by
  have hlt := filled_lt s
  rw [filled_putBit]
  split_ifs <;> omega

theorem filled_writeBits (v : Arg) (c : Nat) (s : State) : filled (writeBits v c s) = (filled s + c) % 8 := by
  induction c generalizing s with
  | zero => exact (Nat.mod_eq_of_lt (filled_lt s)).symm
  | succ c ih =>
    rw [writeBits, ih, filled_putBit_mod]
    omega

/-- `write_bits` commits a byte for each 8 positions it fills (R132). -/
theorem writeBits_commits (v : Arg) (c : Nat) (s : State) :
    ∃ more, (writeBits v c s).sout = s.sout ++ more ∧ more.length = (filled s + c) / 8 := by
  induction c generalizing s with
  | zero => exact ⟨[], (List.append_nil _).symm, (Nat.div_eq_of_lt (filled_lt s)).symm⟩
  | succ c ih =>
    obtain ⟨first, hfirst, hlen⟩ := putBit_commits (v.getLsbD c) s
    obtain ⟨rest, hrest, hlen'⟩ := ih (putBit (v.getLsbD c) s)
    refine ⟨first ++ rest, by rw [writeBits, hrest, hfirst, List.append_assoc], ?_⟩
    rw [List.length_append, hlen, hlen', filled_putBit_mod]
    omega

/-- Settles O6: the loop, its frame, and the count of committed bytes, by induction on the loop. -/
theorem writeBitsCommitsBytes : Obligations.WriteBitsCommitsBytes := by
  refine ⟨fun v c s => ⟨rfl, rfl⟩, fun v c s => ⟨writeBits_only v c s, ?_, filled_writeBits v c s⟩⟩
  obtain ⟨more, hsout, hlen⟩ := writeBits_commits v c s
  have hlt := filled_lt s
  exact ⟨more, hsout, hlen, fun hc => by omega⟩

/-- `write_bits` looks at the low `c` bits of its value only (R132). -/
theorem writeBits_congr {v v' : Arg} (c : Nat) (h : ∀ i < c, v.getLsbD i = v'.getLsbD i) (s : State) :
    writeBits v c s = writeBits v' c s := by
  induction c generalizing s with
  | zero => rfl
  | succ c ih => rw [writeBits, writeBits, h c (by omega), ih fun i hi => h i (by omega)]

/-- The implicit masking of R133. -/
theorem writeBits_mod (v : Arg) (c : Nat) (s : State) :
    writeBits (BitVec.ofNat 32 (v.toNat % 2 ^ c)) c s = writeBits v c s := by
  refine writeBits_congr c (fun i hi => ?_) s
  rw [BitVec.getLsbD_ofNat, Nat.testBit_mod_two_pow, BitVec.testBit_toNat]
  by_cases h32 : i < 32
  · simp [hi, h32]
  · simp [h32, BitVec.getLsbD_of_ge v i (not_lt.mp h32)]

theorem exec_eWbits_mod (cnt : Cnt) (v : Arg) (s : State) :
    exec (.eWbits cnt (BitVec.ofNat 32 (v.toNat % 2 ^ cnt.toNat))) s = exec (.eWbits cnt v) s := by
  show execEWbits cnt _ s = execEWbits cnt v s
  rw [execEWbits, execEWbits, writeBits_mod]

/-- Settles O7: the loop reads no bit at or above position `c`. -/
theorem writeBitsMasks : Obligations.WriteBitsMasks :=
  ⟨fun v c s => (writeBits_mod v c s).symm, fun cnt v s => (exec_eWbits_mod cnt v s).symm,
    fun _ hw => (writeBits_writer 0xFFFFFFF5 4 hw).2⟩

/-- The first `a` turns of the loop write the bits of the value above position `b - 1` (R142). -/
theorem writeBits_add (v : Arg) (a b : Nat) (s : State) :
    writeBits v (a + b) s = writeBits v b (writeBits (v >>> b) a s) := by
  induction a generalizing s with
  | zero => rw [Nat.zero_add, writeBits]
  | succ a ih => rw [Nat.add_right_comm, writeBits, ih, writeBits, BitVec.getLsbD_ushiftRight, Nat.add_comm b a]

/-- Settles O8: the split holds for groups of any width, and the tag `10` is the case of two single bits. -/
theorem writeBitsSplits : Obligations.WriteBitsSplits :=
  ⟨fun v a b s _ => writeBits_add v a b s, fun s => (writeBits_add 0b10 1 1 s).symm⟩

/-! ### `flush` -/

theorem flush_of_partial {s : State} (h : s.bwFree ≠ 0) :
    flush s = { s with sout := s.sout ++ [s.bwAcc], bwAcc := 0, bwFree := 0 } := if_pos h

theorem flush_of_aligned {s : State} (h : s.bwFree = 0) : flush s = s := if_neg (not_not.mpr h)

@[simp] theorem flush_bwFree (s : State) : (flush s).bwFree = 0 := by
  by_cases h : s.bwFree = 0
  · rw [flush_of_aligned h, h]
  · rw [flush_of_partial h]

theorem WriterInv.flush_bwAcc {s : State} (hw : WriterInv s) : (flush s).bwAcc = 0 :=
  (flush_writer hw).1.bwAcc_eq_zero (flush_bwFree s)

/-- Settles O9: after `flush` no partial byte remains, so a second one finds none. -/
theorem flushCommitsThePartialByte : Obligations.FlushCommitsThePartialByte := by
  refine ⟨fun _ => flush_of_partial, fun _ => flush_of_aligned, fun s hw => ?_,
    fun s => flush_of_aligned (flush_bwFree s)⟩
  exact ⟨flush_bwFree s, hw.flush_bwAcc, by rw [(flush_writer hw).2, padBits_written]⟩

/-! ### The commands -/

/-- A command that writes and then waits for `SOUT` changes the writer and the place the sequencer stands at. -/
theorem OnlyWriter.respondAfterSout {s u : State} (h : OnlyWriter s u) (st : Status) (val : Arg) :
    respondAfterSout st val u =
      { s with bwAcc := u.bwAcc, bwFree := u.bwFree, sout := u.sout, activity := .drainSout st val } := by
  rw [h]
  rfl

theorem exec_eWbits {cnt : Cnt} (h : cnt.toNat ≤ 16) (arg : Arg) (s : State) :
    exec (.eWbits cnt arg) s = .next (respondAfterSout .ok 0 (writeBits arg cnt.toNat s)) :=
  if_neg (by simpa [groupTooWide] using h)

/-- E_GETB does what E_FLUSH does: its sequence is `SOUT`, which the port delivers (R137, R140). -/
theorem exec_flushes {i : Instr} (hi : i = .eFlush 0 0 ∨ i = .eGetb 0 0) (s : State) :
    exec i s = .next (respondAfterSout .ok 0 (flush s)) := by
  rcases hi with rfl | rfl <;> rfl

/-- Settles O10: a width in range passes the check, and `write_bits` appends the group. -/
theorem eWbitsWritesItsGroup : Obligations.EWbitsWritesItsGroup := by
  intro cnt arg s hw hcnt
  obtain ⟨hw', hwritten⟩ := writeBits_writer arg cnt.toNat hw
  exact ⟨_, exec_eWbits hcnt arg s, ⟨hw'.unfilled_zero⟩, hwritten,
    (writeBits_only arg cnt.toNat s).respondAfterSout .ok 0⟩

/-- Settles O11: both commands are `flush` and the wait for `SOUT`. -/
theorem eFlushAndEGetbFlush : Obligations.EFlushAndEGetbFlush := by
  intro i s hi hw
  exact ⟨_, exec_flushes hi s, flush_bwFree s, hw.flush_bwAcc, (flush_writer hw).2,
    (written_eq_bitsOf_sout (flush_bwFree s)).symm, (flush_only s).respondAfterSout .ok 0⟩

end Sys2Proof.Machine
end

section
/-! The bit reader and its commands (41_bit_reader.md): the registers as functions of the position (R158), `read_bits`
as the unread bits tell it (R151 to R154, R159), D_ALIGN and D_RBITS (R156, R157). -/

namespace Sys2Proof.Machine

/-! ### The registers read off the position -/

/-- A reader that has fetched no byte holds no bits (10_state.md R30, R31). -/
theorem ReaderInv.left_le {s : State} (h : ReaderInv s) : s.brLeft.toNat ≤ 8 * s.brIdx := by
  have hlt := s.brLeft.isLt
  rcases Nat.eq_zero_or_pos s.brIdx with h0 | h0
  · rw [(h.fresh h0).1]
    exact Nat.zero_le _
  · omega

theorem ReaderInv.brIdx_eq {s : State} (h : ReaderInv s) : s.brIdx = (bitPos s + 7) / 8 := by
  have hle := h.left_le
  have hlt := s.brLeft.isLt
  unfold bitPos
  omega

theorem ReaderInv.brLeft_eq {s : State} (h : ReaderInv s) : s.brLeft.toNat = 8 * s.brIdx - bitPos s := by
  have hle := h.left_le
  unfold bitPos
  omega

theorem ReaderInv.brCur_eq {s : State} (h : ReaderInv s) :
    s.brCur = if s.brIdx = 0 then 0 else s.sin.getD (s.brIdx - 1) 0 := by
  split_ifs with h0
  · exact (h.fresh h0).2
  · rw [List.getD_eq_getElem?_getD, h.cur_eq (Nat.pos_of_ne_zero h0), Option.getD_some]

/-- What is unread and what has been read or discarded make up `SIN` (R151). -/
theorem ReaderInv.avail_add_bitPos {s : State} (h : ReaderInv s) : avail s + bitPos s = 8 * s.sin.length := by
  have hle := h.left_le
  have hidx := h.idx_le
  unfold avail bitPos
  omega

/-- The invariant speaks of the reader's registers only. -/
theorem ReaderInv.of_readerPart_eq {s t : State} (h : ReaderInv s) (ht : readerPart t = readerPart s) : ReaderInv t :=
  ((Took.refl s).readerMove.reader_of ht h).1

/-! ### `read_bits` -/

theorem Took.onlyReader {k : Nat} {s t : State} (h : Took k s t) (ht : t.tokAt = s.tokAt) : OnlyReader s t := by
  have hframe := h.frame
  rwa [ht] at hframe

theorem Took.avail {k : Nat} {s t : State} (h : Took k s t) : avail t = avail s - k := by
  rw [← toRead_length, ← toRead_length, h.left, List.length_drop]

/-- A read that is supplied (R151, R153). -/
theorem readField_supplied {c : Nat} {s : State} (h : c ≤ avail s) :
    ∃ t, readField c s = .done (bitsValue ((toRead s).take c)) t ∧ Took c s t ∧ OnlyReader s t := by
  obtain ⟨t, hread, htook, htok⟩ := readField_enough (toRead_length s ▸ h)
  exact ⟨t, hread, htook, htook.onlyReader htok⟩

theorem readField_waits_short {c : Nat} {s : State} (h : avail s < c) (hc : s.brClosed = false) :
    readField c s = .waits s := by
  rw [readField_short (toRead_length s ▸ h), hc]
  rfl

theorem readField_underruns {c : Nat} {s : State} (h : avail s < c) (hc : s.brClosed = true) :
    readField c s = .raises .underrun (BitVec.ofNat 32 c) s := by
  rw [readField_short (toRead_length s ▸ h), hc]
  rfl

/-- Settles O20: what stands at the position is what is unread, and the invariant gives back the registers. -/
theorem readerInverseLaw : Obligations.ReaderInverseLaw := by
  refine ⟨fun c v rest s hr _ hbits => ?_, fun s hr => ⟨hr.brIdx_eq, hr.brLeft_eq, hr.brCur_eq⟩⟩
  rw [← toRead_eq hr] at hbits
  have henough : c ≤ avail s := by
    rw [← toRead_length, hbits, List.length_append, lowBits_length]
    exact Nat.le_add_right _ _
  obtain ⟨t, hread, htook, honly⟩ := readField_supplied henough
  rw [hbits, List.take_left' (lowBits_length v c), bitsValue_lowBits] at hread
  obtain ⟨hrt, hpos⟩ := htook.reader hr
  exact ⟨t, hread, hpos, hrt, honly⟩

/-- Settles O21: a read is supplied, or finds the input open, or finds it closed. -/
theorem readIsAllOrNothing : Obligations.ReadIsAllOrNothing := by
  refine ⟨fun s hr => hr.avail_add_bitPos, fun c s h => ?_, fun _ _ => readField_waits_short,
    fun _ _ => readField_underruns⟩
  obtain ⟨t, hread, htook, honly⟩ := readField_supplied h
  exact ⟨t, hread, htook.left, honly⟩

/-- The loop of `read_bits` goes on after its first `a` turns from the value they have made (R153). -/
theorem readGroup_add (v a b : Nat) (s : State) :
    readGroup v (a + b) s = (readGroup v a s).bind fun p => readGroup p.1 b p.2 := by
  induction a generalizing v s with
  | zero => rw [Nat.zero_add, readGroup, Option.bind_some]
  | succ a ih =>
    rw [Nat.add_right_comm, readGroup, readGroup]
    cases getBit s with
    | none => rfl
    | some p => exact ih _ _

/-- `read_bits` of a group that is supplied is its loop. -/
theorem readField_eq_done_iff {c v : Nat} {s t : State} (h : c ≤ avail s) :
    readField c s = .done v t ↔ readGroup 0 c s = some (v, t) := by
  rw [readField, requireBits, if_pos h]
  dsimp only
  cases readGroup 0 c s with
  | none => exact ⟨nofun, nofun⟩
  | some p => simp [Prod.ext_iff]

/-- The value the loop starts from stands before the bits it reads (R153). -/
theorem readGroup_start (v c : Nat) (s : State) :
    readGroup v c s = (readGroup 0 c s).map fun p => (v * 2 ^ c + p.1, p.2) := by
  induction c generalizing v s with
  | zero => simp [readGroup]
  | succ c ih =>
    rw [readGroup, readGroup]
    cases getBit s with
    | none => rfl
    | some p =>
      dsimp only
      rw [ih, ih (2 * 0 + _), Option.map_map]
      refine congrArg (Option.map · _) (funext fun q => Prod.ext ?_ rfl)
      simp only [Function.comp_apply, Nat.pow_succ]
      ring

/-- Two groups that are supplied, read one after the other, are one group (R159). -/
theorem readField_add {a b : Nat} {s : State} (h : a + b ≤ avail s) :
    readField (a + b) s =
      (readField a s).andThen fun x t => (readField b t).andThen fun y u => .done ((x <<< b) ||| y) u := by
  obtain ⟨t, hfirst, htook, -⟩ := readField_supplied (c := a) (s := s) (by omega)
  have hleft : b ≤ avail t := by
    rw [htook.avail]
    omega
  obtain ⟨u, hsecond, -, -⟩ := readField_supplied hleft
  have hy : bitsValue ((toRead t).take b) < 2 ^ b := by
    have hlt := bitsValue_lt ((toRead t).take b)
    rwa [List.length_take_of_le (toRead_length t ▸ hleft)] at hlt
  rw [hfirst]
  simp only [Read.andThen]
  rw [hsecond, readField_eq_done_iff h, readGroup_add, (readField_eq_done_iff (by omega)).mp hfirst, Option.bind_some,
    readGroup_start, (readField_eq_done_iff hleft).mp hsecond, Option.map_some, ← Nat.shiftLeft_eq,
    Nat.shiftLeft_add_eq_or_of_lt hy]

/-- Settles O22: the loop split at its first `a` turns; where the second part is short, the first is consumed. -/
theorem readSplits : Obligations.ReadSplits := by
  refine ⟨fun a b s _ h => readField_add h, fun a b s ha hab hc => ⟨readField_underruns hab hc, ?_⟩⟩
  obtain ⟨t, hread, htook, -⟩ := readField_supplied ha
  have hshort : avail t < b := by
    rw [htook.avail]
    omega
  exact ⟨_, t, hread, htook.avail, readField_underruns hshort (htook.closed.trans hc)⟩

/-! ### D_ALIGN -/

theorem align_of_aligned {s : State} (h : s.brLeft = 0) : align s = s := by
  rw [align, ← h]

/-- Settles O23: after `align` the position is that of the next byte to fetch. -/
theorem dAlignMovesToTheBoundary : Obligations.DAlignMovesToTheBoundary := by
  refine ⟨fun s hd => ?_, fun s hr => ⟨((align_readerMove s).reader hr).1, ?_, rfl, fun h => ?_⟩⟩
  · show execDAlign 0 0 s = _
    rw [execDAlign, if_neg (by decide), hd, if_neg Bool.false_ne_true, ← hd]
    rfl
  · rw [← hr.brIdx_eq]
    rfl
  · have hleft := hr.brLeft_eq
    have hidx := hr.brIdx_eq
    exact align_of_aligned (BitVec.eq_of_toNat_eq (show s.brLeft.toNat = 0 by omega))

/-! ### D_RBITS -/

/-- D_RBITS with a width in range, while the half is not halted (R156). -/
theorem exec_dRbits_reads {cnt : Cnt} {s : State} (hd : s.derr = false) (hcnt : cnt.toNat ≤ 16) :
    exec (.dRbits cnt 0) s = (readField cnt.toNat { s with activity := .dRbits cnt }).toOutcome
      fun v t => .next (respond .ok (BitVec.ofNat 32 v) t) := by
  rw [exec_dRbits, hd, if_neg Bool.false_ne_true, if_neg (by simpa [groupTooWide] using hcnt)]
  rfl

/-- Settles O24: the command is one read, which is supplied, or waits, or takes the fault. -/
theorem dRbitsReadsItsGroup : Obligations.DRbitsReadsItsGroup := by
  intro cnt s hr hd hcnt
  rw [exec_dRbits_reads hd hcnt]
  refine ⟨fun h => ?_, fun h hc => ?_, fun h hc => ?_⟩
  · obtain ⟨t, hread, htook, honly⟩ := readField_supplied (s := { s with activity := .dRbits cnt }) h
    obtain ⟨hrt, hpos⟩ := htook.reader (hr.of_readerPart_eq rfl)
    refine ⟨respond .ok _ t, congrArg (Read.toOutcome · _) hread, hrt.of_readerPart_eq rfl, htook.left, hpos, ?_⟩
    rw [honly]
    rfl
  · rw [readField_waits_short (s := { s with activity := .dRbits cnt }) h hc]
    rfl
  · rw [readField_underruns (s := { s with activity := .dRbits cnt }) h hc, BitVec.ofNat_toNat]
    rfl

end Sys2Proof.Machine
end

section
/-! A token, a count or a seed whose bits end early (41_bit_reader.md R154; 60_exceptions.md R264), in D_TOKEN, in
D_COUNT and in a running D_PLANE: each of them is `read_token` from some field on, which reads up to the field that is
short. -/

namespace Sys2Proof.Machine

/-! ### The read that ends at a short field -/

/-- The read `r` at `s` ends at the field `f`, which is short: it has consumed `k` bits, and waits for `f` or raises
UNDERRUN with its width (R154). -/
def StopsAt {α : Type} (f : TokField) (k : Nat) (rest : List Bool) (s : State) (r : Read α) : Prop :=
  ∃ w, Took k s w ∧ toRead w = rest ∧
    r = if s.brClosed then .raises .underrun (BitVec.ofNat 32 (fieldWidth f)) w else .waits (mark f w)

/-- A rejection names the field it is at: the last of those the bits reach. -/
theorem shortAt_injective {f g : TokField} (h : shortAt f = shortAt g) : f = g := by
  have hlast : ∀ f, (rejectFields (shortAt f)).getLast? = some f := fun f => by cases f <;> rfl
  exact Option.some.inj ((hlast f).symm.trans (h ▸ hlast g))

/-- `read_token` at a field that is short ends there. -/
theorem tokenFrom_stops {f : TokField} {u : State} (h : (toRead u).length < fieldWidth f) :
    StopsAt f 0 (toRead u) u (tokenFrom f u) := by
  obtain ⟨k, hk⟩ := tokenFrom_readAt f
  refine ⟨u, Took.refl u, rfl, ?_⟩
  rw [hk, readAt_none (takeField_short h)]
  split_ifs <;> rfl

/-- `read_token` from the field `g` on, where the bits end in the field `f`: the fields up to `f` are read (R154). -/
theorem tokenFrom_short {f : TokField} {rest : List Bool} (hr : rest.length < fieldWidth f) (g : TokField) :
    ∀ {u : State}, bitsBefore g ++ toRead u = bitsBefore f ++ rest →
      ∃ k, k + (bitsBefore g).length = (bitsBefore f).length ∧ StopsAt f k rest u (tokenFrom g u) := by
  induction g using tokField_induction with
  | step g ih =>
    intro u hb
    have hdec : decodeToken (bitsBefore g ++ toRead u) = .error (shortAt f) := hb ▸ decodeToken_bitsBefore hr
    cases ht : takeField (fieldWidth g) (toRead u) with
    | none =>
      have hshort := takeField_eq_none.mp ht
      rw [decodeToken_bitsBefore hshort] at hdec
      obtain rfl := shortAt_injective (Except.error.inj hdec)
      obtain rfl := List.append_cancel_left hb
      exact ⟨0, Nat.zero_add _, tokenFrom_stops hshort⟩
    | some p =>
      obtain ⟨v, more⟩ := p
      obtain ⟨w, hv, rfl, hw, -⟩ := readAt_some ht
      rw [takeField_eq_some ht, decodeToken_field] at hdec
      cases hf : fieldLeads g v.toNat with
      | inl i =>
        rw [hf] at hdec
        cases hdec
      | inr g' =>
        have hbits := (fieldLeads_next hf).bits
        rw [BitVec.ofNat_toNat, BitVec.setWidth_eq] at hbits
        obtain ⟨k, hk, x, hx, hrest, hread⟩ := ih _ g' hf (u := w) (by
          rw [hbits, List.append_assoc, ← takeField_eq_some ht, hb])
        refine ⟨fieldWidth g + k, ?_, x, hw.trans hx, hrest, ?_⟩
        · rw [← hk, hbits, List.length_append, lowBits_length]
          omega
        · rw [tokenFrom_next hv hf, hread, hw.closed]

/-- A count ends where the run token of that count does (R195). -/
theorem StopsAt.of_asRun {f : TokField} {k : Nat} {rest : List Bool} {s : State} {r : Read Nat}
    (h : StopsAt f k rest s (asRun r)) : StopsAt f k rest s r := by
  obtain ⟨w, hw, hrest, hr⟩ := h
  refine ⟨w, hw, hrest, ?_⟩
  split_ifs at hr ⊢
  · cases r <;> cases hr
    rfl
  · cases r <;> cases hr
    rfl

/-- What a command does whose read ends at a short field: the reader stands before that field, and the command waits
there, or has taken the fault (R154; 60_exceptions.md R264, R268). -/
theorem StopsAt.outcome {α : Type} {f : TokField} {k : Nat} {rest : List Bool} {s : State} {r : Read α}
    (h : StopsAt f k rest s r) (hr : ReaderInv s) (next : α → State → Host.Outcome State Fault Refusal) :
    ∃ t, r.toOutcome next = .next t ∧ ReaderInv t ∧ toRead t = rest ∧ bitPos t = bitPos s + k ∧
      (s.brClosed = false → t = { s with brIdx := t.brIdx, brCur := t.brCur, brLeft := t.brLeft, tokAt := f }) ∧
      (s.brClosed = true →
        t = { s with
          brIdx := t.brIdx, brCur := t.brCur, brLeft := t.brLeft, tokAt := .tag, derr := true, dcode := 4,
          activity := .drainPout .underrun (BitVec.ofNat 32 (fieldWidth f)) }) := by
  obtain ⟨w, hw, hrest, rfl⟩ := h
  obtain ⟨hrw, hpos⟩ := hw.reader hr
  by_cases hc : s.brClosed = true
  · rw [if_pos hc]
    refine ⟨faultEntry .underrun _ w, rfl, hrw.of_readerPart_eq rfl, hrest, hpos, fun ho => ?_, fun _ => ?_⟩
    · rw [hc] at ho
      cases ho
    · rw [hw.frame]
      rfl
  · rw [if_neg hc]
    refine ⟨mark f w, rfl, hrw.of_readerPart_eq rfl, hrest, hpos, fun _ => ?_, fun h => absurd h hc⟩
    rw [hw.frame]
    rfl

/-! ### The commands -/

/-- The tag of a run and the count fields of the lower tiers come before a count field (30_encoding.md R92, R93). -/
theorem bitsBefore_count {f : TokField} (hf : f ∈ [TokField.c2, .c4, .c8, .c16]) :
    bitsBefore f = bitsBefore .c2 ++ countBitsBefore f := by
  cases f with
  | tag | sample => simp at hf
  | _ => rfl

/-- D_COUNT while the half is not halted (42_count_codec.md R179). -/
theorem exec_dCount_reads {s : State} (hd : s.derr = false) : exec (.dCount 0 0) s =
    (decodeCount { s with activity := .dCount, tokAt := .c2 }).toOutcome
      fun n t => .next (respond .ok (BitVec.ofNat 32 n) { t with tokAt := .tag }) := by
  rw [exec_dCount, if_neg (by simp [hd])]
  rfl

/-- A running D_PLANE after its seeds (45_channel_decoder.md R234). -/
theorem sequencer_dPlane_token {s : State} (ha : s.activity = .dPlane) (hn : 2 ≤ s.cxN.toNat)
    (hlt : s.cxN.toNat < s.cxLen.toNat) : sequencer exec s = produceRead (tokenFrom s.tokAt s) := by
  have hseed : atSeed s = false := decide_eq_false (not_lt.mpr hn)
  rw [sequencer_dPlane ha, expandWith_eq (by simp [hseed]), if_pos hlt, readNext, hseed, resumeToken_eq]
  rfl

/-- A running D_PLANE at a seed that is short (45_channel_decoder.md R233). -/
theorem sequencer_dPlane_shortSeed {s : State} (ha : s.activity = .dPlane) (hn : s.cxN.toNat < 2)
    (hlt : s.cxN.toNat < s.cxLen.toNat) (hshort : (toRead s).length < 8) :
    sequencer exec s = (readField 8 s).toOutcome fun _ t => .next t := by
  have hunread : (unread s).length < 8 := by
    rw [toRead_eq_unread, List.length_append] at hshort
    omega
  have hseed : atSeed s = true := decide_eq_true hn
  have hfetch : fetch s = .error .shortSeed := by
    rw [fetch, if_pos hseed, decodeSeed, takeField_short hunread]
  rw [sequencer_dPlane ha, expandWith, if_pos hlt, hfetch]
  rfl

/-- Settles O28: each of the three reads is `read_token` from some field on, which ends at the field that is short; a
seed is one field. -/
theorem tokensEndEarly : Obligations.TokensEndEarly := by
  refine ⟨fun s f rest hr hd hb hrest => ?_, fun s f rest hr hd hf hb hrest => ?_, fun s ha hlt hn hshort => ?_,
    fun s f rest hr ha hn hlt hb hrest => ?_⟩
  · rw [exec_dToken_reads hd]
    obtain ⟨k, hk, hend⟩ :=
      tokenFrom_short hrest .tag (u := { s with activity := .dToken, tokAt := .tag }) hb
    obtain rfl : k = (bitsBefore f).length := hk
    exact hend.outcome (hr.of_readerPart_eq rfl) _
  · rw [exec_dCount_reads hd]
    obtain ⟨k, hk, hend⟩ :=
      tokenFrom_short hrest .c2 (u := { s with activity := .dCount, tokAt := .c2 }) (by
        rw [bitsBefore_count hf, List.append_assoc, ← hb]
        rfl)
    obtain rfl : k = (countBitsBefore f).length := by
      rw [bitsBefore_count hf, List.length_append] at hk
      omega
    exact hend.of_asRun.outcome (hr.of_readerPart_eq rfl) _
  · rw [sequencer_dPlane_shortSeed ha hn hlt hshort]
    rw [toRead_length] at hshort
    refine ⟨fun hc => ?_, fun hc => ?_⟩
    · rw [readField_waits_short hshort hc]
      rfl
    · rw [readField_underruns hshort hc]
      rfl
  · rw [sequencer_dPlane_token ha hn hlt]
    obtain ⟨k, hk, hend⟩ := tokenFrom_short hrest s.tokAt hb
    obtain ⟨t, ht, hrt, hleft, hpos, hends⟩ := hend.outcome hr fun tok u => produce tok (mark .tag u)
    exact ⟨t, ht, hrt, hleft, by omega, hends⟩

end Sys2Proof.Machine
end

section
/-! D_COUNT on the bits of a count (42_count_codec.md R173 to R175, R180; 60_exceptions.md R266). Behind the tag of a
run these bits are a token, so `read_token` past that tag, which is `decode_count`, reads them to their end. -/

namespace Sys2Proof.Machine

/-! ### The spellings of a count -/

/-- `bits` spell the count `n`, canonically or not: behind the tag of a run they are a well-formed run of `n`
(30_encoding.md R91, R95). -/
def SpellsCount (bits : List Bool) (n : Nat) : Prop :=
  ∃ i : Instr, i.WellFormed ∧ encode i = .tokenAt (bitsBefore .c2 ++ bits) ∧ runCountOf i = some n

theorem spellsCount_t1 {c : BitVec 2} (h : c ≠ 0) : SpellsCount (lowBits c 2) c.toNat :=
  ⟨.runT1 c, if_neg h, rfl, rfl⟩

theorem spellsCount_t2 {c : BitVec 4} (h : c ≠ 0) : SpellsCount (zeroBits 2 ++ lowBits c 4) (c.toNat + 3) :=
  ⟨.runT2 c, if_neg h, rfl, rfl⟩

theorem spellsCount_t3 {c : BitVec 8} (h : c ≠ 0) : SpellsCount (zeroBits 6 ++ lowBits c 8) c.toNat :=
  ⟨.runT3 c, if_neg h, rfl, rfl⟩

theorem spellsCount_t4 {c : BitVec 16} (h : c ≠ 0) : SpellsCount (zeroBits 14 ++ lowBits c 16) c.toNat :=
  ⟨.runT4 c, if_neg h, rfl, rfl⟩

/-- A number that a field of `w` bits holds is the field's value, and the field is cut from its 16 bits. -/
theorem field_of_count {w n : Nat} (hw : w ≤ 16) (h0 : n ≠ 0) (hn : n < 2 ^ w) :
    BitVec.ofNat w n ≠ 0 ∧ (BitVec.ofNat w n).toNat = n ∧
      lowBits (BitVec.ofNat w n) w = lowBits (BitVec.ofNat 16 n) w :=
  ⟨mt (ofNat_eq_zero_iff hn).mp h0, (BitVec.toNat_ofNat n w).trans (Nat.mod_eq_of_lt hn),
    lowBits_congr w fun i hi => by simp only [BitVec.getLsbD_ofNat, hi, hi.trans_le hw]⟩

/-- The code of R93 spells its count, in the tier that R93 picks. -/
theorem spellsCount_countCode {n : Nat} (h1 : 1 ≤ n) (hn : n ≤ 65535) : SpellsCount (countCode n) n := by
  unfold countCode
  dsimp only
  split_ifs with h3 h18 h255
  · obtain ⟨hc, hval, hbits⟩ := field_of_count (w := 2) (n := n) (by decide) (by omega) (by omega)
    simpa only [hval, hbits] using spellsCount_t1 hc
  · obtain ⟨hc, hval, hbits⟩ := field_of_count (w := 4) (n := n - 3) (by decide) (by omega) (by omega)
    simpa only [hval, hbits, Nat.sub_add_cancel (show 3 ≤ n by omega)] using spellsCount_t2 hc
  · obtain ⟨hc, hval, hbits⟩ := field_of_count (w := 8) (n := n) (by decide) (by omega) (by omega)
    simpa only [hval, hbits] using spellsCount_t3 hc
  · obtain ⟨hc, hval, -⟩ := field_of_count (w := 16) (n := n) (by decide) (by omega) (by omega)
    simpa only [hval] using spellsCount_t4 hc

/-! ### `decode_count` as the end of `read_token` -/

theorem asRun_eq_done {r : Read Nat} {n : Nat} {w : State} (h : asRun r = .done (.run n) w) : r = .done n w := by
  cases r <;> cases h
  rfl

theorem asRun_eq_raises {r : Read Nat} {st : Status} {info : Arg} {w : State} (h : asRun r = .raises st info w) :
    r = .raises st info w := by
  cases r <;> cases h
  rfl

theorem tokenEnd_run {i : Instr} {n : Nat} (h : runCountOf i = some n) (w : State) :
    tokenEnd i w = .done (.run n) w := by
  cases i <;> cases h <;> rfl

/-- `decode_count` reads the bits of a token behind its tag, and no others (R173). -/
theorem decodeCount_reads_token {u : State} {i : Instr} {bits rest : List Bool} (hwf : i.WellFormed)
    (henc : encode i = .tokenAt (bitsBefore .c2 ++ bits)) (hb : toRead u = bits ++ rest) :
    ∃ w, Took bits.length u w ∧ toRead w = rest ∧ asRun (decodeCount u) = tokenEnd i w := by
  have hdec : decodeToken (bitsBefore .c2 ++ toRead u) = .ok i := by
    have hstands := decodeOfEncode i rest hwf
    rwa [henc, Source.followedBy, List.append_assoc, ← hb] at hstands
  obtain ⟨w, k, hw, hk, hread⟩ := tokenFrom_reads .c2 hdec
  obtain rfl : k = bits.length := by
    rw [henc, Source.bits, List.length_append] at hk
    omega
  exact ⟨w, hw, by rw [hw.left, hb, List.drop_left], hread⟩

/-- D_COUNT where a count is spelled: the bits are consumed, the count is the response, and nothing else changes (R173,
R175, R179). -/
theorem dCount_reads_spelled {s : State} {n : Nat} {bits rest : List Bool} (hr : ReaderInv s) (hd : s.derr = false)
    (hb : toRead s = bits ++ rest) (hn : SpellsCount bits n) :
    ∃ t, exec (.dCount 0 0) s = .next t ∧ ReaderInv t ∧ toRead t = rest ∧ bitPos t = bitPos s + bits.length ∧
      t = { s with
        brIdx := t.brIdx, brCur := t.brCur, brLeft := t.brLeft, tokAt := .tag,
        activity := .respond .ok (BitVec.ofNat 32 n) } := by
  obtain ⟨i, hwf, henc, hcount⟩ := hn
  obtain ⟨w, hw, hrest, hread⟩ :=
    decodeCount_reads_token (u := { s with activity := .dCount, tokAt := .c2 }) hwf henc hb
  obtain ⟨hrw, hpos⟩ := hw.reader (hr.of_readerPart_eq rfl)
  rw [exec_dCount_reads hd, asRun_eq_done (hread.trans (tokenEnd_run hcount w))]
  refine ⟨_, rfl, hrw.of_readerPart_eq rfl, hrest, hpos, ?_⟩
  rw [hw.frame]
  rfl

/-! ### The statements -/

/-- Settles O25: each of the four forms spells its count. -/
theorem dCountReadsACount : Obligations.DCountReadsACount := by
  intro s n bits rest hr hd hb hform
  refine dCount_reads_spelled hr hd hb ?_
  obtain ⟨c, hc, rfl, rfl⟩ | ⟨c, hc, rfl, rfl⟩ | ⟨c, hc, rfl, rfl⟩ | ⟨c, hc, rfl, rfl⟩ := hform
  exacts [spellsCount_t1 hc, spellsCount_t2 hc, spellsCount_t3 hc, spellsCount_t4 hc]

/-- Settles O26: behind the tag of a run, 30 zero bits are the illegal encoding that raises ZEROCOUNT. -/
theorem dCountRefusesZero : Obligations.DCountRefusesZero := by
  intro s rest hr hd hb
  obtain ⟨w, hw, hrest, hread⟩ := decodeCount_reads_token (i := .illegalZeroCount) (bits := zeroBits 30)
    (u := { s with activity := .dCount, tokAt := .c2 }) rfl rfl hb
  obtain ⟨hrw, hpos⟩ := hw.reader (hr.of_readerPart_eq rfl)
  rw [exec_dCount_reads hd, asRun_eq_raises hread]
  refine ⟨_, rfl, hrw.of_readerPart_eq rfl, hrest, hpos, ?_⟩
  rw [hw.frame]
  rfl

/-- Settles O29: the code that was appended spells the count, and it stands where the reader stands. -/
theorem countRoundTrip : Obligations.CountRoundTrip := by
  intro n w r hw hr hd h1 hn hpos hprefix
  obtain ⟨-, hwritten⟩ := encodeCount_writer hw hn
  obtain ⟨rest, hrest⟩ := hprefix
  have hb : toRead r = countCode n.toNat ++ rest := by
    rw [toRead_eq hr, ← hrest, hwritten, List.append_assoc, hpos, List.drop_left]
  obtain ⟨t, ht, -, -, hend, hframe⟩ := dCount_reads_spelled hr hd hb (spellsCount_countCode h1 hn)
  refine ⟨t, ht, ?_, ?_⟩
  · rw [hframe, BitVec.ofNat_toNat, BitVec.setWidth_eq]
  · rw [hend, hwritten, List.length_append, hpos]

end Sys2Proof.Machine
end

section
/-! The token multiplexer and the tokens as D_PLANE executes them (43_token_mux.md R192 to R207, R209; 60_exceptions.md
R267). Executing a token is reading it with `read_token`, from the field where the reader stands, and putting out what
was read; so each statement about a token is one about how `read_token` ends on its bits. -/

namespace Sys2Proof.Machine

/-! ### E_LIT and E_RUN -/

theorem byteBits_setWidth (b : Arg) : byteBits (b.setWidth 8) = lowBits b 8 :=
  lowBits_congr 8 fun i hi => by simp [hi]

theorem exec_eLit (b : Arg) (s : State) : exec (.eLit 0 b) s = .next (respondAfterSout .ok 0 (emitLit b s)) := rfl

theorem exec_eRun {n : Arg} (h2 : 2 ≤ n.toNat) (hn : n.toNat ≤ 65535) (s : State) :
    exec (.eRun 0 n) s = .next (respondAfterSout .ok 0 (emitRun n s)) :=
  if_neg (by simpa [badRun] using ⟨h2, hn⟩)

/-- A command that writes `code` and then waits for `SOUT` has appended `code`, keeps the writer's invariant, and
changes nothing else. -/
theorem command_appends {s u : State} {code : List Bool} {o : Host.Outcome State Fault Refusal}
    (ho : o = .next (respondAfterSout .ok 0 u)) (h : OnlyWriter s u)
    (hu : WriterInv u ∧ written u = written s ++ code) :
    ∃ t, o = .next t ∧ WriterInv t ∧ written t = written s ++ code ∧
      t = { s with bwAcc := t.bwAcc, bwFree := t.bwFree, sout := t.sout, activity := .drainSout .ok 0 } :=
  ⟨_, ho, ⟨hu.1.unfilled_zero⟩, hu.2, h.respondAfterSout .ok 0⟩

/-- Settles O13: `emit_lit` appends the literal, and the command then waits for `SOUT`. -/
theorem eLitWritesALiteral : Obligations.ELitWritesALiteral := by
  intro b s hw
  rw [← byteBits_setWidth]
  exact command_appends (exec_eLit b s) (emitLit_only b s) (emitLit_writer hw b)

/-- Settles O14: a count in range passes the check, and `emit_run` appends the run. -/
theorem eRunWritesARun : Obligations.ERunWritesARun := by
  intro n s hw h2 hn
  exact command_appends (exec_eRun h2 hn s) (emitRun_only n s) (emitRun_writer hw hn)

/-! ### `read_token` on the bits of a token -/

theorem encode_run {i : Instr} {n : Nat} (h : runCountOf i = some n) : encode i = .tokenAt (encode i).bits := by
  cases i <;> cases h <;> rfl

/-- Where the bits of a well-formed token stand, the decoder reads that token (30_encoding.md R94). -/
theorem decodeToken_code {i : Instr} {bits code rest : List Bool} (hwf : i.WellFormed)
    (henc : encode i = .tokenAt code) (hb : bits = code ++ rest) : decodeToken bits = .ok i := by
  have hstands := decodeOfEncode i rest hwf
  rwa [henc, Source.followedBy, ← hb] at hstands

/-- `read_token`, from the field where the reader stands, reads the bits of a token to their end and no
others (R195). -/
theorem tokenFrom_reads_code {f : TokField} {u : State} {i : Instr} {code rest : List Bool} (hwf : i.WellFormed)
    (henc : encode i = .tokenAt code) (hb : bitsBefore f ++ toRead u = code ++ rest) :
    ∃ w k, Took k u w ∧ k + (bitsBefore f).length = code.length ∧ toRead w = rest ∧
      tokenFrom f u = tokenEnd i w := by
  obtain ⟨w, k, hw, hk, hread⟩ := tokenFrom_reads f (decodeToken_code hwf henc hb)
  rw [henc, Source.bits] at hk
  refine ⟨w, k, hw, hk, ?_, hread⟩
  calc toRead w = (toRead u).drop k := hw.left
    _ = (bitsBefore f ++ toRead u).drop code.length := by rw [← hk, Nat.add_comm, ← List.drop_drop, List.drop_left]
    _ = rest := by rw [hb, List.drop_left]

/-! ### What was written is read back -/

/-- The bits that a writer appended are the next ones of a reader that stands where the writer stood (R209). -/
theorem toRead_of_appended {w v r : State} {code : List Bool} (hr : ReaderInv r)
    (hpos : bitPos r = (written w).length) (happ : written v = written w ++ code)
    (hprefix : written v <+: bitsOf r.sin) : ∃ rest, toRead r = code ++ rest := by
  obtain ⟨rest, hrest⟩ := hprefix
  exact ⟨rest, by rw [toRead_eq hr, ← hrest, happ, List.append_assoc, hpos, List.drop_left]⟩

/-- A token that a writer appended is read to its end by a reader that stands where the writer stood (R209). -/
theorem readToken_of_appended {w v r : State} {i : Instr} {code : List Bool} (hr : ReaderInv r)
    (hpos : bitPos r = (written w).length) (hwf : i.WellFormed) (henc : encode i = .tokenAt code)
    (happ : written v = written w ++ code) (hprefix : written v <+: bitsOf r.sin) :
    ∃ t, readToken r = tokenEnd i t ∧ bitPos t = (written v).length := by
  obtain ⟨rest, hb⟩ := toRead_of_appended hr hpos happ hprefix
  obtain ⟨t, k, ht, hk, -, hread⟩ := tokenFrom_reads_code (f := .tag) hwf henc hb
  refine ⟨t, hread, ?_⟩
  rw [(ht.reader hr).2, happ, List.length_append, hpos, ← hk]
  rfl

/-- Settles O30: the bits that `emit_lit` and `emit_run` append are those of a well-formed token. -/
theorem tokenRoundTrip : Obligations.TokenRoundTrip := by
  intro w r hw hr _ hpos
  refine ⟨fun b hprefix => ?_, fun n h2 hn hprefix => ?_⟩
  · obtain ⟨t, ht, hend⟩ :=
      readToken_of_appended (i := .lit (b.setWidth 8)) hr hpos rfl rfl (emitLit_writer hw b).2 hprefix
    exact ⟨t, done_of_eq ht (congrArg TokenRead.lit (BitVec.toNat_setWidth 8 b).symm), hend⟩
  · obtain ⟨i, hwf, henc, hcount⟩ := spellsCount_countCode (by omega) hn
    obtain ⟨t, ht, hend⟩ := readToken_of_appended hr hpos hwf henc (emitRun_writer hw hn).2 hprefix
    exact ⟨t, ht.trans (tokenEnd_run hcount t), hend⟩

/-! ### Tokens as D_PLANE executes them -/

/-- `u` is `s` after the reader, which may have stood inside a token, has read the bits `code` of that token to their
end, with `rest` after them, and nothing else has happened (log entry 5). -/
structure TokenConsumed (code rest : List Bool) (s u : State) : Prop where
  reader : ReaderInv u
  left : toRead u = rest
  pos : bitPos u + (bitsBefore s.tokAt).length = bitPos s + code.length
  frame : u = { s with brIdx := u.brIdx, brCur := u.brCur, brLeft := u.brLeft, tokAt := .tag }

/-- A token that stands at the reader is read to its end, and then it is put out (R202 to R207). -/
theorem exec_token_produces {s : State} {i : Instr} {code rest : List Bool} (hr : ReaderInv s) (hwf : i.WellFormed)
    (henc : encode i = .tokenAt code) (hb : bitsBefore s.tokAt ++ toRead s = code ++ rest) :
    ∃ w, TokenConsumed code rest s (mark .tag w) ∧ exec i s = produceRead (tokenEnd i w) := by
  obtain ⟨w, k, hw, hk, hrest, hread⟩ := tokenFrom_reads_code hwf henc hb
  obtain ⟨hrw, hpos⟩ := hw.reader hr
  refine ⟨w, ⟨hrw.of_readerPart_eq rfl, hrest, ?_, ?_⟩, ?_⟩
  · change bitPos w + _ = _
    omega
  · rw [hw.frame]
    rfl
  · have hdec := decodeToken_code hwf henc hb
    have hexec := execFetched_token s.tokAt s s (readUpTo_start s)
    rwa [hdec, execFetched, ← exec_wire (decodeToken_wire hdec).1, hread] at hexec

/-- A RUN that stands at the reader is read to its end, and then its count is put out (R203 to R207). -/
theorem exec_run_produces {s : State} {i : Instr} {n : Nat} {rest : List Bool} (hr : ReaderInv s)
    (hwf : i.WellFormed) (hn : runCountOf i = some n)
    (hb : bitsBefore s.tokAt ++ toRead s = (encode i).bits ++ rest) :
    ∃ u, TokenConsumed (encode i).bits rest s u ∧ exec i s = produce (.run n) u := by
  obtain ⟨w, hw, hexec⟩ := exec_token_produces hr hwf (encode_run hn) hb
  exact ⟨_, hw, by rw [hexec, tokenEnd_run hn, produceRead, Read.toOutcome]⟩

/-- A LIT that stands at the reader is read to its end, and then its sample is put out (R202). -/
theorem exec_lit_emits {s : State} {b : Byte} {rest : List Bool} (hr : ReaderInv s)
    (hb : bitsBefore s.tokAt ++ toRead s = litCode b ++ rest) :
    ∃ u, TokenConsumed (litCode b) rest s u ∧ exec (.lit b) s = .next (emit b u) := by
  obtain ⟨w, hw, hexec⟩ := exec_token_produces (i := .lit b) hr rfl rfl hb
  refine ⟨_, hw, hexec.trans ?_⟩
  show Host.Outcome.next (emit (BitVec.ofNat 8 b.toNat) (mark .tag w)) = _
  rw [BitVec.ofNat_toNat, BitVec.setWidth_eq]

theorem TokenConsumed.remaining_eq {code rest : List Bool} {s u : State} (h : TokenConsumed code rest s u) :
    remaining u = remaining s := by
  rw [h.frame]
  rfl

/-- A SEED reads the next byte and puts it out (R201). -/
theorem exec_seed_emits {s : State} {b : Byte} {rest : List Bool} (hb : toRead s = byteBits b ++ rest) :
    ∃ u, Took 8 s u ∧ u.tokAt = s.tokAt ∧ toRead u = rest ∧ exec (.seed b) s = .next (emit b u) := by
  obtain ⟨u, hu, htook, htok⟩ := readField_enough (c := 8) (s := s) (by simp [hb])
  refine ⟨u, htook, htok, by rw [htook.left, hb, List.drop_left' (byteBits_length b)], ?_⟩
  show execSeed b s = _
  rw [execSeed, hu]
  rfl

/-- Settles O32: a SEED is the next 8 bits; a LIT is read to its end, and its sample is put out. -/
theorem seedAndLitEmitTheirSample : Obligations.SeedAndLitEmitTheirSample := by
  refine ⟨fun s b rest hr hb => ?_, fun s b rest hr hb => ?_⟩
  · obtain ⟨u, hu, htok, hrest, hexec⟩ := exec_seed_emits hb
    obtain ⟨hru, hpos⟩ := hu.reader hr
    refine ⟨_, hexec, hru.of_readerPart_eq rfl, hrest, hpos, ?_⟩
    rw [hu.frame, htok]
    rfl
  · obtain ⟨u, hu, hexec⟩ := exec_lit_emits (rest := rest) hr hb
    refine ⟨_, hexec, hu.reader.of_readerPart_eq rfl, hu.left, hu.pos, ?_⟩
    rw [hu.frame]
    rfl

/-- Settles O33: the count that was read fits in the plane, so the last byte is put out that often. -/
theorem runsReplicateTheLastByte : Obligations.RunsReplicateTheLastByte := by
  intro s i n rest hr hwf hn hb hfits
  obtain ⟨u, hu, hexec⟩ := exec_run_produces hr hwf hn hb
  rw [produce, if_neg (by rw [hu.remaining_eq]; omega), emitLast_eq] at hexec
  refine ⟨_, hexec, hu.reader.of_readerPart_eq rfl, hu.left, hu.pos, ?_⟩
  rw [hu.frame]

/-- Settles O34: the count that was read does not fit in the plane, so the fault entry is all that happens. -/
theorem runsNeverOverrun : Obligations.RunsNeverOverrun := by
  intro s i n rest hr hwf hn hb hover
  obtain ⟨u, hu, hexec⟩ := exec_run_produces hr hwf hn hb
  rw [produce, if_pos (by rwa [hu.remaining_eq])] at hexec
  refine ⟨_, hexec, hu.reader.of_readerPart_eq rfl, hu.left, hu.pos, ?_⟩
  rw [hu.frame]
  rfl

end Sys2Proof.Machine
end

section
/-! One move of a running E_PLANE, read off the bytes that have arrived (44_channel_encoder.md R212 to R216, R219): the
run at the scan position, the seed or token it determines, and when the compressor must wait. -/

namespace Sys2Proof.Machine

/-! ### The run at the scan position -/

/-- The run of `n` bytes equal to `prev` at the scan position is determined: it is as long as bytes equal to the one
before it go on, up to the end of the plane and the cap (R213, R219). -/
structure RunAt (s : State) (prev : Byte) (n : Nat) : Prop where
  before : s.pin[s.ccI.toNat - 1]? = some prev
  le_cap : n ≤ 65535
  le_end : s.ccI.toNat + n ≤ s.ccLen.toNat
  equal : ∀ k < n, s.pin[s.ccI.toNat + k]? = some prev
  stopped : n = 65535 ∨ s.ccI.toNat + n = s.ccLen.toNat ∨ ∃ c, s.pin[s.ccI.toNat + n]? = some c ∧ c ≠ prev

/-- `detect_run` finds exactly the run that the bytes determine (R213, R219). -/
theorem detectRun_eq_some_iff {s : State} {n : Nat} (hi : s.ccI.toNat < s.ccLen.toNat) :
    detectRun s = some n ↔ ∃ prev, RunAt s prev n := by
  have hcap : Config.countMax = 65535 := rfl
  constructor
  · intro h
    unfold detectRun at h
    split at h
    · cases h
    next prev hprev =>
      obtain ⟨hle, -, hequal, hstop⟩ := countEqual_some h
      refine ⟨prev, hprev, by omega, by omega, fun k hk => ?_, ?_⟩
      · rw [← List.getElem?_drop, hequal, List.getElem?_append_left (by rwa [List.length_replicate]),
          List.getElem?_replicate_of_lt hk]
      · rcases Nat.lt_or_ge n (min (s.ccLen.toNat - s.ccI.toNat) Config.countMax) with hlt | hge
        · obtain ⟨c, rest, hc, hne⟩ := hstop hlt
          refine .inr (.inr ⟨c, ?_, hne⟩)
          rw [← List.head?_drop, ← List.drop_drop, hc]
          rfl
        · omega
  · rintro ⟨prev, h⟩
    have hdetect : detectRun s = countEqual prev (min (s.ccLen.toNat - s.ccI.toNat) Config.countMax)
        (s.pin.drop s.ccI.toNat) := by
      rw [detectRun, memRead, h.before]
    have hend := h.le_end
    have hle := h.le_cap
    rw [hdetect]
    refine countEqual_determined n (by omega) (fun k hk => by rw [List.getElem?_drop, h.equal k hk]) ?_
    rcases h.stopped with hn | hn | hn
    · exact .inl (by omega)
    · exact .inl (by omega)
    · exact .inr (by rwa [List.getElem?_drop])

/-- A run that is not determined needs a byte of the plane that has not arrived (R219). -/
theorem pin_lt_of_detectRun_none {s : State} (hi : s.ccI.toNat < s.ccLen.toNat) (h : detectRun s = none) :
    s.pin.length < s.ccLen.toNat := by
  unfold detectRun at h
  split at h
  next hprev =>
    have := List.getElem?_eq_none_iff.mp hprev
    omega
  · have := countEqual_none h
    rw [List.length_drop] at this
    omega

/-- A run of less than 2 leaves the byte at the scan position to the literal fallback (R215). -/
theorem RunAt.literal {s : State} {prev : Byte} {n : Nat} (h : RunAt s prev n) (hi : s.ccI.toNat < s.ccLen.toNat)
    (hn : n < 2) :
    ∃ b, s.pin[s.ccI.toNat]? = some b ∧
      (b ≠ prev ∨ s.ccI.toNat + 1 = s.ccLen.toNat ∨ ∃ c, s.pin[s.ccI.toNat + 1]? = some c ∧ c ≠ prev) := by
  have hstop := h.stopped
  interval_cases n
  · rcases hstop with h0 | hend | ⟨c, hc, hne⟩
    · cases h0
    · omega
    · exact ⟨c, hc, .inl hne⟩
  · refine ⟨prev, h.equal 0 Nat.one_pos, .inr ?_⟩
    rcases hstop with h1 | hstop
    · cases h1
    · exact hstop

/-! ### The next seed or token -/

section encodes
variable {s t : State} (h : EncodesNext s t)
include h

/-- A seed or token is written, and the scan position moves: nothing else changes. -/
theorem EncodesNext.frame :
    t = { s with bwAcc := t.bwAcc, bwFree := t.bwFree, sout := t.sout, ccI := t.ccI } := by
  cases h with
  | @seed b => rw [writeBits_only (b.setWidth 32) 8 s]
  | @literal _ b => rw [emitLit_only (b.setWidth 32) s]
  | @run _ n => rw [emitRun_only (BitVec.ofNat 32 n) s]

/-- The scan position moves on, past bytes that have arrived (R216). -/
theorem EncodesNext.scans (hi : s.ccI.toNat < s.ccLen.toNat) :
    s.ccI.toNat < t.ccI.toNat ∧ t.ccI.toNat ≤ s.pin.length := by
  have hlen := s.ccLen.isLt
  obtain ⟨n, hpos, hpin, hend, hscan⟩ : ∃ n, 0 < n ∧ s.ccI.toNat + n ≤ s.pin.length ∧
      s.ccI.toNat + n ≤ s.ccLen.toNat ∧ t.ccI = s.ccI + BitVec.ofNat 32 n := by
    cases h with
    | seed _ hb => exact ⟨1, Nat.one_pos, (List.getElem?_eq_some_iff.mp hb).1, hi, rfl⟩
    | literal _ _ hb _ => exact ⟨1, Nat.one_pos, (List.getElem?_eq_some_iff.mp hb).1, hi, rfl⟩
    | @run _ n _ _ h2 _ hl hr _ =>
      obtain ⟨hlast, -⟩ := List.getElem?_eq_some_iff.mp (hr (n - 1) (by omega))
      exact ⟨n, by omega, by omega, hl, rfl⟩
  rw [hscan, BitVec.toNat_add, BitVec.toNat_ofNat]
  omega

/-- A token past the seeds is written only when its run is determined (R219). -/
theorem EncodesNext.detectRun_ne_none (hi : s.ccI.toNat < s.ccLen.toNat) (h2 : 2 ≤ s.ccI.toNat) :
    detectRun s ≠ none := by
  suffices hrun : ∃ n prev, RunAt s prev n by
    obtain ⟨n, hn⟩ := hrun
    rw [(detectRun_eq_some_iff hi).mpr hn]
    nofun
  cases h with
  | seed hlt _ => omega
  | @literal prev b _ hp hb hn =>
    by_cases heq : b = prev
    · subst heq
      refine ⟨1, b, hp, by omega, by omega, fun k hk => ?_, .inr (hn.resolve_left fun hne => hne rfl)⟩
      rwa [Nat.lt_one_iff.mp hk]
    · exact ⟨0, prev, hp, by omega, by omega, nofun, .inr (.inr ⟨b, hb, heq⟩)⟩
  | @run prev n _ hp _ hc hl hr hn => exact ⟨n, prev, hp, hc, hl, hr, hn⟩

end encodes

/-! ### One move -/

/-- What one move of a running E_PLANE from `s` can lead to (R216, R217, R219). -/
inductive CompressorMove (s t : State) : Prop where
  /-- The byte held out on `pin` is taken. -/
  | takes (b : Byte) (rest : List Byte) (hb : s.hPin = b :: rest) (hlt : s.pin.length < s.ccLen.toNat)
      (ht : t = { s with pin := s.pin ++ [b], hPin := rest })
  | encodes (hi : s.ccI.toNat < s.ccLen.toNat) (h : EncodesNext s t)
  | flushes (hi : s.ccLen.toNat ≤ s.ccI.toNat) (ht : t = respondAfterSout .ok 0 (flush s))

/-- The compressor waits: no byte is held out, one is still owed, and no seed or token is determined (R219). -/
structure CompressorWaits (s : State) : Prop where
  scanning : s.ccI.toNat < s.ccLen.toNat
  offered : s.hPin = []
  owed : s.pin.length < s.ccLen.toNat
  undetermined : ∀ u, ¬ EncodesNext s u

/-- Where the compressor goes: it moves, or it waits. -/
def CompressorGoes (s : State) : Option State → Prop
  | some t => CompressorMove s t
  | none => CompressorWaits s

/-- Where a byte of the plane is needed, it is taken, or waited for (R218, R219). -/
theorem acceptPin_goes {s : State} (hi : s.ccI.toNat < s.ccLen.toNat) (howed : s.pin.length < s.ccLen.toNat)
    (hu : ∀ u, ¬ EncodesNext s u) : CompressorGoes s (acceptPin s) := by
  unfold acceptPin
  split
  next hb => exact ⟨hi, hb, howed, hu⟩
  next b rest hb =>
    rw [if_pos howed]
    exact .takes b rest hb howed rfl

/-- At a seed (R212). -/
theorem compressSeed_goes {s : State} (hi : s.ccI.toNat < s.ccLen.toNat) (h2 : s.ccI.toNat < 2) :
    CompressorGoes s (compressSeed s) := by
  unfold compressSeed
  split
  next hb =>
    have := List.getElem?_eq_none_iff.mp hb
    refine acceptPin_goes hi (by omega) fun u hu => ?_
    have := hu.scans hi
    omega
  next b hb => exact .encodes hi (.seed h2 hb)

/-- At a token (R213 to R215). -/
theorem compressScan_goes {s : State} (hi : s.ccI.toNat < s.ccLen.toNat) (h2 : 2 ≤ s.ccI.toNat) :
    CompressorGoes s (compressScan s) := by
  unfold compressScan
  split
  next hd =>
    exact acceptPin_goes hi (pin_lt_of_detectRun_none hi hd) fun u hu => hu.detectRun_ne_none hi h2 hd
  next n hd =>
    obtain ⟨prev, hrun⟩ := (detectRun_eq_some_iff hi).mp hd
    split_ifs with hmin
    · exact .encodes hi (.run h2 hrun.before hmin hrun.le_cap hrun.le_end hrun.equal hrun.stopped)
    · obtain ⟨b, hb, hn⟩ := hrun.literal hi (Nat.lt_of_not_le hmin)
      have hlit : compressLiteral s = some { emitLit (b.setWidth 32) s with ccI := s.ccI + 1 } := by
        rw [compressLiteral, memRead, hb]
      rw [hlit]
      exact .encodes hi (.literal h2 hrun.before hb hn)

/-- Everything a running E_PLANE can do next (R217, R219). -/
theorem compressStep_goes {s : State} (ha : s.activity = .ePlane) : CompressorGoes s (compressStep s) := by
  unfold compressStep
  rw [if_neg (not_not.mpr ha)]
  split_ifs with hi h2
  · exact compressSeed_goes hi h2
  · exact compressScan_goes hi (Nat.le_of_not_lt h2)
  · exact .flushes (Nat.le_of_not_lt hi) rfl

/-- The compressor makes no move outside an E_PLANE. -/
theorem compressStep_of_ne {s : State} (ha : s.activity ≠ .ePlane) : compressStep s = none := if_pos ha

theorem activity_of_compressStep {s t : State} (h : compressStep s = some t) : s.activity = .ePlane := by
  by_contra ha
  rw [compressStep_of_ne ha] at h
  cases h

theorem compressStep_some {s t : State} (h : compressStep s = some t) : CompressorMove s t := by
  have hgoes := compressStep_goes (activity_of_compressStep h)
  rwa [h] at hgoes

theorem compressStep_none {s : State} (ha : s.activity = .ePlane) (h : compressStep s = none) :
    CompressorWaits s := by
  have hgoes := compressStep_goes ha
  rwa [h] at hgoes

/-! ### The moves within one command -/

/-- What every move keeps, the moves of one command keep. -/
theorem compressMoves_keeps {p : State → Prop} (hstep : ∀ u v, p u → compressStep u = some v → p v) (fuel : Nat)
    {s : State} (hs : p s) : p (compressMoves fuel s) := by
  induction fuel generalizing s with
  | zero => exact hs
  | succ fuel ih =>
    unfold compressMoves
    split
    · exact hs
    next t ht => exact ih (hstep s t hs ht)

/-- The bytes still to be taken and the bytes still to be encoded: a bound on the moves before the last (log entry
7). -/
def movesLeft (s : State) : Nat := (s.ccLen.toNat - s.pin.length) + (s.ccLen.toNat - s.ccI.toNat)

theorem CompressorMove.movesLeft_lt {s t : State} (h : CompressorMove s t) (ht : t.activity = .ePlane) :
    movesLeft t < movesLeft s := by
  unfold movesLeft
  cases h with
  | takes b rest _ hlt ht =>
    subst ht
    rw [List.length_append, List.length_singleton]
    dsimp only
    omega
  | encodes hi h =>
    obtain ⟨hscan, -⟩ := h.scans hi
    rw [h.frame]
    dsimp only
    omega
  | flushes _ hend =>
    rw [hend] at ht
    cases ht

/-- Given fuel for the moves left, the moves go on until the compressor waits or has ended (log entry 7). -/
theorem compressMoves_stops {fuel : Nat} {s : State} (hf : movesLeft s < fuel) :
    compressStep (compressMoves fuel s) = none := by
  induction fuel generalizing s with
  | zero => omega
  | succ fuel ih =>
    unfold compressMoves
    split
    · assumption
    next t ht =>
      by_cases ha : t.activity = .ePlane
      · exact ih (by have := (compressStep_some ht).movesLeft_lt ha; omega)
      · have hstop := compressStep_of_ne ha
        cases fuel with
        | zero => exact hstop
        | succ fuel =>
          rw [compressMoves, hstop]
          exact hstop

end Sys2Proof.Machine
end

section
/-! E_PLANE (44_channel_encoder.md R217 to R221, R225): what a run of it keeps, from its start to its end, within one
command and over the steps of the machine; the stream it has appended when it ends. -/

namespace Sys2Proof.Machine

/-! ### What a run of E_PLANE keeps -/

/-- The plane bytes taken, held out, and still to be offered, in the order offered. -/
def planeBytes (s : State) : List Byte := s.pin ++ s.hPin ++ offeredPin s.hScript

/-- An E_PLANE of `len` bytes that was started in `s₀` stands in `s`, where it is running or has just ended. What it has
written is said for a writer that met its invariant when it started. -/
structure PlaneRun (len : Arg) (s₀ s : State) : Prop where
  length : s.ccLen = len
  bytes : planeBytes s = s₀.hPin ++ offeredPin s₀.hScript
  scan_le : s.ccI.toNat ≤ s.pin.length
  pin_le : s.pin.length ≤ s.ccLen.toNat
  stage : s.activity = .ePlane ∨ s.activity = .drainSout .ok 0 ∧ s.ccLen.toNat ≤ s.ccI.toNat
  running : WriterInv s₀ → s.activity = .ePlane → Compressing (written s₀) s
  ended : WriterInv s₀ → s.activity = .drainSout .ok 0 → WriterInv s ∧
    written s = written s₀ ++ streamCode s.pin ++ padBits (written s₀ ++ streamCode s.pin).length

/-- At its start nothing has been taken, and the whole stream is still to be written (R217). -/
theorem planeRun_start (len : Arg) (s : State) : PlaneRun len s (startEncode len s) where
  length := rfl
  bytes := rfl
  scan_le := le_rfl
  pin_le := Nat.zero_le _
  stage := .inl rfl
  running hw _ := ⟨⟨hw.unfilled_zero⟩, le_rfl, Nat.zero_le _, fun _ _ => rfl⟩
  ended _ := nofun

/-- At the end of an E_PLANE it has taken L bytes (R218). -/
theorem PlaneRun.pin_length {len : Arg} {s₀ s : State} (h : PlaneRun len s₀ s) (he : s.activity ≠ .ePlane) :
    s.activity = .drainSout .ok 0 ∧ s.pin.length = len.toNat := by
  obtain ⟨hend, hscan⟩ := h.stage.resolve_left he
  have hscanned := h.scan_le
  have htaken := h.pin_le
  rw [h.length] at hscan htaken
  exact ⟨hend, by omega⟩

/-- A move keeps what has been offered, and where it leaves the scan position and the sequencer. -/
theorem PlaneRun.compressStep {len : Arg} {s₀ s t : State} (h : PlaneRun len s₀ s) (ht : compressStep s = some t) :
    PlaneRun len s₀ t := by
  have ha := activity_of_compressStep ht
  have hstream (hw : WriterInv s₀) := (h.running hw ha).step ha ht
  have running (hw : WriterInv s₀) (hta : t.activity = .ePlane) : Compressing (written s₀) t :=
    (hstream hw).elim And.right fun hend => by rw [hta] at hend; cases hend.1
  have ended (hw : WriterInv s₀) (hta : t.activity = .drainSout .ok 0) : WriterInv t ∧
      written t = written s₀ ++ streamCode t.pin ++ padBits (written s₀ ++ streamCode t.pin).length :=
    (hstream hw).elim (fun hrun => by rw [hta] at hrun; cases hrun.1) fun hend => hend.2.2
  cases compressStep_some ht with
  | takes b rest hb hlt heq =>
    refine ⟨?_, ?_, ?_, ?_, ?_, running, ended⟩ <;> rw [heq]
    · exact h.length
    · rw [← h.bytes, planeBytes, planeBytes, hb]
      simp
    · have := h.scan_le
      rw [List.length_append]
      exact this.trans (Nat.le_add_right _ _)
    · rw [List.length_append]
      exact hlt
    · exact .inl ha
  | encodes hi henc =>
    have hscan := (henc.scans hi).2
    have hframe := henc.frame
    refine ⟨?_, ?_, ?_, ?_, ?_, running, ended⟩ <;> rw [hframe]
    · exact h.length
    · exact h.bytes
    · exact hscan
    · exact h.pin_le
    · exact .inl ha
  | flushes hi heq =>
    refine ⟨?_, ?_, ?_, ?_, ?_, running, ended⟩ <;> rw [heq, flush_only s]
    · exact h.length
    · exact h.bytes
    · exact h.scan_le
    · exact h.pin_le
    · exact .inr ⟨rfl, hi⟩

/-! ### Within one command -/

theorem exec_ePlane (len : Arg) (s : State) :
    exec (.ePlane 0 len) s = .next (compressMoves (2 * len.toNat + 1) (startEncode len s)) := rfl

/-- E_PLANE runs until it ends, or waits for a byte of its plane (R219, log entry 7). -/
theorem exec_ePlane_runs (len : Arg) (s : State) :
    ∃ t, exec (.ePlane 0 len) s = .next t ∧ PlaneRun len s t ∧ OnlyEncoder s t ∧
      (t.activity = .ePlane → CompressorWaits t) := by
  have hfuel : movesLeft (startEncode len s) < 2 * len.toNat + 1 := by
    show len.toNat - 0 + (len.toNat - 0) < _
    omega
  exact ⟨_, exec_ePlane len s, compressMoves_keeps (fun _ _ hu hv => hu.compressStep hv) _ (planeRun_start len s),
    (startEncode_move _ len s).frame, fun ha => compressStep_none ha (compressMoves_stops hfuel)⟩

/-- The command alone leaves the host's script as it is: the bytes taken are the first of those held out. -/
theorem PlaneRun.pin_append {len : Arg} {s t : State} (h : PlaneRun len s t) (hf : OnlyEncoder s t) :
    t.pin ++ t.hPin = s.hPin := by
  have hscript : t.hScript = s.hScript := by rw [hf]
  have hbytes := h.bytes
  rw [planeBytes, hscript] at hbytes
  exact List.append_cancel_right hbytes

/-- Settles O15: with the whole plane held out the run cannot be waiting, so it has ended. -/
theorem ePlaneWritesTheStream : Obligations.EPlaneWritesTheStream := by
  intro plane rest s hw hpin hlen
  have hL : (BitVec.ofNat 32 plane.length).toNat = plane.length := by
    rw [BitVec.toNat_ofNat, Nat.mod_eq_of_lt hlen]
  obtain ⟨t, hexec, hrun, hframe, hwaits⟩ := exec_ePlane_runs (BitVec.ofNat 32 plane.length) s
  have htaken : t.pin ++ t.hPin = plane ++ rest := (hrun.pin_append hframe).trans hpin
  have hne : t.activity ≠ .ePlane := fun ha => by
    have howed := (hwaits ha).owed
    rw [(hwaits ha).offered, List.append_nil] at htaken
    rw [htaken, hrun.length, hL, List.length_append] at howed
    omega
  obtain ⟨ha, hall⟩ := hrun.pin_length hne
  obtain ⟨hplane, hrest⟩ := List.append_inj htaken (hall.trans hL)
  obtain ⟨hwt, hwritten⟩ := hrun.ended hw ha
  rw [hplane] at hwritten
  refine ⟨t, hexec, hwt, hwritten, ?_⟩
  rw [← hrun.length, ← hplane, ← hrest, ← ha]
  exact hframe

/-- Settles O16: a run that had ended would have taken L bytes. -/
theorem ePlaneWaitsForItsBytes : Obligations.EPlaneWaitsForItsBytes := by
  intro len s hlt
  obtain ⟨t, hexec, hrun, hframe, hwaits⟩ := exec_ePlane_runs len s
  have htaken := hrun.pin_append hframe
  have ha : t.activity = .ePlane := by
    by_contra hne
    have hall := (hrun.pin_length hne).2
    have hsum := congrArg List.length htaken
    rw [List.length_append] at hsum
    omega
  have hnone := (hwaits ha).offered
  rw [hnone, List.append_nil] at htaken
  exact ⟨t, hexec, ha, htaken, hnone, hrun.length, hframe⟩

/-! ### Over the steps of the machine -/

/-- `t` is `s` but for the decoder's input and the host's side of the ports: what a host and the data ports can change
while an E_PLANE runs. -/
def OnlyAround (s t : State) : Prop :=
  t = { s with
    sin := t.sin, brClosed := t.brClosed, soutTaken := t.soutTaken, poutTaken := t.poutTaken, hCmd := t.hCmd,
    hPin := t.hPin, hSin := t.hSin, hEos := t.hEos, hRspReady := t.hRspReady, hSoutReady := t.hSoutReady,
    hPoutReady := t.hPoutReady, hSoutGot := t.hSoutGot, hPoutGot := t.hPoutGot, hScript := t.hScript }

theorem PlaneRun.around {len : Arg} {s₀ s t : State} (h : PlaneRun len s₀ s) (ho : OnlyAround s t)
    (hb : planeBytes t = planeBytes s) : PlaneRun len s₀ t := by
  have hbytes := hb.trans h.bytes
  have hactivity : t.activity = s.activity := by rw [ho]
  refine ⟨?_, hbytes, ?_, ?_, ?_, fun hw ha => ?_, fun hw ha => ?_⟩ <;> rw [ho]
  · exact h.length
  · exact h.scan_le
  · exact h.pin_le
  · exact h.stage
  · have hc := h.running hw (hactivity.symm.trans ha)
    exact ⟨⟨hc.writer.unfilled_zero⟩, hc.scan_le, hc.pin_le, hc.code⟩
  · obtain ⟨hwriter, hwritten⟩ := h.ended hw (hactivity.symm.trans ha)
    exact ⟨⟨hwriter.unfilled_zero⟩, hwritten⟩

/-- A byte the host offers on `pin` was the next of its script. -/
theorem hostAct_planeBytes {a : HostAct} (ha : a ≠ .assertReset) {s : State} {rest : List HostAct}
    (hs : s.hScript = a :: rest) : planeBytes (hostAct a { s with hScript := rest }) = planeBytes s := by
  cases a with
  | assertReset => exact absurd rfl ha
  | offerPin b => simp [planeBytes, hostAct, hs, offeredPin]
  | driveEos level => simp [planeBytes, hostAct, closeInput_eq, hs, offeredPin]
  | _ => simp [planeBytes, hostAct, hs, offeredPin]

theorem portBeats_planeBytes (s : State) : planeBytes (portBeats s) = planeBytes s := by
  rw [portBeats, poutBeat_frame, soutBeat_frame, sinBeat_frame]
  rfl

/-- A turn of the block begins with the same plane bytes: `letBlockMove` offers none. -/
theorem turn_block_planeBytes {s u : State} (h : turn s = .block u) : planeBytes u = planeBytes s := by
  unfold turn at h
  split at h <;> cases h
  · exact portBeats_planeBytes s
  next rest hs =>
    rw [portBeats_planeBytes, planeBytes, planeBytes, hs, offeredPin]

theorem sequencer_ePlane {s : State} (h : s.activity = .ePlane) : sequencer exec s = runCompressor s := by
  rw [sequencer, h]

/-- A step of the machine keeps a running E_PLANE, but for a reset. -/
theorem PlaneRun.step {len : Arg} {s₀ s t : State} (h : PlaneRun len s₀ s) (ha : s.activity = .ePlane)
    (hst : Machine.step s = .next t) (ht : t.activity ≠ .idle) : PlaneRun len s₀ t := by
  unfold Machine.step at hst
  split at hst
  next u hu =>
    cases hst
    obtain ⟨a, rest, hs, rfl⟩ := turn_host hu
    have hne : a ≠ .assertReset := fun hr => ht (by rw [hr]; rfl)
    exact h.around (by rw [hostAct_frame hne]; rfl) (hostAct_planeBytes hne hs)
  next u hu =>
    have honly := (turn_block hu).2.only
    have hrun : PlaneRun len s₀ u := h.around (by rw [honly]; rfl) (turn_block_planeBytes hu)
    have hau : u.activity = .ePlane := by rw [honly]; exact ha
    rw [sequencer_ePlane hau] at hst
    unfold runCompressor at hst
    split at hst <;> cases hst
    · exact hrun
    next hmove => exact hrun.compressStep hmove

theorem PlaneRun.steps {len : Arg} {s₀ s t : State} (h : PlaneRun len s₀ s)
    (hst : StepsWhile (fun u => u.activity = .ePlane) s t) (ht : t.activity ≠ .idle) : PlaneRun len s₀ t := by
  induction hst with
  | refl => exact h
  | tail _ hu hstep ih => exact (ih (by rw [hu]; nofun)).step hu hstep ht

/-- One move of the sequencer in a running E_PLANE that has not reached the end of its plane. -/
theorem sequencer_ePlane_scanning {s : State} (ha : s.activity = .ePlane) (hi : s.ccI.toNat < s.ccLen.toNat) :
    ∃ t, sequencer exec s = .next t ∧
      ((∃ b rest, s.hPin = b :: rest ∧ s.pin.length < s.ccLen.toNat ∧
          t = { s with pin := s.pin ++ [b], hPin := rest }) ∨
        EncodesNext s t ∨
        (t = s ∧ s.hPin = [] ∧ s.pin.length < s.ccLen.toNat ∧ ∀ u, ¬ EncodesNext s u)) := by
  rw [sequencer_ePlane ha]
  unfold runCompressor
  split
  next hnone =>
    have hwaits := compressStep_none ha hnone
    exact ⟨s, rfl, .inr (.inr ⟨rfl, hwaits.offered, hwaits.owed, hwaits.undetermined⟩)⟩
  next t hmove =>
    refine ⟨t, rfl, ?_⟩
    cases compressStep_some hmove with
    | takes b rest hb hlt heq => exact .inl ⟨b, rest, hb, hlt, heq⟩
    | encodes _ henc => exact .inr (.inl henc)
    | flushes hend _ => omega

/-- At the end of the plane the sequencer flushes and goes on to the delivery of `SOUT` (R216, R218). -/
theorem sequencer_ePlane_end {s : State} (ha : s.activity = .ePlane) (hi : s.ccLen.toNat ≤ s.ccI.toNat) :
    sequencer exec s = .next { flush s with activity := .drainSout .ok 0 } := by
  have hmove : compressStep s = some (respondAfterSout .ok 0 (flush s)) := by
    rw [compressStep, if_neg (not_not.mpr ha), if_neg (Nat.not_lt.mpr hi)]
  rw [sequencer_ePlane ha, runCompressor, hmove]
  rfl

/-- Settles O17: a run is followed from its start over the steps of the machine, each of which keeps the order of the
bytes and the progress of the stream; then the single moves. -/
theorem planeBytesMayArriveInPieces : Obligations.PlaneBytesMayArriveInPieces := by
  refine ⟨fun len s s₁ t hw hexec hsteps ht => ?_, fun _ => sequencer_ePlane_end,
    fun _ => sequencer_ePlane_scanning⟩
  obtain ⟨u, hu, hstart, -⟩ := exec_ePlane_runs len s
  cases hu.symm.trans hexec
  have hrun := hstart.steps hsteps (by rw [ht]; nofun)
  exact ⟨(hrun.pin_length (by rw [ht]; nofun)).2, hrun.bytes.symm, (hrun.ended hw ht).2⟩

end Sys2Proof.Machine
end

section
/-! The streams of small planes and of constant planes around the cap (44_channel_encoder.md R220, R221), and the bytes
an E_PLANE on an aligned writer appends to `SOUT`. -/

namespace Sys2Proof.Machine

/-! ### From an aligned writer -/

/-- Pad bits complete the last byte: `SOUT` is then the whole bit string (40_bit_writer.md R136). -/
theorem bitsOf_sout_of_padded {s : State} {w : List Bool} (h : written s = w ++ padBits w.length) :
    bitsOf s.sout = w ++ padBits w.length := by
  have hlen : (written s).length = w.length + (8 - w.length % 8) % 8 := by
    rw [h, padBits, List.length_append, zeroBits_length]
  rw [bitsOf_sout, ← h, List.take_of_length_le (by omega)]

/-- Whole bytes before a bit string do not change its pad bits. -/
theorem padBits_add (k n : Nat) : padBits (8 * k + n) = padBits n := by
  rw [padBits, padBits, Nat.mul_add_mod]

/-- A plane held out to an aligned writer appends its stream and the pad bits (R210, R216). -/
theorem ePlane_aligned {s t : State} {plane : List Byte} (hw : WriterInv s) (hfree : s.bwFree = 0)
    (hpin : s.hPin = plane) (hexec : exec (.ePlane 0 (BitVec.ofNat 32 plane.length)) s = .next t)
    (hlen : plane.length < 2 ^ 32) :
    bitsOf t.sout = bitsOf s.sout ++ streamCode plane ++ padBits (streamCode plane).length := by
  obtain ⟨u, hu, -, hwritten, -⟩ := ePlaneWritesTheStream plane [] s hw (by rw [hpin, List.append_nil]) hlen
  cases hu.symm.trans hexec
  rw [written_eq_bitsOf_sout hfree] at hwritten
  rw [bitsOf_sout_of_padded hwritten, List.length_append, bitsOf_length, padBits_add]

/-! ### The streams -/

/-- Up to two bytes are seeds, whole bytes without a token (R220). -/
theorem streamCode_of_length_le_two {plane : List Byte} (h : plane.length ≤ 2) : streamCode plane = bitsOf plane := by
  match plane with
  | [] => rfl
  | [a] => simp [streamCode]
  | [a, b] => simp [streamCode, streamTail, stretchCode]
  | _ :: _ :: _ :: _ => simp at h

/-- One byte after the seeds, or left of a stretch, is a literal, equal to the byte before it or not (R215, R220). -/
theorem streamTail_singleton (prev c : Byte) : streamTail prev 0 [c] = litCode c := by
  by_cases h : c = prev
  · simp [streamTail, stretchCode, h]
  · simp [streamTail, stretchCode, h]

/-- A stretch below the cap that ends the plane is one run (R214). -/
theorem streamTail_constant {b : Byte} {n : Nat} (h2 : 2 ≤ n) (hn : n < 65535) :
    streamTail b 0 (List.replicate n b) = runCode n := by
  have h := streamTail_replicate b n 0 [] (by omega)
  rwa [List.append_nil, Nat.zero_add, streamTail, stretchCode, if_pos h2] at h

/-- A stretch is cut at the cap, and what follows is coded as from its start (R221). -/
theorem streamTail_cap (b : Byte) (n : Nat) :
    streamTail b 0 (List.replicate (65535 + n) b) = runCode 65535 ++ streamTail b 0 (List.replicate n b) := by
  have hlen : 65535 + n = 65534 + (n + 1) := by omega
  rw [hlen, ← List.replicate_append_replicate, streamTail_replicate _ _ _ _ (by omega), List.replicate_succ, streamTail,
    if_pos rfl, if_pos (by omega)]

/-- A constant plane whose stretch after the seeds reaches the cap (R221). -/
theorem streamCode_cap (b : Byte) (n : Nat) :
    streamCode (List.replicate (65537 + n) b) =
      byteBits b ++ byteBits b ++ runCode 65535 ++ streamTail b 0 (List.replicate n b) := by
  have hlen : 65537 + n = 65535 + n + 1 + 1 := by omega
  rw [hlen, List.replicate_succ, List.replicate_succ, streamCode, streamTail_cap, ← List.append_assoc]

@[simp] theorem litCode_length (b : Byte) : (litCode b).length = 10 := by simp [litCode]

theorem runCode_cap_length : (runCode 65535).length = 32 := rfl

theorem runCode_two_length : (runCode 2).length = 4 := rfl

/-- A constant plane that goes `n` bytes past the cap, on an aligned writer. -/
theorem ePlane_past_cap {s t : State} {b : Byte} {n : Nat} (hw : WriterInv s) (hfree : s.bwFree = 0) (hn : n ≤ 2)
    (hpin : s.hPin = List.replicate (65537 + n) b)
    (hexec : exec (.ePlane 0 (BitVec.ofNat 32 (List.replicate (65537 + n) b).length)) s = .next t) :
    bitsOf t.sout = bitsOf s.sout ++ byteBits b ++ byteBits b ++ runCode 65535 ++
      streamTail b 0 (List.replicate n b) ++ padBits (streamTail b 0 (List.replicate n b)).length := by
  have hcode := ePlane_aligned hw hfree hpin hexec (by rw [List.length_replicate]; omega)
  have hpad (rest : List Bool) :
      padBits (byteBits b ++ byteBits b ++ runCode 65535 ++ rest).length = padBits rest.length := by
    have hbytes : (byteBits b ++ byteBits b ++ runCode 65535).length = 8 * 6 := by simp [runCode_cap_length]
    rw [List.length_append, hbytes, padBits_add]
  rw [hcode, streamCode_cap, hpad]
  simp only [List.append_assoc]

/-- Settles O18: the streams of these planes, and the pad bits their lengths ask for. -/
theorem smallAndCappedPlanes : Obligations.SmallAndCappedPlanes := by
  intro s t plane hw hfree hpin hexec
  refine ⟨fun hlen => bitsOf_injective ?_, ?_, fun b => ⟨?_, ?_, ?_⟩⟩
  · rw [ePlane_aligned hw hfree hpin hexec (by omega), streamCode_of_length_le_two hlen, bitsOf_append, bitsOf_length]
    simp [padBits, zeroBits]
  · rintro a b c rfl
    rw [ePlane_aligned hw hfree hpin hexec (by simp), streamCode, streamTail_singleton]
    simp [padBits]
  · rintro rfl
    have hcode := ePlane_past_cap (n := 0) hw hfree (by omega) hpin hexec
    simpa [streamTail, stretchCode, padBits, zeroBits] using hcode
  · rintro rfl
    have hcode := ePlane_past_cap (n := 1) hw hfree (by omega) hpin hexec
    rw [List.replicate_one, streamTail_singleton, litCode_length] at hcode
    exact hcode
  · rintro rfl
    have hcode := ePlane_past_cap (n := 2) hw hfree le_rfl hpin hexec
    rw [streamTail_constant le_rfl (by omega), runCode_two_length] at hcode
    exact hcode

end Sys2Proof.Machine
end

section
/-! The moves a D_PLANE makes within its command (45_channel_decoder.md R234 to R237): seeds and tokens that put out at
least one byte each, and then one move that waits, or takes a fault, or completes the plane. -/

namespace Sys2Proof.Machine

/-! ### Moves that put out bytes -/

/-- From `s` to `t` a running D_PLANE has put out the bytes `made`, which fit in the plane, and goes on. -/
structure PutsOut (made : List Byte) (s t : State) : Prop where
  activity : t.activity = .dPlane
  pout : t.pout = s.pout ++ made
  count : t.cxN.toNat = s.cxN.toNat + made.length
  len : t.cxLen = s.cxLen
  fits : made.length ≤ remaining s

/-- Bytes that fit in what is left of the plane are counted without wrapping around. -/
theorem PutsOut.of_fits {made : List Byte} {s t : State} (ha : t.activity = .dPlane) (hpout : t.pout = s.pout ++ made)
    (hn : t.cxN = s.cxN + BitVec.ofNat 32 made.length) (hlen : t.cxLen = s.cxLen)
    (hfits : made.length ≤ remaining s) : PutsOut made s t where
  activity := ha
  pout := hpout
  count := by
    have hlt := s.cxLen.isLt
    have hlt' := s.cxN.isLt
    rw [remaining] at hfits
    rw [hn, BitVec.toNat_add, BitVec.toNat_ofNat]
    omega
  len := hlen
  fits := hfits

/-- A read before the bytes are put out does not change the count of them. -/
theorem PutsOut.after_read {made : List Byte} {s u t : State} (hu : ReaderMove s u) (h : PutsOut made u t) :
    PutsOut made s t where
  activity := h.activity
  pout := by rw [h.pout, hu.pout]
  count := by rw [h.count, hu.cxN]
  len := h.len.trans hu.cxLen
  fits := by
    have hfits := h.fits
    rwa [remaining, hu.cxN, hu.cxLen] at hfits

theorem PutsOut.remaining_eq {made : List Byte} {s t : State} (h : PutsOut made s t) :
    remaining t = remaining s - made.length := by
  rw [remaining, remaining, h.count, h.len, Nat.sub_sub]

theorem PutsOut.trans {made more : List Byte} {s u t : State} (h : PutsOut made s u) (h' : PutsOut more u t) :
    PutsOut (made ++ more) s t where
  activity := h'.activity
  pout := by rw [h'.pout, h.pout, List.append_assoc]
  count := by rw [h'.count, h.count, List.length_append, Nat.add_assoc]
  len := h'.len.trans h.len
  fits := by
    have hfits := h.fits
    have hfits' := h'.fits
    rw [h.remaining_eq] at hfits'
    rw [List.length_append]
    omega

/-- A move that puts out bytes gets closer to the end of the plane. -/
theorem PutsOut.progress {made : List Byte} {s t : State} (h : PutsOut made s t) (hne : made ≠ []) :
    t.cxN ≠ s.cxN ∧ remaining t < remaining s := by
  have hpos := List.length_pos_iff.mpr hne
  have hcount := h.count
  have hfits := h.fits
  refine ⟨fun heq => ?_, by rw [h.remaining_eq]; omega⟩
  rw [heq] at hcount
  omega

/-- From `s` to `t`, moves of a running D_PLANE, each of which puts out bytes; `made` are the bytes of all of them. -/
inductive Expands : State → List Byte → State → Prop where
  | refl (s : State) : Expands s [] s
  | move {s u t : State} {made more : List Byte} (h : expandWith execWire s = .next u) (hne : made ≠ [])
      (hout : PutsOut made s u) (hu : Expands u more t) : Expands s (made ++ more) t

theorem Expands.trans {s u t : State} {made more : List Byte} (h : Expands s made u) (h' : Expands u more t) :
    Expands s (made ++ more) t := by
  induction h with
  | refl => exact h'
  | move hmove hne hout _ ih =>
    rw [List.append_assoc]
    exact .move hmove hne hout (ih h')

theorem Expands.single {s t : State} {made : List Byte} (h : expandWith execWire s = .next t) (hne : made ≠ [])
    (hout : PutsOut made s t) : Expands s made t :=
  List.append_nil made ▸ .move h hne hout (.refl t)

section running
variable {s t : State} {made : List Byte} (h : Expands s made t) (ha : s.activity = .dPlane)
include h ha

theorem Expands.putsOut : PutsOut made s t := by
  induction h with
  | refl s => exact ⟨ha, (List.append_nil _).symm, rfl, rfl, Nat.zero_le _⟩
  | move _ _ hout _ ih => exact hout.trans (ih hout.activity)

theorem Expands.decoderMove : DecoderMove s t := by
  induction h with
  | refl s => exact .refl (by rw [ha]; nofun)
  | move hmove _ hout _ ih => exact (expandWith_move ha hmove).trans hout.activity (ih hout.activity)

/-- A D_PLANE that goes on has taken no fault. -/
theorem Expands.no_fault : t.derr = s.derr ∧ t.dcode = s.dcode := by
  rcases (h.decoderMove ha).fault with hsame | ⟨-, st, info, -, hdrain, -⟩
  · exact hsame
  · rw [(h.putsOut ha).activity] at hdrain
    cases hdrain

end running

/-! ### The last move -/

/-- The moves within one command go on after a move that puts out bytes, and end with any other (log entry 7). -/
theorem Expands.expandMoves_eq {s u t : State} {made : List Byte} (h : Expands s made u)
    (hlast : expandWith execWire u = .next t) (hends : t.activity = .dPlane → t.cxN = u.cxN) {fuel : Nat}
    (hfuel : remaining s < fuel) : expandMoves fuel s = .next t := by
  induction h generalizing fuel with
  | refl s =>
    obtain ⟨fuel, rfl⟩ := Nat.exists_eq_succ_of_ne_zero (Nat.ne_zero_of_lt hfuel)
    rw [expandMoves, hlast]
    exact if_neg fun hgo => hgo.2 (hends hgo.1)
  | @move s v t made more hmove hne hout _ ih =>
    obtain ⟨fuel, rfl⟩ := Nat.exists_eq_succ_of_ne_zero (Nat.ne_zero_of_lt hfuel)
    obtain ⟨hn, hrem⟩ := hout.progress hne
    rw [expandMoves, hmove]
    exact (if_pos ⟨hout.activity, hn⟩).trans (ih hlast hends (by omega))

/-- How the moves of a D_PLANE that stands at `s` end: with a field that is not there while the input is open, with a
fault in which nothing is put out, or with the closing align (R235, R237; 60_exceptions.md R264 to R268). -/
inductive LastMove (s t : State) : Prop where
  | waits (hlt : s.cxN.toNat < s.cxLen.toNat) (hopen : s.brClosed = false) (h : ReaderMove s t)
  | faults (hlt : s.cxN.toNat < s.cxLen.toNat) (hpout : t.pout = s.pout) (h : TookFault t)
  | completes (hle : s.cxLen.toNat ≤ s.cxN.toNat) (h : t = finishDecode s)

/-- What has been read is put out, or is a run that does not fit, which is a fault (43_token_mux.md R202 to R207). -/
theorem produce_cases {tok : TokenRead} {s t : State} (h0 : tok ≠ .run 0) (ha : s.activity = .dPlane)
    (hlt : s.cxN.toNat < s.cxLen.toNat) (h : produce tok s = .next t) :
    (∃ made, made ≠ [] ∧ PutsOut made s t) ∨ t.pout = s.pout ∧ TookFault t := by
  cases tok with
  | lit b =>
    cases h
    refine .inl ⟨[BitVec.ofNat 8 b], by simp, .of_fits ha rfl rfl rfl ?_⟩
    show 1 ≤ s.cxLen.toNat - s.cxN.toNat
    omega
  | run n =>
    rw [produce] at h
    split_ifs at h with hover
    · cases h
      exact .inr ⟨rfl, rfl, .overrun, _, rfl, rfl, rfl⟩
    · cases h
      have hn : n ≠ 0 := fun hn => h0 (congrArg TokenRead.run hn)
      refine .inl ⟨List.replicate n s.cxLast, by simpa using hn, ?_⟩
      rw [emitLast_eq]
      exact .of_fits ha rfl (by rw [List.length_replicate]) rfl (by rw [List.length_replicate]; omega)

/-- One move of a running D_PLANE puts out bytes, or is the last. -/
theorem expandWith_cases {s t : State} (hp : PlaceInv s) (ha : s.activity = .dPlane)
    (h : expandWith execWire s = .next t) : (∃ made, made ≠ [] ∧ PutsOut made s t) ∨ LastMove s t := by
  rw [expandWith_reads hp ha] at h
  split_ifs at h with hlt
  · have hfrom := readNext_from s
    cases hr : readNext s with
    | done tok u =>
      rw [hr] at h hfrom
      obtain ⟨k, hu⟩ := hfrom
      have hmove := (hu.mark .tag).readerMove
      rcases produce_cases (s := mark .tag u) (readNext_ne_run_zero hr) (hmove.activity.trans ha)
        (by rw [mark, hmove.cxN, hmove.cxLen]; exact hlt) h with ⟨made, hne, hout⟩ | ⟨hpout, hfault⟩
      · exact .inl ⟨made, hne, hout.after_read hmove⟩
      · exact .inr (.faults hlt (hpout.trans hmove.pout) hfault)
    | waits u =>
      rw [hr] at h hfrom
      obtain ⟨⟨k, hu⟩, hopen⟩ := hfrom
      cases h
      exact .inr (.waits hlt hopen hu.readerMove)
    | raises st info u =>
      rw [hr] at h hfrom
      obtain ⟨⟨k, hu⟩, hf⟩ := hfrom
      cases h
      exact .inr (.faults hlt hu.readerMove.pout ⟨rfl, st, info, hf, rfl, rfl⟩)
    | pastEnd =>
      rw [hr] at hfrom
      exact hfrom.elim
  · cases h
    exact .inr (.completes (not_lt.mp hlt) rfl)

theorem LastMove.ends {s t : State} (h : LastMove s t) (ha : t.activity = .dPlane) : t.cxN = s.cxN := by
  cases h with
  | waits _ _ h => exact h.cxN
  | faults _ _ h =>
    obtain ⟨-, st, info, -, hdrain, -⟩ := h
    cases ha.symm.trans hdrain
  | completes _ h =>
    rw [h] at ha
    cases ha

/-- The fuel of a D_PLANE lets its moves come to the last one (log entry 7). -/
theorem expandMoves_ends (fuel : Nat) {s t : State} (hp : PlaceInv s) (ha : s.activity = .dPlane)
    (hfuel : remaining s < fuel) (h : expandMoves fuel s = .next t) :
    ∃ made u, Expands s made u ∧ LastMove u t := by
  induction fuel generalizing s with
  | zero => exact absurd hfuel (Nat.not_lt_zero _)
  | succ fuel ih =>
    rw [expandMoves] at h
    split at h
    next v hv =>
      rcases expandWith_cases hp ha hv with ⟨made, hne, hout⟩ | hlast
      · obtain ⟨hn, hrem⟩ := hout.progress hne
        rw [if_pos ⟨hout.activity, hn⟩] at h
        obtain ⟨more, u, hexpands, hlast⟩ :=
          ih ((expandWith_move ha hv).place hp) hout.activity (by omega) h
        exact ⟨made ++ more, u, .move hv hne hout hexpands, hlast⟩
      · rw [if_neg fun hgo => hgo.2 (hlast.ends hgo.1)] at h
        cases h
        exact ⟨[], s, .refl s, hlast⟩
    all_goals cases h

/-! ### From the start of the command -/

section started
variable {len : Arg} {s t : State} (hd : s.derr = false)
include hd

theorem startDecode_place : PlaceInv (startDecode len s) := .of_tag (fun _ => hd) rfl (Nat.zero_le _)

/-- What a D_PLANE that passes its checks leads to is a move of the decoder from its start. -/
theorem exec_dPlane_move (h : exec (.dPlane 0 len) s = .next t) : DecoderMove (startDecode len s) t :=
  expandMoves_move _ rfl ((exec_dPlane len hd).symm.trans h)

/-- The command starts within the decoder half. -/
theorem exec_dPlane_frame (h : exec (.dPlane 0 len) s = .next t) : OnlyDecoder s t :=
  OnlyDecoder.trans (t := startDecode len s) rfl (exec_dPlane_move hd h).frame

/-- A D_PLANE makes the moves that put out bytes, and then one that does not. -/
theorem exec_dPlane_eq {u : State} {made : List Byte} (h : Expands (startDecode len s) made u)
    (hlast : expandWith execWire u = .next t) (hends : t.activity = .dPlane → t.cxN = u.cxN) :
    exec (.dPlane 0 len) s = .next t :=
  (exec_dPlane len hd).trans (h.expandMoves_eq hlast hends (Nat.lt_succ_of_le (Nat.sub_le _ _)))

/-- How every D_PLANE that passes its checks goes on (R235, R237). -/
theorem exec_dPlane_ends :
    ∃ t made u, exec (.dPlane 0 len) s = .next t ∧ Expands (startDecode len s) made u ∧ LastMove u t := by
  obtain ⟨t, ht⟩ := exec_goes (.dPlane 0 len) s
  obtain ⟨made, u, hexpands, hlast⟩ := expandMoves_ends _ (startDecode_place hd) rfl
    (Nat.lt_succ_of_le (Nat.sub_le _ _)) ((exec_dPlane len hd).symm.trans ht)
  exact ⟨t, made, u, ht, hexpands, hlast⟩

end started

end Sys2Proof.Machine
end

section
/-! D_PLANE on a stream of seeds and tokens, canonical or not (45_channel_decoder.md R233 to R238, R241): the moves that
read the bits of the stream and put out the bytes they stand for, one after the other, and how the command ends behind
them, with the plane complete or the stream short. -/

namespace Sys2Proof.Machine

/-! ### The bytes of a list of tokens -/

theorem getLastD_append {α : Type} (xs ys : List α) (a : α) :
    (xs ++ ys).getLastD a = ys.getLastD (xs.getLastD a) := by
  simp only [List.getLastD_eq_getLast?, List.getLast?_append]
  cases ys.getLast? <;> rfl

theorem getLastD_replicate {α : Type} (n : Nat) (a : α) : (List.replicate n a).getLastD a = a := by
  rw [List.getLastD_eq_getLast?, List.getLast?_replicate]
  split_ifs <;> rfl

theorem tokenListBytes_lit (last b : Byte) (tokens : List Instr) :
    tokenListBytes last (.lit b :: tokens) = b :: tokenListBytes b tokens := rfl

theorem tokenListBytes_run {i : Instr} {n : Nat} (h : runCountOf i = some n) (last : Byte) (tokens : List Instr) :
    tokenListBytes last (i :: tokens) = List.replicate n last ++ tokenListBytes last tokens := by
  have hlit : litSampleOf i = none := by cases i <;> cases h <;> rfl
  simp only [tokenListBytes, hlit, h, Option.getD_some]

theorem tokenListBytes_run_alone {i : Instr} {n : Nat} (h : runCountOf i = some n) (last : Byte) :
    tokenListBytes last [i] = List.replicate n last :=
  (tokenListBytes_run h last []).trans (List.append_nil _)

/-- A token is a LIT, or a RUN of at least one byte (30_encoding.md R91, R95). -/
theorem IsToken.cases {i : Instr} (h : IsToken i) :
    (∃ b, i = .lit b) ∨ ∃ n, n ≠ 0 ∧ runCountOf i = some n := by
  obtain ⟨hwf, hkind⟩ := h
  have hrun {w : Nat} {c : BitVec w} (hc : c ≠ 0#w) : c.toNat ≠ 0 := fun h0 => hc (BitVec.eq_of_toNat_eq h0)
  cases i with
  | lit b => exact .inl ⟨b, rfl⟩
  | runT1 c => exact .inr ⟨_, hrun (ne_zero_of_checked hwf), rfl⟩
  | runT2 c => exact .inr ⟨_, Nat.succ_ne_zero _, rfl⟩
  | runT3 c => exact .inr ⟨_, hrun (ne_zero_of_checked hwf), rfl⟩
  | runT4 c => exact .inr ⟨_, hrun (ne_zero_of_checked hwf), rfl⟩
  | _ => rcases hkind with hkind | hkind <;> cases hkind

/-- The bytes of a token come first, and the last of them is the byte before the other tokens (R202 to R207). -/
theorem tokenListBytes_cons {i : Instr} (h : IsToken i) (last : Byte) (tokens : List Instr) :
    tokenListBytes last (i :: tokens) =
      tokenListBytes last [i] ++ tokenListBytes ((tokenListBytes last [i]).getLastD last) tokens := by
  obtain ⟨b, rfl⟩ | ⟨n, -, hn⟩ := h.cases
  · rfl
  · rw [tokenListBytes_run hn, tokenListBytes_run_alone hn, getLastD_replicate]

theorem tokenListBytes_ne_nil {i : Instr} (h : IsToken i) (last : Byte) : tokenListBytes last [i] ≠ [] := by
  obtain ⟨b, rfl⟩ | ⟨n, hne, hn⟩ := h.cases
  · simp [tokenListBytes_lit]
  · simpa [tokenListBytes_run_alone hn] using hne

theorem tokenListBits_cons (i : Instr) (tokens : List Instr) :
    tokenListBits (i :: tokens) = (encode i).bits ++ tokenListBits tokens := rfl

/-! ### What is fetched -/

theorem expandWith_fetched {s : State} {i : Instr} (hlt : s.cxN.toNat < s.cxLen.toNat) (h : fetch s = .ok i) :
    expandWith execWire s = exec i s := by
  rw [expandWith, if_pos hlt, h]
  exact (exec_wire (fetch_wire h) s).symm

theorem fetch_seed {s : State} {b : Byte} {rest : List Bool} (hn : s.cxN.toNat < 2)
    (hb : toRead s = byteBits b ++ rest) : fetch s = .ok (.seed b) := by
  have hseed : atSeed s = true := decide_eq_true hn
  rw [fetch, if_pos hseed, decodeSeed]
  cases hf : takeField 8 (unread s) with
  | none =>
    have hshort := toRead_short hf
    rw [hb, List.length_append, byteBits_length] at hshort
    omega
  | some p =>
    obtain ⟨more, hmore⟩ := takeField_unread s hf
    rw [hb, byteBits, takeField_lowBits] at hmore
    cases hmore
    rfl

theorem IsToken.encode_eq {i : Instr} (h : IsToken i) : encode i = .tokenAt (encode i).bits := by
  obtain ⟨b, rfl⟩ | ⟨n, -, hn⟩ := h.cases
  · rfl
  · exact encode_run hn

theorem fetch_token {s : State} {i : Instr} {rest : List Bool} (hn : 2 ≤ s.cxN.toNat) (hi : IsToken i)
    (hb : bitsBefore s.tokAt ++ toRead s = (encode i).bits ++ rest) : fetch s = .ok i := by
  have hseed : atSeed s = false := decide_eq_false (not_lt.mpr hn)
  rw [fetch, hseed, if_neg Bool.false_ne_true, tokenBits, decodeToken_unread]
  exact decodeToken_code hi.1 hi.encode_eq hb

/-! ### The moves on a stream -/

/-- A running D_PLANE that stands at a seed or at the start of a token. -/
structure AtBoundary (s : State) : Prop where
  activity : s.activity = .dPlane
  reader : ReaderInv s
  tokAt : s.tokAt = .tag

theorem startDecode_atBoundary (len : Arg) {s : State} (h : ReaderInv s) : AtBoundary (startDecode len s) :=
  ⟨rfl, h.of_readerPart_eq rfl, rfl⟩

/-- From `s` to `u` the moves of a D_PLANE have read `code`, with `rest` after it, and put out `bytes`. -/
structure Consumes (code rest : List Bool) (bytes : List Byte) (s u : State) : Prop where
  moves : Expands s bytes u
  boundary : AtBoundary u
  left : toRead u = rest
  pos : bitPos u = bitPos s + code.length
  last : u.cxLast = bytes.getLastD s.cxLast

theorem Consumes.refl {s : State} (h : AtBoundary s) : Consumes [] (toRead s) [] s s :=
  ⟨.refl s, h, rfl, rfl, rfl⟩

theorem Consumes.trans {code code' rest rest' : List Bool} {bytes bytes' : List Byte} {s u t : State}
    (h : Consumes code rest bytes s u) (h' : Consumes code' rest' bytes' u t) :
    Consumes (code ++ code') rest' (bytes ++ bytes') s t where
  moves := h.moves.trans h'.moves
  boundary := h'.boundary
  left := h'.left
  pos := by rw [h'.pos, h.pos, List.length_append, Nat.add_assoc]
  last := by rw [h'.last, h.last, getLastD_append]

/-- A seed byte that stands at the reader is put out (R233). -/
theorem consumes_seed {s : State} {b : Byte} {rest : List Bool} (h : AtBoundary s) (hn : s.cxN.toNat < 2)
    (hfits : 1 ≤ remaining s) (hb : toRead s = byteBits b ++ rest) :
    ∃ u, Consumes (byteBits b) rest [b] s u := by
  obtain ⟨u, hexec, hru, hleft, hpos, hframe⟩ := seedAndLitEmitTheirSample.1 s b rest h.reader hb
  rw [← expandWith_fetched (by rw [remaining] at hfits; omega) (fetch_seed hn hb)] at hexec
  have ha : u.activity = .dPlane := by
    rw [hframe]
    exact h.activity
  have hout : PutsOut [b] s u :=
    .of_fits ha (by rw [hframe]) (by rw [hframe]; rfl) (by rw [hframe]) hfits
  refine ⟨u, .single hexec (by simp) hout, ⟨ha, hru, ?_⟩, hleft, hpos, ?_⟩
  · rw [hframe]
    exact h.tokAt
  · rw [hframe]
    rfl

/-- What executing a token does on a reader that stands before it (R202 to R207). -/
theorem exec_token_emits {s : State} {i : Instr} {rest : List Bool} (h : AtBoundary s) (hi : IsToken i)
    (hfits : (tokenListBytes s.cxLast [i]).length ≤ remaining s) (hb : toRead s = (encode i).bits ++ rest) :
    ∃ u, exec i s = .next u ∧ ReaderInv u ∧ toRead u = rest ∧ bitPos u = bitPos s + (encode i).bits.length ∧
      u = { s with
        brIdx := u.brIdx, brCur := u.brCur, brLeft := u.brLeft, tokAt := .tag,
        pout := s.pout ++ tokenListBytes s.cxLast [i],
        cxLast := (tokenListBytes s.cxLast [i]).getLastD s.cxLast,
        cxN := s.cxN + BitVec.ofNat 32 (tokenListBytes s.cxLast [i]).length } := by
  have hbits : bitsBefore s.tokAt ++ toRead s = (encode i).bits ++ rest := by
    rw [h.tokAt]
    exact hb
  obtain ⟨b, rfl⟩ | ⟨n, -, hn⟩ := hi.cases
  · obtain ⟨u, hexec, hru, hleft, hpos, hframe⟩ := seedAndLitEmitTheirSample.2 s b rest h.reader hbits
    rw [h.tokAt] at hpos
    exact ⟨u, hexec, hru, hleft, hpos, hframe⟩
  · simp only [tokenListBytes_run_alone hn, List.length_replicate, getLastD_replicate] at hfits ⊢
    obtain ⟨u, hexec, hru, hleft, hpos, hframe⟩ :=
      runsReplicateTheLastByte s i n rest h.reader hi.1 hn hbits hfits
    rw [h.tokAt] at hpos
    exact ⟨u, hexec, hru, hleft, hpos, hframe⟩

/-- A token that stands at the reader is put out, if it fits in the plane (R234). -/
theorem consumes_token {s : State} {i : Instr} {rest : List Bool} (h : AtBoundary s) (hn : 2 ≤ s.cxN.toNat)
    (hi : IsToken i) (hfits : (tokenListBytes s.cxLast [i]).length ≤ remaining s)
    (hb : toRead s = (encode i).bits ++ rest) :
    ∃ u, Consumes (encode i).bits rest (tokenListBytes s.cxLast [i]) s u := by
  have hne := tokenListBytes_ne_nil hi s.cxLast
  have hlt : s.cxN.toNat < s.cxLen.toNat := by
    have hpos := List.length_pos_iff.mpr hne
    rw [remaining] at hfits
    omega
  obtain ⟨u, hexec, hru, hleft, hpos, hframe⟩ := exec_token_emits h hi hfits hb
  rw [← expandWith_fetched hlt (fetch_token hn hi (by rw [h.tokAt]; exact hb))] at hexec
  have ha : u.activity = .dPlane := by
    rw [hframe]
    exact h.activity
  have hout : PutsOut (tokenListBytes s.cxLast [i]) s u :=
    .of_fits ha (by rw [hframe]) (by rw [hframe]) (by rw [hframe]) hfits
  exact ⟨u, .single hexec hne hout, ⟨ha, hru, by rw [hframe]⟩, hleft, hpos, by rw [hframe]⟩

theorem consumes_seeds (seeds : List Byte) {s : State} {rest : List Bool} (h : AtBoundary s)
    (hn : s.cxN.toNat + seeds.length ≤ 2) (hfits : seeds.length ≤ remaining s)
    (hb : toRead s = bitsOf seeds ++ rest) : ∃ u, Consumes (bitsOf seeds) rest seeds s u := by
  induction seeds generalizing s with
  | nil =>
    obtain rfl : toRead s = rest := hb
    exact ⟨s, .refl h⟩
  | cons b seeds ih =>
    rw [List.length_cons] at hn hfits
    rw [bitsOf_cons, List.append_assoc] at hb
    obtain ⟨u, hu⟩ := consumes_seed h (by omega) (by omega) hb
    have hout := hu.moves.putsOut h.activity
    have hcount : u.cxN.toNat = s.cxN.toNat + 1 := hout.count
    have hrem : remaining u = remaining s - 1 := hout.remaining_eq
    obtain ⟨t, ht⟩ := ih hu.boundary (by omega) (by omega) hu.left
    exact ⟨t, hu.trans ht⟩

theorem consumes_tokens (tokens : List Instr) {s : State} {rest : List Bool} (h : AtBoundary s)
    (hn : 2 ≤ s.cxN.toNat) (hi : ∀ i ∈ tokens, IsToken i)
    (hfits : (tokenListBytes s.cxLast tokens).length ≤ remaining s)
    (hb : toRead s = tokenListBits tokens ++ rest) :
    ∃ u, Consumes (tokenListBits tokens) rest (tokenListBytes s.cxLast tokens) s u := by
  induction tokens generalizing s with
  | nil =>
    obtain rfl : toRead s = rest := hb
    exact ⟨s, .refl h⟩
  | cons i tokens ih =>
    obtain ⟨hi₁, hitokens⟩ := List.forall_mem_cons.mp hi
    rw [tokenListBytes_cons hi₁, List.length_append] at hfits
    rw [tokenListBits_cons, List.append_assoc] at hb
    obtain ⟨u, hu⟩ := consumes_token h hn hi₁ (by omega) hb
    have hout := hu.moves.putsOut h.activity
    have hcount := hout.count
    have hrem := hout.remaining_eq
    rw [← hu.last] at hfits
    obtain ⟨t, ht⟩ := ih hu.boundary (by omega) hitokens (by omega) hu.left
    rw [tokenListBytes_cons hi₁, tokenListBits_cons, ← hu.last]
    exact ⟨t, hu.trans ht⟩

/-- Two seeds and tokens, from the start of a D_PLANE in which they fit. -/
theorem consumes_stream {len : Arg} {s : State} {b₀ b₁ : Byte} {tokens : List Instr} {rest : List Bool}
    (hr : ReaderInv s) (hi : ∀ i ∈ tokens, IsToken i) (hlen : (tokenListBytes b₁ tokens).length + 2 ≤ len.toNat)
    (hb : toRead s = byteBits b₀ ++ byteBits b₁ ++ tokenListBits tokens ++ rest) :
    ∃ u, Consumes (byteBits b₀ ++ byteBits b₁ ++ tokenListBits tokens) rest (b₀ :: b₁ :: tokenListBytes b₁ tokens)
      (startDecode len s) u := by
  have hrem : remaining (startDecode len s) = len.toNat := rfl
  obtain ⟨v, hv⟩ := consumes_seeds [b₀, b₁] (startDecode_atBoundary len hr) (le_refl 2)
    (show 2 ≤ remaining (startDecode len s) by omega) (rest := tokenListBits tokens ++ rest) (by
      rw [bitsOf_cons, bitsOf_cons, bitsOf_nil, List.append_nil, ← List.append_assoc]
      exact hb)
  have hout := hv.moves.putsOut rfl
  have hcount : v.cxN.toNat = 0 + 2 := hout.count
  have hremv : remaining v = len.toNat - 2 := hout.remaining_eq
  have hlast : v.cxLast = b₁ := hv.last
  obtain ⟨u, hu⟩ := consumes_tokens tokens hv.boundary (by omega) hi (by rw [hlast]; omega) hv.left
  rw [hlast] at hu
  have hall := hv.trans hu
  rw [bitsOf_cons, bitsOf_cons, bitsOf_nil, List.append_nil] at hall
  exact ⟨u, hall⟩

/-! ### The end behind a stream -/

/-- A D_PLANE whose plane is complete behind a stream ends OK, at the next byte boundary (R235, R237). -/
theorem dPlane_completes {len : Arg} {s u : State} {code rest : List Bool} {bytes : List Byte} (hd : s.derr = false)
    (h : Consumes code rest bytes (startDecode len s) u) (hlen : bytes.length = len.toNat) :
    ∃ t, exec (.dPlane 0 len) s = .next t ∧ t.activity = .drainPout .ok 0 ∧ t.pout = s.pout ++ bytes ∧
      t.derr = false ∧ ReaderInv t ∧ bitPos t = 8 * ((bitPos s + code.length + 7) / 8) ∧ OnlyDecoder s t := by
  have hout := h.moves.putsOut rfl
  have hcount : u.cxN.toNat = 0 + bytes.length := hout.count
  have hcxLen : u.cxLen = len := hout.len
  have hexec : exec (.dPlane 0 len) s = .next (finishDecode u) :=
    exec_dPlane_eq hd h.moves (expandWith_complete (by rw [hcxLen]; omega)) nofun
  refine ⟨_, hexec, rfl, hout.pout, (h.moves.no_fault rfl).1.trans hd,
    ((align_readerMove u).reader h.boundary.reader).1.of_readerPart_eq rfl, ?_, exec_dPlane_frame hd hexec⟩
  show 8 * u.brIdx = 8 * ((bitPos (startDecode len s) + code.length + 7) / 8)
  rw [h.boundary.reader.brIdx_eq, h.pos]

/-- A D_PLANE that stands behind a stream at a field that is short has put out what it has read, and its last move is
the wait or the fault there (R235, R237; 60_exceptions.md R264). -/
theorem dPlane_endsShort {len : Arg} {s u t : State} {code rest : List Bool} {bytes : List Byte} {f : TokField}
    {width : Nat} (hd : s.derr = false) (h : Consumes code rest bytes (startDecode len s) u)
    (hmove : sequencer exec u = .next t)
    (hopen : u.brClosed = false →
      t = { u with brIdx := t.brIdx, brCur := t.brCur, brLeft := t.brLeft, tokAt := f })
    (hclosed : u.brClosed = true →
      t = { u with
        brIdx := t.brIdx, brCur := t.brCur, brLeft := t.brLeft, tokAt := .tag, derr := true, dcode := 4,
        activity := .drainPout .underrun (BitVec.ofNat 32 width) }) :
    exec (.dPlane 0 len) s = .next t ∧ t.pout = s.pout ++ bytes ∧ EndsShort s t f width := by
  rw [sequencer_dPlane h.boundary.activity] at hmove
  have hout := h.moves.putsOut rfl
  obtain ⟨hderr, hdcode⟩ := h.moves.no_fault rfl
  have hinput : u.brClosed = s.brClosed := (h.moves.decoderMove rfl).input.2
  have hkeeps : t.pout = u.pout ∧ t.cxN = u.cxN := by
    cases hc : u.brClosed with
    | false => rw [hopen hc]; exact ⟨rfl, rfl⟩
    | true => rw [hclosed hc]; exact ⟨rfl, rfl⟩
  have hexec := exec_dPlane_eq hd h.moves hmove fun _ => hkeeps.2
  refine ⟨hexec, hkeeps.1.trans hout.pout, exec_dPlane_frame hd hexec, fun hc => ?_, fun hc => ?_⟩
  · rw [hopen (hinput.trans hc)]
    exact ⟨h.boundary.activity, rfl, hderr.trans hd, hdcode⟩
  · rw [hclosed (hinput.trans hc)]
    exact ⟨rfl, rfl, rfl, rfl⟩

/-! ### The statements -/

/-- Settles O36: the plane is its own seeds. -/
theorem dPlaneOfSmallPlanes : Obligations.DPlaneOfSmallPlanes := by
  intro s plane rest hr hd hsmall hb
  have hlen : (BitVec.ofNat 32 plane.length).toNat = plane.length := by
    rw [BitVec.toNat_ofNat]
    omega
  obtain ⟨u, hu⟩ := consumes_seeds plane (startDecode_atBoundary (BitVec.ofNat 32 plane.length) hr)
    (show 0 + plane.length ≤ 2 by omega) (show plane.length ≤ (BitVec.ofNat 32 plane.length).toNat - 0 by omega) hb
  obtain ⟨t, hexec, ha, hpout, -, hrt, hpos, hframe⟩ := dPlane_completes hd hu hlen.symm
  refine ⟨t, hexec, ha, hpout, hrt, ?_, hframe⟩
  rw [hpos, bitsOf_length]
  omega

/-- Settles O37: the two seeds and then the tokens are put out, and they are the whole plane. -/
theorem dPlaneExecutesTheStream : Obligations.DPlaneExecutesTheStream := by
  intro s b₀ b₁ tokens rest hr hd hi hfits hb
  have hlen : (BitVec.ofNat 32 ((tokenListBytes b₁ tokens).length + 2)).toNat = (tokenListBytes b₁ tokens).length + 2 :=
    (BitVec.toNat_ofNat _ _).trans (Nat.mod_eq_of_lt hfits)
  obtain ⟨u, hu⟩ := consumes_stream hr hi hlen.ge hb
  obtain ⟨t, hexec, ha, hpout, hderr, hrt, hpos, hframe⟩ := dPlane_completes hd hu hlen.symm
  refine ⟨t, hexec, ha, hpout, hderr, hrt, ?_, hframe⟩
  rw [hpos, List.length_append, List.length_append, byteBits_length, byteBits_length]
  omega

/-- Every D_PLANE that passes its checks: the count of the bytes put out, by the move that ends it. -/
theorem dPlane_trichotomy {len : Arg} {s : State} (hr : ReaderInv s) (hd : s.derr = false) :
    ∃ t made, exec (.dPlane 0 len) s = .next t ∧ OnlyDecoder s t ∧ ReaderInv t ∧ bitPos s ≤ bitPos t ∧
      t.pout = s.pout ++ made ∧
      ((t.activity = .dPlane ∧ s.brClosed = false ∧ t.derr = false ∧ made.length < len.toNat) ∨
        (t.activity = .drainPout .ok 0 ∧ t.derr = false ∧ made.length = len.toNat ∧ t.brLeft = 0) ∨
        ∃ st info, isFaultStatus st = true ∧ t.activity = .drainPout st info ∧ t.derr = true ∧
          t.dcode = statusCode st ∧ made.length < len.toNat) := by
  obtain ⟨t, made, u, hexec, hmoves, hlast⟩ := exec_dPlane_ends (len := len) hd
  obtain ⟨hrt, hpos⟩ := (exec_dPlane_move hd hexec).reader (hr.of_readerPart_eq rfl)
  have hout := hmoves.putsOut rfl
  have hderr : u.derr = false := (hmoves.no_fault rfl).1.trans hd
  have hcount : u.cxN.toNat = 0 + made.length := hout.count
  have hcxLen : u.cxLen = len := hout.len
  have hfits : made.length ≤ len.toNat - 0 := hout.fits
  refine ⟨t, made, hexec, exec_dPlane_frame hd hexec, hrt, hpos, ?_⟩
  cases hlast with
  | waits hlt hopen hread =>
    have hinput : u.brClosed = s.brClosed := (hmoves.decoderMove rfl).input.2
    rw [hcxLen] at hlt
    exact ⟨hread.pout.trans hout.pout,
      .inl ⟨hread.activity.trans hout.activity, hinput.symm.trans hopen, hread.derr.trans hderr, by omega⟩⟩
  | faults hlt hpout hfault =>
    obtain ⟨herr, st, info, hst, ha, hcode⟩ := hfault
    rw [hcxLen] at hlt
    exact ⟨hpout.trans hout.pout, .inr (.inr ⟨st, info, hst, ha, herr, hcode, by omega⟩)⟩
  | completes hle hfinish =>
    rw [hcxLen] at hle
    rw [hfinish]
    exact ⟨hout.pout, .inr (.inl ⟨rfl, hderr, by omega, rfl⟩)⟩

/-- A stream that ends in a seed. -/
theorem dPlane_shortSeed {len : Arg} {s : State} {seeds : List Byte} {rest : List Bool} (hr : ReaderInv s)
    (hd : s.derr = false) (hn : seeds.length < 2) (hlen : seeds.length < len.toNat)
    (hb : toRead s = bitsOf seeds ++ rest) (hrest : rest.length < 8) :
    ∃ t, exec (.dPlane 0 len) s = .next t ∧ ReaderInv t ∧ toRead t = rest ∧
      bitPos t = bitPos s + 8 * seeds.length ∧ t.pout = s.pout ++ seeds ∧ EndsShort s t .tag 8 := by
  obtain ⟨u, hu⟩ := consumes_seeds seeds (startDecode_atBoundary len hr) (show 0 + seeds.length ≤ 2 by omega)
    (show seeds.length ≤ len.toNat - 0 by omega) hb
  have hout := hu.moves.putsOut rfl
  have hcount : u.cxN.toNat = 0 + seeds.length := hout.count
  have hcxLen : u.cxLen = len := hout.len
  have hpos : bitPos u = bitPos s + 8 * seeds.length := by
    rw [hu.pos, bitsOf_length]
    rfl
  obtain ⟨-, -, hshort, -⟩ := tokensEndEarly
  obtain ⟨hwaits, hfaults⟩ :=
    hshort u hu.boundary.activity (by rw [hcxLen]; omega) (by omega) (by rw [hu.left]; exact hrest)
  cases hc : u.brClosed with
  | false =>
    obtain ⟨hexec, hpout, hends⟩ := dPlane_endsShort (f := .tag) (width := 8) hd hu (hwaits hc)
      (fun _ => by rw [← hu.boundary.tokAt]) (by rw [hc]; nofun)
    exact ⟨u, hexec, hu.boundary.reader, hu.left, hpos, hpout, hends⟩
  | true =>
    obtain ⟨hexec, hpout, hends⟩ := dPlane_endsShort (f := .tag) (width := 8) hd hu (hfaults hc)
      (by rw [hc]; nofun) fun _ => rfl
    exact ⟨_, hexec, hu.boundary.reader.of_readerPart_eq rfl, hu.left, hpos, hpout, hends⟩

/-- A stream that ends in a field of a token. -/
theorem dPlane_shortToken {len : Arg} {s : State} {b₀ b₁ : Byte} {tokens : List Instr} {f : TokField}
    {rest : List Bool} (hr : ReaderInv s) (hd : s.derr = false) (hi : ∀ i ∈ tokens, IsToken i)
    (hlen : (tokenListBytes b₁ tokens).length + 2 < len.toNat)
    (hb : toRead s = byteBits b₀ ++ byteBits b₁ ++ tokenListBits tokens ++ bitsBefore f ++ rest)
    (hrest : rest.length < fieldWidth f) :
    ∃ t, exec (.dPlane 0 len) s = .next t ∧ ReaderInv t ∧ toRead t = rest ∧
      bitPos t = bitPos s + 16 + (tokenListBits tokens).length + (bitsBefore f).length ∧
      t.pout = s.pout ++ b₀ :: b₁ :: tokenListBytes b₁ tokens ∧ EndsShort s t f (fieldWidth f) := by
  obtain ⟨u, hu⟩ := consumes_stream hr hi hlen.le (hb.trans (List.append_assoc _ _ _))
  have hout := hu.moves.putsOut rfl
  have hcount : u.cxN.toNat = 0 + ((tokenListBytes b₁ tokens).length + 2) := hout.count
  have hcxLen : u.cxLen = len := hout.len
  have hpos : bitPos u = bitPos s + (16 + (tokenListBits tokens).length) := by
    rw [hu.pos, List.length_append, List.length_append, byteBits_length, byteBits_length]
    rfl
  obtain ⟨-, -, -, hshort⟩ := tokensEndEarly
  obtain ⟨t, hmove, hrt, hleft, hposu, hopen, hclosed⟩ := hshort u f rest hu.boundary.reader hu.boundary.activity
    (by omega) (by rw [hcxLen]; omega) (by rw [hu.boundary.tokAt, hu.left]; rfl) hrest
  rw [hu.boundary.tokAt] at hposu
  have hposu : bitPos t = bitPos u + (bitsBefore f).length := hposu
  obtain ⟨hexec, hpout, hends⟩ := dPlane_endsShort hd hu hmove hopen hclosed
  exact ⟨t, hexec, hrt, hleft, by omega, hpout, hends⟩

/-- Settles O39: the last move of any D_PLANE, and the streams that end early. -/
theorem dPlaneEndsAsItSays : Obligations.DPlaneEndsAsItSays :=
  ⟨fun _ _ => dPlane_trichotomy, fun _ _ _ _ => dPlane_shortSeed, fun _ _ _ _ _ _ _ => dPlane_shortToken⟩

end Sys2Proof.Machine
end

section
/-! The plane round trip (45_channel_decoder.md R239): the stream that E_PLANE writes for a plane is two seeds and
tokens that stand for the plane, so D_PLANE puts the plane out again. -/

namespace Sys2Proof.Machine

/-! ### The stream of a plane is tokens that stand for it -/

/-- `code` is the bits of tokens that stand for `bytes`, `last` being the byte before them. -/
def IsCodeOf (last : Byte) (bytes : List Byte) (code : List Bool) : Prop :=
  ∃ tokens : List Instr, (∀ i ∈ tokens, IsToken i) ∧ tokenListBits tokens = code ∧ tokenListBytes last tokens = bytes

theorem tokenListBytes_append {tokens more : List Instr} (h : ∀ i ∈ tokens, IsToken i) (last : Byte) :
    tokenListBytes last (tokens ++ more) =
      tokenListBytes last tokens ++ tokenListBytes ((tokenListBytes last tokens).getLastD last) more := by
  induction tokens generalizing last with
  | nil => rfl
  | cons i tokens ih =>
    obtain ⟨hi, htokens⟩ := List.forall_mem_cons.mp h
    rw [List.cons_append, tokenListBytes_cons hi, ih htokens, tokenListBytes_cons hi last tokens, getLastD_append,
      List.append_assoc]

theorem IsCodeOf.nil (last : Byte) : IsCodeOf last [] [] := ⟨[], List.forall_mem_nil _, rfl, rfl⟩

theorem IsCodeOf.append {last : Byte} {bytes bytes' : List Byte} {code code' : List Bool}
    (h : IsCodeOf last bytes code) (h' : IsCodeOf (bytes.getLastD last) bytes' code') :
    IsCodeOf last (bytes ++ bytes') (code ++ code') := by
  obtain ⟨tokens, hi, rfl, rfl⟩ := h
  obtain ⟨more, hmore, rfl, rfl⟩ := h'
  exact ⟨tokens ++ more, List.forall_mem_append.mpr ⟨hi, hmore⟩, List.flatMap_append, tokenListBytes_append hi last⟩

theorem isCodeOf_lit (last b : Byte) : IsCodeOf last [b] (litCode b) :=
  ⟨[.lit b], List.forall_mem_singleton.mpr ⟨rfl, .inl rfl⟩, List.append_nil _, rfl⟩

/-- A run of any count is one token, in the tier that R93 picks. -/
theorem isCodeOf_run (last : Byte) {n : Nat} (h1 : 1 ≤ n) (hn : n ≤ 65535) :
    IsCodeOf last (List.replicate n last) (runCode n) := by
  obtain ⟨i, hwf, henc, hcount⟩ := spellsCount_countCode h1 hn
  have hi : IsToken i := ⟨hwf, .inr (Option.isSome_of_eq_some hcount)⟩
  refine ⟨[i], List.forall_mem_singleton.mpr hi, ?_, tokenListBytes_run_alone hcount last⟩
  rw [tokenListBits_cons, henc]
  exact List.append_nil _

/-- A closed stretch is a run, a literal or nothing (R225). -/
theorem isCodeOf_stretch (last : Byte) {n : Nat} (hn : n ≤ 65535) :
    IsCodeOf last (List.replicate n last) (stretchCode last n) := by
  unfold stretchCode
  split_ifs with h2 h1
  · exact isCodeOf_run last (by omega) hn
  · rw [h1]
    exact isCodeOf_lit last last
  · obtain rfl : n = 0 := by omega
    exact .nil last

/-- The streaming compressor codes the bytes it has counted and those to come (R225). -/
theorem isCodeOf_streamTail (bytes : List Byte) (last : Byte) {run : Nat} (hrun : run < 65535) :
    IsCodeOf last (List.replicate run last ++ bytes) (streamTail last run bytes) := by
  induction bytes generalizing last run with
  | nil =>
    rw [List.append_nil]
    exact isCodeOf_stretch last hrun.le
  | cons b bytes ih =>
    rw [streamTail]
    split_ifs with hb hcap
    · rw [hb, List.append_cons, ← List.replicate_succ', hcap]
      have hrest := ih last (run := 0) (by omega)
      exact (isCodeOf_run last (by omega) le_rfl).append (by rwa [getLastD_replicate])
    · rw [hb, List.append_cons, ← List.replicate_succ']
      exact ih last (by omega)
    · have hrest := ih b (run := 0) (by omega)
      rw [List.append_cons]
      refine ((isCodeOf_stretch last hrun.le).append (isCodeOf_lit _ b)).append ?_
      rwa [getLastD_append]

/-! ### D_PLANE on that stream -/

/-- The stream of a plane is consumed by a D_PLANE of its length, which puts out the plane (R239). -/
theorem consumes_streamCode {plane : List Byte} {len : Arg} {s : State} {rest : List Bool} (hr : ReaderInv s)
    (hlen : plane.length = len.toNat) (hb : toRead s = streamCode plane ++ rest) :
    ∃ u, Consumes (streamCode plane) rest plane (startDecode len s) u := by
  have seeds (h : plane.length ≤ 2) : ∃ u, Consumes (streamCode plane) rest plane (startDecode len s) u := by
    rw [streamCode_of_length_le_two h] at hb ⊢
    exact consumes_seeds plane (startDecode_atBoundary len hr) (show 0 + plane.length ≤ 2 by omega)
      (show plane.length ≤ len.toNat - 0 by omega) hb
  match plane with
  | [] | [_] => exact seeds (by simp)
  | b₀ :: b₁ :: bytes =>
    obtain ⟨tokens, hi, hbits, hbytes⟩ := isCodeOf_streamTail bytes b₁ (run := 0) (by omega)
    have hbytes : tokenListBytes b₁ tokens = bytes := hbytes
    rw [streamCode, ← hbits] at hb ⊢
    rw [← hbytes] at hlen ⊢
    exact consumes_stream hr hi hlen.le hb

/-! ### The bytes of that stream -/

/-- The bytes that E_PLANE appends on an aligned writer, with any bytes held out behind the plane: the stream of the
plane, filled up to whole bytes (44_channel_encoder.md R210, R216). -/
theorem ePlane_appends {plane more : List Byte} {s t : State} (hw : WriterInv s) (hfree : s.bwFree = 0)
    (hpin : s.hPin = plane ++ more) (hlen : plane.length < 2 ^ 32)
    (hexec : exec (.ePlane 0 (BitVec.ofNat 32 plane.length)) s = .next t) :
    ∃ stream, t.sout = s.sout ++ stream ∧
      bitsOf stream = streamCode plane ++ padBits (streamCode plane).length := by
  obtain ⟨u, hu, -, hwritten, -⟩ := ePlaneWritesTheStream plane more s hw hpin hlen
  cases hu.symm.trans hexec
  have hgrows : s.sout <+: t.sout := by
    cases (exec_ePlane _ s).symm.trans hexec
    exact (startEncode_move _ _ s).grows
  obtain ⟨stream, hstream⟩ := hgrows
  refine ⟨stream, hstream.symm, ?_⟩
  have hbits := bitsOf_sout_of_padded hwritten
  rw [← hstream, bitsOf_append, written_eq_bitsOf_sout hfree, List.append_assoc] at hbits
  rw [List.append_cancel_left hbits, List.length_append, bitsOf_length, padBits_add]

/-- Settles O38: the bytes appended begin with the stream of the plane, which D_PLANE decodes; the closing align
discards the pad bits. -/
theorem planeRoundTrip : Obligations.PlaneRoundTrip := by
  intro plane more e e' d hw hfree hpin hlen hexec
  obtain ⟨stream, hsout, hbits⟩ := ePlane_appends hw hfree hpin hlen hexec
  refine ⟨stream, hsout, fun hr haligned hd hprefix => ?_⟩
  obtain ⟨after, hafter⟩ := hprefix
  have hread : toRead d = streamCode plane ++ (padBits (streamCode plane).length ++ bitsOf after) := by
    rw [toRead, haligned, ← hafter, bitsOf_append, hbits, List.append_assoc]
    rfl
  have hL : plane.length = (BitVec.ofNat 32 plane.length).toNat := by
    rw [BitVec.toNat_ofNat, Nat.mod_eq_of_lt hlen]
  obtain ⟨u, hu⟩ := consumes_streamCode hr hL hread
  obtain ⟨d', hexec', ha, hpout, hderr, hrd', hpos, -⟩ := dPlane_completes hd hu hL
  have hidx := hrd'.brIdx_eq
  have hleft := hrd'.brLeft_eq
  have hbytes : 8 * stream.length = (streamCode plane).length + (8 - (streamCode plane).length % 8) % 8 := by
    rw [← bitsOf_length, hbits, List.length_append, padBits, zeroBits_length]
  have hposd : bitPos d = 8 * d.brIdx := by
    rw [bitPos, haligned]
    rfl
  exact ⟨d', hexec', ha, hpout, hderr, BitVec.eq_of_toNat_eq (show d'.brLeft.toNat = 0 by omega), by omega⟩

end Sys2Proof.Machine
end

section
/-! The system commands E_CLR, D_CLR and RDSR (46_system_commands.md R250 to R252), and what a step runs: whose turn it
is, the command accepted from `cmd` (R253), the token a running D_PLANE fetches (45_channel_decoder.md R234). -/

namespace Sys2Proof.Machine

/-! ### E_CLR and D_CLR -/

/-- What E_CLR leaves of the two halves, and of what the host holds out, drives and has taken (R250). -/
theorem respond_clearEncoder_halves (s : State) :
    encHalf (respond .ok 0 (clearEncoder s)) = encHalf State.reset ∧
      decHalf (respond .ok 0 (clearEncoder s)) = decHalf s ∧
      hostSide (respond .ok 0 (clearEncoder s)) = hostSide s := ⟨rfl, rfl, rfl⟩

/-- What D_CLR leaves of the two halves, and of what the host holds out, drives and has taken (R251). -/
theorem respond_clearDecoder_halves (s : State) :
    decHalf (respond .ok 0 (clearDecoder s)) = decHalf State.reset ∧
      encHalf (respond .ok 0 (clearDecoder s)) = encHalf s ∧
      hostSide (respond .ok 0 (clearDecoder s)) = hostSide s := ⟨rfl, rfl, rfl⟩

theorem exec_eClr_zero (s : State) : exec (.eClr 0 0) s = .next (respond .ok 0 (clearEncoder s)) := rfl

/-- There is no check of `DERR` before D_CLR: it is the way out of the halted state (60_exceptions.md R269). -/
theorem exec_dClr_zero (s : State) : exec (.dClr 0 0) s = .next (respond .ok 0 (clearDecoder s)) := rfl

/-- Settles O48: both commands pass their field check in every state, and what they leave is read off the two halves. -/
theorem clearCommandsReset : Obligations.ClearCommandsReset := by
  intro s
  obtain ⟨hee, hed, heh⟩ := respond_clearEncoder_halves s
  obtain ⟨hdd, hde, hdh⟩ := respond_clearDecoder_halves s
  exact ⟨⟨_, exec_eClr_zero s, respond_activity _ _ _, hee, hed, heh, respond_seqBusy _ _ _⟩,
    ⟨_, exec_dClr_zero s, respond_activity _ _ _, hdd, hde, hdh, respond_seqBusy _ _ _⟩⟩

/-! ### RDSR -/

/-- RDSR of a number that names a register (R252). -/
theorem exec_rdsr_of_register {s : State} {k : Arg} {v : BitVec 32} (h : statusRegister s k = some v) :
    exec (.rdsr 0 k) s = .next (respond .ok v s) := by
  show execRdsr 0 k s = _
  rw [execRdsr, if_neg (by simp), h]

/-- A byte as a status register shows it: 24 zero bits above it (10_state.md R39 to R41). -/
theorem setWidth_byte (b : Byte) : b.setWidth 32 = (0 : BitVec 24) ++ b :=
  BitVec.setWidth_eq_append (by decide)

/-- Settles O50: each of the four numbers names its register, and the three byte registers are zero above the byte. -/
theorem rdsrReadsTheRegisters : Obligations.RdsrReadsTheRegisters := by
  intro s
  rw [← setWidth_byte s.bwAcc, ← setWidth_byte s.brCur, ← setWidth_byte s.cxLast]
  exact ⟨exec_rdsr_of_register (k := 0) rfl, exec_rdsr_of_register (k := 1) rfl, exec_rdsr_of_register (k := 2) rfl,
    exec_rdsr_of_register (k := 3) rfl⟩

/-! ### What a step runs -/

theorem step_of_block {s u : State} (h : turn s = .block u) : step s = sequencer exec u := by rw [step, h]

theorem step_of_host {s u : State} (h : turn s = .host u) : step s = .next u := by rw [step, h]

/-- A host without a script leaves the turn to the block (log entry 3). -/
theorem turn_of_nil {s : State} (h : s.hScript = []) : turn s = .block (portBeats s) := by rw [turn, h]

theorem turn_of_letBlockMove {s : State} {rest : List HostAct} (h : s.hScript = .letBlockMove :: rest) :
    turn s = .block (portBeats { s with hScript := rest }) := by rw [turn, h]

theorem turn_of_hostAct {s : State} {a : HostAct} {rest : List HostAct} (h : s.hScript = a :: rest)
    (ha : a ≠ .letBlockMove) : turn s = .host (hostAct a { s with hScript := rest }) := by
  rw [turn, h]
  cases a with
  | letBlockMove => exact absurd rfl ha
  | _ => rfl

/-- An idle sequencer executes the word held out on `cmd` in the state in which it has been accepted (R253). -/
theorem sequencer_accepts {u : State} {word : CmdWord} {rest : List CmdWord} (ha : u.activity = .idle)
    (hb : u.seqBusy = false) (hc : u.hCmd = word :: rest) :
    sequencer exec u = exec (decodeCommand word) (acceptCommand rest u) := by
  have hready : cmdReady u = true := by rw [cmdReady, hb]; rfl
  rw [sequencer, ha]
  show sequencerIdle exec u = _
  rw [sequencerIdle, hc]
  exact if_pos hready

/-- A running D_PLANE whose plane is not complete executes the token it fetches (45_channel_decoder.md R234). -/
theorem sequencer_fetched {u : State} {i : Instr} (ha : u.activity = .dPlane) (hn : u.cxN.toNat < u.cxLen.toNat)
    (hf : fetch u = .ok i) : sequencer exec u = exec i u :=
  (sequencer_dPlane ha).trans (expandWith_fetched hn hf)

/-- Settles O56: whose turn it is is read off the head of the script, and in the block's turn the sequencer executes
the word or the token that it finds. -/
theorem stepRunsWhatItFetches : Obligations.StepRunsWhatItFetches :=
  ⟨fun _ _ => ⟨step_of_block, step_of_host⟩, fun _ => turn_of_nil, fun _ _ => turn_of_letBlockMove,
    fun _ _ _ => turn_of_hostAct,
    fun _ _ _ _ hu ha hb hc => (step_of_block hu).trans (sequencer_accepts ha hb hc),
    fun _ _ _ hu ha hn hf => (step_of_block hu).trans (sequencer_fetched ha hn hf)⟩

end Sys2Proof.Machine
end

section
/-! How the work of a command ends, once its checks have passed (60_exceptions.md R264 to R268, R273, R275): where the
reads of a D_ command, a running D_PLANE and a running E_PLANE can leave the sequencer. -/

namespace Sys2Proof.Machine

/-! ### The faults a read can raise -/

/-- What a read raises is one of `sts`. -/
def Read.RaisesOnly {α : Type} (sts : List Status) : Read α → Prop
  | .raises st _ _ => st ∈ sts
  | .done _ _ | .waits _ | .pastEnd => True

theorem Read.RaisesOnly.andThen {α β : Type} {sts : List Status} {r : Read α} {k : α → State → Read β}
    (h : r.RaisesOnly sts) (hk : ∀ a t, (k a t).RaisesOnly sts) : (r.andThen k).RaisesOnly sts := by
  cases r with
  | done a t => exact hk a t
  | waits t => trivial
  | raises st info t => exact h
  | pastEnd => trivial

/-- What a read can raise at all is a fault (R264 to R267). -/
theorem Read.From.raisesOnly {α : Type} {s : State} {r : Read α} (h : r.From s) :
    r.RaisesOnly [.underrun, .badtag, .zerocount, .overrun] := by
  cases r with
  | raises st info t =>
    obtain ⟨-, hf⟩ := h
    show st ∈ [Status.underrun, .badtag, .zerocount, .overrun]
    cases st with
    | ok | illegal | badarg | halted => cases hf
    | underrun | badtag | zerocount | overrun => simp
  | _ => trivial

section raises
variable {sts : List Status} (hu : .underrun ∈ sts)
include hu

/-- `read_bits` raises only UNDERRUN (R264). -/
theorem readField_raisesOnly (c : Nat) (s : State) : (readField c s).RaisesOnly sts := by
  by_cases hc : c ≤ (toRead s).length
  · obtain ⟨t, ht, -⟩ := readField_enough hc
    rw [ht]
    trivial
  · rw [readField_short (by omega)]
    cases s.brClosed with
    | false => trivial
    | true => exact hu

theorem readAt_raisesOnly (f : TokField) (s : State) : (readAt f s).RaisesOnly sts := by
  have h := readField_raisesOnly hu (fieldWidth f) s
  unfold readAt
  cases hr : readField (fieldWidth f) s with
  | raises st info t =>
    rw [hr] at h
    exact h
  | _ => trivial

end raises

section counts
variable {sts : List Status} (hu : .underrun ∈ sts) (hz : .zerocount ∈ sts)
include hu hz

/-- An all-zero count raises ZEROCOUNT (R174, R266). -/
theorem decodeCountC16_raisesOnly (s : State) : (decodeCountC16 s).RaisesOnly sts :=
  (readAt_raisesOnly hu .c16 s).andThen fun v t => by
    split_ifs
    · trivial
    · exact hz

theorem decodeCountC8_raisesOnly (s : State) : (decodeCountC8 s).RaisesOnly sts :=
  (readAt_raisesOnly hu .c8 s).andThen fun v t => by
    split_ifs
    · trivial
    · exact decodeCountC16_raisesOnly hu hz t

theorem decodeCountC4_raisesOnly (s : State) : (decodeCountC4 s).RaisesOnly sts :=
  (readAt_raisesOnly hu .c4 s).andThen fun v t => by
    split_ifs
    · trivial
    · exact decodeCountC8_raisesOnly hu hz t

theorem decodeCount_raisesOnly (s : State) : (decodeCount s).RaisesOnly sts :=
  (readAt_raisesOnly hu .c2 s).andThen fun v t => by
    split_ifs
    · trivial
    · exact decodeCountC4_raisesOnly hu hz t

/-- `decode_count`, taken up at any field, raises only UNDERRUN and ZEROCOUNT (R173, R174). -/
theorem resumeCount_raisesOnly (s : State) : (resumeCount s).RaisesOnly sts := by
  unfold resumeCount
  cases s.tokAt with
  | tag | sample | c2 => exact decodeCount_raisesOnly hu hz s
  | c4 => exact decodeCountC4_raisesOnly hu hz s
  | c8 => exact decodeCountC8_raisesOnly hu hz s
  | c16 => exact decodeCountC16_raisesOnly hu hz s

end counts

/-- `read_token`, taken up at any field, never raises OVERRUN: it executes no token (R195, R267). -/
theorem resumeToken_raisesOnly (s : State) : (resumeToken s).RaisesOnly [.underrun, .badtag, .zerocount] := by
  have hu : Status.underrun ∈ [Status.underrun, .badtag, .zerocount] := by simp
  have hz : Status.zerocount ∈ [Status.underrun, .badtag, .zerocount] := by simp
  have sample (t : State) : (readTokenSample t).RaisesOnly [.underrun, .badtag, .zerocount] :=
    (readAt_raisesOnly hu .sample t).andThen fun _ _ => trivial
  have run {r : Read Nat} (h : r.RaisesOnly [.underrun, .badtag, .zerocount]) :
      (asRun r).RaisesOnly [.underrun, .badtag, .zerocount] := h.andThen fun _ _ => trivial
  unfold resumeToken
  cases s.tokAt with
  | tag =>
    refine (readAt_raisesOnly hu .tag s).andThen fun v t => ?_
    split_ifs
    · exact sample t
    · exact run (decodeCount_raisesOnly hu hz t)
    · show Status.badtag ∈ _
      simp
  | sample => exact sample s
  | c2 => exact run (decodeCount_raisesOnly hu hz s)
  | c4 => exact run (decodeCountC4_raisesOnly hu hz s)
  | c8 => exact run (decodeCountC8_raisesOnly hu hz s)
  | c16 => exact run (decodeCountC16_raisesOnly hu hz s)

/-! ### How a command that reads ends -/

/-- A command that reads waits, takes one of the faults its reads raise, or goes on with what it has read. -/
theorem toOutcome_ends {α : Type} {sts : List Status} {s t : State} {r : Read α}
    {k : α → State → Host.Outcome State Fault Refusal} (hr : r.From s) (hs : r.RaisesOnly sts)
    (h : r.toOutcome k = .next t) :
    t.activity = s.activity ∨ FaultedWith sts t ∨ ∃ a u, u.activity = s.activity ∧ k a u = .next t := by
  cases r with
  | done a u =>
    obtain ⟨n, hn⟩ := hr
    exact .inr (.inr ⟨a, u, hn.readerMove.activity, h⟩)
  | waits u =>
    obtain ⟨⟨n, hn⟩, -⟩ := hr
    cases h
    exact .inl hn.readerMove.activity
  | raises st info u =>
    cases h
    exact .inr (.inl ⟨st, hs, info, rfl⟩)
  | pastEnd => exact hr.elim

/-- How a command that reads a value and responds with it leaves the sequencer: still at `a`, with the value, or in one
of the faults `sts` (41_bit_reader.md R154; 60_exceptions.md R268). -/
def ReadEnds (a : Activity) (sts : List Status) (t : State) : Prop :=
  t.activity = a ∨ (∃ v, t.activity = .respond .ok v) ∨ FaultedWith sts t

theorem toOutcome_readEnds {α : Type} {sts : List Status} {s t : State} {r : Read α}
    {k : α → State → Host.Outcome State Fault Refusal} (hr : r.From s) (hs : r.RaisesOnly sts)
    (hk : ∀ a u, k a u = .next t → ∃ v, t.activity = .respond .ok v) (h : r.toOutcome k = .next t) :
    ReadEnds s.activity sts t := by
  rcases toOutcome_ends hr hs h with hwait | hfault | ⟨a, u, -, hku⟩
  · exact .inl hwait
  · exact .inr (.inr hfault)
  · exact .inr (.inl (hk a u hku))

theorem runRbits_ends {cnt : Cnt} {s t : State} (h : runRbits cnt s = .next t) :
    ReadEnds s.activity [.underrun] t :=
  toOutcome_readEnds (readField_from _ s) (readField_raisesOnly (by simp) _ s)
    (fun v _ hk => by cases hk; exact ⟨_, rfl⟩) h

theorem runCount_ends {s t : State} (h : runCount s = .next t) : ReadEnds s.activity [.underrun, .zerocount] t :=
  toOutcome_readEnds (resumeCount_from s) (resumeCount_raisesOnly (by simp) (by simp) s)
    (fun v _ hk => by cases hk; exact ⟨_, rfl⟩) h

theorem runToken_ends {s t : State} (h : runToken s = .next t) :
    ReadEnds s.activity [.underrun, .badtag, .zerocount] t :=
  toOutcome_readEnds (resumeToken_from s) (resumeToken_raisesOnly s)
    (fun v _ hk => by cases hk; exact ⟨_, rfl⟩) h

/-! ### How a D_PLANE ends -/

/-- How a running D_PLANE leaves the sequencer: still running, at its end, or in a fault (45_channel_decoder.md R235 to
R237). -/
def ExpanderEnds (t : State) : Prop :=
  t.activity = .dPlane ∨ t.activity = .drainPout .ok 0 ∨ FaultedWith [.underrun, .badtag, .zerocount, .overrun] t

theorem ExpanderEnds.faulted {st : Status} (hf : st ∈ [.underrun, .badtag, .zerocount, .overrun]) (info : Arg)
    (u : State) : ExpanderEnds (faultEntry st info u) := .inr (.inr ⟨st, hf, info, rfl⟩)

section expander
variable {s t : State} (ha : s.activity = .dPlane)
include ha

/-- A seed or token is read, waited for, or faults; what is left is what its execution does with it. -/
theorem toOutcome_expanderEnds {α : Type} {r : Read α} {k : α → State → Host.Outcome State Fault Refusal}
    (hr : r.From s) (hk : ∀ a u, u.activity = .dPlane → k a u = .next t → ExpanderEnds t)
    (h : r.toOutcome k = .next t) : ExpanderEnds t := by
  rcases toOutcome_ends hr hr.raisesOnly h with hwait | hfault | ⟨a, u, hu, hku⟩
  · exact .inl (hwait.trans ha)
  · exact .inr (.inr hfault)
  · exact hk a u (hu.trans ha) hku

theorem runOf_ends {fields : List TokField} {count : Nat} (h : runOf fields count s = .next t) : ExpanderEnds t :=
  toOutcome_expanderEnds ha (consumeToken_from fields s) (fun _ u hu hk => by
    split_ifs at hk <;> cases hk
    · exact .faulted (by simp) _ _
    · exact .inl ((emitLast_activity _ u).trans hu)) h

theorem illegal_ends {fields : List TokField} {st : Status} {info : Arg}
    (hf : st ∈ [.underrun, .badtag, .zerocount, .overrun])
    (h : ((consumeToken fields s).toOutcome fun _ u => .next (faultEntry st info u)) = .next t) : ExpanderEnds t :=
  toOutcome_expanderEnds ha (consumeToken_from fields s) (fun _ u _ hk => by cases hk; exact .faulted hf info u) h

theorem execWire_ends {i : Instr} (hi : i.isWire = true) (h : execWire i s = .next t) : ExpanderEnds t := by
  cases i with
  | seed b => exact toOutcome_expanderEnds ha (readField_from _ s) (fun _ u hu hk => by cases hk; exact .inl hu) h
  | lit b => exact toOutcome_expanderEnds ha (consumeToken_from _ s) (fun _ u hu hk => by cases hk; exact .inl hu) h
  | runT1 | runT2 | runT3 | runT4 => exact runOf_ends ha h
  | illegalTag00 | illegalTag11 | illegalZeroCount => exact illegal_ends ha (by simp) h
  | _ => cases hi

theorem fetchShort_ends {r : Reject} (h : fetchShort r s = .next t) : ExpanderEnds t := by
  cases r with
  | wideCommand => cases h
  | shortSeed => exact toOutcome_expanderEnds ha (readField_from _ s) (fun _ u hu hk => by cases hk; exact .inl hu) h
  | _ => exact toOutcome_expanderEnds ha (consumeToken_from _ s) (fun _ u hu hk => by cases hk; exact .inl hu) h

/-- One move of a running D_PLANE, from any state (R234, R236). -/
theorem expandWith_ends (h : expandWith execWire s = .next t) : ExpanderEnds t := by
  unfold expandWith at h
  split_ifs at h
  · split at h
    next i hi => exact execWire_ends ha (fetch_wire hi) h
    next r hr => exact fetchShort_ends ha h
  · cases h
    exact .inr (.inl rfl)

end expander

/-- However many moves a D_PLANE makes within its command (log entry 7). -/
theorem expandMoves_expanderEnds (fuel : Nat) {s t : State} (ha : s.activity = .dPlane)
    (h : expandMoves fuel s = .next t) : ExpanderEnds t := by
  induction fuel generalizing s with
  | zero =>
    cases h
    exact .inl ha
  | succ fuel ih =>
    unfold expandMoves at h
    split at h
    next u hu =>
      split_ifs at h with hgo
      · exact ih hgo.1 h
      · cases h
        exact expandWith_ends ha hu
    all_goals cases h

/-! ### How an E_PLANE ends -/

/-- How a running E_PLANE leaves the sequencer: still running, or at its end (44_channel_encoder.md R217, R218). -/
def CompressorEnds (t : State) : Prop := t.activity = .ePlane ∨ t.activity = .drainSout .ok 0

theorem compressStep_ends {s t : State} (h : compressStep s = some t) : CompressorEnds t := by
  have ha := activity_of_compressStep h
  cases compressStep_some h with
  | takes b rest _ _ ht => exact .inl (by rw [ht]; exact ha)
  | encodes _ he => exact .inl (by rw [he.frame]; exact ha)
  | flushes _ ht => exact .inr (by rw [ht]; rfl)

theorem runCompressor_ends {s t : State} (ha : s.activity = .ePlane) (h : runCompressor s = .next t) :
    CompressorEnds t := by
  unfold runCompressor at h
  split at h <;> cases h
  · exact .inl ha
  next hm => exact compressStep_ends hm

theorem startEncode_ends (fuel : Nat) (len : Arg) (s : State) :
    CompressorEnds (compressMoves fuel (startEncode len s)) :=
  compressMoves_keeps (fun _ _ _ h => compressStep_ends h) fuel (.inl rfl)

end Sys2Proof.Machine
end

section
/-! Every command is its checks in the order of 60_exceptions.md R270 (ILLEGAL, HALTED, BADARG), then its work; from
this the statements of R261 to R263, R273 and R275. -/

namespace Sys2Proof.Machine

/-! ### The checks and the work of an instruction -/

/-- A command that R261 makes ILLEGAL: a must-be-zero field that is not zero, or the reserved opcode. -/
def failsFieldCheck : Instr → Bool
  | .reservedOp0 _ _ => true
  | .eFlush cnt arg | .eGetb cnt arg | .eClr cnt arg => anyField cnt arg
  | .dAlign cnt arg | .dCount cnt arg | .dToken cnt arg | .dClr cnt arg => anyField cnt arg
  | .eCount cnt _ | .eLit cnt _ | .eRun cnt _ | .ePlane cnt _ | .dPlane cnt _ | .rdsr cnt _ => cnt ≠ 0
  | .dRbits _ arg => arg ≠ 0
  | .eWbits _ _ => false
  | .seed _ | .lit _ | .runT1 _ | .runT2 _ | .runT3 _ | .runT4 _ => false
  | .illegalTag00 | .illegalTag11 | .illegalZeroCount => false

/-- A command whose operand is out of the range of R262. -/
def failsRangeCheck : Instr → Bool
  | .eWbits cnt _ | .dRbits cnt _ => groupTooWide cnt
  | .eCount _ arg => badCount arg
  | .eRun _ arg => badRun arg
  | .rdsr _ arg => 3 < arg.toNat
  | .eFlush _ _ | .eGetb _ _ | .eLit _ _ | .ePlane _ _ | .eClr _ _ => false
  | .dAlign _ _ | .dCount _ _ | .dToken _ _ | .dPlane _ _ | .dClr _ _ | .reservedOp0 _ _ => false
  | .seed _ | .lit _ | .runT1 _ | .runT2 _ | .runT3 _ | .runT4 _ => false
  | .illegalTag00 | .illegalTag11 | .illegalZeroCount => false

/-- What an instruction does once its checks have passed; `exec_eq_checks` ties it to `exec`. -/
def execChecked (i : Instr) (s : State) : Host.Outcome State Fault Refusal :=
  match i with
  | .eWbits cnt arg => .next (respondAfterSout .ok 0 (writeBits arg cnt.toNat s))
  | .eFlush _ _ | .eGetb _ _ => .next (respondAfterSout .ok 0 (flush s))
  | .eCount _ arg => .next (respondAfterSout .ok 0 (encodeCount arg s))
  | .eLit _ arg => .next (respondAfterSout .ok 0 (emitLit arg s))
  | .eRun _ arg => .next (respondAfterSout .ok 0 (emitRun arg s))
  | .ePlane _ arg => .next (compressMoves (2 * arg.toNat + 1) (startEncode arg s))
  | .eClr _ _ => .next (respond .ok 0 (clearEncoder s))
  | .dRbits cnt _ => runRbits cnt { s with activity := .dRbits cnt }
  | .dAlign _ _ => .next (respond .ok 0 (align s))
  | .dCount _ _ => runCount { s with activity := .dCount, tokAt := .c2 }
  | .dToken _ _ => runToken { s with activity := .dToken, tokAt := .tag }
  | .dPlane _ arg => expandMoves (arg.toNat + 1) (startDecode arg s)
  | .dClr _ _ => .next (respond .ok 0 (clearDecoder s))
  | .rdsr _ arg => .next (respond .ok ((statusRegister s arg).getD 0) s)
  | .reservedOp0 _ _ => .next s
  | .seed _ | .lit _ | .runT1 _ | .runT2 _ | .runT3 _ | .runT4 _ => execWire i s
  | .illegalTag00 | .illegalTag11 | .illegalZeroCount => execWire i s

/-- Register numbers above 3, and only they, name no register (R252, R262). -/
theorem statusRegister_cases (s : State) (k : Arg) :
    (3 < k.toNat ∧ statusRegister s k = none) ∨ (k.toNat ≤ 3 ∧ ∃ v, statusRegister s k = some v) := by
  unfold statusRegister
  generalize k.toNat = n
  rcases n with _ | _ | _ | _ | n
  · exact .inr ⟨by omega, _, rfl⟩
  · exact .inr ⟨by omega, _, rfl⟩
  · exact .inr ⟨by omega, _, rfl⟩
  · exact .inr ⟨by omega, _, rfl⟩
  · exact .inl ⟨by omega, rfl⟩

/-- Every instruction: the checks, in the order of R270, then the work. -/
theorem exec_eq_checks (i : Instr) (s : State) : exec i s =
    if failsFieldCheck i then reject .illegal s
    else if haltsWithDerr i && s.derr then reject .halted s
    else if failsRangeCheck i then reject .badarg s
    else execChecked i s := by
  cases i with
  | eWbits | eFlush | eGetb | eClr | dAlign | dCount | dToken | dClr | reservedOp0 => rfl
  | eCount | eLit | eRun | ePlane | dRbits | dPlane => exact if_congr decide_eq_true_iff.symm rfl rfl
  | rdsr cnt arg =>
    refine if_congr decide_eq_true_iff.symm rfl ?_
    show _ = if decide (3 < arg.toNat) = true then _
      else Host.Outcome.next (respond .ok ((statusRegister s arg).getD 0) s)
    rcases statusRegister_cases s arg with ⟨hk, hv⟩ | ⟨hk, v, hv⟩ <;> rw [hv]
    · exact (if_pos (decide_eq_true hk)).symm
    · exact (if_neg (by simpa using hk)).symm
  | seed | lit | runT1 | runT2 | runT3 | runT4 | illegalTag00 | illegalTag11 | illegalZeroCount => rfl

/-! ### The rejections -/

theorem exec_of_illegal {i : Instr} (hi : failsFieldCheck i = true) (s : State) :
    exec i s = .next (respond .illegal 0 s) := by
  rw [exec_eq_checks, if_pos hi]
  rfl

theorem exec_of_halted {i : Instr} {s : State} (hi : failsFieldCheck i = false) (hh : haltsWithDerr i = true)
    (hd : s.derr = true) : exec i s = .next (respond .halted 0 s) := by
  rw [exec_eq_checks, if_neg (by simp [hi]), if_pos (by simp [hh, hd])]
  rfl

theorem exec_of_badarg {i : Instr} {s : State} (hi : failsFieldCheck i = false)
    (hh : ¬ (haltsWithDerr i = true ∧ s.derr = true)) (hb : failsRangeCheck i = true) :
    exec i s = .next (respond .badarg 0 s) := by
  rw [exec_eq_checks, if_neg (by simp [hi]), if_neg (by simpa using hh), if_pos hb]
  rfl

/-- What the execution of an instruction can lead to: one of the three rejections, or what it does past its checks. -/
inductive Answered (i : Instr) (s t : State) : Prop where
  | illegal (hi : failsFieldCheck i = true) (h : t = respond .illegal 0 s)
  | halted (hh : haltsWithDerr i = true) (hd : s.derr = true) (h : t = respond .halted 0 s)
  | badarg (hb : failsRangeCheck i = true) (h : t = respond .badarg 0 s)
  | worked (hi : failsFieldCheck i = false) (h : execChecked i s = .next t)

theorem exec_answered {i : Instr} {s t : State} (h : exec i s = .next t) : Answered i s t := by
  rw [exec_eq_checks] at h
  split_ifs at h with hi hh hb
  · cases h
    exact .illegal hi rfl
  · cases h
    obtain ⟨hh, hd⟩ := Bool.and_eq_true_iff.mp hh
    exact .halted hh hd rfl
  · cases h
    exact .badarg hb rfl
  · exact .worked (Bool.eq_false_of_not_eq_true hi) h

/-! ### The checks, read off the command word -/

/-- Exactly the words of R261 fail the check of their fields. -/
theorem illegalWord_iff (word : CmdWord) : illegalWord word ↔ failsFieldCheck (decodeCommand word) = true := by
  have hw := encode_decodeCommand word
  generalize decodeCommand word = i at hw
  cases i with
  | seed | lit | runT1 | runT2 | runT3 | runT4 | illegalTag00 | illegalTag11 | illegalZeroCount => cases hw
  | _ =>
    cases hw
    simp [illegalWord, failsFieldCheck, anyField]

/-- Exactly the words of R263 are commands that the halted half rejects. -/
theorem haltableWord_iff (word : CmdWord) : haltableWord word ↔ haltsWithDerr (decodeCommand word) = true := by
  have hw := encode_decodeCommand word
  generalize decodeCommand word = i at hw
  cases i with
  | seed | lit | runT1 | runT2 | runT3 | runT4 | illegalTag00 | illegalTag11 | illegalZeroCount => cases hw
  | _ =>
    cases hw
    simp [haltableWord, haltsWithDerr]

/-- Exactly the words of the table of R262 fail the check of their range. -/
theorem badargWord_iff (word : CmdWord) : badargWord word ↔ failsRangeCheck (decodeCommand word) = true := by
  have hw := encode_decodeCommand word
  generalize decodeCommand word = i at hw
  cases i with
  | seed | lit | runT1 | runT2 | runT3 | runT4 | illegalTag00 | illegalTag11 | illegalZeroCount => cases hw
  | _ =>
    cases hw
    simp [badargWord, failsRangeCheck, groupTooWide, badCount, badRun]

/-! ### The outcomes of the table -/

/-- Past its checks a command leaves the sequencer where its row of R275 says, and no response it presents is a
rejection. -/
structure LeavesUnrejected (i : Instr) (a : Activity) : Prop where
  leaves : mayLeave i a = true
  ok : ∀ st val, a = .respond st val → st = .ok

theorem LeavesUnrejected.responds {i : Instr} {val : Arg} (h : mayLeave i (.respond .ok val) = true) :
    LeavesUnrejected i (.respond .ok val) where
  leaves := h
  ok st val' heq := by
    cases heq
    rfl

/-- A command that reads, if its row allows its wait, its value and its faults. -/
theorem ReadEnds.leavesUnrejected {i : Instr} {a : Activity} {sts : List Status} {t : State} (h : ReadEnds a sts t)
    (ha : LeavesUnrejected i a) (hv : ∀ v, mayLeave i (.respond .ok v) = true)
    (hf : ∀ st ∈ sts, ∀ info, mayLeave i (.drainPout st info) = true) : LeavesUnrejected i t.activity := by
  rcases h with ht | ⟨v, ht⟩ | ⟨st, hst, info, ht⟩ <;> rw [ht]
  · exact ha
  · exact .responds (hv v)
  · exact ⟨hf st hst info, nofun⟩

theorem ExpanderEnds.leavesUnrejected {cnt : Cnt} {arg : Arg} {t : State} (h : ExpanderEnds t) :
    LeavesUnrejected (.dPlane cnt arg) t.activity := by
  rcases h with ht | ht | ⟨st, hst, info, ht⟩ <;> rw [ht]
  · exact ⟨rfl, nofun⟩
  · exact ⟨rfl, nofun⟩
  · refine ⟨?_, nofun⟩
    simp only [List.mem_cons, List.not_mem_nil, or_false] at hst
    rcases hst with rfl | rfl | rfl | rfl <;> rfl

theorem CompressorEnds.leavesUnrejected {cnt : Cnt} {arg : Arg} {t : State} (h : CompressorEnds t) :
    LeavesUnrejected (.ePlane cnt arg) t.activity := by
  rcases h with ht | ht <;> rw [ht] <;> exact ⟨rfl, nofun⟩

theorem execChecked_leaves {i : Instr} {s t : State} (hw : i.isWire = false) (hi : failsFieldCheck i = false)
    (h : execChecked i s = .next t) : LeavesUnrejected i t.activity := by
  cases i with
  | seed | lit | runT1 | runT2 | runT3 | runT4 | illegalTag00 | illegalTag11 | illegalZeroCount => cases hw
  | eWbits | eFlush | eGetb | eCount | eLit | eRun =>
    rw [← Host.Outcome.next.inj h, respondAfterSout_activity]
    exact ⟨rfl, nofun⟩
  | ePlane cnt arg =>
    cases h
    exact (startEncode_ends _ arg s).leavesUnrejected
  | eClr | dAlign | dClr | rdsr =>
    cases h
    exact .responds rfl
  | dRbits cnt arg =>
    refine (runRbits_ends h).leavesUnrejected ⟨rfl, nofun⟩ (fun _ => rfl) fun st hst info => ?_
    cases List.mem_singleton.mp hst
    rfl
  | dCount cnt arg =>
    refine (runCount_ends h).leavesUnrejected ⟨rfl, nofun⟩ (fun _ => rfl) fun st hst info => ?_
    simp only [List.mem_cons, List.not_mem_nil, or_false] at hst
    rcases hst with rfl | rfl <;> rfl
  | dToken cnt arg =>
    refine (runToken_ends h).leavesUnrejected ⟨rfl, nofun⟩ (fun _ => rfl) fun st hst info => ?_
    simp only [List.mem_cons, List.not_mem_nil, or_false] at hst
    rcases hst with rfl | rfl | rfl <;> rfl
  | dPlane cnt arg => exact (expandMoves_expanderEnds _ rfl h).leavesUnrejected
  | reservedOp0 => cases hi

/-- A response past the checks is no rejection, so a command that is rejected has failed the check of that rejection
(R260, R270). -/
theorem exec_rejected {i : Instr} {s t : State} {st : Status} {val : Arg} (hw : i.isWire = false)
    (h : exec i s = .next t) (ht : t.activity = .respond st val) :
    st = .ok ∨ (st = .illegal ∧ failsFieldCheck i = true) ∨
      (st = .halted ∧ haltsWithDerr i = true ∧ s.derr = true) ∨ (st = .badarg ∧ failsRangeCheck i = true) := by
  cases exec_answered h with
  | illegal hi heq =>
    cases heq
    cases ht
    exact .inr (.inl ⟨rfl, hi⟩)
  | halted hh hd heq =>
    cases heq
    cases ht
    exact .inr (.inr (.inl ⟨rfl, hh, hd⟩))
  | badarg hb heq =>
    cases heq
    cases ht
    exact .inr (.inr (.inr ⟨rfl, hb⟩))
  | worked hi hwork => exact .inl ((execChecked_leaves hw hi hwork).ok st val ht)

/-- Settles O42: the check of the fields is the first, and a response ILLEGAL comes from nowhere else. -/
theorem illegalCommandsAreRejected : Obligations.IllegalCommandsAreRejected := by
  refine ⟨rfl, fun word s => ⟨fun hi => exec_of_illegal ((illegalWord_iff word).mp hi) s, fun hn t val h ht => ?_⟩⟩
  rcases exec_rejected (decodeCommand_not_wire word) h ht with hok | ⟨-, hi⟩ | ⟨hst, -⟩ | ⟨hst, -⟩
  · cases hok
  · exact hn ((illegalWord_iff word).mpr hi)
  · cases hst
  · cases hst

theorem failsFieldCheck_eq_false {word : CmdWord} (h : ¬ illegalWord word) :
    failsFieldCheck (decodeCommand word) = false := by
  rw [illegalWord_iff] at h
  exact Bool.eq_false_of_not_eq_true h

/-- Settles O43: past the check of the fields comes the check of `DERR`, before the one of the range, and a response
HALTED comes from nowhere else. -/
theorem haltedCommandsAreRejected : Obligations.HaltedCommandsAreRejected := by
  refine ⟨rfl, fun word s hn => ⟨fun hh hd => ?_, fun hnot t val h ht => ?_⟩⟩
  · exact exec_of_halted (failsFieldCheck_eq_false hn) ((haltableWord_iff word).mp hh) hd
  · rcases exec_rejected (decodeCommand_not_wire word) h ht with hok | ⟨hst, -⟩ | ⟨-, hh, hd⟩ | ⟨hst, -⟩
    · cases hok
    · cases hst
    · exact hnot ⟨(haltableWord_iff word).mpr hh, hd⟩
    · cases hst

/-- Settles O44: the check of the range is the last, and a response BADARG comes from nowhere else. -/
theorem badArgumentsAreRejected : Obligations.BadArgumentsAreRejected := by
  refine ⟨rfl, fun word s hn hnh => ⟨fun hb => ?_, fun hnb t val h ht => ?_⟩⟩
  · rw [haltableWord_iff] at hnh
    exact exec_of_badarg (failsFieldCheck_eq_false hn) hnh ((badargWord_iff word).mp hb)
  · rcases exec_rejected (decodeCommand_not_wire word) h ht with hok | ⟨hst, -⟩ | ⟨hst, -⟩ | ⟨-, hb⟩
    · cases hok
    · cases hst
    · cases hst
    · exact hnb ((badargWord_iff word).mpr hb)

/-- The row of R275 of a command whose fields are checked has the mark of ILLEGAL. -/
theorem mayLeave_illegal {i : Instr} (val : Arg) (h : failsFieldCheck i = true) :
    mayLeave i (.respond .illegal val) = true := by
  cases i with
  | seed | lit | runT1 | runT2 | runT3 | runT4 | illegalTag00 | illegalTag11 | illegalZeroCount | eWbits => cases h
  | _ => rfl

/-- The row of R275 of a command that the halted half rejects has the mark of HALTED. -/
theorem mayLeave_halted {i : Instr} (val : Arg) (h : haltsWithDerr i = true) :
    mayLeave i (.respond .halted val) = true := by
  cases i with
  | dRbits | dAlign | dCount | dToken | dPlane => rfl
  | _ => cases h

/-- The row of R275 of a command whose range is checked has the mark of BADARG. -/
theorem mayLeave_badarg {i : Instr} (val : Arg) (h : failsRangeCheck i = true) :
    mayLeave i (.respond .badarg val) = true := by
  cases i with
  | eWbits | dRbits | eCount | eRun | rdsr => rfl
  | _ => cases h

theorem exec_mayLeave {i : Instr} {s t : State} (hw : i.isWire = false) (h : exec i s = .next t) :
    mayLeave i t.activity = true := by
  cases exec_answered h with
  | illegal hi heq =>
    cases heq
    exact mayLeave_illegal 0 hi
  | halted hh hd heq =>
    cases heq
    exact mayLeave_halted 0 hh
  | badarg hb heq =>
    cases heq
    exact mayLeave_badarg 0 hb
  | worked hi hwork => exact (execChecked_leaves hw hi hwork).leaves

theorem sequencer_dRbits {cnt : Cnt} {s : State} (h : s.activity = .dRbits cnt) :
    sequencer exec s = runRbits cnt s := by
  rw [sequencer, h]

/-- Settles O45: a command is rejected or does its work, and a move of the sequencer takes the work up where it
waited. -/
theorem outcomesOfTheTable : Obligations.OutcomesOfTheTable := by
  refine ⟨fun i s t hw h => exec_mayLeave hw h, fun s t h => ⟨fun ha => ?_, fun cnt ha => ?_, fun ha => ?_, fun ha => ?_,
    fun ha => ?_⟩⟩
  · exact runCompressor_ends ha (sequencer_ePlane ha ▸ h)
  · exact ha ▸ runRbits_ends (sequencer_dRbits ha ▸ h)
  · exact ha ▸ runCount_ends (sequencer_dCount ha ▸ h)
  · exact ha ▸ runToken_ends (sequencer_dToken ha ▸ h)
  · exact expandWith_ends ha (sequencer_dPlane ha ▸ h)

/-! ### The encoder half -/

/-- How an E_ command ends: in its own half, running, delivering, or with a response that is no fault (R273). -/
structure EncoderEnds (s t : State) : Prop where
  frame : OnlyEncoder s { t with soutTaken := s.soutTaken }
  ends : t.activity = .ePlane ∨ t.activity = .drainSout .ok 0 ∨ t.activity = .respond .ok 0 ∨
    t.activity = .respond .illegal 0 ∨ t.activity = .respond .badarg 0

/-- Writing, then waiting for `SOUT` to be taken. -/
theorem encoderEnds_of_onlyWriter {s u : State} (h : OnlyWriter s u) : EncoderEnds s (respondAfterSout .ok 0 u) where
  frame := by
    rw [h]
    rfl
  ends := .inr (.inl rfl)

theorem execChecked_encoderEnds {i : Instr} (hi : isEncoderCommand i = true) (s : State) :
    ∃ t, execChecked i s = .next t ∧ EncoderEnds s t := by
  cases i with
  | eWbits cnt arg => exact ⟨_, rfl, encoderEnds_of_onlyWriter (writeBits_only arg cnt.toNat s)⟩
  | eFlush | eGetb => exact ⟨_, rfl, encoderEnds_of_onlyWriter (flush_only s)⟩
  | eCount cnt arg => exact ⟨_, rfl, encoderEnds_of_onlyWriter (encodeCount_only arg s)⟩
  | eLit cnt arg => exact ⟨_, rfl, encoderEnds_of_onlyWriter (emitLit_only arg s)⟩
  | eRun cnt arg => exact ⟨_, rfl, encoderEnds_of_onlyWriter (emitRun_only arg s)⟩
  | ePlane cnt arg =>
    refine ⟨_, rfl, ?_, ?_⟩
    · rw [(startEncode_move _ arg s).frame]
      rfl
    · exact (startEncode_ends _ arg s).imp_right .inl
  | eClr => exact ⟨_, rfl, rfl, .inr (.inr (.inl rfl))⟩
  | _ => cases hi

/-- No E_ command is stopped by `DERR` (R263). -/
theorem haltsWithDerr_of_encoder {i : Instr} (hi : isEncoderCommand i = true) : haltsWithDerr i = false := by
  cases i with
  | eWbits | eFlush | eGetb | eCount | eLit | eRun | ePlane | eClr => rfl
  | _ => cases hi

/-- Settles O19: an E_ command is rejected, which leaves both halves alone, or does its work in its own half; the check
of `DERR` is not one of its checks. -/
theorem encoderNeverFaults : Obligations.EncoderNeverFaults := by
  intro i s hi
  obtain ⟨u, hu, hframe, hends⟩ := execChecked_encoderEnds hi s
  rw [exec_eq_checks, haltsWithDerr_of_encoder hi]
  split_ifs with h1 h2 h3
  · exact ⟨_, rfl, rfl, .inr (.inr (.inr (.inl rfl)))⟩
  · cases h2
  · exact ⟨_, rfl, rfl, .inr (.inr (.inr (.inr rfl)))⟩
  · exact ⟨u, hu, hframe, hends⟩

/-! ### Delivery and response -/

theorem sequencer_drainPout {st : Status} {val : Arg} {s : State} (h : s.activity = .drainPout st val) :
    sequencer exec s = awaitPout st val s := by
  rw [sequencer, h]

theorem sequencer_drainSout {st : Status} {val : Arg} {s : State} (h : s.activity = .drainSout st val) :
    sequencer exec s = awaitSout st val s := by
  rw [sequencer, h]

theorem sequencer_respond {st : Status} {val : Arg} {s : State} (h : s.activity = .respond st val) :
    sequencer exec s = awaitRsp st val s := by
  rw [sequencer, h]

/-- Settles O46: the sequencer stands at one of the three waits, and each goes on exactly when what it waits for has
happened. -/
theorem faultEntryThenDelivery : Obligations.FaultEntryThenDelivery := by
  refine ⟨fun _ _ _ => rfl, fun st info s ha => ?_, fun st val s ha => ?_, fun st val s ha => ?_⟩
  · rw [sequencer_drainPout ha]
    exact ⟨fun h => if_neg (Nat.not_le_of_lt h), fun h => if_pos h⟩
  · rw [sequencer_drainSout ha]
    exact ⟨fun h => if_neg (Nat.not_le_of_lt h), fun h => if_pos h⟩
  · rw [sequencer_respond ha]
    exact ⟨fun h => if_neg (by simp [h]), fun h => if_pos h⟩

end Sys2Proof.Machine
end
